-- ==== Sys2Proof/Word.lean ====
section
/-! DEFINITION. Words and the operand records of the part's commands. -/

namespace Sys2Proof

/-- One byte of a link or of a device line. -/
abbrev Byte := BitVec 8

/-- A count of 10 µs ticks of the Hill Clock, modulo 2^32 (00, "Hill time"). -/
abbrev HillTime := BitVec 32

/-- The two serial message links (09, R175). -/
inductive LinkId where
  | control | console
  deriving DecidableEq, Repr

/-- The three light barriers of the in-run (06, R101). -/
inductive Barrier where
  | a | b | takeoff
  deriving DecidableEq, Repr

/-- The two barriers of the speed trap (06, R104). -/
inductive TrapBarrier where
  | a | b
  deriving DecidableEq, Repr

/-- A frame as a device line brings it: the hill time of its first byte, and its bytes (R74, R114, R166; log 32). -/
structure LineFrame where
  began : HillTime
  bytes : List Byte
  deriving DecidableEq, Repr

/-- The levels the contact inputs show when a reset is carried out (03 R64, 06 R123). -/
structure InputLevels where
  barOpen : Bool
  brokenA : Bool
  brokenB : Bool
  brokenT : Bool
  deriving DecidableEq, Repr

/-- The twelve fields of HILL, in the order of their numbers (02, R26). -/
structure HillFields where
  kPoint : Nat
  hillSize : Nat
  basePoints : Nat
  metreValue : Nat
  gateFactor : Nat
  headFactor : Nat
  tailFactor : Nat
  threshold : Nat
  lowest : Nat
  highest : Nat
  mode : Nat
  fixedGate : Nat
  deriving DecidableEq, Repr

/-- The fields of STN beside its index and action (04, R66). -/
structure StnFields where
  address : Nat
  sector : Nat
  axis : Nat
  member : Bool
  enabled : Bool
  deriving DecidableEq, Repr

/-- The fields of SCAN beside its mode (04, R70). -/
structure ScanFields where
  period : Nat
  silent : Nat
  clear : Nat
  entries : List Nat
  deriving DecidableEq, Repr

/-- The fields of CORR (05, R96). -/
structure CorrFields where
  lower : Int
  upper : Int
  lengthMs : Nat
  declare : Nat
  clear : Nat
  deriving DecidableEq, Repr

/-- The seven settings of TIMS, in the order of their numbers (03, R63). -/
structure TimsFields where
  countdown : Nat
  resumeMin : Nat
  clearance : Nat
  inrun : Nat
  landing : Nat
  pairing : Nat
  spread : Nat
  deriving DecidableEq, Repr

/-- The fields of UNIT beside its index and action (06, R110). -/
structure UnitFields where
  address : Nat
  firstMark : Nat
  orientation : Nat
  deriving DecidableEq, Repr

/-- The fields of PANL beside its index and action (08, R146). -/
structure PanlFields where
  address : Nat
  rows : Nat
  columns : Nat
  rights : Nat
  enabled : Nat
  period : Nat
  deriving DecidableEq, Repr

/-- The fields of FLD beside its index and action (08, R153). -/
structure FldFields where
  panel : Nat
  row : Nat
  column : Nat
  width : Nat
  align : Nat
  fill : Nat
  item : Nat
  view : Nat
  deriving DecidableEq, Repr

end Sys2Proof
end

