-- ==== Sys2Proof/Syntax.lean ====
section
/-! DEFINITION. The commands of the part: one constructor per row of spec/opcode_table.json.
`now` is the hill time at which the command is taken (log 1). -/

namespace Sys2Proof

/-- A command: a request taken, an edge, a line frame, a timer event, a frame end or a reset. -/
inductive Instr where
  /-- FRAME_ARRIVAL (R171): the bytes that end a link frame, the last one its second check byte. -/
  | frameArrival (now : HillTime) (link : LinkId) (bytes : List Byte)
  /-- LINK_GAP_TIMEOUT (R171). -/
  | linkGapTimeout (now : HillTime) (link : LinkId)
  /-- REQUEST_UNKNOWN_TYPE (R174): a good frame whose type code names no request. -/
  | requestUnknownType (now : HillTime) (link : LinkId) (type tag : Byte) (body : List Byte)
  /-- FRAME_SENT (R177). -/
  | frameSent (now : HillTime) (link : LinkId)
  /-- HILL (R27). -/
  | hill (now : HillTime) (link : LinkId) (tag : Byte) (f : HillFields)
  /-- SECT (R35): the count and the six entries of start and weight. -/
  | sect (now : HillTime) (link : LinkId) (tag : Byte) (count : Nat) (entries : List (Nat × Nat))
  /-- STN_CONFIGURE (R67). -/
  | stnConfigure (now : HillTime) (link : LinkId) (tag : Byte) (index : Nat) (f : StnFields)
  /-- STN_UPDATE (R68). -/
  | stnUpdate (now : HillTime) (link : LinkId) (tag : Byte) (index : Nat) (f : StnFields)
  /-- STN_REMOVE (R67). -/
  | stnRemove (now : HillTime) (link : LinkId) (tag : Byte) (index : Nat) (f : StnFields)
  /-- SCAN_REPLACE (R70). -/
  | scanReplace (now : HillTime) (link : LinkId) (tag : Byte) (f : ScanFields)
  /-- SCAN_ADD (R70). -/
  | scanAdd (now : HillTime) (link : LinkId) (tag : Byte) (f : ScanFields)
  /-- SCAN_KEEP (R70). -/
  | scanKeep (now : HillTime) (link : LinkId) (tag : Byte) (f : ScanFields)
  /-- CORR (R97). -/
  | corr (now : HillTime) (link : LinkId) (tag : Byte) (f : CorrFields)
  /-- TIMS (R63). -/
  | tims (now : HillTime) (link : LinkId) (tag : Byte) (f : TimsFields)
  /-- UNIT_CONFIGURE (R111). -/
  | unitConfigure (now : HillTime) (link : LinkId) (tag : Byte) (index : Nat) (f : UnitFields)
  /-- UNIT_REMOVE (R111). -/
  | unitRemove (now : HillTime) (link : LinkId) (tag : Byte) (index : Nat) (f : UnitFields)
  /-- BASE (R113). -/
  | base (now : HillTime) (link : LinkId) (tag : Byte) (value : Nat)
  /-- TRAP (R105). -/
  | trap (now : HillTime) (link : LinkId) (tag : Byte) (value : Nat)
  /-- PANL_CONFIGURE (R147). -/
  | panlConfigure (now : HillTime) (link : LinkId) (tag : Byte) (index : Nat) (f : PanlFields)
  /-- PANL_UPDATE (R148). -/
  | panlUpdate (now : HillTime) (link : LinkId) (tag : Byte) (index : Nat) (f : PanlFields)
  /-- PANL_REMOVE (R147). -/
  | panlRemove (now : HillTime) (link : LinkId) (tag : Byte) (index : Nat) (f : PanlFields)
  /-- PANL_PERIOD (R162). -/
  | panlPeriod (now : HillTime) (link : LinkId) (tag : Byte) (index : Nat) (f : PanlFields)
  /-- FLD_SET (R154). -/
  | fldSet (now : HillTime) (link : LinkId) (tag : Byte) (index : Nat) (f : FldFields)
  /-- FLD_CLEAR (R154). -/
  | fldClear (now : HillTime) (link : LinkId) (tag : Byte) (index : Nat) (f : FldFields)
  /-- OPEN (R3). -/
  | openRound (now : HillTime) (link : LinkId) (tag : Byte)
  /-- SHUT (R4). -/
  | shutRound (now : HillTime) (link : LinkId) (tag : Byte)
  /-- LIST (R7): the CLEAR option and the bibs. -/
  | list (now : HillTime) (link : LinkId) (tag : Byte) (clear : Bool) (bibs : List Nat)
  /-- DROP (R8). -/
  | drop (now : HillTime) (link : LinkId) (tag : Byte) (bib : Nat)
  /-- INIT (R181). -/
  | init (now : HillTime) (link : LinkId) (tag : Byte)
  /-- INIT_RESET (R181). -/
  | initReset (now : HillTime)
  /-- POWER_ON_RESET (R182): the hold ends, the contacts showing `levels`. -/
  | powerOnReset (levels : InputLevels)
  /-- RESET_PIN (R182): the RESET input is released, the contacts showing `levels`. -/
  | resetPin (levels : InputLevels)
  /-- RELS (R48): the jump number and the OVERRIDE mark. -/
  | rels (now : HillTime) (link : LinkId) (tag : Byte) (jump : Nat) (override : Bool)
  /-- HOLD (R51). -/
  | hold (now : HillTime) (link : LinkId) (tag : Byte) (jump : Nat)
  /-- GATE (R59). -/
  | gate (now : HillTime) (link : LinkId) (tag : Byte) (gate : Nat)
  /-- RDUC (R62). -/
  | rduc (now : HillTime) (link : LinkId) (tag : Byte) (jump gate : Nat)
  /-- CALL (R14): the bib, or none for the head of the list. -/
  | call (now : HillTime) (link : LinkId) (tag : Byte) (bib : Option Nat)
  /-- VOID (R19): the jump number and the REQUEUE option. -/
  | void (now : HillTime) (link : LinkId) (tag : Byte) (jump : Nat) (requeue : Bool)
  /-- CONF (R128): the jump number and the distance, none for AS_PROPOSED. -/
  | conf (now : HillTime) (link : LinkId) (tag : Byte) (jump : Nat) (distance : Option Nat)
  /-- REVW (R131). -/
  | revw (now : HillTime) (link : LinkId) (tag : Byte) (jump : Nat)
  /-- AMND (R133). -/
  | amnd (now : HillTime) (link : LinkId) (tag : Byte) (jump distance : Nat)
  /-- PAGE (R151). -/
  | page (now : HillTime) (link : LinkId) (tag : Byte) (panel row column : Nat) (chars : List Byte)
  /-- CELL (R161). -/
  | cell (now : HillTime) (link : LinkId) (tag : Byte) (panel row column count : Nat)
  /-- JUMP (R24). -/
  | jump (now : HillTime) (link : LinkId) (tag : Byte) (jump : Nat)
  /-- WIND (R88). -/
  | wind (now : HillTime) (link : LinkId) (tag : Byte)
  /-- TRCE (R87). -/
  | trce (now : HillTime) (link : LinkId) (tag : Byte) (jump start : Nat)
  /-- STAT (R180). -/
  | stat (now : HillTime) (link : LinkId) (tag : Byte)
  /-- CLEARANCE_EXPIRY (R18). -/
  | clearanceExpiry (now : HillTime)
  /-- FLASH_BOUNDARY (R44). -/
  | flashBoundary (now : HillTime)
  /-- FLASH_CADENCE (R41). -/
  | flashCadence (now : HillTime)
  /-- COUNTDOWN_EXPIRY (R45). -/
  | countdownExpiry (now : HillTime)
  /-- START_BAR_EDGE (R54): the contact opens, or closes. -/
  | startBarEdge (now : HillTime) (opens : Bool)
  /-- DEPARTURE (R55): the debounce of the start bar completes. -/
  | departure (now : HillTime)
  /-- BARRIER_INPUT_EDGE (R101): the beam is interrupted, or clears. -/
  | barrierInputEdge (now : HillTime) (barrier : Barrier) (interrupts : Bool)
  /-- SPEED_TRAP_EDGE (R104): the debounce of barrier A or B completes. -/
  | speedTrapEdge (now : HillTime) (barrier : TrapBarrier)
  /-- TAKEOFF (R107): the debounce of the take-off barrier completes. -/
  | takeoff (now : HillTime)
  /-- INRUN_LIMIT_EXPIRY (R106). -/
  | inrunLimitExpiry (now : HillTime)
  /-- LANDING_LIMIT_EXPIRY (R120). -/
  | landingLimitExpiry (now : HillTime)
  /-- STRIP_SLOT_END (R114). -/
  | stripSlotEnd (now : HillTime)
  /-- STRIP_ANSWER (R115): the frame, its last byte received at `now` (log 32). -/
  | stripAnswer (now : HillTime) (frame : LineFrame)
  /-- PROPOSAL_MOMENT (R119). -/
  | proposalMoment (now : HillTime)
  /-- SCAN_TICK (R71). -/
  | scanTick (now : HillTime)
  /-- STATION_SLOT_END (R74). -/
  | stationSlotEnd (now : HillTime)
  /-- STATION_ANSWER (R75): the frame, its last byte received at `now` (log 32). -/
  | stationAnswer (now : HillTime) (frame : LineFrame)
  /-- WINDOW_END (R92). -/
  | windowEnd (now : HillTime)
  /-- COUNTDOWN_SECOND_STEP (R156). -/
  | countdownSecondStep (now : HillTime)
  /-- REFRESH_EXPIRY (R162). -/
  | refreshExpiry (now : HillTime)
  /-- PROBE_DUE (R163). -/
  | probeDue (now : HillTime)
  /-- ROW_FRAME_END (R165). -/
  | rowFrameEnd (now : HillTime)
  /-- ACKNOWLEDGEMENT (R166): the frame, its last byte received at `now` (log 32). -/
  | acknowledgement (now : HillTime) (frame : LineFrame)
  /-- ACK_WINDOW_END (R166). -/
  | ackWindowEnd (now : HillTime)
  /-- LINK_BYTE_RECEIVED (R170). -/
  | linkByteReceived (now : HillTime) (link : LinkId) (byte : Byte)
  /-- RESET_HOLD (R182): the RESET input is asserted or the supply fails. -/
  | resetHold
  deriving DecidableEq, Repr

end Sys2Proof
end

