-- ==== Sys2Proof/Machine/Types.lean ====
section
/-! DEFINITION. The state of the part's blocks as plain data, block by block, with each block's values after a reset. -/

namespace Sys2Proof.Machine

/-- The 24 result codes in the order of the table of section 9.4. -/
inductive ResultCode where
  | ok | linkBusy | unknownType | badLength | notPermitted | outOfRange | wrongState | notConfigured
  | roundOpen | noSuchJump | notInList | duplicateBib | listFull | listEmpty | barOccupied | hillNotClear
  | contextBusy | corridorNotIn | noProposal | noTrace | addressInUse | overlap | fieldOverlap | fieldConflict
  deriving DecidableEq, Repr

/-- The part states of R1. -/
inductive PartState where
  | unconfigured | ready | round
  deriving DecidableEq, Repr

/-- The states of a jump record (R11). -/
inductive RecState where
  | called | released | inrun | airborne | awaiting | review | confirmed | published | voided
  deriving DecidableEq, Repr

/-- The two wind contexts (R15). -/
inductive Ctx where
  | a | b
  deriving DecidableEq, Repr

/-- The hold causes of a record (R11). -/
inductive HoldCause where
  | none | corridor | jury
  deriving DecidableEq, Repr

/-- The void reasons of a record (R11). -/
inductive VoidReason where
  | startTime | earlyStart | inrunTimeout | juryRestart | juryCancel | roundClosed
  deriving DecidableEq, Repr

/-- The flag set of a record, in the order of R187's bits. -/
structure RecFlags where
  override : Bool := false
  held : Bool := false
  heldStart : Bool := false
  reduction : Bool := false
  speedInvalid : Bool := false
  noContact : Bool := false
  ambiguous : Bool := false
  crowded : Bool := false
  corrected : Bool := false
  manual : Bool := false
  noWind : Bool := false
  traceFull : Bool := false
  amended : Bool := false
  deriving DecidableEq, Repr

/-- One sector summary: sector number, sector mean, station count (R125). -/
structure Summary where
  sector : Nat
  mean : Int
  stations : Nat
  deriving DecidableEq, Repr

/-- A jump record (R11, the field table of section 1.3). `remaining` is in milliseconds (R43). -/
structure Record where
  jump : Nat
  bib : Nat
  state : RecState
  context : Option Ctx
  reductionGate : Option Nat
  juryGate : Option Nat
  usedGate : Option Nat
  callTime : HillTime
  releaseTime : Option HillTime
  departureTime : Option HillTime
  takeoffTime : Option HillTime
  landingTime : Option HillTime
  remaining : Option Nat
  holdCause : HoldCause
  speed : Option Nat
  flightTime : Option Nat
  landingMark : Option Nat
  spread : Option Nat
  proposed : Option Nat
  confirmed : Option Nat
  summaries : List Summary
  jumpWind : Option Int
  distPoints : Option Nat
  gateComp : Option Int
  windComp : Option Int
  total : Option Nat
  flags : RecFlags
  voidReason : Option VoidReason
  deriving DecidableEq, Repr

/-- The state the Round Controller owns (01). -/
structure Round where
  part : PartState
  startList : List Nat
  table : List (Option Record)
  counter : Nat
  bindA : Option Nat
  bindB : Option Nat
  clearance : Option HillTime
  deriving DecidableEq, Repr

/-- R25. -/
def Round.atReset : Round :=
  { part := .unconfigured, startList := [], table := List.replicate 8 none, counter := 1,
    bindA := none, bindB := none, clearance := none }

/-- The reference-gate mode; the fixed gate is kept under FIXED only (R26, "HILL"). -/
inductive RefMode where
  | firstRelease
  | fixed (gate : Nat)
  deriving DecidableEq, Repr

/-- The hill record (R26). -/
structure HillRecord where
  kPoint : Nat
  hillSize : Nat
  basePoints : Nat
  metreValue : Nat
  gateFactor : Nat
  headFactor : Nat
  tailFactor : Nat
  threshold : Nat
  lowest : Nat
  highest : Nat
  mode : RefMode
  deriving DecidableEq, Repr

/-- A defined entry of the sector table (R34). -/
structure Sector where
  start : Nat
  weight : Nat
  deriving DecidableEq, Repr

/-- The parameters the Scoring Unit owns (02). `sectors` holds the defined sectors 1 to n in order. -/
structure Scoring where
  hill : Option HillRecord
  sectors : List Sector
  refGate : Option Nat
  deriving DecidableEq, Repr

/-- R26, R30, R34. -/
def Scoring.atReset : Scoring := { hill := none, sectors := [], refGate := none }

/-- The light states of R40. -/
inductive Light where
  | dark | red | yellow | green | greenFlash | hold
  deriving DecidableEq, Repr

/-- The countdown (R43): the held remaining time is in ticks. -/
inductive Countdown where
  | idle
  | running (jump : Nat) (expiry : HillTime)
  | held (jump : Nat) (remaining : Nat)
  deriving DecidableEq, Repr

/-- The state the Start Light Controller owns (03). `cadence` is the lit half and the next toggle (R41);
`staged` is the staged gate and the jump number it waits on (R58). `barDebounce` holds the opening edges whose debounce
is under way or is complete and not yet taken, oldest first (R54; log 3). -/
structure StartLight where
  light : Light
  cadence : Option (Bool × HillTime)
  countdown : Countdown
  juryGate : Nat
  staged : Option (Nat × Nat)
  barOpen : Bool
  barDebounce : List HillTime
  timing : TimsFields
  deriving DecidableEq, Repr

/-- The timing settings after a reset (R63). -/
def timingAtReset : TimsFields :=
  { countdown := 30, resumeMin := 15, clearance := 5, inrun := 20, landing := 8, pairing := 60, spread := 4 }

/-- R64. -/
def StartLight.atReset (barOpen : Bool) : StartLight :=
  { light := .dark, cadence := none, countdown := .idle, juryGate := 1, staged := none, barOpen := barOpen,
    barDebounce := [], timing := timingAtReset }

/-- The states of a configured station (R65). -/
inductive StationState where
  | active | silent | fault | disabled
  deriving DecidableEq, Repr

/-- The latest sample of a station (R65). -/
structure Sample where
  speed : Nat
  direction : Nat
  tangential : Int
  time : HillTime
  deriving DecidableEq, Repr

/-- The status flags of a station (R65). -/
structure StationFlags where
  clamped : Bool := false
  mismatch : Bool := false
  deriving DecidableEq, Repr

/-- A configured entry of the station table (R65). -/
structure Station where
  address : Nat
  sector : Nat
  axis : Nat
  member : Bool
  enabled : Bool
  state : StationState
  miss : Nat
  good : Nat
  latest : Option Sample
  flags : StationFlags
  deriving DecidableEq, Repr

/-- The open mark of a wind context (R83). -/
inductive OpenMark where
  | waiting | opened | closed
  deriving DecidableEq, Repr

/-- An entry of a settling list (R83). -/
structure Settled where
  station : Nat
  time : HillTime
  tangential : Int
  deriving DecidableEq, Repr

/-- An entry of a trace (R83). -/
structure TraceEntry where
  station : Nat
  time : HillTime
  tangential : Int
  snap : Bool
  deriving DecidableEq, Repr

/-- The contents of a wind context (R83). `sums` holds a sum and a count for each of stations 1 to 12. -/
structure Context where
  sums : List (Int × Nat)
  start : Option HillTime
  stop : Option HillTime
  mark : OpenMark
  settling : List Settled
  trace : List TraceEntry
  deriving DecidableEq, Repr

/-- An empty context with the given open mark: waiting at a binding, closed at a freeing and a reset (R83). -/
def Context.empty (mark : OpenMark) : Context :=
  { sums := List.replicate 12 (0, 0), start := none, stop := none, mark := mark, settling := [], trace := [] }

/-- What a slot of the Station Line carries (R74, R81, R82). -/
inductive PollKind where
  | poll | latch | latchedRead
  deriving DecidableEq, Repr

/-- The Station Line slot under way. `void` says that its outcome is not applied (R67, R68). -/
structure StationSlot where
  kind : PollKind
  station : Nat
  address : Nat
  ends : HillTime
  answered : Bool
  void : Bool
  deriving DecidableEq, Repr

/-- The snapshot in progress: whether its LATCH is still to be sent, and the stations not yet taken (R81, R82). -/
structure Snapshot where
  latchDue : Bool
  left : List Nat
  deriving DecidableEq, Repr

/-- The state the Wind Station Receiver owns (04). `scan` holds the entries of the scan in progress not yet taken.
`stopping` says that the scan or snapshot ends with the slot under way, the part having become UNCONFIGURED in it (R72,
R82). -/
structure WindRx where
  stations : List (Option Station)
  scanList : List Nat
  scanPeriod : Nat
  silentCount : Nat
  clearCount : Nat
  nextTick : HillTime
  scan : Option (List Nat)
  snapshot : Option Snapshot
  slot : Option StationSlot
  stopping : Bool
  ctxA : Context
  ctxB : Context
  deriving DecidableEq, Repr

/-- R89: the next tick falls one scan period (25 000 ticks) after the reset. -/
def WindRx.atReset (clock : HillTime) : WindRx :=
  { stations := List.replicate 12 none, scanList := [], scanPeriod := 250, silentCount := 5, clearCount := 2,
    nextTick := clock + 25000#32, scan := none, snapshot := none, slot := none, stopping := false,
    ctxA := Context.empty .closed, ctxB := Context.empty .closed }

/-- The corridor status (R94). -/
inductive CorridorStatus where
  | inside | out | noData
  deriving DecidableEq, Repr

/-- The current window (R90), or the hill time of the boundary at which the next one opens (R97 step 4). -/
inductive Window where
  | opensAt (time : HillTime)
  | current (start stop : HillTime) (sum : Int) (count : Nat)
  deriving DecidableEq, Repr

/-- The state the Corridor Monitor owns (05). `waitSum` and `waitCount` are the samples that wait for the window
that begins at their arrival time (R91); `lastEnd` is the last window end taken (R97 step 4). -/
structure Corridor where
  lower : Int
  upper : Int
  lengthMs : Nat
  declare : Nat
  clear : Nat
  window : Window
  waitSum : Int
  waitCount : Nat
  lastEnd : Option HillTime
  inRun : Nat
  outRun : Nat
  emptyRun : Nat
  status : CorridorStatus
  live : Option Int
  deriving DecidableEq, Repr

/-- R100, with the window or the boundary the reset leaves. -/
def Corridor.atReset (window : Window) : Corridor :=
  { lower := -150, upper := 250, lengthMs := 2000, declare := 2, clear := 3, window := window,
    waitSum := 0, waitCount := 0, lastEnd := none, inRun := 0, outRun := 0, emptyRun := 0,
    status := .noData, live := none }

/-- The first window after a power-on or pin reset, 0 to 200 000 (R100). -/
def firstWindow : Window := .current 0#32 200000#32 0 0

/-- A barrier input (R101): its level, and the interrupting edges whose debounce is under way or is complete and not yet
taken, oldest first (log 3). -/
structure BarrierInput where
  broken : Bool
  debounce : List HillTime
  deriving DecidableEq, Repr

/-- A running in-run or landing limit (R106, R120). -/
structure Limit where
  jump : Nat
  expiry : HillTime
  deriving DecidableEq, Repr

/-- The states of a configured strip unit (R109). -/
inductive UnitState where
  | online | silent
  deriving DecidableEq, Repr

/-- The orientation of a strip unit (R109). -/
inductive Orientation where
  | ascending | descending
  deriving DecidableEq, Repr

/-- A configured entry of the strip unit table (R109). -/
structure StripUnit where
  address : Nat
  firstMark : Nat
  orientation : Orientation
  state : UnitState
  miss : Nat
  good : Nat
  deriving DecidableEq, Repr

/-- The Strip Line slot under way. `void` says that its outcome is not applied (R111). -/
structure StripSlot where
  unit : Nat
  address : Nat
  ends : HillTime
  answered : Bool
  void : Bool
  deriving DecidableEq, Repr

/-- A contact report of the kept list (R117). -/
structure Contact where
  mark : Nat
  time : HillTime
  arrival : HillTime
  deriving DecidableEq, Repr

/-- The open landing watch (R117). -/
structure Watch where
  jump : Nat
  proposalAt : HillTime
  kept : List Contact
  deriving DecidableEq, Repr

/-- The state the Flight Timing Unit owns (06). -/
structure Flight where
  barrierA : BarrierInput
  barrierB : BarrierInput
  barrierT : BarrierInput
  trapJump : Option Nat
  trapTime : Option HillTime
  trapDone : Bool
  spacing : Nat
  inrunLimit : Option Limit
  landingLimit : Option Limit
  units : List (Option StripUnit)
  base : Nat
  stripSlot : Option StripSlot
  lastPolled : Option Nat
  watch : Option Watch
  deriving DecidableEq, Repr

/-- R123, with the levels the barriers show. -/
def Flight.atReset (brokenA brokenB brokenT : Bool) : Flight :=
  { barrierA := { broken := brokenA, debounce := [] }, barrierB := { broken := brokenB, debounce := [] },
    barrierT := { broken := brokenT, debounce := [] }, trapJump := none, trapTime := none, trapDone := false,
    spacing := 8000, inrunLimit := none, landingLimit := none, units := List.replicate 10 none, base := 0,
    stripSlot := none, lastPolled := none, watch := none }

/-- The write rights of a panel (R145). -/
inductive Rights where
  | control | console | both
  deriving DecidableEq, Repr

/-- The states of a configured panel (R145). -/
inductive PanelState where
  | online | offline
  deriving DecidableEq, Repr

/-- The marks of a panel row (R145). -/
structure RowMarks where
  dirty : Bool
  inFlight : Bool
  deriving DecidableEq, Repr

/-- A configured entry of the panel table (R145). `page` holds rows × columns characters, row after row. -/
structure Panel where
  address : Nat
  rows : Nat
  columns : Nat
  rights : Rights
  enabled : Bool
  state : PanelState
  miss : Nat
  ack : Nat
  probeDue : Option HillTime
  page : List Byte
  marks : List RowMarks
  deriving DecidableEq, Repr

/-- The alignment of a field (R152). -/
inductive Align where
  | left | right
  deriving DecidableEq, Repr

/-- The items of section 8.4 in the order of their codes (R187). -/
inductive Item where
  | countdown | light | juryGate | corridorWind | corridorState
  | bib | usedGate | speed | distance | flightTime | wind | windComp | gateComp | distPoints | total
  deriving DecidableEq, Repr

/-- The views of R155. -/
inductive View where
  | bar | flight | published
  deriving DecidableEq, Repr

/-- A field descriptor (R152). -/
structure FieldDesc where
  panel : Nat
  row : Nat
  column : Nat
  width : Nat
  align : Align
  fill : Byte
  item : Item
  view : View
  deriving DecidableEq, Repr

/-- A row frame on the Board Line (R164). -/
structure RowFrame where
  panel : Nat
  address : Nat
  row : Nat
  text : List Byte
  aborted : Bool
  deriving DecidableEq, Repr

/-- The Board Line: free, a row frame being sent, or the acknowledgement window after it (R163 to R166). -/
inductive BoardLine where
  | free
  | sending (frame : RowFrame)
  | window (frame : RowFrame) (ends : HillTime)
  deriving DecidableEq, Repr

/-- The state the Board Controller owns (08). `countdownShown` is, for each descriptor of the field map that shows
COUNTDOWN, the whole seconds it was last rendered with, absent for an IDLE countdown; absent for the other descriptors
(R156, R159; log 12). -/
structure Board where
  panels : List (Option Panel)
  fields : List (Option FieldDesc)
  refreshPeriod : Nat
  nextRefresh : Option HillTime
  line : BoardLine
  lastAddress : Option Nat
  countdownShown : List (Option Nat)
  deriving DecidableEq, Repr

/-- R169: the next refresh falls 10 s (1 000 000 ticks) after the reset. -/
def Board.atReset (clock : HillTime) : Board :=
  { panels := List.replicate 8 none, fields := List.replicate 48 none, refreshPeriod := 10,
    nextRefresh := some (clock + 1000000#32), line := .free, lastAddress := none,
    countdownShown := List.replicate 48 none }

/-- The reset causes of PWRUP (R183). -/
inductive ResetCause where
  | power | pin | soft
  deriving DecidableEq, Repr

/-- The causes of the GATE notice (R61). -/
inductive GateCause where
  | request | staged | range
  deriving DecidableEq, Repr

/-- The causes of the STNA notice (R78). -/
inductive StnaCause where
  | configured | removed | enabled | disabled | misses | recovered | sensorFault
  deriving DecidableEq, Repr

/-- The causes of the UNTA notice (R116). -/
inductive UntaCause where
  | configured | removed | misses | recovered
  deriving DecidableEq, Repr

/-- The causes of the PANA notice (R149). -/
inductive PanaCause where
  | configured | removed | enabled | disabled | misses | recovered
  deriving DecidableEq, Repr

/-- The sources of the STRY notice (R102). -/
inductive StrySource where
  | startBar | barrierA | barrierB | takeoff | strip
  deriving DecidableEq, Repr

/-- What an RSLT notice carries (R22). -/
structure ResultNotice where
  jump : Nat
  bib : Nat
  juryGate : Option Nat
  usedGate : Option Nat
  speed : Option Nat
  confirmed : Option Nat
  proposed : Option Nat
  jumpWind : Option Int
  distPoints : Option Nat
  gateComp : Option Int
  windComp : Option Int
  total : Option Nat
  flags : RecFlags
  amended : Bool
  deriving DecidableEq, Repr

/-- What a PROP notice carries (R122). -/
structure ProposalNotice where
  jump : Nat
  bib : Nat
  landingTime : Option HillTime
  flightTime : Option Nat
  landingMark : Option Nat
  spread : Option Nat
  proposed : Option Nat
  kept : Nat
  counted : Nat
  noContact : Bool
  ambiguous : Bool
  crowded : Bool
  summaries : List Summary
  deriving DecidableEq, Repr

/-- The 14 notices (section 9.5). A state of none stands for UNCONFIGURED in STNA, UNTA and PANA. -/
inductive Notice where
  | pwrup (cause : ResetCause) (time : HillTime)
  | lamp (light : Light) (bib remaining : Option Nat)
  | gate (gate : Nat) (cause : GateCause) (jump : Option Nat)
  | corr (before after : CorridorStatus) (time : HillTime) (mean : Option Int) (inRun outRun emptyRun : Nat)
  | stna (index address : Nat) (before after : Option StationState) (cause : StnaCause) (flags : StationFlags)
      (time : HillTime)
  | scov (time : HillTime) (left period : Nat)
  | dept (jump bib : Nat) (time : HillTime) (remaining : Nat) (heldStart : Bool)
  | tkof (jump bib : Nat) (time : HillTime) (inrunTime : Option Nat) (speed : Option Nat) (speedInvalid : Bool)
  | prop (p : ProposalNotice)
  | rslt (r : ResultNotice)
  | voided (jump bib : Nat) (before : RecState) (reason : VoidReason) (requeued : Bool)
  | stry (source : StrySource) (time : HillTime) (unit mark : Option Nat)
  | unta (index address : Nat) (before after : Option UnitState) (cause : UntaCause) (time : HillTime)
  | pana (index address : Nat) (before after : Option PanelState) (cause : PanaCause) (miss ack : Nat)
      (time : HillTime)
  deriving DecidableEq, Repr

/-- One field of a reply or notice body by its width; none is an absent field (R186). -/
inductive Field where
  | u8 (v : Option Nat)
  | u16 (v : Option Nat)
  | u32 (v : Option Nat)
  | s16 (v : Option Int)
  | bytes (bs : List Byte)
  deriving DecidableEq, Repr

/-- A received request frame: type code, tag and body (R185). -/
structure LinkFrame where
  type : Byte
  tag : Byte
  body : List Byte
  deriving DecidableEq, Repr

/-- A reply: its own type code, the request's tag, the result code and the fields that follow it (R176, R186). -/
structure Reply where
  type : Byte
  tag : Byte
  code : ResultCode
  body : List Field
  deriving DecidableEq, Repr

/-- A place of a request queue: a frame not yet taken, or the reply of a taken request (R172). -/
inductive Place where
  | waiting (frame : LinkFrame)
  | answered (reply : Reply)
  deriving DecidableEq, Repr

/-- An entry of a busy list (R172). -/
structure BusyEntry where
  type : Byte
  tag : Byte
  deriving DecidableEq, Repr

/-- What a transmitter is sending (R177). -/
inductive OutFrame where
  | busy (e : BusyEntry)
  | reply (r : Reply)
  | notice (n : Notice)
  deriving DecidableEq, Repr

/-- A frame receiver (R170): the bytes after the lead, and the hill time of the last byte received. -/
inductive Receiver where
  | hunting
  | collecting (got : List Byte) (last : HillTime)
  deriving DecidableEq, Repr

/-- The state the Link Interface owns for one link (09). -/
structure Link where
  receiver : Receiver
  queue : List Place
  busy : List BusyEntry
  notices : List Notice
  noticeLost : Bool
  sending : Option OutFrame
  deriving DecidableEq, Repr

/-- A link with nothing in it: the state while the part is held in reset (R182). -/
def Link.idle : Link :=
  { receiver := .hunting, queue := [], busy := [], notices := [], noticeLost := false, sending := none }

/-- R184: a link after a reset is sending the PWRUP notice. -/
def Link.atReset (cause : ResetCause) (clock : HillTime) : Link :=
  { Link.idle with sending := some (.notice (.pwrup cause clock)) }

/-- Where the part stands with an INIT (R181): none taken; taken, its reply not yet sent; its reply sent and the
reset to be carried out. -/
inductive InitPhase where
  | none | waiting | due
  deriving DecidableEq, Repr

end Sys2Proof.Machine
end

