-- ==== Sys2Proof/Machine/State.lean ====
section
/-! DEFINITION. The state of the part, the reasons a step can stop, and the state right after a power-on reset. -/

namespace Sys2Proof.Machine

/-- The machine's faults: none. The spec gives the part no stop: a request that cannot be done is answered with a
result code, and input edges, line frames and timers are never refused (section 9.4). -/
inductive Fault where
  deriving DecidableEq, Repr

/-- The reasons a command has no meaning. -/
inductive Refusal where
  /-- Raised by exec alone, for a command whose meaning is not written yet; safe, since the run stops. No arm of
  exec raises it. -/
  | notModelled (mnemonic : String)
  deriving DecidableEq, Repr

/-- The state of the HC-52: one field per block that owns state, the Hill Clock, the reset hold of R182, the phase
of an INIT (R181), and the commands that wait. -/
structure State where
  pending : List Instr
  clock : HillTime
  held : Bool
  initPhase : InitPhase
  control : Link
  console : Link
  round : Round
  scoring : Scoring
  start : StartLight
  wind : WindRx
  corridor : Corridor
  flight : Flight
  board : Board
  deriving DecidableEq, Repr

/-- The levels the contacts show at the reset of State.reset: the bar contact open, since it is closed only while a
jumper sits on the bar, and the beams clear (log 8, DESIGN CHOICE: the spec gives none). -/
def levelsAtReset : InputLevels := { barOpen := true, brokenA := false, brokenB := false, brokenT := false }

/-- Right after a power-on reset: every block at the values its chapter gives (R25, R26, R30, R34, R64, R89, R100,
R123, R169, R184), the Hill Clock at 0, PWRUP with cause POWER being sent on both links. -/
def State.reset : State :=
  { pending := [], clock := 0#32, held := false, initPhase := .none,
    control := Link.atReset .power 0#32, console := Link.atReset .power 0#32,
    round := Round.atReset, scoring := Scoring.atReset, start := StartLight.atReset levelsAtReset.barOpen,
    wind := WindRx.atReset 0#32, corridor := Corridor.atReset firstWindow,
    flight := Flight.atReset levelsAtReset.brokenA levelsAtReset.brokenB levelsAtReset.brokenT,
    board := Board.atReset 0#32 }

end Sys2Proof.Machine
end

