-- ==== Sys2Proof/Machine/Flags.lean ====
section
/-! DEFINITION. The flag sets and the codes of enumerated values as the links carry them (R187). Values without a
code of their own are numbered from 0 in the order the manual lists them (log 18). -/

namespace Sys2Proof.Machine

/-- A one-byte mark: absent 0, present 1 (R187; log 15 for the marks its table does not name). -/
def markCode (b : Bool) : Nat := if b then 1 else 0

/-- A field listed "yes or no": yes 0, no 1 (R187, numbered in the listed order; log 13). -/
def yesNoCode (b : Bool) : Nat := if b then 0 else 1

/-- The two-byte flag set of a record, one bit per flag from bit 0 (R187). -/
def RecFlags.code (f : RecFlags) : Nat :=
  markCode f.override + 2 * markCode f.held + 4 * markCode f.heldStart + 8 * markCode f.reduction
    + 16 * markCode f.speedInvalid + 32 * markCode f.noContact + 64 * markCode f.ambiguous + 128 * markCode f.crowded
    + 256 * markCode f.corrected + 512 * markCode f.manual + 1024 * markCode f.noWind + 2048 * markCode f.traceFull
    + 4096 * markCode f.amended

/-- The status flags of a station: bit 0 CLAMPED, bit 1 ADDRESS_MISMATCH (R187). -/
def StationFlags.code (f : StationFlags) : Nat := markCode f.clamped + 2 * markCode f.mismatch

/-- The codes of the result codes: the order of the table of section 9.4 (R187). -/
def ResultCode.code : ResultCode → Nat
  | .ok => 0 | .linkBusy => 1 | .unknownType => 2 | .badLength => 3 | .notPermitted => 4 | .outOfRange => 5
  | .wrongState => 6 | .notConfigured => 7 | .roundOpen => 8 | .noSuchJump => 9 | .notInList => 10
  | .duplicateBib => 11 | .listFull => 12 | .listEmpty => 13 | .barOccupied => 14 | .hillNotClear => 15
  | .contextBusy => 16 | .corridorNotIn => 17 | .noProposal => 18 | .noTrace => 19 | .addressInUse => 20
  | .overlap => 21 | .fieldOverlap => 22 | .fieldConflict => 23

/-- R1's order. -/
def PartState.code : PartState → Nat
  | .unconfigured => 0 | .ready => 1 | .round => 2

/-- R187's table. -/
def RecState.code : RecState → Nat
  | .called => 1 | .released => 2 | .inrun => 3 | .airborne => 4 | .awaiting => 5 | .review => 6 | .confirmed => 7
  | .published => 8 | .voided => 9

/-- R187's table: none 0, A 1, B 2. -/
def ctxCode : Option Ctx → Nat
  | none => 0 | some .a => 1 | some .b => 2

/-- R187's table. -/
def HoldCause.code : HoldCause → Nat
  | .none => 0 | .corridor => 1 | .jury => 2

/-- R187's table. -/
def VoidReason.code : VoidReason → Nat
  | .startTime => 0 | .earlyStart => 1 | .inrunTimeout => 2 | .juryRestart => 3 | .juryCancel => 4 | .roundClosed => 5

/-- R40's order. -/
def Light.code : Light → Nat
  | .dark => 0 | .red => 1 | .yellow => 2 | .green => 3 | .greenFlash => 4 | .hold => 5

/-- R43's order. -/
def Countdown.code : Countdown → Nat
  | .idle => 0 | .running _ _ => 1 | .held _ _ => 2

/-- R65's order; none is UNCONFIGURED. -/
def stationStateCode : Option StationState → Nat
  | none => 0 | some .active => 1 | some .silent => 2 | some .fault => 3 | some .disabled => 4

/-- R83's order. -/
def OpenMark.code : OpenMark → Nat
  | .waiting => 0 | .opened => 1 | .closed => 2

/-- The order of the table at the head of chapter 5. -/
def CorridorStatus.code : CorridorStatus → Nat
  | .inside => 0 | .out => 1 | .noData => 2

/-- R187's table; none is UNCONFIGURED. -/
def unitStateCode : Option UnitState → Nat
  | none => 0 | some .online => 1 | some .silent => 2

/-- R187's table; none is UNCONFIGURED. -/
def panelStateCode : Option PanelState → Nat
  | none => 0 | some .online => 1 | some .offline => 2

/-- R183's order. -/
def ResetCause.code : ResetCause → Nat
  | .power => 0 | .pin => 1 | .soft => 2

/-- R61's order. -/
def GateCause.code : GateCause → Nat
  | .request => 0 | .staged => 1 | .range => 2

/-- R78's order. -/
def StnaCause.code : StnaCause → Nat
  | .configured => 0 | .removed => 1 | .enabled => 2 | .disabled => 3 | .misses => 4 | .recovered => 5
  | .sensorFault => 6

/-- R116's order. -/
def UntaCause.code : UntaCause → Nat
  | .configured => 0 | .removed => 1 | .misses => 2 | .recovered => 3

/-- R149's order. -/
def PanaCause.code : PanaCause → Nat
  | .configured => 0 | .removed => 1 | .enabled => 2 | .disabled => 3 | .misses => 4 | .recovered => 5

/-- R102's order. -/
def StrySource.code : StrySource → Nat
  | .startBar => 0 | .barrierA => 1 | .barrierB => 2 | .takeoff => 3 | .strip => 4

/-- The write rights by their code, in R145's order. -/
def rightsOf : Nat → Option Rights
  | 0 => some .control | 1 => some .console | 2 => some .both | _ => none

/-- A yes/no field by its code (log 13), none where the code is neither. -/
def yesNoOf : Nat → Option Bool
  | 0 => some true | 1 => some false | _ => none

/-- The alignment by its code, in R152's order. -/
def alignOf : Nat → Option Align
  | 0 => some .left | 1 => some .right | _ => none

/-- The orientation by its code, in R109's order. -/
def orientationOf : Nat → Option Orientation
  | 0 => some .ascending | 1 => some .descending | _ => none

/-- The field items by R187's table. -/
def itemOf : Nat → Option Item
  | 0 => some .countdown | 1 => some .light | 2 => some .juryGate | 3 => some .corridorWind | 4 => some .corridorState
  | 5 => some .bib | 6 => some .usedGate | 7 => some .speed | 8 => some .distance | 9 => some .flightTime
  | 10 => some .wind | 11 => some .windComp | 12 => some .gateComp | 13 => some .distPoints | 14 => some .total
  | _ => none

/-- The field views by R187's table. -/
def viewOf : Nat → Option View
  | 0 => some .bar | 1 => some .flight | 2 => some .published | _ => none

/-- A live item is read from no record, and its view is neither read nor checked (R153, R156). -/
def Item.isLive : Item → Bool
  | .countdown | .light | .juryGate | .corridorWind | .corridorState => true
  | .bib | .usedGate | .speed | .distance | .flightTime | .wind | .windComp | .gateComp | .distPoints | .total => false

end Sys2Proof.Machine
end

