-- ==== Sys2Proof/Machine/Time.lean ====
section
/-! DEFINITION. Hill time, rounding, and tables indexed from 1. -/

namespace Sys2Proof.Machine

/-- The ticks from `past` to `now`, modulo 2^32 (00, "Hill time"). -/
def elapsed (now past : HillTime) : Nat := (now - past).toNat

/-- `now` is at or after `due`, judged by the difference modulo 2^32 in its half range (00, "Hill time"; log 3). -/
def reached (now due : HillTime) : Bool := decide (elapsed now due < 2147483648)

/-- `t` lies later than `u`. -/
def laterThan (t u : HillTime) : Bool := reached t u && t != u

/-- `now` is not past `stop`: an event taken at the very tick of an end counts as taken before it (log 25). -/
def notPast (now stop : HillTime) : Bool := !laterThan now stop

/-- The hill time `n` ticks after `t`. -/
def plusTicks (t : HillTime) (n : Nat) : HillTime := t + BitVec.ofNat 32 n

/-- A frame from its first byte at `began` to its last at `now` lies whole within the slot or window of `len` ticks that
ends at `stop` (R74, R114, R166; log 25, log 32). -/
def wholeWithin (began now stop : HillTime) (len : Nat) : Bool :=
  reached began (stop - BitVec.ofNat 32 len) && notPast now stop

/-- Milliseconds in ticks. -/
def msTicks (ms : Nat) : Nat := ms * 100

/-- Seconds in ticks. -/
def secTicks (s : Nat) : Nat := s * 100000

/-- The ticks left to `expiry`; none are left once it has been reached. -/
def ticksLeft (expiry now : HillTime) : Nat := if reached now expiry then 0 else elapsed expiry now

/-- A remaining time as it leaves the part, in milliseconds rounded up (R43). -/
def msUp (ticks : Nat) : Nat := (ticks + 99) / 100

/-- A remaining time in whole seconds rounded up (R156). -/
def secUp (ticks : Nat) : Nat := (ticks + 99999) / 100000

/-- The quotient rounded once to the nearest integer, halves away from zero (00, "Rounding"). -/
def roundDiv (a : Int) (b : Nat) : Int :=
  if a < 0 then -(((2 * a.natAbs + b) / (2 * b) : Nat) : Int) else (((2 * a.natAbs + b) / (2 * b) : Nat) : Int)

/-- The next window boundary after `t` for a window of `len` ticks: the next multiple of `len`, or the wrap of the
clock (R90). -/
def boundaryAfter (t : HillTime) (len : Nat) : HillTime :=
  let k := (t.toNat / len + 1) * len
  if k < 4294967296 then BitVec.ofNat 32 k else 0#32

/-- The debounces of a contact after an edge of it (R54, R101). An edge that enters the watched level begins a debounce
of `len` ticks behind those that are complete and wait to be taken. One that leaves it drops the debounce it breaks off
before its time; a debounce that has run its time stays for its own row to take (log 3). An edge to the level the contact
already shows is none. -/
def afterEdge (held enters : Bool) (edges : List HillTime) (now : HillTime) (len : Nat) : List HillTime :=
  match held, enters with
  | false, true => edges ++ [now]
  | true, false =>
    match edges.getLast? with
    | some t => if reached now (plusTicks t len) then edges else edges.dropLast
    | none => edges
  | true, true | false, false => edges

/-- The edge of the oldest debounce, once it has lasted `len` ticks, and the debounces behind it (R54, R101). -/
def completed (edges : List HillTime) (now : HillTime) (len : Nat) : Option (HillTime × List HillTime) :=
  match edges with
  | t :: rest => if reached now (plusTicks t len) then some (t, rest) else none
  | [] => none

/-- The entry of a table at the index `i`, counted from 1. -/
def entry {α : Type} (l : List (Option α)) (i : Nat) : Option α := if i = 0 then none else (l[i - 1]?).join

/-- The table with the entry at the index `i`, counted from 1, replaced. -/
def setEntry {α : Type} (l : List (Option α)) (i : Nat) (v : Option α) : List (Option α) :=
  if i = 0 then l else l.set (i - 1) v

/-- The indices, from 1, of the table's configured entries that pass `p`, in increasing order. -/
def indicesFrom {α : Type} (p : α → Bool) : Nat → List (Option α) → List Nat
  | _, [] => []
  | i, none :: l => indicesFrom p (i + 1) l
  | i, some a :: l => if p a then i :: indicesFrom p (i + 1) l else indicesFrom p (i + 1) l

/-- The indices of the configured entries that pass `p`, in increasing order. -/
def indicesWhere {α : Type} (p : α → Bool) (l : List (Option α)) : List Nat := indicesFrom p 1 l

/-- Some configured entry, at an index other than `except`, passes `p`. -/
def othersAny {α : Type} (p : α → Bool) (except : Nat) (l : List (Option α)) : Bool :=
  (indicesWhere p l).any (fun i => i != except)

/-- A count that stops at 15 (R77, R93, R116, R166). -/
def countUp (n : Nat) : Nat := min (n + 1) 15

end Sys2Proof.Machine
end

