-- ==== Sys2Proof/Machine/Operands.lean ====
section
/-! DEFINITION. How values stand in frames: the check, the field codings, the bodies of notices and replies, and the
frames of the device lines (chapter 10). -/

namespace Sys2Proof.Machine

/-- One shift of R186's check register. -/
def crcShift (r : BitVec 16) : BitVec 16 := if r.msb then (r <<< 1) ^^^ 0x1021#16 else r <<< 1

/-- One byte taken into R186's check register. -/
def crcByte (r : BitVec 16) (b : Byte) : BitVec 16 :=
  crcShift (crcShift (crcShift (crcShift (crcShift (crcShift (crcShift (crcShift (r ^^^ (b.setWidth 16 <<< 8)))))))))

/-- The check of R186 over the bytes. -/
def crc16 (bs : List Byte) : BitVec 16 := bs.foldl crcByte 0xFFFF#16

/-- The check's two bytes, high byte first (R185, R189). -/
def checkBytes (bs : List Byte) : List Byte :=
  [(crc16 bs >>> 8).setWidth 8, (crc16 bs).setWidth 8]

/-- One byte of value `n`. -/
def byteOf (n : Nat) : Byte := BitVec.ofNat 8 n

/-- Two bytes, little-endian (R186). -/
def le16 (n : Nat) : List Byte := [byteOf n, byteOf (n / 256)]

/-- Four bytes, little-endian (R186). -/
def le32 (n : Nat) : List Byte := [byteOf n, byteOf (n / 256), byteOf (n / 65536), byteOf (n / 16777216)]

/-- The value of two bytes, little-endian. -/
def of16 (lo hi : Byte) : Nat := lo.toNat + 256 * hi.toNat

/-- A field as its bytes: an absent field is all-ones of its width, a signed one carries a bias of 32 768 (R186). -/
def Field.encode : Field → List Byte
  | .u8 v => [byteOf (v.getD 255)]
  | .u16 v => le16 (v.getD 65535)
  | .u32 v => le32 (v.getD 4294967295)
  | .s16 none => le16 65535
  | .s16 (some x) => le16 (x + 32768).toNat
  | .bytes bs => bs

/-- A body as its bytes. -/
def encodeFields (fs : List Field) : List Byte := fs.flatMap Field.encode

/-- A present one-byte field. -/
def byteField (n : Nat) : Field := .u8 (some n)

/-- A hill time field, absent or present. -/
def timeField (t : Option HillTime) : Field := .u32 (t.map BitVec.toNat)

/-- The summaries as the record body carries them: sector, mean, station count (R188). -/
def summaryFields (l : List Summary) : List Field :=
  l.flatMap (fun m => [byteField m.sector, .s16 (some m.mean), byteField m.stations])

/-- The record body of the JUMP reply (R188); without a record every field is its sentinel and the count is 0
(R176). -/
def recordBody : Option Record → List Field
  | none =>
    [.u16 none, .u16 none, .u8 none, .u8 none, .u8 none, .u8 none, .u8 none, .u8 none, .u8 none, .u16 none,
     .u32 none, .u32 none, .u32 none, .u32 none, .u32 none, .u32 none, .u16 none, .u32 none, .u8 none, .u8 none,
     .u16 none, .u16 none, .s16 none, .u16 none, .s16 none, .s16 none, .u16 none, byteField 0]
  | some r =>
    [.u16 (some r.jump), .u16 (some r.bib), byteField r.state.code, byteField (ctxCode r.context),
     .u8 r.reductionGate, .u8 r.juryGate, .u8 r.usedGate, byteField r.holdCause.code,
     .u8 (r.voidReason.map VoidReason.code), .u16 (some r.flags.code), timeField (some r.callTime),
     timeField r.releaseTime, timeField r.departureTime, timeField r.takeoffTime, timeField r.landingTime,
     .u32 r.remaining, .u16 r.speed, .u32 r.flightTime, .u8 r.landingMark, .u8 r.spread, .u16 r.proposed,
     .u16 r.confirmed, .s16 r.jumpWind, .u16 r.distPoints, .s16 r.gateComp, .s16 r.windComp, .u16 r.total,
     byteField r.summaries.length] ++ summaryFields r.summaries

/-- The type codes of the notices (R187). -/
def Notice.typeCode : Notice → Byte
  | .pwrup .. => 0x41#8 | .lamp .. => 0x42#8 | .gate .. => 0x43#8 | .corr .. => 0x44#8 | .stna .. => 0x45#8
  | .scov .. => 0x46#8 | .dept .. => 0x47#8 | .tkof .. => 0x48#8 | .prop .. => 0x49#8 | .rslt .. => 0x4A#8
  | .voided .. => 0x4B#8 | .stry .. => 0x4C#8 | .unta .. => 0x4D#8 | .pana .. => 0x4E#8

/-- The marks byte of PROP: bit 0 NO_CONTACT, bit 1 AMBIGUOUS, bit 2 CROWDED (R188). -/
def proposalMarks (p : ProposalNotice) : Nat :=
  markCode p.noContact + 2 * markCode p.ambiguous + 4 * markCode p.crowded

/-- The body of a notice, in the order of its rule or of R188. -/
def Notice.fields : Notice → List Field
  | .pwrup cause time => [byteField cause.code, timeField (some time)]
  | .lamp light bib remaining => [byteField light.code, .u16 bib, .u32 remaining]
  | .gate g cause jump => [byteField g, byteField cause.code, .u16 jump]
  | .corr before after time mean inRun outRun emptyRun =>
    [byteField before.code, byteField after.code, timeField (some time), .s16 mean, byteField inRun, byteField outRun,
     byteField emptyRun]
  | .stna index address before after cause flags time =>
    [byteField index, byteField address, byteField (stationStateCode before), byteField (stationStateCode after),
     byteField cause.code, byteField flags.code, timeField (some time)]
  | .scov time left period => [timeField (some time), byteField left, .u16 (some period)]
  | .dept jump bib time remaining heldStart =>
    [.u16 (some jump), .u16 (some bib), timeField (some time), .u32 (some remaining), byteField (markCode heldStart)]
  | .tkof jump bib time inrunTime speed speedInvalid =>
    [.u16 (some jump), .u16 (some bib), timeField (some time), .u32 inrunTime, .u16 speed,
     byteField (markCode speedInvalid)]
  | .prop p =>
    [.u16 (some p.jump), .u16 (some p.bib), timeField p.landingTime, .u32 p.flightTime, .u8 p.landingMark, .u8 p.spread,
     .u16 p.proposed, byteField p.kept, byteField p.counted, byteField (proposalMarks p),
     byteField p.summaries.length] ++ summaryFields p.summaries
  | .rslt r =>
    [.u16 (some r.jump), .u16 (some r.bib), .u8 r.juryGate, .u8 r.usedGate, .u16 r.speed, .u16 r.confirmed,
     .u16 r.proposed, .s16 r.jumpWind, .u16 r.distPoints, .s16 r.gateComp, .s16 r.windComp, .u16 r.total,
     .u16 (some r.flags.code), byteField (markCode r.amended)]
  | .voided jump bib before reason requeued =>
    [.u16 (some jump), .u16 (some bib), byteField before.code, byteField reason.code, byteField (markCode requeued)]
  | .stry source time unit mark => [byteField source.code, timeField (some time), .u8 unit, .u8 mark]
  | .unta index address before after cause time =>
    [byteField index, byteField address, byteField (unitStateCode before), byteField (unitStateCode after),
     byteField cause.code, timeField (some time)]
  | .pana index address before after cause miss ack time =>
    [byteField index, byteField address, byteField (panelStateCode before), byteField (panelStateCode after),
     byteField cause.code, byteField miss, byteField ack, timeField (some time)]

/-- A link frame: lead, length, type, tag, body, check (R185). -/
def linkFrameBytes (type tag : Byte) (body : List Byte) : List Byte :=
  0xA5#8 :: (byteOf (body.length + 2) :: type :: tag :: body)
    ++ checkBytes (byteOf (body.length + 2) :: type :: tag :: body)

/-- The type codes that name requests: 0x01 to 0x1F (R187). -/
def isRequestType (t : Byte) : Bool := decide (1 ≤ t.toNat ∧ t.toNat ≤ 31)

/-- The type code of the reply to a frame (R187). -/
def replyType (t : Byte) : Byte := if isRequestType t then t + 0x80#8 else 0xFF#8

/-- The bytes a transmitter sends for a frame. A reply body begins with its result code; LINK_BUSY is followed by the
refused frame's type code (R176, R186). -/
def OutFrame.bytes : OutFrame → List Byte
  | .busy e => linkFrameBytes (replyType e.type) e.tag [byteOf ResultCode.linkBusy.code, e.type]
  | .reply r => linkFrameBytes r.type r.tag (byteOf r.code.code :: encodeFields r.body)
  | .notice n => linkFrameBytes n.typeCode 0#8 (encodeFields n.fields)

/-- The frame a Station Line slot begins with: poll, LATCH or latched read (R189). -/
def StationSlot.frame (sl : StationSlot) : List Byte :=
  let kind : Byte := match sl.kind with | .poll => 0x01#8 | .latch => 0x02#8 | .latchedRead => 0x03#8
  let addr : Byte := match sl.kind with | .latch => 0#8 | .poll | .latchedRead => byteOf sl.address
  0x5A#8 :: [kind, addr] ++ checkBytes [kind, addr]

/-- The poll frame of a Strip Line slot (R189). -/
def StripSlot.frame (sl : StripSlot) : List Byte :=
  0x5A#8 :: [0x01#8, byteOf sl.address] ++ checkBytes [0x01#8, byteOf sl.address]

/-- A row frame on the Board Line; an aborted one closes with 0x18 in place of 0x03 (R165, R189). -/
def RowFrame.bytes (f : RowFrame) : List Byte :=
  0x02#8 :: (byteOf f.address :: byteOf f.row :: f.text)
    ++ checkBytes (byteOf f.address :: byteOf f.row :: f.text) ++ [if f.aborted then 0x18#8 else 0x03#8]

/-- The fields of a station answer (R74). -/
structure StationAnswer where
  address : Nat
  speed : Nat
  direction : Nat
  sensorFault : Bool
  age : Nat
  deriving DecidableEq, Repr

/-- A frame received on the Station Line: none where its line check fails (R75, R189). A status other than
SENSOR_FAULT's code is not SENSOR_FAULT (log 24). -/
def stationAnswerOf (bytes : List Byte) : Option StationAnswer :=
  match bytes with
  | [start, kind, addr, sp0, sp1, di0, di1, status, ag0, ag1, c1, c0] =>
    if start = 0x5A#8 ∧ kind = 0x81#8 ∧
        [c1, c0] = checkBytes [kind, addr, sp0, sp1, di0, di1, status, ag0, ag1] then
      some { address := addr.toNat, speed := of16 sp0 sp1, direction := of16 di0 di1,
             sensorFault := decide (status = 1#8), age := of16 ag0 ag1 }
    else none
  | _ => none

/-- A contact entry of a strip answer: local mark and age (R115). -/
structure StripEntry where
  localMark : Nat
  age : Nat
  deriving DecidableEq, Repr

/-- The fields of a strip answer (R115). -/
structure StripAnswer where
  address : Nat
  entries : List StripEntry
  deriving DecidableEq, Repr

/-- The entries of a strip answer, each a local mark and an age; none where the bytes do not divide. -/
def stripEntriesOf : List Byte → Option (List StripEntry)
  | [] => some []
  | m :: a0 :: a1 :: l => (stripEntriesOf l).map (fun es => { localMark := m.toNat, age := of16 a0 a1 } :: es)
  | _ => none

/-- A frame received on the Strip Line: none where it is no whole answer or its check fails (R115, R189). A count
above 4 is a miss at its count byte, so no longer answer is read. -/
def stripAnswerOf (bytes : List Byte) : Option StripAnswer :=
  match bytes with
  | start :: kind :: addr :: count :: rest =>
    if start = 0x5A#8 ∧ kind = 0x82#8 ∧ count.toNat ≤ 4 ∧ rest.length = 3 * count.toNat + 2 ∧
        rest.drop (3 * count.toNat) = checkBytes (kind :: addr :: count :: rest.take (3 * count.toNat)) then
      (stripEntriesOf (rest.take (3 * count.toNat))).map (fun es => { address := addr.toNat, entries := es })
    else none
  | _ => none

/-- An acknowledgement on the Board Line: its line address and row number; none for any other frame (R189). -/
def acknowledgementOf (bytes : List Byte) : Option (Nat × Nat) :=
  match bytes with
  | [lead, addr, row, c1, c0] =>
    if lead = 0x06#8 ∧ [c1, c0] = checkBytes [addr, row] then some (addr.toNat, row.toNat) else none
  | _ => none

end Sys2Proof.Machine
end

