-- ==== Sys2Proof/Machine/Records.lean ====
section
/-! DEFINITION. Updates of the state, one per field, and the record table. -/

namespace Sys2Proof.Machine

/-! Updates of the state, one per field -/

def State.setPending (s : State) (v : List Instr) : State := { s with pending := v }
def State.setClock (s : State) (v : HillTime) : State := { s with clock := v }
def State.setInitPhase (s : State) (v : InitPhase) : State := { s with initPhase := v }
def State.setControl (s : State) (v : Link) : State := { s with control := v }
def State.setConsole (s : State) (v : Link) : State := { s with console := v }
def State.setRound (s : State) (v : Round) : State := { s with round := v }
def State.setScoring (s : State) (v : Scoring) : State := { s with scoring := v }
def State.setStart (s : State) (v : StartLight) : State := { s with start := v }
def State.setWind (s : State) (v : WindRx) : State := { s with wind := v }
def State.setCorridor (s : State) (v : Corridor) : State := { s with corridor := v }
def State.setFlight (s : State) (v : Flight) : State := { s with flight := v }
def State.setBoard (s : State) (v : Board) : State := { s with board := v }

/-- The state of one link. -/
def State.link (s : State) : LinkId → Link
  | .control => s.control
  | .console => s.console

/-- The state with one link replaced. -/
def State.setLink (s : State) (l : LinkId) (v : Link) : State :=
  match l with
  | .control => s.setControl v
  | .console => s.setConsole v

/-! The record table -/

/-- The records of the table, in slot order. -/
def Round.records (r : Round) : List Record := r.table.filterMap id

/-- The record with the jump number (R24). -/
def Round.find (r : Round) (j : Nat) : Option Record := r.records.find? (fun x => x.jump == j)

/-- The record in a state that passes `p`, of which the part keeps at most one (R13). -/
def Round.inState (r : Round) (p : RecState → Bool) : Option Record := r.records.find? (fun x => p x.state)

/-- The table with the record of the jump number changed. -/
def Round.modify (r : Round) (j : Nat) (f : Record → Record) : Round :=
  { r with table := r.table.map (Option.map (fun x => if x.jump = j then f x else x)) }

/-- The record with the jump number. -/
def State.record (s : State) (j : Nat) : Option Record := s.round.find j

/-- The state with the record of the jump number changed. -/
def State.modifyRecord (s : State) (j : Nat) (f : Record → Record) : State := s.setRound (s.round.modify j f)

/-- CALLED or RELEASED: at the bar. -/
def RecState.atBar : RecState → Bool
  | .called | .released => true
  | .inrun | .airborne | .awaiting | .review | .confirmed | .published | .voided => false

/-- INRUN or AIRBORNE. -/
def RecState.onHill : RecState → Bool
  | .inrun | .airborne => true
  | .called | .released | .awaiting | .review | .confirmed | .published | .voided => false

/-- RELEASED or INRUN: a gate asked for now is staged (R59). -/
def RecState.stages : RecState → Bool
  | .released | .inrun => true
  | .called | .airborne | .awaiting | .review | .confirmed | .published | .voided => false

/-- PUBLISHED or VOIDED. -/
def RecState.terminal : RecState → Bool
  | .published | .voided => true
  | .called | .released | .inrun | .airborne | .awaiting | .review | .confirmed => false

/-- The outcome of a change request: the record, if it is still in the expected state (R12). -/
def State.expect (s : State) (j : Nat) (from_ : RecState) : Option Record :=
  match s.record j with
  | some r => if r.state = from_ then some r else none
  | none => none

/-- A record put before those with higher jump numbers. -/
def insertByJump (r : Record) : List Record → List Record
  | [] => [r]
  | x :: l => if r.jump ≤ x.jump then r :: x :: l else x :: insertByJump r l

/-- Records in increasing jump-number order. -/
def sortByJump (l : List Record) : List Record := l.foldr insertByJump []

end Sys2Proof.Machine
end

