-- ==== Sys2Proof/Machine/Render.lean ====
section
/-! DEFINITION. Rendering (sections 8.4 and 8.5): texts, views, composed rows, and the marks a changed text leaves. -/

namespace Sys2Proof.Machine

/-! Texts -/

/-- The character of a decimal digit (R186). -/
def digitChar (d : Nat) : Byte := byteOf (48 + d)

/-- Decimal digits of `n` put before `acc`, with `fuel` digits at most. -/
def decimalAux : Nat → Nat → List Byte → List Byte
  | 0, _, acc => acc
  | fuel + 1, n, acc =>
    if n / 10 = 0 then digitChar (n % 10) :: acc else decimalAux fuel (n / 10) (digitChar (n % 10) :: acc)

/-- A number in decimal. -/
def decimalText (n : Nat) : List Byte := decimalAux 20 n []

/-- A number of tenths with one decimal, "." between (R157). -/
def tenthsText (n : Nat) : List Byte := decimalText (n / 10) ++ [0x2E#8, digitChar (n % 10)]

/-- A number of hundredths with two decimals (R156, R157). -/
def hundredthsText (n : Nat) : List Byte :=
  decimalText (n / 100) ++ [0x2E#8, digitChar (n / 10 % 10), digitChar (n % 10)]

/-- A signed text: "+" above 0, "-" below 0, no sign for 0 (R157). -/
def signedText (text : Nat → List Byte) (x : Int) : List Byte :=
  if 0 < x then 0x2B#8 :: text x.natAbs else if x < 0 then 0x2D#8 :: text x.natAbs else text 0

/-- LIGHT: "RED", "YEL", "GO", "HOLD", or the empty text (R156). -/
def lightText : Light → List Byte
  | .dark => []
  | .red => [0x52#8, 0x45#8, 0x44#8]
  | .yellow => [0x59#8, 0x45#8, 0x4C#8]
  | .green | .greenFlash => [0x47#8, 0x4F#8]
  | .hold => [0x48#8, 0x4F#8, 0x4C#8, 0x44#8]

/-- CORRIDOR_STATE: "IN", "OUT" or "--" (R156). -/
def corridorText : CorridorStatus → List Byte
  | .inside => [0x49#8, 0x4E#8]
  | .out => [0x4F#8, 0x55#8, 0x54#8]
  | .noData => [0x2D#8, 0x2D#8]

/-- The states whose record the FLIGHT view may name (R155). -/
def RecState.inFlightView : RecState → Bool
  | .inrun | .airborne | .awaiting | .review | .confirmed => true
  | .called | .released | .published | .voided => false

/-- The record with the highest jump number of those that pass `p` (R155). -/
def highestRecord (l : List Record) (p : Record → Bool) : Option Record := (sortByJump (l.filter p)).getLast?

/-- The record a view names (R155). -/
def viewRecord (rd : Round) : View → Option Record
  | .bar => rd.inState RecState.atBar
  | .flight => highestRecord rd.records (fun r => r.state.inFlightView)
  | .published => highestRecord rd.records (fun r => r.state == .published)

/-- A record's results are shown in CONFIRMED and PUBLISHED only (R157). -/
def RecState.showsResults : RecState → Bool
  | .confirmed | .published => true
  | .called | .released | .inrun | .airborne | .awaiting | .review | .voided => false

/-- The text of a live item, absent where R156 says so. -/
def liveText (st : StartLight) (co : Corridor) (shown : Option Nat) : Item → Option (List Byte)
  | .countdown => shown.map decimalText
  | .light => some (lightText st.light)
  | .juryGate => some (decimalText st.juryGate)
  | .corridorWind => co.live.map (signedText hundredthsText)
  | .corridorState => some (corridorText co.status)
  | .bib | .usedGate | .speed | .distance | .flightTime | .wind | .windComp | .gateComp | .distPoints | .total => none

/-- The text of a record item, absent where the record's field is, or a result of a record in another state (R157). -/
def recordText (r : Record) : Item → Option (List Byte)
  | .bib => some (decimalText r.bib)
  | .usedGate => r.usedGate.map decimalText
  | .speed => r.speed.map tenthsText
  | .distance => (match r.confirmed with | some d => some d | none => r.proposed).map (fun d => tenthsText (5 * d))
  | .flightTime => r.flightTime.map (fun t => hundredthsText (roundDiv t 1000).toNat)
  | .wind => if r.state.showsResults then r.jumpWind.map (signedText hundredthsText) else none
  | .windComp => if r.state.showsResults then r.windComp.map (signedText tenthsText) else none
  | .gateComp => if r.state.showsResults then r.gateComp.map (signedText tenthsText) else none
  | .distPoints => if r.state.showsResults then r.distPoints.map tenthsText else none
  | .total => if r.state.showsResults then r.total.map tenthsText else none
  | .countdown | .light | .juryGate | .corridorWind | .corridorState => none

/-- An item's text laid into a field's width (R158). -/
def placeText (d : FieldDesc) (t : Option (List Byte)) : List Byte :=
  match t with
  | none => List.replicate d.width d.fill
  | some t =>
    if d.width < t.length then List.replicate d.width 0x2A#8
    else
      match d.align with
      | .left => t ++ List.replicate (d.width - t.length) 0x20#8
      | .right => List.replicate (d.width - t.length) 0x20#8 ++ t

/-- The rendered text of a field (R158). -/
def renderField (rd : Round) (st : StartLight) (co : Corridor) (shown : Option Nat) (d : FieldDesc) : List Byte :=
  if d.item.isLive then placeText d (liveText st co shown d.item)
  else
    match viewRecord rd d.view with
    | none => List.replicate d.width 0x20#8
    | some r => placeText d (recordText r d.item)

/-- A rendered text laid over a row from a column on (R159). -/
def overlay (base : List Byte) (column : Nat) (t : List Byte) : List Byte :=
  base.take (column - 1) ++ t ++ base.drop (column - 1 + t.length)

/-- The indices of the descriptors of one row of a panel. -/
def rowFields (fields : List (Option FieldDesc)) (i row : Nat) : List Nat :=
  indicesWhere (fun d => d.panel == i && d.row == row) fields

/-- The row with the field at the index laid over it, a COUNTDOWN as it was last rendered (R156, R159; log 12). -/
def layField (rd : Round) (st : StartLight) (co : Corridor) (bd : Board) (t : List Byte) (n : Nat) : List Byte :=
  match entry bd.fields n with
  | some d => overlay t d.column (renderField rd st co (entry bd.countdownShown n) d)
  | none => t

/-- The characters of a row in the page memory. -/
def pageRow (p : Panel) (row : Nat) : List Byte := (p.page.drop ((row - 1) * p.columns)).take p.columns

/-- The composed text of a row: its page memory with the rendered text of each field laid over it (R159). -/
def composedRow (rd : Round) (st : StartLight) (co : Corridor) (bd : Board) (i : Nat) (p : Panel) (row : Nat) :
    List Byte :=
  (rowFields bd.fields i row).foldl (layField rd st co bd) (pageRow p row)

/-- The composed text of a row of the panel `p` at the index `i`, as the state stands. -/
def State.composed (s : State) (i : Nat) (p : Panel) (row : Nat) : List Byte :=
  composedRow s.round s.start s.corridor s.board i p row

/-! Changed texts -/

/-- The marks with the rows that pass `p`, counted from `k`, made dirty. -/
def markFrom (p : Nat → Bool) : Nat → List RowMarks → List RowMarks
  | _, [] => []
  | k, m :: l => (if p k then { m with dirty := true } else m) :: markFrom p (k + 1) l

/-- The panel with the rows that pass `p` marked dirty (R160). -/
def Panel.markRows (pn : Panel) (p : Nat → Bool) : Panel := { pn with marks := markFrom p 1 pn.marks }

/-- The marks of a row changed, rows counted from 1. -/
def Panel.onRow (pn : Panel) (row : Nat) (f : RowMarks → RowMarks) : Panel :=
  { pn with marks := pn.marks.modify (row - 1) f }

/-- The rows of the panel at the index whose composed text differs between two states (R159). -/
def changedRows (old new : State) (i : Nat) : List Nat :=
  match entry old.board.panels i, entry new.board.panels i with
  | some po, some pn =>
    ((List.range pn.rows).map (fun k => k + 1)).filter (fun row => old.composed i po row != new.composed i pn row)
  | _, _ => []

/-- The frame being sent gets its abort mark where its row is among the rows (R165). -/
def abortRows (line : BoardLine) (i : Nat) (rows : List Nat) : BoardLine :=
  match line with
  | .sending f => if f.panel = i ∧ f.row ∈ rows then .sending { f with aborted := true } else line
  | .free | .window _ _ => line

/-- The rows of one panel marked dirty, and a frame of one of them aborted (R160, R165). -/
def Board.dirty (b : Board) (i : Nat) (rows : List Nat) : Board :=
  match rows with
  | [] => b
  | _ :: _ =>
    { b with
      panels := setEntry b.panels i ((entry b.panels i).map (fun pn => pn.markRows (fun row => rows.contains row)))
      line := abortRows b.line i rows }

/-- The indices of the panel table. -/
def panelIndices : List Nat := [1, 2, 3, 4, 5, 6, 7, 8]

/-- The rows whose composed text differs between the two states are marked dirty, panel by panel, and a frame of one of
them aborted (R159, R160, R165). It compares the state before with the state behind every change of a record of which an
event may hand the board more than one, and behind every event (log 11). -/
def markChanged (old new : State) : State :=
  new.setBoard (panelIndices.foldl (fun b i => b.dirty i (changedRows old new i)) new.board)

/-- Some row's composed text has changed. -/
def anyChanged (old new : State) : Bool := panelIndices.any (fun i => !(changedRows old new i).isEmpty)

/-- Some row is dirty that was not. -/
def newlyDirty (old new : List (Option Panel)) : Bool :=
  (old.zip new).any (fun e =>
    match e with
    | (some po, some pn) => (po.marks.zip pn.marks).any (fun m => !m.1.dirty && m.2.dirty)
    | (some _, none) | (none, some _) | (none, none) => false)

end Sys2Proof.Machine
end

