-- ==== Sys2Proof/Machine/Ops.lean ====
section
/-! DEFINITION. The operations the blocks share: the transmitters and the posting of notices, the lights, the countdown,
the gates, the wind contexts, the clearance timer, and the two procedures every void and every publication goes
through. -/

namespace Sys2Proof.Machine

/-! Transmitters and notices -/

/-- A free transmitter begins the first frame that is ready: the oldest busy entry, the reply of the oldest place if
its request has been taken, the notice at the head (R177). -/
def Link.beginNext (l : Link) : Link :=
  match l.sending with
  | some _ => l
  | none =>
    match l.busy with
    | e :: rest => { l with busy := rest, sending := some (.busy e) }
    | [] =>
      match l.queue with
      | .answered r :: _ => { l with sending := some (.reply r) }
      | _ =>
        match l.notices with
        | n :: rest => { l with notices := rest, sending := some (.notice n) }
        | [] => l

/-- A notice posted to one link: placed at the tail, or lost where 32 are held (R178, R179). A free transmitter begins
it at once (log 6). -/
def Link.post (l : Link) (n : Notice) : Link :=
  if l.notices.length < 32 then { l with notices := l.notices ++ [n] }.beginNext else { l with noticeLost := true }

/-- A notice posted to both links (R178). -/
def State.post (s : State) (n : Notice) : State :=
  (s.setControl (s.control.post n)).setConsole (s.console.post n)

/-! Lights, countdown and gates -/

/-- The whole seconds the COUNTDOWN item shows (R156). -/
def countdownSeconds (c : Countdown) (now : HillTime) : Option Nat :=
  match c with
  | .idle => none
  | .running _ expiry => some (secUp (ticksLeft expiry now))
  | .held _ remaining => some (secUp remaining)

/-- The seconds a field is rendered with: those given for COUNTDOWN, none for another item. -/
def FieldDesc.shown (d : FieldDesc) (seconds : Option Nat) : Option Nat :=
  if d.item = .countdown then seconds else none

/-- Every COUNTDOWN field rendered from the countdown as it stands (R156, R159; log 12). -/
def State.showCountdown (s : State) : State :=
  s.setBoard { s.board with
    countdownShown := s.board.fields.map
      (fun e => e.bind (fun d => d.shown (countdownSeconds s.start.countdown s.clock))) }

/-- A change of light state, with its LAMP notice. The cadence of GREEN_FLASH begins lit and toggles every 500 ms
(R40, R41, R42); COUNTDOWN is rendered again with LIGHT (R159). -/
def State.toLight (s : State) (light : Light) (bib remaining : Option Nat) : State :=
  (s.setStart { s.start with
      light := light
      cadence := if light = .greenFlash then some (true, plusTicks s.clock 50000) else none }).showCountdown.post
    (.lamp light bib remaining)

/-- The jury gate set, which leaves the staged gate as given; where it changes, COUNTDOWN is rendered again with JURY_GATE
(R159). -/
def State.toGate (s : State) (g : Nat) (staged : Option (Nat × Nat)) : State :=
  let s1 := s.setStart { s.start with juryGate := g, staged := staged }
  if g = s.start.juryGate then s1 else s1.showCountdown

/-- A change of countdown state, on which the COUNTDOWN item is rendered again (R43, R159). -/
def State.toCountdown (s : State) (c : Countdown) : State :=
  (s.setStart { s.start with countdown := c }).showCountdown

/-- The remaining ticks of the countdown at the present hill time (R43). -/
def State.countdownLeft (s : State) : Option Nat :=
  match s.start.countdown with
  | .idle => none
  | .running _ expiry => some (ticksLeft expiry s.clock)
  | .held _ remaining => some remaining

/-- The staged gate that waits on the record is applied, with its GATE notice (R60, R61). -/
def State.applyStaged (s : State) (j : Nat) : State :=
  match s.start.staged with
  | some (g, waits) =>
    if waits = j then
      (s.toGate g none).post (.gate g .staged (some j))
    else s
  | none => s

/-- The gate range: the hill record's, or gate 1 alone (R29). -/
def State.gateRange (s : State) : Nat × Nat :=
  match s.scoring.hill with
  | some h => (h.lowest, h.highest)
  | none => (1, 1)

/-! Wind contexts as the records see them -/

/-- The jump number a context is bound to (R15). -/
def Round.binding (r : Round) : Ctx → Option Nat
  | .a => r.bindA
  | .b => r.bindB

/-- The binding map with one context changed. -/
def Round.setBinding (r : Round) (c : Ctx) (v : Option Nat) : Round :=
  match c with
  | .a => { r with bindA := v }
  | .b => { r with bindB := v }

/-- The contents of a context. -/
def WindRx.ctx (w : WindRx) : Ctx → Context
  | .a => w.ctxA
  | .b => w.ctxB

/-- The receiver with the contents of a context changed. -/
def WindRx.setCtx (w : WindRx) (c : Ctx) (v : Context) : WindRx :=
  match c with
  | .a => { w with ctxA := v }
  | .b => { w with ctxB := v }

/-- The first free context, A before B (R15). -/
def Round.freeCtx (r : Round) : Option Ctx :=
  if r.bindA.isNone then some .a else if r.bindB.isNone then some .b else none

/-- The context bound to the jump number. -/
def Round.ctxOf (r : Round) (j : Nat) : Option Ctx :=
  if r.bindA = some j then some .a else if r.bindB = some j then some .b else none

/-- A context is bound to the record and reset to waiting (R15, R83). -/
def State.bindCtx (s : State) (c : Ctx) (j : Nat) : State :=
  (s.setRound ((s.round.setBinding c (some j)).modify j (fun r => { r with context := some c }))).setWind
    (s.wind.setCtx c (Context.empty .waiting))

/-- The context of the record, if it holds one, is freed and its contents discarded (R16, R83). -/
def State.freeCtxOf (s : State) (j : Nat) : State :=
  match s.round.ctxOf j with
  | some c =>
    (s.setRound ((s.round.setBinding c none).modify j (fun r => { r with context := none }))).setWind
      (s.wind.setCtx c (Context.empty .closed))
  | none => s

/-! Clearance timer -/

/-- The clearance timer is started with the expiry; one that is not later than now leaves it not running (R18). -/
def State.startClearance (s : State) (expiry : HillTime) : State :=
  s.setRound { s.round with clearance := if reached s.clock expiry then none else some expiry }

/-- The hill is clear: no record INRUN or AIRBORNE, and the clearance timer not running (R17). -/
def State.hillClear (s : State) : Bool :=
  (s.round.inState RecState.onHill).isNone && s.round.clearance.isNone

/-! Publication -/

/-- What the RSLT notice of a record carries (R22). -/
def resultNotice (r : Record) (amended : Bool) : ResultNotice :=
  { jump := r.jump, bib := r.bib, juryGate := r.juryGate, usedGate := r.usedGate, speed := r.speed,
    confirmed := r.confirmed, proposed := r.proposed, jumpWind := r.jumpWind, distPoints := r.distPoints,
    gateComp := r.gateComp, windComp := r.windComp, total := r.total, flags := r.flags, amended := amended }

/-- The record the publication check would publish: the CONFIRMED record with the lowest jump number, if every record
with a lower number is terminal (R21). -/
def Round.publishable (r : Round) : Option Record :=
  match sortByJump (r.records.filter (fun x => x.state == .confirmed)) with
  | x :: _ => if r.records.all (fun y => x.jump ≤ y.jump || y.state.terminal) then some x else none
  | [] => none

/-- A record is published: PUBLISHED, its context freed, its RSLT sent (R21). The change is handed to the board as it is
made, ahead of the next publication (R159). -/
def State.publish (s : State) (r : Record) : State :=
  (markChanged s ((s.modifyRecord r.jump (fun x => { x with state := .published })).freeCtxOf r.jump)).post
    (.rslt (resultNotice r false))

/-- The publication check, record by record in jump order (R21). -/
def publishLoop : Nat → State → State
  | 0, s => s
  | n + 1, s =>
    match s.round.publishable with
    | some r => publishLoop n (s.publish r)
    | none => s

/-- The publication check: each pass publishes one record, so the slots of the table bound the passes (R21). -/
def State.publicationCheck (s : State) : State := publishLoop s.round.table.length s

/-! The void procedure -/

/-- The work a void leaves behind at the blocks that own timers of the record (R20, R121). -/
def State.stopTimersOf (s : State) (from_ : RecState) : State :=
  match from_ with
  | .released => s.toCountdown .idle
  | .inrun =>
    s.setFlight { s.flight with inrunLimit := none, trapJump := none, trapTime := none, trapDone := false }
  | .airborne => s.setFlight { s.flight with landingLimit := none, watch := none }
  | .called | .awaiting | .review | .confirmed | .published | .voided => s

/-- The remaining time a void of a RELEASED record writes into it, in milliseconds (R20). -/
def State.voidRemaining (s : State) (r : Record) : Option Nat :=
  if r.state = .released then s.countdownLeft.map msUp else r.remaining

/-- The lights after a void: RED with the bib and, for a RELEASED record, the remaining time (R20, R42). -/
def State.voidLights (s : State) (r : Record) (remaining : Option Nat) : State :=
  match r.state with
  | .called => s.toLight .red (some r.bib) none
  | .released => s.toLight .red (some r.bib) remaining
  | .inrun | .airborne | .awaiting | .review | .confirmed | .published | .voided => s

/-- The void procedure (R20): the record VOIDED with its reason, its context freed, VOID sent; then LAMP, GATE, the
clearance timer, and the publication check with its RSLT notices. SHUT runs it without the light change (R4). The change
of the record is handed to the board before the publications it allows (R159). -/
def State.voidRecord (s : State) (r : Record) (reason : VoidReason) (requeued lights : Bool) : State :=
  let remaining := s.voidRemaining r
  let s1 := (s.stopTimersOf r.state).modifyRecord r.jump
    (fun x => { x with state := .voided, voidReason := some reason, remaining := remaining })
  let s2 := (markChanged s (s1.freeCtxOf r.jump)).post (.voided r.jump r.bib r.state reason requeued)
  let s3 := if lights then s2.voidLights r remaining else s2
  let s4 := if r.state.stages then s3.applyStaged r.jump else s3
  let s5 := if r.state.onHill then
      s4.startClearance (plusTicks s4.clock (secTicks s4.start.timing.clearance)) else s4
  s5.publicationCheck

/-! Answers of the blocks to requests -/

/-- What the owning block answers to a request: the state it leaves, the result code, the body after the code. -/
structure Answer where
  state : State
  code : ResultCode
  body : List Field
  deriving DecidableEq, Repr

/-- A refusal changes nothing (R176). -/
def refuse (s : State) (code : ResultCode) (body : List Field) : Answer := { state := s, code := code, body := body }

/-- An accepted request. -/
def accept (s : State) (body : List Field) : Answer := { state := s, code := .ok, body := body }

/-- The part is in ROUND. -/
def State.inRound (s : State) : Bool := s.round.part == .round

end Sys2Proof.Machine
end

