-- ==== Sys2Proof/Machine/Board.lean ====
section
/-! DEFINITION. The Board Controller (chapter 8): the arbiter, row frames, panel health, and PANL, FLD, PAGE, CELL. -/

namespace Sys2Proof.Machine

/-! The arbiter -/

/-- The panel may have the line next (R163). -/
def Panel.eligible (pn : Panel) (now : HillTime) : Bool :=
  pn.enabled &&
    match pn.state with
    | .online => pn.marks.any (fun m => m.dirty)
    | .offline => match pn.probeDue with
      | some t => reached now t
      | none => false

/-- The first dirty row, counted from `k`. -/
def firstDirty : Nat → List RowMarks → Option Nat
  | _, [] => none
  | k, m :: l => if m.dirty then some k else firstDirty (k + 1) l

/-- The row sent of a panel taken: the lowest dirty row of an ONLINE panel, row 1 of an OFFLINE one (R163). -/
def Panel.rowToSend (pn : Panel) : Nat :=
  match pn.state with
  | .online => (firstDirty 1 pn.marks).getD 1
  | .offline => 1

/-- The line addresses in the order the arbiter looks at them: past the last address served, then from the lowest
(R163). -/
def addressOrder (last : Option Nat) : List Nat :=
  let l := (List.range 15).map (fun k => k + 1)
  l.filter (fun a => decide (last.getD 0 < a)) ++ l.filter (fun a => decide (a ≤ last.getD 0))

/-- The configured panel with a line address, with its index. -/
def panelAt (panels : List (Option Panel)) (address : Nat) : Option (Nat × Panel) :=
  match (indicesWhere (fun pn => pn.address == address) panels).head? with
  | some i => (entry panels i).map (fun pn => (i, pn))
  | none => none

/-- The first eligible panel in the order of the addresses (R163). -/
def firstEligible (panels : List (Option Panel)) (now : HillTime) : List Nat → Option (Nat × Panel)
  | [] => none
  | a :: l =>
    match panelAt panels a with
    | some (i, pn) => if pn.eligible now then some (i, pn) else firstEligible panels now l
    | none => firstEligible panels now l

/-- A row frame starts at the moment of the choice (R164). -/
def startFrame (s : State) (i : Nat) (pn : Panel) : State :=
  let row := pn.rowToSend
  let pn1 := pn.onRow row (fun m => { m with inFlight := true })
  let pn2 := { pn1 with probeDue := match pn.state with
    | .offline => some (plusTicks s.clock 100000)
    | .online => pn.probeDue }
  s.setBoard { s.board with
    panels := setEntry s.board.panels i (some pn2)
    line := .sending { panel := i, address := pn.address, row := row, text := s.composed i pn row, aborted := false }
    lastAddress := some pn.address }

/-- The arbiter's choice, while the line is free (R163). -/
def arbiterChoice (s : State) : State :=
  match s.board.line with
  | .free =>
    match firstEligible s.board.panels s.clock (addressOrder s.board.lastAddress) with
    | some (i, pn) => startFrame s i pn
    | none => s
  | .sending _ | .window _ _ => s

/-- The Board Line is free. -/
def BoardLine.isFree : BoardLine → Bool
  | .free => true
  | .sending _ | .window _ _ => false

/-- The board after an event: changed rows marked, then the arbiter's choice where the line has become free, a row was
marked, or a probe came due (R163; log 11). `marked` says that the event itself marked rows, or is the probe's; rows that
the event's own changes marked on their way show as newly dirty. -/
def boardSync (marked : Bool) (old new : State) : State :=
  let s := markChanged old new
  if marked || anyChanged old new || newlyDirty old.board.panels new.board.panels || !old.board.line.isFree then
    arbiterChoice s
  else s

/-! PANL -/

/-- A change of a panel's state sends PANA (R149). -/
def State.notePanel (s : State) (i address : Nat) (before after : Option PanelState) (cause : PanaCause)
    (miss ack : Nat) : State :=
  if before = after then s else s.post (.pana i address before after cause miss ack s.clock)

/-- A PANL that changes a panel deals with the frame to it: a frame being sent gets its abort mark, an open window ends
at once with the in-flight mark cleared (R168; log 27). -/
def Board.disturb (b : Board) (i : Nat) : Board :=
  match b.line with
  | .sending f => if f.panel = i then { b with line := .sending { f with aborted := true } } else b
  | .window f _ =>
    if f.panel = i then
      { b with
        line := .free
        panels := setEntry b.panels i
          ((entry b.panels i).map (fun pn => pn.onRow f.row (fun m => { m with inFlight := false }))) }
    else b
  | .free => b

/-- The body of the PANL reply: index and state (R146). -/
def panlBody (i : Nat) (st : Option PanelState) : List Field := [byteField i, byteField (panelStateCode st)]

/-- The body of a refused PANL; of a refused PERIOD, the refresh period (log 30). -/
def panlRefused : List Field := [.u8 none, .u8 none]

/-- The state of an entry, none for UNCONFIGURED. -/
def panelStateOf (b : Board) (i : Nat) : Option PanelState := (entry b.panels i).map (fun pn => pn.state)

/-- Every field descriptor of the panel lies within the rows and columns (R146 check 5). -/
def fieldsFit (fields : List (Option FieldDesc)) (i rows columns : Nat) : Bool :=
  (fields.filterMap id).all (fun d =>
    d.panel != i || (decide (d.row ≤ rows) && decide (d.column + d.width - 1 ≤ columns)))

/-- Some field descriptor names the panel. -/
def namesPanel (fields : List (Option FieldDesc)) (i : Nat) : Bool :=
  (fields.filterMap id).any (fun d => d.panel == i)

/-- The panel a CONFIGURE writes: a blank page, every row dirty (R147). -/
def configuredPanel (f : PanlFields) (rights : Rights) (enabled : Bool) : Panel :=
  { address := f.address, rows := f.rows, columns := f.columns, rights := rights, enabled := enabled,
    state := if enabled then .online else .offline, miss := 0, ack := 0, probeDue := none,
    page := List.replicate (f.rows * f.columns) 0x20#8,
    marks := List.replicate f.rows { dirty := true, inFlight := false } }

/-- PANL CONFIGURE (R146, R147). -/
def panlConfigure (s : State) (i : Nat) (f : PanlFields) : Answer :=
  if ¬(1 ≤ i ∧ i ≤ 8) then refuse s .outOfRange panlRefused
  else
    match rightsOf f.rights, yesNoOf f.enabled with
    | some rights, some enabled =>
      if ¬((1 ≤ f.address ∧ f.address ≤ 15) ∧ (1 ≤ f.rows ∧ f.rows ≤ 4) ∧ (8 ≤ f.columns ∧ f.columns ≤ 32)) then
        refuse s .outOfRange panlRefused
      else if othersAny (fun pn => pn.address == f.address) i s.board.panels then refuse s .addressInUse panlRefused
      else if (entry s.board.panels i).isSome = true ∧ fieldsFit s.board.fields i f.rows f.columns = false then
        refuse s .fieldConflict panlRefused
      else
        let pn := configuredPanel f rights enabled
        let b := s.board.disturb i
        let s1 := s.setBoard { b with panels := setEntry b.panels i (some pn) }
        accept (s1.notePanel i f.address (panelStateOf s.board i) (some pn.state) .configured 0 0)
          (panlBody i (some pn.state))
    | _, _ => refuse s .outOfRange panlRefused

/-- The panel an UPDATE leaves (R148). -/
def updatedPanel (pn : Panel) (rights : Rights) (enabled : Bool) : Panel :=
  if pn.enabled = enabled then { pn with rights := rights }
  else if enabled then
    { pn with rights := rights, enabled := true, state := .online, miss := 0, ack := 0, probeDue := none }.markRows
      (fun _ => true)
  else { pn with rights := rights, enabled := false, state := .offline, miss := 0, ack := 0, probeDue := none }

/-- PANL UPDATE (R146, R148). -/
def panlUpdate (s : State) (i : Nat) (f : PanlFields) : Answer :=
  if ¬(1 ≤ i ∧ i ≤ 8) then refuse s .outOfRange panlRefused
  else
    match rightsOf f.rights, yesNoOf f.enabled with
    | some rights, some enabled =>
      match entry s.board.panels i with
      | none => refuse s .wrongState panlRefused
      | some pn =>
        let b := if pn.enabled = true ∧ enabled = false then s.board.disturb i else s.board
        let pn' := updatedPanel ((entry b.panels i).getD pn) rights enabled
        let s1 := s.setBoard { b with panels := setEntry b.panels i (some pn') }
        let s2 := if pn.enabled = enabled then s1
          else s1.notePanel i pn.address (some pn.state) (some pn'.state)
            (if enabled then .enabled else .disabled) pn'.miss pn'.ack
        accept s2 (panlBody i (some pn'.state))
    | _, _ => refuse s .outOfRange panlRefused

/-- PANL REMOVE (R146, R147). Its PANA carries the address the entry held, and 0 for the counts the entry no longer has
(R149; log 20). -/
def panlRemove (s : State) (i : Nat) : Answer :=
  if ¬(1 ≤ i ∧ i ≤ 8) then refuse s .outOfRange panlRefused
  else
    match entry s.board.panels i with
    | none => refuse s .wrongState panlRefused
    | some pn =>
      if namesPanel s.board.fields i then refuse s .fieldConflict panlRefused
      else
        let b := s.board.disturb i
        let s1 := s.setBoard { b with panels := setEntry b.panels i none }
        accept (s1.notePanel i pn.address (some pn.state) none .removed 0 0) (panlBody i none)

/-- PANL PERIOD (R146, R148, R162). -/
def panlPeriod (s : State) (period : Nat) : Answer :=
  if period = 0 ∨ (2 ≤ period ∧ period ≤ 60) then
    accept (s.setBoard { s.board with
        refreshPeriod := period
        nextRefresh := if period = 0 then none else some (plusTicks s.clock (secTicks period)) })
      [byteField period]
  else refuse s .outOfRange [.u8 none]

/-- PANL, by its action (R146): CONFIGURE 0, UPDATE 1, REMOVE 2, PERIOD 3; another is out of range. -/
def servePanl (s : State) (i action : Nat) (f : PanlFields) : Answer :=
  match action with
  | 0 => panlConfigure s i f
  | 1 => panlUpdate s i f
  | 2 => panlRemove s i
  | 3 => panlPeriod s f.period
  | _ => refuse s .outOfRange panlRefused

/-- An accepted PANL marks rows dirty where it configures or enables a panel (R147, R148). -/
def panlMarks (old : State) (i action : Nat) (a : Answer) : Bool :=
  match a.code, action with
  | .ok, 0 => true
  | .ok, 1 =>
    (match entry a.state.board.panels i with | some pn => pn.enabled | none => false)
      && !(match entry old.board.panels i with | some pn => pn.enabled | none => false)
  | _, _ => false

/-! FLD -/

/-- The descriptor a SET writes, or none where check 3 of R153 fails. A live item's view is neither read nor checked;
it is kept as BAR, which nothing reads (log 28). -/
def descriptorOf (f : FldFields) : Option FieldDesc :=
  match alignOf f.align, itemOf f.item with
  | some al, some item =>
    if 0x20 ≤ f.fill ∧ f.fill ≤ 0x7E then
      match (if item.isLive then some View.bar else viewOf f.view) with
      | some view =>
        some { panel := f.panel, row := f.row, column := f.column, width := f.width, align := al,
               fill := byteOf f.fill, item := item, view := view }
      | none => none
    else none
  | _, _ => none

/-- Two spans of columns share a cell. -/
def spansMeet (c1 w1 c2 w2 : Nat) : Bool := decide (c1 < c2 + w2 ∧ c2 < c1 + w1)

/-- Another descriptor covers a cell of the same panel and row (R153 check 4). -/
def fieldOverlaps (fields : List (Option FieldDesc)) (i : Nat) (f : FldFields) : Bool :=
  othersAny (fun d => d.panel == f.panel && d.row == f.row && spansMeet d.column d.width f.column f.width) i fields

/-- The body of the FLD reply: the index and whether it holds a field (R153; log 15). -/
def fldBody (i : Nat) (holds : Bool) : List Field := [byteField i, byteField (markCode holds)]

/-- The body of a refused FLD. -/
def fldRefused : List Field := [.u8 none, .u8 none]

/-- The field map with the descriptor at the index set, a COUNTDOWN rendered with the seconds (R154, R156; log 12). -/
def Board.setField (b : Board) (i : Nat) (d : FieldDesc) (seconds : Option Nat) : Board :=
  { b with
    fields := setEntry b.fields i (some d), countdownShown := setEntry b.countdownShown i (d.shown seconds) }

/-- The field map with the descriptor at the index emptied; an empty one stays as it is (R154). -/
def Board.clearField (b : Board) (i : Nat) : Board :=
  match entry b.fields i with
  | some _ => { b with fields := setEntry b.fields i none, countdownShown := setEntry b.countdownShown i none }
  | none => b

/-- FLD SET (R153, R154). A COUNTDOWN is rendered from the remaining time at this moment; no other field is rendered
again (R156, R159; log 12). -/
def fldSet (s : State) (i : Nat) (f : FldFields) : Answer :=
  if ¬(1 ≤ i ∧ i ≤ 48) then refuse s .outOfRange fldRefused
  else
    match entry s.board.panels f.panel with
    | none => refuse s .outOfRange fldRefused
    | some pn =>
      if ¬((1 ≤ f.row ∧ f.row ≤ pn.rows) ∧ (1 ≤ f.width ∧ f.width ≤ 32) ∧ (1 ≤ f.column ∧ f.column ≤ pn.columns)
          ∧ f.column + f.width - 1 ≤ pn.columns) then refuse s .outOfRange fldRefused
      else
        match descriptorOf f with
        | none => refuse s .outOfRange fldRefused
        | some d =>
          if fieldOverlaps s.board.fields i f then refuse s .fieldOverlap fldRefused
          else
            accept (s.setBoard (s.board.setField i d (countdownSeconds s.start.countdown s.clock))) (fldBody i true)

/-- FLD CLEAR (R153, R154). -/
def fldClear (s : State) (i : Nat) : Answer :=
  if 1 ≤ i ∧ i ≤ 48 then
    accept (s.setBoard (s.board.clearField i)) (fldBody i false)
  else refuse s .outOfRange fldRefused

/-- FLD, by its action (R153): SET 0, CLEAR 1; another is out of range. -/
def serveFld (s : State) (i action : Nat) (f : FldFields) : Answer :=
  match action with
  | 0 => fldSet s i f
  | 1 => fldClear s i
  | _ => refuse s .outOfRange fldRefused

/-! PAGE and CELL -/

/-- A page character: one outside 0x20 to 0x7E is stored as '?' (R151). -/
def pageChar (b : Byte) : Byte := if 0x20 ≤ b.toNat ∧ b.toNat ≤ 0x7E then b else 0x3F#8

/-- The write rights admit the link (R151). -/
def Rights.allows : Rights → LinkId → Bool
  | .control, .control => true
  | .console, .console => true
  | .both, _ => true
  | .control, .console => false
  | .console, .control => false

/-- The position of a cell in the page memory. -/
def cellPos (pn : Panel) (row column : Nat) : Nat := (row - 1) * pn.columns + (column - 1)

/-- The characters stored of those given, from a position on: what lies beyond the last cell is dropped (R151). -/
def storedChars (pn : Panel) (pos : Nat) (chars : List Byte) : List Byte :=
  (chars.take (pn.rows * pn.columns - pos)).map pageChar

/-- The page memory after a write from a position on (R151). -/
def writePage (page : List Byte) (pos : Nat) (chars : List Byte) : List Byte :=
  page.take pos ++ chars ++ page.drop (pos + chars.length)

/-- The body of the PAGE reply: characters stored and the next cell, absent past the last cell (R151). -/
def pageBody (pn : Panel) (pos n : Nat) : List Field :=
  if pos + n < pn.rows * pn.columns then
    [byteField n, byteField ((pos + n) / pn.columns + 1), byteField ((pos + n) % pn.columns + 1)]
  else [byteField n, .u8 none, .u8 none]

/-- The body of a refused PAGE: the count of characters is 0 (R176; log 16). -/
def pageRefused : List Field := [byteField 0, .u8 none, .u8 none]

/-- PAGE (R151). The fields keep the texts they show (log 12). -/
def servePage (s : State) (link : LinkId) (i row column : Nat) (chars : List Byte) : Answer :=
  if ¬(1 ≤ i ∧ i ≤ 8) then refuse s .outOfRange pageRefused
  else
    match entry s.board.panels i with
    | none => refuse s .wrongState pageRefused
    | some pn =>
      if pn.rights.allows link then
        if (1 ≤ row ∧ row ≤ pn.rows) ∧ (1 ≤ column ∧ column ≤ pn.columns) ∧ (1 ≤ chars.length ∧ chars.length ≤ 32) then
          let pos := cellPos pn row column
          let stored := storedChars pn pos chars
          accept (s.setBoard { s.board with
              panels := setEntry s.board.panels i (some { pn with page := writePage pn.page pos stored }) })
            (pageBody pn pos stored.length)
        else refuse s .outOfRange pageRefused
      else refuse s .notPermitted pageRefused

/-- The composed characters of a whole panel, row after row (R161). -/
def State.composedPanel (s : State) (i : Nat) (pn : Panel) : List Byte :=
  (List.range pn.rows).flatMap (fun k => s.composed i pn (k + 1))

/-- The dirty and in-flight marks of rows as the CELL reply carries them (R161). -/
def marksFields (l : List RowMarks) : List Field :=
  l.flatMap (fun m => [byteField (markCode m.dirty), byteField (markCode m.inFlight)])

/-- The body of the CELL reply, in the order of R161's list. -/
def cellBody (pn : Panel) (chars : List Byte) (pos : Nat) : List Field :=
  let first := pos / pn.columns
  let last := (pos + chars.length - 1) / pn.columns
  [.bytes chars, byteField chars.length, byteField (panelStateCode (some pn.state)), byteField (yesNoCode pn.enabled),
   byteField pn.miss, byteField pn.ack] ++ marksFields ((pn.marks.drop first).take (last + 1 - first))

/-- The body of a refused CELL. -/
def cellRefused : List Field := [byteField 0, .u8 none, .u8 none, .u8 none, .u8 none]

/-- CELL (R161). -/
def serveCell (s : State) (i row column count : Nat) : Answer :=
  if ¬(1 ≤ i ∧ i ≤ 8) then refuse s .outOfRange cellRefused
  else
    match entry s.board.panels i with
    | none => refuse s .wrongState cellRefused
    | some pn =>
      if (1 ≤ row ∧ row ≤ pn.rows) ∧ (1 ≤ column ∧ column ≤ pn.columns) ∧ (1 ≤ count ∧ count ≤ 32) then
        let pos := cellPos pn row column
        accept s (cellBody pn (((s.composedPanel i pn).drop pos).take count) pos)
      else refuse s .outOfRange cellRefused

/-! Events of the board -/

/-- Every row of every configured panel marked dirty (R162). -/
def markAll (panels : List (Option Panel)) : List (Option Panel) :=
  panels.map (Option.map (fun pn => pn.markRows (fun _ => true)))

/-- The refresh timer has run out. -/
def refreshIsDue (s : State) : Bool :=
  match s.board.nextRefresh with
  | some t => reached s.clock t
  | none => false

/-- REFRESH_EXPIRY (R162): the next expiry is this expiry plus the period. -/
def refreshExpiryEvent (s : State) : State :=
  match s.board.nextRefresh with
  | some t =>
    if reached s.clock t then
      s.setBoard { s.board with
        panels := markAll s.board.panels
        nextRefresh := some (plusTicks t (secTicks s.board.refreshPeriod)) }
    else s
  | none => s

/-- Some OFFLINE panel's probe is due (R163). -/
def probeIsDue (s : State) : Bool :=
  s.board.panels.any (fun e =>
    match e with
    | some pn => pn.enabled && pn.state == .offline && (match pn.probeDue with
      | some t => reached s.clock t
      | none => false)
    | none => false)

/-- The in-flight mark of a frame's row cleared, where the panel still has it. -/
def clearInFlight (panels : List (Option Panel)) (f : RowFrame) : List (Option Panel) :=
  setEntry panels f.panel
    ((entry panels f.panel).map (fun pn => pn.onRow f.row (fun m => { m with inFlight := false })))

/-- ROW_FRAME_END (R165, R166): an aborted frame frees the line; another opens the window of 20 ms. -/
def rowFrameEndEvent (s : State) : State :=
  match s.board.line with
  | .sending f =>
    if f.aborted then s.setBoard { s.board with line := .free, panels := clearInFlight s.board.panels f }
    else s.setBoard { s.board with line := .window f (plusTicks s.clock 2000) }
  | .free | .window _ _ => s

/-- The panel after its outcome is judged (R167). -/
def judgePanel (pn : Panel) (now : HillTime) : Panel :=
  match pn.state with
  | .online => if 4 ≤ pn.miss then { pn with state := .offline, probeDue := some (plusTicks now 100000) } else pn
  | .offline => if 2 ≤ pn.ack then { pn with state := .online, probeDue := none }.markRows (fun _ => true) else pn

/-- The outcome of a frame written to its panel: the panel counted as `pn`, judged, PANA on a change, the line free
(R166, R167). -/
def applyFrameOutcome (s : State) (f : RowFrame) (before : Panel) (pn : Panel) (cause : PanaCause) : State :=
  let pn' := judgePanel pn s.clock
  (s.setBoard { s.board with line := .free, panels := setEntry s.board.panels f.panel (some pn') }).notePanel f.panel
    pn.address (some before.state) (some pn'.state) cause pn'.miss pn'.ack

/-- The panel counted after an acknowledgement: its row is clean if its composed text equals the frame's (R166). -/
def acknowledged (s : State) (f : RowFrame) (pn : Panel) : Panel :=
  let same := s.composed f.panel pn f.row == f.text
  { pn with ack := countUp pn.ack, miss := 0 }.onRow f.row
    (fun m => { dirty := m.dirty && !same, inFlight := false })

/-- ACKNOWLEDGEMENT (R166): the first good frame received whole within the window that carries the frame's address and
row. -/
def acknowledgementEvent (s : State) (frame : LineFrame) : State :=
  match s.board.line with
  | .window f stop =>
    if wholeWithin frame.began s.clock stop 2000 = true ∧ acknowledgementOf frame.bytes = some (f.address, f.row) then
      match entry s.board.panels f.panel with
      | some pn => applyFrameOutcome s f pn (acknowledged s f pn) .recovered
      | none => s.setBoard { s.board with line := .free }
    else s
  | .free | .sending _ => s

/-- The panel counted after a missed window (R166). -/
def missed (f : RowFrame) (pn : Panel) : Panel :=
  { pn with miss := countUp pn.miss, ack := 0 }.onRow f.row (fun m => { m with inFlight := false })

/-- ACK_WINDOW_END (R166). -/
def ackWindowEndEvent (s : State) : State :=
  match s.board.line with
  | .window f stop =>
    if reached s.clock stop then
      match entry s.board.panels f.panel with
      | some pn => applyFrameOutcome s f pn (missed f pn) .misses
      | none => s.setBoard { s.board with line := .free }
    else s
  | .free | .sending _ => s

end Sys2Proof.Machine
end

