-- ==== Sys2Proof/Machine/Scoring.lean ====
section
/-! DEFINITION. The Scoring Unit (chapter 7): sector summaries, the computation of the results, CONF, REVW, AMND. -/

namespace Sys2Proof.Machine

/-- The station means of a closed context, each with its station's sector: only counts of 2 or more give one (R124).
A station that is UNCONFIGURED by then has no sector. -/
def stationMeans (stations : List (Option Station)) (c : Context) : List (Nat × Int) :=
  (stations.zip c.sums).filterMap (fun e =>
    match e.1 with
    | some st => if 2 ≤ e.2.2 then some (st.sector, roundDiv e.2.1 e.2.2) else none
    | none => none)

/-- The summary entry of the sector `k`, if it has a station mean (R125). -/
def sectorSummary (means : List (Nat × Int)) (k : Nat) : Option Summary :=
  match (means.filter (fun m => m.1 == k)).map (fun m => m.2) with
  | [] => none
  | m :: ms => some { sector := k, mean := roundDiv (m :: ms).sum (m :: ms).length, stations := (m :: ms).length }

/-- The sector summaries over the defined sectors 1 to n, in increasing sector order (R125). -/
def sectorSummaries (sectors : List Sector) (stations : List (Option Station)) (c : Context) : List Summary :=
  (List.range sectors.length).filterMap (fun k => sectorSummary (stationMeans stations c) (k + 1))

/-- The five results of a computation (R135). -/
structure Results where
  jumpWind : Option Int
  windComp : Option Int
  distPoints : Option Nat
  gateComp : Option Int
  total : Option Nat
  deriving DecidableEq, Repr

/-- The included sectors for the distance, each with its weight and mean (R136). -/
def includedSectors (sectors : List Sector) (summaries : List Summary) (d : Nat) : List (Nat × Int) :=
  summaries.filterMap (fun e =>
    match (if e.sector = 0 then none else sectors[e.sector - 1]?) with
    | some sec => if 0 < sec.weight ∧ 2 * sec.start < d then some (sec.weight, e.mean) else none
    | none => none)

/-- The jump wind: the weighted mean of the included sectors (R137). -/
def jumpWindOf (inc : List (Nat × Int)) : Option Int :=
  match inc with
  | [] => none
  | e :: l =>
    some (roundDiv ((e :: l).map (fun x => (x.1 : Int) * x.2)).sum ((e :: l).map (fun x => x.1)).sum)

/-- The wind compensation of the jump wind (R138). -/
def windCompOf (h : HillRecord) (w : Option Int) : Int :=
  match w with
  | none => 0
  | some w =>
    if 0 < w then roundDiv (-(w * (h.headFactor : Int))) 1000
    else if w < 0 then roundDiv (-(w * (h.tailFactor : Int))) 1000
    else 0

/-- The distance points, not below 0 (R139). -/
def distPointsOf (h : HillRecord) (d : Nat) : Nat :=
  ((h.basePoints : Int) + roundDiv (((d : Int) - (h.kPoint : Int)) * (h.metreValue : Int)) 20).toNat

/-- The gate the compensation reckons with (R140). -/
def reckonedGate (h : HillRecord) (r : Record) (d : Nat) : Option Nat :=
  if r.flags.reduction = true ∧ d < h.threshold then r.juryGate else r.usedGate

/-- The gate compensation; 0 while the reference gate is unset (R141). -/
def gateCompOf (h : HillRecord) (refGate gate : Option Nat) : Option Int :=
  match refGate with
  | none => some 0
  | some ref =>
    gate.map (fun g => roundDiv (((ref : Int) - (g : Int)) * (h.gateFactor : Int) * (h.metreValue : Int)) 1000)

/-- The total, not below 0 (R142). -/
def totalOf (dist : Nat) (gateComp windComp : Int) : Nat := ((dist : Int) + gateComp + windComp).toNat

/-- The computation of every confirmation and amendment (R135). Without a hill record, which no record outlives, the
results are absent (log 26). -/
def computeResults (sc : Scoring) (r : Record) (d : Nat) : Results :=
  let w := jumpWindOf (includedSectors sc.sectors r.summaries d)
  match sc.hill with
  | none => { jumpWind := w, windComp := none, distPoints := none, gateComp := none, total := none }
  | some h =>
    let wc := windCompOf h w
    let dp := distPointsOf h d
    let gc := gateCompOf h sc.refGate (reckonedGate h r d)
    { jumpWind := w, windComp := some wc, distPoints := some dp, gateComp := gc,
      total := gc.map (fun g => totalOf dp g wc) }

/-- The record with the distance fixed, its flags raised and the results written together (R128 steps 1 to 3, R133
steps 1 to 3). -/
def withResults (sc : Scoring) (d : Nat) (r : Record) : Record :=
  let res := computeResults sc r d
  { r with
    confirmed := some d
    jumpWind := res.jumpWind, windComp := res.windComp, distPoints := res.distPoints, gateComp := res.gateComp,
    total := res.total
    flags := { r.flags with
      corrected := r.flags.corrected || (match r.proposed with | some p => p != d | none => false)
      manual := r.flags.manual || r.proposed.isNone
      noWind := r.flags.noWind || res.jumpWind.isNone } }

/-- The body of the CONF and AMND replies (R128, R133). -/
def confBody : Option Record → List Field
  | none => [.u16 none, .u8 none, .u16 none, .s16 none, .u16 none, .s16 none, .s16 none, .u16 none, .u16 none]
  | some r =>
    [.u16 (some r.jump), byteField r.state.code, .u16 r.confirmed, .s16 r.jumpWind, .u16 r.distPoints, .s16 r.gateComp,
     .s16 r.windComp, .u16 r.total, .u16 (some r.flags.code)]

/-- The states CONF accepts (R127). -/
def RecState.confirmable : RecState → Bool
  | .awaiting | .review | .confirmed => true
  | .called | .released | .inrun | .airborne | .published | .voided => false

/-- The work of an accepted CONF at the distance (R128). The CONFIRMED record is handed to the board before the
publication check runs (R159). -/
def confWork (s : State) (r : Record) (d : Nat) : Answer :=
  let s1 := markChanged s
    (s.modifyRecord r.jump (fun x => { withResults s.scoring d x with state := .confirmed }))
  let s2 := s1.publicationCheck
  accept s2 (confBody (s2.record r.jump))

/-- CONF (R127). -/
def serveConf (s : State) (jump : Nat) (distance : Option Nat) : Answer :=
  match s.record jump with
  | none => refuse s .noSuchJump (confBody none)
  | some r =>
    if r.state.confirmable then
      match distance with
      | some d => if d ≤ 600 then confWork s r d else refuse s .outOfRange (confBody none)
      | none => match r.proposed with
        | some d => confWork s r d
        | none => refuse s .noProposal (confBody none)
    else refuse s .wrongState (confBody none)

/-- The body of the REVW reply (R131). -/
def revwBody (jump : Option Nat) (state : Option RecState) : List Field :=
  [.u16 jump, .u8 (state.map RecState.code)]

/-- REVW (R131). -/
def serveRevw (s : State) (jump : Nat) : Answer :=
  match s.record jump with
  | none => refuse s .noSuchJump (revwBody none none)
  | some r =>
    match r.state with
    | .awaiting =>
      accept (s.modifyRecord r.jump (fun x => { x with state := .review })) (revwBody (some r.jump) (some .review))
    | .review => accept s (revwBody (some r.jump) (some .review))
    | .called | .released | .inrun | .airborne | .confirmed | .published | .voided =>
      refuse s .wrongState (revwBody none none)

/-- An amended record (R133 steps 1 to 3). -/
def amendedRecord (sc : Scoring) (d : Nat) (r : Record) : Record :=
  let x := withResults sc d r
  { x with flags := { x.flags with amended := true } }

/-- AMND (R132, R133). -/
def serveAmnd (s : State) (jump d : Nat) : Answer :=
  match s.record jump with
  | none => refuse s .noSuchJump (confBody none)
  | some r =>
    if r.state = .published then
      if d ≤ 600 then
        let r' := amendedRecord s.scoring d r
        accept ((s.modifyRecord r.jump (amendedRecord s.scoring d)).post (.rslt (resultNotice r' true)))
          (confBody (some r'))
      else refuse s .outOfRange (confBody none)
    else refuse s .wrongState (confBody none)

end Sys2Proof.Machine
end

