-- ==== Sys2Proof/Machine/Start.lean ====
section
/-! DEFINITION. The Start Light Controller (chapter 3): RELS, HOLD, GATE, RDUC and TIMS, the corridor hold, and the
events of the countdown and of the start bar. -/

namespace Sys2Proof.Machine

/-- The body of the RELS reply: jump number, context, used gate, countdown remaining (R48). -/
def relsBody (jump : Option Nat) (c : Option Ctx) (used remaining : Option Nat) : List Field :=
  [.u16 jump, .u8 (c.map (fun x => ctxCode (some x))), .u8 used, .u32 remaining]

/-- The lights for a countdown that starts with the ticks: GREEN above 10 s, GREEN_FLASH otherwise (R48, R49). -/
def lightFor (ticks : Nat) : Light := if ticks > 1000000 then .green else .greenFlash

/-- The used gate written at release: the reduction gate where it lies below the jury gate (R61). -/
def usedGateFor (reduction : Option Nat) (jury : Nat) : Nat :=
  match reduction with
  | some g => if g < jury then g else jury
  | none => jury

/-- The reference gate after a release from the jury gate (R32). -/
def refGateAfterRelease (sc : Scoring) (jury : Nat) : Scoring :=
  match sc.hill, sc.refGate with
  | some h, none => if h.mode = .firstRelease then { sc with refGate := some jury } else sc
  | _, _ => sc

/-- The work of a release on the context, once every check has passed (R48). -/
def releaseWork (s : State) (r : Record) (override : Bool) (c : Ctx) : Answer :=
  let jury := s.start.juryGate
  let used := usedGateFor r.reductionGate jury
  let len := secTicks s.start.timing.countdown
  let s1 := (s.bindCtx c r.jump).modifyRecord r.jump (fun x =>
    { x with releaseTime := some s.clock, juryGate := some jury, usedGate := some used, state := .released,
             flags := { x.flags with override := x.flags.override || override } })
  let s2 := s1.setScoring (refGateAfterRelease s1.scoring jury)
  let s3 := s2.toCountdown (.running r.jump (plusTicks s.clock len))
  let s4 := s3.toLight (lightFor len) (some r.bib) (some (msUp len))
  accept s4 (relsBody (some r.jump) (some c) (some used) (some (msUp len)))

/-- RELS on a CALLED record: hill clear, a free context, the corridor, then the release (R47). -/
def releaseCalled (s : State) (r : Record) (override : Bool) : Answer :=
  if s.hillClear then
    match s.round.freeCtx with
    | some c =>
      if s.corridor.status = .inside ∨ override = true then releaseWork s r override c
      else refuse s .corridorNotIn (relsBody none none none none)
    | none => refuse s .contextBusy (relsBody none none none none)
  else refuse s .hillNotClear (relsBody none none none none)

/-- RELS on a RELEASED record whose countdown is HELD with the ticks (R49). -/
def resumeHeld (s : State) (r : Record) (override : Bool) (heldTicks : Nat) : Answer :=
  if s.corridor.status = .inside ∨ r.flags.override = true ∨ override = true then
    let ticks := max heldTicks (secTicks s.start.timing.resumeMin)
    let s1 := s.modifyRecord r.jump (fun x =>
      { x with holdCause := .none, remaining := none,
               flags := { x.flags with override := x.flags.override || override } })
    let s2 := s1.toCountdown (.running r.jump (plusTicks s.clock ticks))
    let s3 := s2.toLight (lightFor ticks) (some r.bib) (some (msUp ticks))
    accept s3 (relsBody (some r.jump) r.context r.usedGate (some (msUp ticks)))
  else refuse s .corridorNotIn (relsBody none none none none)

/-- RELS (R46). -/
def serveRels (s : State) (jump : Nat) (override : Bool) : Answer :=
  if s.inRound then
    match s.record jump with
    | none => refuse s .noSuchJump (relsBody none none none none)
    | some r =>
      match r.state, s.start.countdown with
      | .called, _ => releaseCalled s r override
      | .released, .held _ ticks => resumeHeld s r override ticks
      | _, _ => refuse s .wrongState (relsBody none none none none)
  else refuse s .wrongState (relsBody none none none none)

/-- A countdown held with the ticks for the cause: record, lights and LAMP (R51, R52). -/
def holdWork (s : State) (r : Record) (cause : HoldCause) (ticks : Nat) : State :=
  let s1 := s.toCountdown (.held r.jump ticks)
  let s2 := s1.modifyRecord r.jump (fun x =>
    { x with remaining := some (msUp ticks), holdCause := cause, flags := { x.flags with held := true } })
  s2.toLight .hold (some r.bib) (some (msUp ticks))

/-- The body of the HOLD reply (R51). -/
def holdBody (jump remaining : Option Nat) : List Field := [.u16 jump, .u32 remaining]

/-- HOLD (R51). -/
def serveHold (s : State) (jump : Nat) : Answer :=
  match s.record jump with
  | none => refuse s .noSuchJump (holdBody none none)
  | some r =>
    match r.state, s.start.countdown with
    | .released, .running _ expiry =>
      accept (holdWork s r .jury (ticksLeft expiry s.clock))
        (holdBody (some r.jump) (some (msUp (ticksLeft expiry s.clock))))
    | _, _ => refuse s .wrongState (holdBody none none)

/-- A change of corridor status away from IN holds the running countdown of a RELEASED record without OVERRIDE (R52,
R53). -/
def corridorHold (s : State) : State :=
  match s.round.inState (fun x => x == .released), s.start.countdown with
  | some r, .running _ expiry => if r.flags.override then s else holdWork s r .corridor (ticksLeft expiry s.clock)
  | _, _ => s

/-- The body of the GATE reply: the jury gate and the staged gate (R59). -/
def gateBody (jury staged : Option Nat) : List Field := [.u8 jury, .u8 staged]

/-- GATE (R59). -/
def serveGate (s : State) (g : Nat) : Answer :=
  if s.gateRange.1 ≤ g ∧ g ≤ s.gateRange.2 then
    match s.round.inState RecState.stages with
    | none =>
      accept ((s.toGate g none).post (.gate g .request none))
        (gateBody (some g) none)
    | some r =>
      accept (s.setStart { s.start with staged := some (g, r.jump) }) (gateBody (some s.start.juryGate) (some g))
  else refuse s .outOfRange (gateBody none none)

/-- The body of the RDUC reply: jump number, reduction gate, jury gate (R62). -/
def rducBody (jump reduction jury : Option Nat) : List Field := [.u16 jump, .u8 reduction, .u8 jury]

/-- RDUC (R62). -/
def serveRduc (s : State) (jump g : Nat) : Answer :=
  match s.record jump with
  | none => refuse s .noSuchJump (rducBody none none none)
  | some r =>
    if r.state = .called then
      if s.gateRange.1 ≤ g ∧ g < s.start.juryGate then
        accept (s.modifyRecord r.jump (fun x =>
            { x with reductionGate := some g, flags := { x.flags with reduction := true } }))
          (rducBody (some r.jump) (some g) (some s.start.juryGate))
      else refuse s .outOfRange (rducBody none none none)
    else refuse s .wrongState (rducBody none none none)

/-- The number of the first TIMS setting outside its range, or none (R63). -/
def timsFault (f : TimsFields) : Option Nat :=
  if ¬(10 ≤ f.countdown ∧ f.countdown ≤ 120) then some 1
  else if ¬(5 ≤ f.resumeMin ∧ f.resumeMin ≤ 60) then some 2
  else if ¬(f.clearance ≤ 30) then some 3
  else if ¬(5 ≤ f.inrun ∧ f.inrun ≤ 30) then some 4
  else if ¬(2 ≤ f.landing ∧ f.landing ≤ 15) then some 5
  else if ¬(10 ≤ f.pairing ∧ f.pairing ≤ 250) then some 6
  else if ¬(1 ≤ f.spread ∧ f.spread ≤ 20) then some 7
  else none

/-- TIMS (R63). -/
def serveTims (s : State) (f : TimsFields) : Answer :=
  match timsFault f with
  | some n => refuse s .outOfRange [byteField n]
  | none => accept (s.setStart { s.start with timing := f }) [byteField 0]

/-- The flash boundary: the expiry less 10 s, reached while the lights are GREEN (R44). -/
def flashBoundaryEvent (s : State) : State :=
  match s.start.countdown with
  | .running j expiry =>
    if s.start.light = .green ∧ reached s.clock (expiry - 1000000#32) then
      s.toLight .greenFlash ((s.record j).map (fun r => r.bib)) (some 10000)
    else s
  | .idle | .held _ _ => s

/-- The cadence of GREEN_FLASH: the green lamp toggles every 500 ms, with no change of light state (R41). -/
def flashCadenceEvent (s : State) : State :=
  match s.start.cadence with
  | some (lit, next) =>
    if reached s.clock next then s.setStart { s.start with cadence := some (!lit, plusTicks next 50000) } else s
  | none => s

/-- The lamps the tower shows: red, yellow, green (R40, R41). -/
def lamps (st : StartLight) : Bool × Bool × Bool :=
  match st.light with
  | .dark => (false, false, false)
  | .red => (true, false, false)
  | .yellow => (false, true, false)
  | .green => (false, false, true)
  | .greenFlash => (false, false, match st.cadence with | some (lit, _) => lit | none => false)
  | .hold => (true, true, false)

/-- The expiry of a RUNNING countdown (R45). -/
def countdownExpiryEvent (s : State) : State :=
  match s.start.countdown with
  | .running j expiry =>
    if reached s.clock expiry then
      match s.expect j .released with
      | some r => s.voidRecord r .startTime false true
      | none => s
    else s
  | .idle | .held _ _ => s

/-- A running countdown passes a whole second, and COUNTDOWN is rendered again (R156). -/
def secondStepEvent (s : State) : State :=
  match s.start.countdown with
  | .running _ _ => s.showCountdown
  | .idle | .held _ _ => s

/-- An edge of the start-bar contact: an opening edge begins a debounce of 2 ms, a closing edge before its end drops it
(R54). -/
def startBarEdgeEvent (s : State) (opens : Bool) : State :=
  s.setStart { s.start with
    barOpen := opens
    barDebounce := afterEdge s.start.barOpen opens s.start.barDebounce s.clock 200 }

/-- The remaining ticks at the departure time (R55). -/
def leftAtDeparture (c : Countdown) (departed : HillTime) : Nat :=
  match c with
  | .idle => 0
  | .running _ expiry => ticksLeft expiry departed
  | .held _ ticks => ticks

/-- Whether the countdown is HELD. -/
def Countdown.isHeld : Countdown → Bool
  | .held _ _ => true
  | .idle | .running _ _ => false

/-- A departure of the RELEASED record (R55). -/
def departReleased (s : State) (r : Record) (departed : HillTime) : State :=
  let ms := msUp (leftAtDeparture s.start.countdown departed)
  let heldStart := r.flags.heldStart || s.start.countdown.isHeld
  let s1 := s.modifyRecord r.jump (fun x =>
    { x with departureTime := some departed, remaining := some ms, state := .inrun,
             flags := { x.flags with heldStart := heldStart } })
  let s2 := s1.toCountdown .idle
  let s3 := s2.setFlight { s2.flight with
    inrunLimit := some { jump := r.jump, expiry := plusTicks departed (secTicks s2.start.timing.inrun) }
    trapJump := some r.jump, trapTime := none, trapDone := false }
  (s3.post (.dept r.jump r.bib departed ms heldStart)).toLight .red (some r.bib) (some ms)

/-- A departure of the CALLED record, an early start (R56). -/
def departCalled (s : State) (r : Record) (departed : HillTime) : State :=
  (s.modifyRecord r.jump (fun x => { x with departureTime := some departed })).voidRecord
    { r with departureTime := some departed } .earlyStart false true

/-- A departure taken: INRUN, an early start, or stray (R55, R56, R57). -/
def takeDeparture (s : State) (departed : HillTime) : State :=
  match s.round.inState RecState.atBar with
  | some r => if r.state = .released then departReleased s r departed else departCalled s r departed
  | none => s.post (.stry .startBar departed none none)

/-- The start-bar debounce completes once the contact has stayed open for 2 ms (R54). -/
def departureEvent (s : State) : State :=
  match completed s.start.barDebounce s.clock 200 with
  | some (t, rest) => takeDeparture (s.setStart { s.start with barDebounce := rest }) t
  | none => s

end Sys2Proof.Machine
end

