-- ==== Sys2Proof/Machine/Corridor.lean ====
section
/-! DEFINITION. The Corridor Monitor (chapter 5): windows, runs, status, CORR. -/

namespace Sys2Proof.Machine

/-- The window length in ticks (R90). -/
def Corridor.lengthTicks (c : Corridor) : Nat := msTicks c.lengthMs

/-- A tangential component handed by the Wind Station Receiver (R91): added to the current window, or kept for the
window that begins at its arrival time, or added to nothing. -/
def Corridor.take (c : Corridor) (tangential : Int) (arrival : HillTime) : Corridor :=
  match c.window with
  | .opensAt t =>
    if reached arrival t then { c with waitSum := c.waitSum + tangential, waitCount := c.waitCount + 1 } else c
  | .current start stop sum count =>
    if reached arrival stop then { c with waitSum := c.waitSum + tangential, waitCount := c.waitCount + 1 }
    else if reached arrival start then { c with window := .current start stop (sum + tangential) (count + 1) }
    else c

/-- The verdict on a window: its mean, absent for an empty window (R92). -/
def windowMean (sum : Int) (count : Nat) : Option Int := if 2 ≤ count then some (roundDiv sum count) else none

/-- The verdict IN: both limits belong to the corridor (R92). -/
def Corridor.insideLimits (c : Corridor) (mean : Int) : Bool := decide (c.lower ≤ mean ∧ mean ≤ c.upper)

/-- The runs after a judged window (R93) and the live corridor wind (R92). -/
def Corridor.judge (c : Corridor) (mean : Option Int) : Corridor :=
  match mean with
  | none => { c with inRun := 0, outRun := 0, emptyRun := countUp c.emptyRun, live := none }
  | some m =>
    if c.insideLimits m then { c with inRun := countUp c.inRun, outRun := 0, emptyRun := 0, live := some m }
    else { c with inRun := 0, outRun := countUp c.outRun, emptyRun := 0, live := some m }

/-- The status after the runs are updated for the window judged (R94). -/
def Corridor.nextStatus (c : Corridor) (mean : Option Int) : CorridorStatus :=
  match mean with
  | none => if c.status ≠ .noData ∧ 3 ≤ c.emptyRun then .noData else c.status
  | some m =>
    if c.insideLimits m then (if c.status ≠ .inside ∧ c.clear ≤ c.inRun then .inside else c.status)
    else (if c.status ≠ .out ∧ c.declare ≤ c.outRun then .out else c.status)

/-- A new window opens at the boundary with the samples that waited for it (R90, R91). -/
def Corridor.openWindow (c : Corridor) (boundary : HillTime) : Corridor :=
  { c with window := .current boundary (boundaryAfter boundary c.lengthTicks) c.waitSum c.waitCount,
           waitSum := 0, waitCount := 0 }

/-- A change of status: the CORR notice, then the change handed to the Start Light Controller (R95, R52, R53). -/
def State.corridorChanged (s : State) (before : CorridorStatus) (time : HillTime) (mean : Option Int) : State :=
  let s1 := s.post (.corr before s.corridor.status time mean s.corridor.inRun s.corridor.outRun s.corridor.emptyRun)
  if before = .inside then corridorHold s1 else s1

/-- A window ends at its boundary: judged, the runs and the status updated, a new window opened (R90, R92 to R95). -/
def endWindow (s : State) (stop : HillTime) (sum : Int) (count : Nat) : State :=
  let mean := windowMean sum count
  let before := s.corridor.status
  let c1 := s.corridor.judge mean
  let c2 := { c1 with status := c1.nextStatus mean }
  let s1 := s.setCorridor { c2.openWindow stop with lastEnd := some stop }
  if c2.status = before then s1 else s1.corridorChanged before stop mean

/-- WINDOW_END: a boundary is reached (R90). -/
def windowEndEvent (s : State) : State :=
  match s.corridor.window with
  | .opensAt t => if reached s.clock t then s.setCorridor (s.corridor.openWindow t) else s
  | .current _ stop sum count => if reached s.clock stop then endWindow s stop sum count else s

/-- The number of the first CORR field that fails, or none (R96). -/
def corrFault (f : CorrFields) : Option Nat :=
  if ¬(-500 ≤ f.lower ∧ f.lower ≤ 500) then some 1
  else if ¬(-500 ≤ f.upper ∧ f.upper ≤ 500 ∧ f.lower < f.upper) then some 2
  else if ¬(500 ≤ f.lengthMs ∧ f.lengthMs ≤ 10000 ∧ f.lengthMs % 500 = 0) then some 3
  else if ¬(1 ≤ f.declare ∧ f.declare ≤ 15) then some 4
  else if ¬(1 ≤ f.clear ∧ f.clear ≤ 15) then some 5
  else none

/-- Whether the first window under a new length opens at once: the hill time is a multiple of it, and no window end at
that hill time has been taken (R97 step 4, R98). -/
def opensAtOnce (c : Corridor) (now : HillTime) (len : Nat) : Bool :=
  now.toNat % len == 0 && c.lastEnd != some now

/-- The boundary that was due next. -/
def Corridor.dueBoundary (c : Corridor) : HillTime :=
  match c.window with
  | .opensAt t => t
  | .current _ stop _ _ => stop

/-- The corridor after an accepted CORR (R97). Samples that already waited for the boundary at this very hill time go
with the window that opens there at once (R91; log 22). -/
def Corridor.reconfigure (c : Corridor) (f : CorrFields) (now : HillTime) : Corridor :=
  let len := msTicks f.lengthMs
  let atOnce := opensAtOnce c now len
  let keep := atOnce && c.dueBoundary == now
  { c with
    lower := f.lower, upper := f.upper, lengthMs := f.lengthMs, declare := f.declare, clear := f.clear
    window := if atOnce then
        .current now (boundaryAfter now len) (if keep then c.waitSum else 0) (if keep then c.waitCount else 0)
      else .opensAt (boundaryAfter now len)
    waitSum := 0, waitCount := 0, inRun := 0, outRun := 0, emptyRun := 0 }

/-- The hill time at which the first window under the new settings opens, which the CORR reply carries (R97). -/
def firstOpening (c : Corridor) (now : HillTime) (len : Nat) : HillTime :=
  if opensAtOnce c now len then now else boundaryAfter now len

/-- CORR (R96, R97). -/
def serveCorr (s : State) (f : CorrFields) : Answer :=
  match corrFault f with
  | some n => refuse s .outOfRange [byteField n, .u32 none]
  | none =>
    accept (s.setCorridor (s.corridor.reconfigure f s.clock))
      [byteField 0, timeField (some (firstOpening s.corridor s.clock (msTicks f.lengthMs)))]

end Sys2Proof.Machine
end

