-- ==== Sys2Proof/Machine/Round.lean ====
section
/-! DEFINITION. The Round Controller (chapter 1): OPEN, SHUT, LIST, DROP, CALL, VOID and JUMP, the clearance timer,
and the READY conditions with the polling that follows the part state. -/

namespace Sys2Proof.Machine

/-! READY and the polling that hangs on it -/

/-- The strip unit polled next: the configured unit with the next higher index, wrapping (R114). -/
def nextUnit (units : List (Option StripUnit)) (last : Option Nat) : Option Nat :=
  let idx := indicesWhere (fun _ => true) units
  match last with
  | none => idx.head?
  | some n =>
    match idx.find? (fun i => decide (n < i)) with
    | some i => some i
    | none => idx.head?

/-- A Strip Line slot of 5 ms begins at the hill time with the next configured unit (R114). -/
def beginStripSlot (f : Flight) (start : HillTime) : Flight :=
  match nextUnit f.units f.lastPolled with
  | some i =>
    { f with
      stripSlot := some { unit := i, address := ((entry f.units i).map (fun u => u.address)).getD 0,
                          ends := plusTicks start 500, answered := false, void := false }
      lastPolled := some i }
  | none => { f with stripSlot := none }

/-- The four READY conditions (R1). -/
def State.readyConditions (s : State) : Bool :=
  s.scoring.hill.isSome
    && !(indicesWhere (fun st => st.enabled) s.wind.stations).isEmpty
    && !(indicesWhere (fun _ => true) s.flight.units).isEmpty
    && (match s.scoring.sectors with | sec :: _ => sec.start == 0 | [] => false)

/-- The part has become UNCONFIGURED: the slot under way runs to its end, and the scan or snapshot ends with it (R72,
R82). Until that end it is in progress with its entries not yet taken (R73). -/
def stopPolling (w : WindRx) : WindRx :=
  match w.slot with
  | some _ => { w with stopping := true }
  | none => { w with scan := none, snapshot := none }

/-- The part is READY: strip polling runs, unless a slot is under way (R114). -/
def resumeStrip (f : Flight) (now : HillTime) : Flight :=
  match f.stripSlot with
  | some _ => f
  | none => beginStripSlot f now

/-- The READY evaluation after an accepted request that can change a condition; a round keeps its state (R1, R2). -/
def State.evaluateReady (s : State) : State :=
  match s.round.part with
  | .round => s
  | .unconfigured | .ready =>
    if s.readyConditions then
      (s.setRound { s.round with part := .ready }).setFlight (resumeStrip s.flight s.clock)
    else
      (s.setRound { s.round with part := .unconfigured }).setWind (stopPolling s.wind)

/-! OPEN and SHUT -/

/-- The reference gate OPEN sets (R31). -/
def refGateAtOpen (sc : Scoring) : Option Nat :=
  match sc.hill with
  | some h => match h.mode with
    | .fixed g => some g
    | .firstRelease => none
  | none => none

/-- OPEN (R3). -/
def serveOpen (s : State) : Answer :=
  match s.round.part with
  | .round => refuse s .wrongState []
  | .unconfigured => refuse s .notConfigured []
  | .ready =>
    let s1 := s.setRound { s.round with part := .round, table := List.replicate 8 none, counter := 1 }
    let s2 := s1.setScoring { s1.scoring with refGate := refGateAtOpen s1.scoring }
    accept (s2.toLight .red none none) []

/-- The states SHUT voids: CALLED, RELEASED, AWAITING, REVIEW (R4). -/
def RecState.shutVoids : RecState → Bool
  | .called | .released | .awaiting | .review => true
  | .inrun | .airborne | .confirmed | .published | .voided => false

/-- SHUT takes one record as it then stands (R4). -/
def shutTake (s : State) (j : Nat) : State :=
  match s.record j with
  | some r => if r.state.shutVoids then s.voidRecord r .roundClosed false false else s
  | none => s

/-- SHUT (R4). -/
def serveShut (s : State) : Answer :=
  if s.inRound then
    if (s.round.inState RecState.onHill).isSome then refuse s .wrongState []
    else
      let s1 := ((sortByJump s.round.records).map (fun r => r.jump)).foldl shutTake s
      let s2 := s1.setRound { s1.round with clearance := none, part := .ready }
      accept (s2.toLight .dark none none) []
  else refuse s .wrongState []

/-! The start list -/

/-- The bib is one of a record in CALLED through CONFIRMED (R6). -/
def Round.bibActive (r : Round) (bib : Nat) : Bool := r.records.any (fun x => x.bib == bib && !x.state.terminal)

/-- The body of the LIST and DROP replies: the number of bibs and the bib at the head (R7, R8). -/
def listBody (l : List Nat) : List Field := [byteField l.length, .u16 l.head?]

/-- The body of a refused LIST or DROP: the count of bibs is 0 (R176; log 16). -/
def listRefused : List Field := [byteField 0, .u16 none]

/-- LIST (R7). -/
def serveList (s : State) (clear : Bool) (bibs : List Nat) : Answer :=
  let base := if clear then [] else s.round.startList
  if ((clear = true ∨ 1 ≤ bibs.length) ∧ bibs.length ≤ 16) ∧ ∀ b ∈ bibs, 1 ≤ b ∧ b ≤ 999 then
    if ¬ bibs.Nodup ∨ (∃ b ∈ bibs, b ∈ base ∨ s.round.bibActive b = true) then refuse s .duplicateBib listRefused
    else if base.length + bibs.length > 96 then refuse s .listFull listRefused
    else
      accept (s.setRound { s.round with startList := base ++ bibs }) (listBody (base ++ bibs))
  else refuse s .outOfRange listRefused

/-- DROP (R8). -/
def serveDrop (s : State) (bib : Nat) : Answer :=
  if 1 ≤ bib ∧ bib ≤ 999 then
    if bib ∈ s.round.startList then
      accept (s.setRound { s.round with startList := s.round.startList.erase bib })
        (listBody (s.round.startList.erase bib))
    else refuse s .notInList listRefused
  else refuse s .outOfRange listRefused

/-! CALL -/

/-- The position of the first slot that passes `p`. -/
def firstSlot (p : Option Record → Bool) : List (Option Record) → Nat → Option Nat
  | [], _ => none
  | x :: l, i => if p x then some i else firstSlot p l (i + 1)

/-- The slot CALL fills: the lowest never-used one, else the one of the terminal record with the lowest jump number
(R9). -/
def callSlot (table : List (Option Record)) : Option Nat :=
  match firstSlot (fun x => x.isNone) table 0 with
  | some i => some i
  | none =>
    match sortByJump ((table.filterMap id).filter (fun x => x.state.terminal)) with
    | r :: _ => firstSlot (fun x => match x with | some y => y.jump == r.jump | none => false) table 0
    | [] => none

/-- The record a CALL creates (R11). -/
def newRecord (jump bib : Nat) (now : HillTime) : Record :=
  { jump := jump, bib := bib, state := .called, context := none, reductionGate := none, juryGate := none,
    usedGate := none, callTime := now, releaseTime := none, departureTime := none, takeoffTime := none,
    landingTime := none, remaining := none, holdCause := .none, speed := none, flightTime := none,
    landingMark := none, spread := none, proposed := none, confirmed := none, summaries := [], jumpWind := none,
    distPoints := none, gateComp := none, windComp := none, total := none, flags := {}, voidReason := none }

/-- The body of the CALL reply (R14). -/
def callBody (jump bib : Option Nat) : List Field := [.u16 jump, .u16 bib]

/-- The work of an accepted CALL of the bib (R14). -/
def callWork (s : State) (bib : Nat) : Answer :=
  let j := s.round.counter
  let table := match callSlot s.round.table with
    | some i => s.round.table.set i (some (newRecord j bib s.clock))
    | none => s.round.table
  let s1 := s.setRound { s.round with startList := s.round.startList.erase bib, table := table, counter := j + 1 }
  accept (s1.toLight .yellow (some bib) none) (callBody (some j) (some bib))

/-- The bib a CALL means, or the code of its fourth check (R13). -/
def callBib (l : List Nat) (bib : Option Nat) : Except ResultCode Nat :=
  match bib with
  | none => match l with
    | b :: _ => .ok b
    | [] => .error .listEmpty
  | some b => if b ∈ l then .ok b else .error .notInList

/-- CALL (R13). -/
def serveCall (s : State) (bib : Option Nat) : Answer :=
  if s.inRound then
    if (match bib with | some b => decide (1 ≤ b ∧ b ≤ 999) | none => true) then
      if (s.round.inState RecState.atBar).isSome then refuse s .barOccupied (callBody none none)
      else
        match callBib s.round.startList bib with
        | .error code => refuse s code (callBody none none)
        | .ok b => if s.round.counter ≤ 65534 then callWork s b else refuse s .outOfRange (callBody none none)
    else refuse s .outOfRange (callBody none none)
  else refuse s .wrongState (callBody none none)

/-! VOID, JUMP and the clearance timer -/

/-- The body of the VOID reply: jump number and reason (R19). -/
def voidBody (jump : Option Nat) (reason : Option VoidReason) : List Field :=
  [.u16 jump, .u8 (reason.map VoidReason.code)]

/-- VOID (R19). With REQUEUE the bib goes to the head of the start list. -/
def serveVoid (s : State) (jump : Nat) (requeue : Bool) : Answer :=
  match s.record jump with
  | none => refuse s .noSuchJump (voidBody none none)
  | some r =>
    if r.state.terminal then refuse s .wrongState (voidBody none none)
    else if requeue = true ∧ ¬ s.round.startList.length < 96 then refuse s .listFull (voidBody none none)
    else
      let reason : VoidReason := if requeue then .juryRestart else .juryCancel
      let s1 := s.voidRecord r reason requeue true
      let s2 := if requeue then s1.setRound { s1.round with startList := r.bib :: s1.round.startList } else s1
      accept s2 (voidBody (some r.jump) (some reason))

/-- JUMP (R24). -/
def serveJump (s : State) (jump : Nat) : Answer :=
  match s.record jump with
  | none => refuse s .noSuchJump (recordBody none)
  | some r => accept s (recordBody (some r))

/-- The clearance timer runs out at its expiry (R18). -/
def clearanceExpiryEvent (s : State) : State :=
  match s.round.clearance with
  | some expiry => if reached s.clock expiry then s.setRound { s.round with clearance := none } else s
  | none => s

end Sys2Proof.Machine
end

