-- ==== Sys2Proof/Machine/Wind.lean ====
section
/-! DEFINITION. The Wind Station Receiver (chapter 4): STN and SCAN, scanning, answers and health, the tangential
component, the take-off snapshot, the wind contexts, TRCE and WIND. -/

namespace Sys2Proof.Machine

/-! STN -/

/-- A station is configured and enabled. -/
def stationEnabled (w : WindRx) (i : Nat) : Bool :=
  match entry w.stations i with | some st => st.enabled | none => false

/-- The state of an entry, none for UNCONFIGURED. -/
def stationStateOf (w : WindRx) (i : Nat) : Option StationState := (entry w.stations i).map (fun st => st.state)

/-- The poll in its slot runs on, but its outcome is not applied to the station (R67, R68). -/
def voidStationSlot (w : WindRx) (i : Nat) : WindRx :=
  { w with slot := w.slot.map (fun sl => if sl.station = i then { sl with void := true } else sl) }

/-- A change of a station's state sends STNA; the address is the one the entry holds or held (R78; log 20). -/
def State.noteStation (s : State) (i address : Nat) (before after : Option StationState) (cause : StnaCause)
    (flags : StationFlags) : State :=
  if before = after then s else s.post (.stna i address before after cause flags s.clock)

/-- The body of the STN reply: index and state (R66). -/
def stnBody (i : Nat) (st : Option StationState) : List Field := [byteField i, byteField (stationStateCode st)]

/-- The body of a refused STN. -/
def stnRefused : List Field := [.u8 none, .u8 none]

/-- The entry a CONFIGURE writes (R67). -/
def configuredStation (f : StnFields) : Station :=
  { address := f.address, sector := f.sector, axis := f.axis, member := f.member, enabled := f.enabled,
    state := if f.enabled then .active else .disabled, miss := 0, good := 0, latest := none, flags := {} }

/-- STN CONFIGURE (R66, R67). -/
def stnConfigure (s : State) (i : Nat) (f : StnFields) : Answer :=
  if s.inRound then refuse s .roundOpen stnRefused
  else if ¬(1 ≤ i ∧ i ≤ 12) then refuse s .outOfRange stnRefused
  else if ¬((1 ≤ f.address ∧ f.address ≤ 62) ∧ (1 ≤ f.sector ∧ f.sector ≤ 6) ∧ f.axis ≤ 359) then
    refuse s .outOfRange stnRefused
  else if othersAny (fun st => st.address == f.address) i s.wind.stations then refuse s .addressInUse stnRefused
  else
    let st := configuredStation f
    let w := voidStationSlot s.wind i
    let s1 := s.setWind { w with stations := setEntry w.stations i (some st) }
    let s2 := s1.noteStation i f.address (stationStateOf s.wind i) (some st.state) .configured {}
    accept s2.evaluateReady (stnBody i (some st.state))

/-- The entry an UPDATE leaves (R68). -/
def updatedStation (st : Station) (f : StnFields) : Station :=
  if st.enabled = f.enabled then { st with member := f.member }
  else
    { st with member := f.member, enabled := f.enabled, state := if f.enabled then .active else .disabled,
              miss := 0, good := 0, latest := none, flags := if f.enabled then st.flags else {} }

/-- STN UPDATE (R66, R68). -/
def stnUpdate (s : State) (i : Nat) (f : StnFields) : Answer :=
  if ¬(1 ≤ i ∧ i ≤ 12) then refuse s .outOfRange stnRefused
  else
    match entry s.wind.stations i with
    | none => refuse s .wrongState stnRefused
    | some st =>
      if s.inRound = true ∧ f.enabled = false ∧ othersAny (fun x => x.enabled) i s.wind.stations = false then
        refuse s .roundOpen stnRefused
      else
        let st' := updatedStation st f
        let w := if st.enabled = true ∧ f.enabled = false then voidStationSlot s.wind i else s.wind
        let s1 := s.setWind { w with stations := setEntry w.stations i (some st') }
        let s2 := s1.noteStation i st.address (some st.state) (some st'.state)
          (if f.enabled then .enabled else .disabled) st'.flags
        accept s2.evaluateReady (stnBody i (some st'.state))

/-- STN REMOVE (R66, R67). -/
def stnRemove (s : State) (i : Nat) : Answer :=
  if s.inRound then refuse s .roundOpen stnRefused
  else if ¬(1 ≤ i ∧ i ≤ 12) then refuse s .outOfRange stnRefused
  else
    match entry s.wind.stations i with
    | none => refuse s .wrongState stnRefused
    | some st =>
      let w := voidStationSlot s.wind i
      let s1 := s.setWind { w with stations := setEntry w.stations i none, scanList := w.scanList.filter (· != i) }
      let s2 := s1.noteStation i st.address (some st.state) none .removed {}
      accept s2.evaluateReady (stnBody i none)

/-- STN, by its action (R66): CONFIGURE 0, UPDATE 1, REMOVE 2; another action is out of range. -/
def serveStn (s : State) (i action : Nat) (f : StnFields) : Answer :=
  match action with
  | 0 => stnConfigure s i f
  | 1 => stnUpdate s i f
  | 2 => stnRemove s i
  | _ => refuse s .outOfRange stnRefused

/-! SCAN -/

/-- The body of the SCAN reply: the length of the standing list and the period (R70). -/
def scanBody (len : Nat) (period : Option Nat) : List Field := [byteField len, .u16 period]

/-- The work of a SCAN whose checks 1 to 5 hold and whose list is `l` (R70). -/
def scanWork (s : State) (f : ScanFields) (l : List Nat) : Answer :=
  accept (s.setWind { s.wind with
      scanPeriod := f.period, silentCount := f.silent, clearCount := f.clear, scanList := l })
    (scanBody l.length (some f.period))

/-- Checks 2 and 3 of R70. -/
def scanSettingsFit (f : ScanFields) : Bool :=
  decide ((100 ≤ f.period ∧ f.period ≤ 2000 ∧ f.period % 10 = 0) ∧ (1 ≤ f.silent ∧ f.silent ≤ 15)
    ∧ (1 ≤ f.clear ∧ f.clear ≤ 15))

/-- Check 5 of R70: every entry names a configured station. -/
def scanEntriesFit (w : WindRx) (l : List Nat) : Bool :=
  l.all (fun i => decide (1 ≤ i ∧ i ≤ 12) && (entry w.stations i).isSome)

/-- SCAN REPLACE (R70). -/
def scanReplace (s : State) (f : ScanFields) : Answer :=
  if scanSettingsFit f = true ∧ (1 ≤ f.entries.length ∧ f.entries.length ≤ 16) ∧ scanEntriesFit s.wind f.entries = true
  then scanWork s f f.entries
  else refuse s .outOfRange (scanBody 0 none)

/-- SCAN ADD (R70). -/
def scanAdd (s : State) (f : ScanFields) : Answer :=
  if scanSettingsFit f = true ∧ (1 ≤ f.entries.length ∧ f.entries.length ≤ 16) ∧ scanEntriesFit s.wind f.entries = true
  then
    if s.wind.scanList.length + f.entries.length ≤ 16 then scanWork s f (s.wind.scanList ++ f.entries)
    else refuse s .listFull (scanBody 0 none)
  else refuse s .outOfRange (scanBody 0 none)

/-- SCAN KEEP (R70). -/
def scanKeep (s : State) (f : ScanFields) : Answer :=
  if scanSettingsFit f = true ∧ f.entries = [] then scanWork s f s.wind.scanList
  else refuse s .outOfRange (scanBody 0 none)

/-- SCAN, by its mode (R70): REPLACE 0, ADD 1, KEEP 2; another mode is out of range. -/
def serveScan (s : State) (mode : Nat) (f : ScanFields) : Answer :=
  match mode with
  | 0 => scanReplace s f
  | 1 => scanAdd s f
  | 2 => scanKeep s f
  | _ => refuse s .outOfRange (scanBody 0 none)

/-! Slots of the Station Line -/

/-- A slot of 8 ms that begins at the hill time (R74, R81). -/
def stationSlotAt (kind : PollKind) (station address : Nat) (start : HillTime) : StationSlot :=
  { kind := kind, station := station, address := address, ends := plusTicks start 800, answered := false,
    void := false }

/-- The first entry whose station is configured and enabled, with its address and the entries behind it (R72, R82). -/
def nextPolled (w : WindRx) : List Nat → Option (Nat × Nat × List Nat)
  | [] => none
  | i :: l =>
    match entry w.stations i with
    | some st => if st.enabled then some (i, st.address, l) else nextPolled w l
    | none => nextPolled w l

/-- The scan goes on with the entries, or ends (R72). -/
def goOnScan (w : WindRx) (left : List Nat) (start : HillTime) : WindRx :=
  match nextPolled w left with
  | some (i, addr, rest) => { w with scan := some rest, slot := some (stationSlotAt .poll i addr start) }
  | none => { w with scan := none, slot := none }

/-- The snapshot goes on with the stations, or ends (R82). -/
def goOnSnapshot (w : WindRx) (left : List Nat) (start : HillTime) : WindRx :=
  match nextPolled w left with
  | some (i, addr, rest) =>
    { w with snapshot := some { latchDue := false, left := rest },
             slot := some (stationSlotAt .latchedRead i addr start) }
  | none => { w with snapshot := none, slot := none }

/-- The LATCH slot of a snapshot begins (R81). -/
def beginLatch (w : WindRx) (left : List Nat) (start : HillTime) : WindRx :=
  { w with snapshot := some { latchDue := false, left := left }, slot := some (stationSlotAt .latch 0 0 start) }

/-- What follows a slot that has ended at the hill time: the end of what UNCONFIGURED stopped, the LATCH, the next read,
the next entry, or nothing (R72, R81, R82). -/
def afterSlot (w : WindRx) (stop : HillTime) : WindRx :=
  if w.stopping then { w with scan := none, snapshot := none, slot := none, stopping := false }
  else
    match w.snapshot, w.scan with
    | some sn, _ => if sn.latchDue then beginLatch w sn.left stop else goOnSnapshot w sn.left stop
    | none, some left => goOnScan w left stop
    | none, none => { w with slot := none }

/-- SCAN_TICK (R71, R73, R82): the next tick is set; a scan starts unless the part is UNCONFIGURED, a snapshot runs, or
a scan is in progress, which is an overrun. -/
def scanTickEvent (s : State) : State :=
  let tick := s.wind.nextTick
  if reached s.clock tick then
    let s1 := s.setWind { s.wind with nextTick := plusTicks tick (msTicks s.wind.scanPeriod) }
    match s1.round.part with
    | .unconfigured => s1
    | .ready | .round =>
      match s1.wind.snapshot, s1.wind.scan with
      | some _, _ => s1
      | none, some left => s1.post (.scov tick left.length s1.wind.scanPeriod)
      | none, none => s1.setWind (goOnScan s1.wind s1.wind.scanList tick)
  else s

/-- A take-off starts a snapshot unless one is in progress (R81). The slot under way runs to its end first. A scan that
was to end with that slot has then ended, and the new snapshot goes on behind it (log 35). -/
def startSnapshot (w : WindRx) (now : HillTime) : WindRx :=
  match w.snapshot with
  | some _ => w
  | none =>
    let left := indicesWhere (fun st => st.enabled) w.stations
    match w.slot with
    | some _ => { w with scan := none, snapshot := some { latchDue := true, left := left }, stopping := false }
    | none => beginLatch { w with scan := none, stopping := false } left now

/-! Outcomes, health and samples -/

/-- The outcomes of a poll (R75). -/
inductive Outcome3 where
  | miss | fault | good
  deriving DecidableEq, Repr

/-- The health of a station after an outcome (R77). -/
def healthAfter (silent clear : Nat) (o : Outcome3) (st : Station) : Station :=
  match o with
  | .miss =>
    let m := countUp st.miss
    { st with miss := m, good := 0,
              state := match st.state with
                | .active => if silent ≤ m then .silent else .active
                | .fault => if silent ≤ m then .silent else .fault
                | .silent => .silent
                | .disabled => .disabled }
  | .fault =>
    { st with miss := 0, good := 0,
              state := match st.state with
                | .active | .silent | .fault => .fault
                | .disabled => .disabled }
  | .good =>
    let g := countUp st.good
    { st with good := g, miss := 0,
              state := match st.state with
                | .active => .active
                | .silent => if clear ≤ g then .active else .silent
                | .fault => if clear ≤ g then .active else .fault
                | .disabled => .disabled }

/-- The STNA cause of an outcome that changes the state (R78). -/
def outcomeCause : Outcome3 → StnaCause
  | .miss => .misses
  | .fault => .sensorFault
  | .good => .recovered

/-- An outcome applied to a station, its flags already set, with STNA on a change of state (R77, R78). -/
def applyOutcome (s : State) (i : Nat) (st : Station) (o : Outcome3) : State :=
  let st' := healthAfter s.wind.silentCount s.wind.clearCount o st
  (s.setWind { s.wind with stations := setEntry s.wind.stations i (some st') }).noteStation i st.address
    (some st.state) (some st'.state) (outcomeCause o) st'.flags

/-- The cosines of 0 to 90 degrees in units of 1/10000, rounded half away from zero (R79). -/
def cosTable : List Int :=
  [10000, 9998, 9994, 9986, 9976, 9962, 9945, 9925, 9903, 9877, 9848, 9816, 9781, 9744, 9703, 9659, 9613, 9563, 9511,
   9455, 9397, 9336, 9272, 9205, 9135, 9063, 8988, 8910, 8829, 8746, 8660] ++
  [8572, 8480, 8387, 8290, 8192, 8090, 7986, 7880, 7771, 7660, 7547, 7431, 7314, 7193, 7071, 6947, 6820, 6691, 6561,
   6428, 6293, 6157, 6018, 5878, 5736, 5592, 5446, 5299, 5150, 5000] ++
  [4848, 4695, 4540, 4384, 4226, 4067, 3907, 3746, 3584, 3420, 3256, 3090, 2924, 2756, 2588, 2419, 2250, 2079, 1908,
   1736, 1564, 1392, 1219, 1045, 872, 698, 523, 349, 175, 0]

/-- The table value of a relative angle, 0 to 359 (R79). -/
def cosValue (angle : Nat) : Int :=
  if angle ≤ 90 then cosTable.getD angle 0
  else if angle ≤ 180 then -(cosTable.getD (180 - angle) 0)
  else if angle ≤ 270 then -(cosTable.getD (angle - 180) 0)
  else cosTable.getD (360 - angle) 0

/-- The tangential component of a clamped speed from a direction at a station's axis (R79). -/
def tangentialOf (speed direction axis : Nat) : Int :=
  roundDiv ((speed : Int) * cosValue ((direction + 360 - axis) % 360)) 10000

/-- A used sample (R80). -/
structure UsedSample where
  station : Nat
  speed : Nat
  direction : Nat
  tangential : Int
  time : HillTime
  arrival : HillTime
  snap : Bool
  deriving DecidableEq, Repr

/-- A sample admitted to the sums of an open context (R85). -/
def addToSums (sums : List (Int × Nat)) (station : Nat) (t : Int) : List (Int × Nat) :=
  sums.modify (station - 1) (fun e => (e.1 + t, e.2 + 1))

/-- The settling list with an entry appended; the earliest leaves where 128 are held (R85). -/
def pushSettled (l : List Settled) (e : Settled) : List Settled :=
  if l.length < 128 then l ++ [e] else l.drop 1 ++ [e]

/-- The trace with the sample appended, unless it holds 512 entries (R84). -/
def pushTrace (l : List TraceEntry) (u : UsedSample) : List TraceEntry :=
  if l.length < 512 then l ++ [{ station := u.station, time := u.time, tangential := u.tangential, snap := u.snap }]
  else l

/-- A bound context after a sample is offered to it (R84, R85). -/
def Context.offer (c : Context) (u : UsedSample) : Context :=
  match c.mark, c.start with
  | .closed, _ => c
  | .waiting, _ => { c with trace := pushTrace c.trace u }
  | .opened, some start =>
    if reached u.time start then
      { c with trace := pushTrace c.trace u
               sums := addToSums c.sums u.station u.tangential
               settling := pushSettled c.settling
                 { station := u.station, time := u.time, tangential := u.tangential } }
    else { c with trace := pushTrace c.trace u }
  | .opened, none => { c with trace := pushTrace c.trace u }

/-- The context refuses the sample for a full trace, which raises TRACE_FULL (R84). -/
def Context.traceRefuses (c : Context) : Bool := c.mark != .closed && decide (512 ≤ c.trace.length)

/-- A sample offered to one context, if it is bound (R80, R84). -/
def offerTo (s : State) (c : Ctx) (u : UsedSample) : State :=
  match s.round.binding c with
  | none => s
  | some j =>
    let s1 := s.setWind (s.wind.setCtx c ((s.wind.ctx c).offer u))
    if (s.wind.ctx c).traceRefuses then
      s1.modifyRecord j (fun r => { r with flags := { r.flags with traceFull := true } })
    else s1

/-- A used sample goes to the station's entry, the Corridor Monitor and the bound contexts (R80). -/
def useSample (s : State) (u : UsedSample) : State :=
  match entry s.wind.stations u.station with
  | none => s
  | some st =>
    let st' := { st with latest := some { speed := u.speed, direction := u.direction, tangential := u.tangential,
                                          time := u.time } }
    let s1 := s.setWind { s.wind with stations := setEntry s.wind.stations u.station (some st') }
    let s2 := if st.member then s1.setCorridor (s1.corridor.take u.tangential u.arrival) else s1
    offerTo (offerTo s2 .a u) .b u

/-- A good answer of the polled station: the clamp, the flags, the tangential component, the health, and the use as a
sample if the station was ACTIVE (R76, R77, R79, R80). -/
def goodAnswer (s : State) (i : Nat) (st : Station) (a : StationAnswer) (snap : Bool) : State :=
  let speed := min a.speed 5000
  let st1 := { st with flags := { clamped := decide (5000 < a.speed), mismatch := false } }
  let s1 := applyOutcome s i st1 .good
  if st.state = .active then
    useSample s1 { station := i, speed := speed, direction := a.direction,
                   tangential := tangentialOf speed a.direction st.axis,
                   time := s.clock - BitVec.ofNat 32 a.age, arrival := s.clock, snap := snap }
  else s1

/-- The frame of a slot judged for the polled station (R75). -/
def judgeAnswer (s : State) (i : Nat) (st : Station) (frame : Option StationAnswer) (polled : Nat) (snap : Bool) :
    State :=
  match frame with
  | none => applyOutcome s i st .miss
  | some a =>
    if a.address ≠ polled then
      applyOutcome s i { st with flags := { st.flags with mismatch := true } } .miss
    else if a.sensorFault then applyOutcome s i st .fault
    else if 360 ≤ a.direction then applyOutcome s i st .miss
    else goodAnswer s i st a snap

/-- STATION_ANSWER (R74, R75): the first frame received whole within the slot is its answer; in a LATCH slot, after an
answer, outside a slot, or begun before the slot a frame is discarded. -/
def stationAnswerEvent (s : State) (frame : LineFrame) : State :=
  match s.wind.slot with
  | none => s
  | some sl =>
    if sl.kind = .latch ∨ sl.answered = true ∨ wholeWithin frame.began s.clock sl.ends 800 = false then s
    else
      let s1 := s.setWind { s.wind with slot := some { sl with answered := true } }
      if sl.void then s1
      else
        match entry s1.wind.stations sl.station with
        | none => s1
        | some st => judgeAnswer s1 sl.station st (stationAnswerOf frame.bytes) sl.address (sl.kind == .latchedRead)

/-- The miss of a slot that ends without an answer (R75). -/
def slotMiss (s : State) (sl : StationSlot) : State :=
  if sl.kind = .latch ∨ sl.answered = true ∨ sl.void = true then s
  else
    match entry s.wind.stations sl.station with
    | none => s
    | some st => applyOutcome s sl.station st .miss

/-- STATION_SLOT_END (R74): the miss, if no answer came, then what follows the slot. -/
def stationSlotEndEvent (s : State) : State :=
  match s.wind.slot with
  | none => s
  | some sl =>
    if reached s.clock sl.ends then
      let s1 := slotMiss s sl
      s1.setWind (afterSlot s1.wind sl.ends)
    else s

/-! Opening and closing a context -/

/-- The context of the record opens at its take-off (R85). -/
def openContext (s : State) (j : Nat) (takeoff : HillTime) : State :=
  match s.round.ctxOf j with
  | some c => s.setWind (s.wind.setCtx c { s.wind.ctx c with start := some takeoff, mark := .opened })
  | none => s

/-- A settling entry taken back out of the sums (R86). -/
def takeBack (sums : List (Int × Nat)) (e : Settled) : List (Int × Nat) :=
  sums.modify (e.station - 1) (fun x => (x.1 - e.tangential, x.2 - 1))

/-- A context closed with its window end (R86). -/
def Context.close (c : Context) (stop : HillTime) : Context :=
  { c with stop := some stop
           sums := (c.settling.filter (fun e => laterThan e.time stop)).foldl takeBack c.sums
           settling := []
           mark := .closed }

/-- The close of the record's context (R86). -/
def closeContext (s : State) (j : Nat) (stop : HillTime) : State :=
  match s.round.ctxOf j with
  | some c => s.setWind (s.wind.setCtx c ((s.wind.ctx c).close stop))
  | none => s

/-! TRCE and WIND -/

/-- One trace entry of the TRCE reply (R87). -/
def traceFields (e : TraceEntry) : List Field :=
  [byteField e.station, timeField (some e.time), .s16 (some e.tangential), byteField (markCode e.snap)]

/-- The body of the TRCE reply, in the order of R87's list (log 17). -/
def trceBody (c : Ctx) (x : Context) (full : Bool) (start : Nat) : List Field :=
  let page := (x.trace.drop start).take 20
  [byteField (ctxCode (some c)), .u16 (some x.trace.length), byteField (markCode full), byteField x.mark.code]
    ++ page.flatMap traceFields ++ [.u16 (some (start + page.length))]

/-- The body of a refused TRCE. -/
def trceRefused : List Field := [.u8 none, .u16 (some 0), .u8 none, .u8 none, .u16 none]

/-- TRCE (R87). -/
def serveTrce (s : State) (jump start : Nat) : Answer :=
  match s.record jump with
  | none => refuse s .noSuchJump trceRefused
  | some r =>
    match r.context with
    | none => refuse s .noTrace trceRefused
    | some c => accept s (trceBody c (s.wind.ctx c) r.flags.traceFull start)

/-- One station of the WIND reply, in the order of R88's list; an UNCONFIGURED entry has counts 0 and no flags
(log 19). -/
def windStationFields : Option Station → List Field
  | none =>
    [byteField 0, .u8 none, .u8 none, .u16 none, .u8 none, .u8 none, byteField 0, byteField 0, .u16 none, .u16 none,
     .s16 none, .u32 none, byteField 0]
  | some st =>
    [byteField (stationStateCode (some st.state)), byteField st.address, byteField st.sector, .u16 (some st.axis),
     byteField (yesNoCode st.member), byteField (yesNoCode st.enabled), byteField st.miss, byteField st.good,
     .u16 (st.latest.map (fun x => x.speed)), .u16 (st.latest.map (fun x => x.direction)),
     .s16 (st.latest.map (fun x => x.tangential)), timeField (st.latest.map (fun x => x.time)),
     byteField st.flags.code]

/-- WIND (R88). -/
def serveWind (s : State) : Answer :=
  accept s (s.wind.stations.flatMap windStationFields ++ [byteField s.corridor.status.code, .s16 s.corridor.live])

end Sys2Proof.Machine
end

