-- ==== Sys2Proof/Machine/Flight.lean ====
section
/-! DEFINITION. The Flight Timing Unit (chapter 6): barriers, speed trap, limits, strip units, landing watch, UNIT,
BASE and TRAP. -/

namespace Sys2Proof.Machine

/-! Barrier inputs -/

/-- A barrier input after an edge: an interrupting edge begins a debounce of 1 ms, a clearing edge before its end drops
it (R101). -/
def BarrierInput.edge (b : BarrierInput) (interrupts : Bool) (now : HillTime) : BarrierInput :=
  { broken := interrupts, debounce := afterEdge b.broken interrupts b.debounce now 100 }

/-- BARRIER_INPUT_EDGE (R101). -/
def barrierInputEdgeEvent (s : State) (which : Barrier) (interrupts : Bool) : State :=
  match which with
  | .a => s.setFlight { s.flight with barrierA := s.flight.barrierA.edge interrupts s.clock }
  | .b => s.setFlight { s.flight with barrierB := s.flight.barrierB.edge interrupts s.clock }
  | .takeoff => s.setFlight { s.flight with barrierT := s.flight.barrierT.edge interrupts s.clock }

/-- The edge time of a debounce that has lasted 1 ms, with the input that has given it (R101). -/
def debounced (b : BarrierInput) (now : HillTime) : Option (HillTime × BarrierInput) :=
  (completed b.debounce now 100).map (fun e => (e.1, { b with debounce := e.2 }))

/-! The speed trap -/

/-- The in-run speed from the ticks between the barriers, absent where it is invalid (R104). -/
def speedOf (spacing dt : Nat) : Option Nat :=
  if dt = 0 then none
  else
    let v := (roundDiv ((spacing * 3600 : Nat) : Int) dt).toNat
    if 400 ≤ v ∧ v ≤ 1400 then some v else none

/-- The record after the speed trap's computation (R104). -/
def withSpeed (v : Option Nat) (r : Record) : Record :=
  match v with
  | some x => { r with speed := some x }
  | none => { r with flags := { r.flags with speedInvalid := true } }

/-- An edge of barrier A taken by the trap (R104). -/
def trapEdgeA (s : State) (t : HillTime) : State :=
  match s.round.inState (fun x => x == .inrun) with
  | none => s.post (.stry .barrierA t none none)
  | some r =>
    if s.flight.trapJump = some r.jump ∧ s.flight.trapTime = none ∧ s.flight.trapDone = false then
      s.setFlight { s.flight with trapTime := some t }
    else s

/-- An edge of barrier B taken by the trap (R104). -/
def trapEdgeB (s : State) (t : HillTime) : State :=
  match s.round.inState (fun x => x == .inrun) with
  | none => s.post (.stry .barrierB t none none)
  | some r =>
    match s.flight.trapTime with
    | none => s
    | some a =>
      if s.flight.trapJump = some r.jump ∧ s.flight.trapDone = false then
        (s.setFlight { s.flight with trapDone := true }).modifyRecord r.jump
          (withSpeed (speedOf s.flight.spacing (elapsed t a)))
      else s

/-- SPEED_TRAP_EDGE: the debounce of barrier A or B completes (R101, R104). -/
def speedTrapEdgeEvent (s : State) (which : TrapBarrier) : State :=
  match which with
  | .a =>
    match debounced s.flight.barrierA s.clock with
    | some (t, b) => trapEdgeA (s.setFlight { s.flight with barrierA := b }) t
    | none => s
  | .b =>
    match debounced s.flight.barrierB s.clock with
    | some (t, b) => trapEdgeB (s.setFlight { s.flight with barrierB := b }) t
    | none => s

/-- TRAP (R105). -/
def serveTrap (s : State) (v : Nat) : Answer :=
  if s.inRound then refuse s .roundOpen [.u16 none]
  else if 1000 ≤ v ∧ v ≤ 20000 then accept (s.setFlight { s.flight with spacing := v }) [.u16 (some v)]
  else refuse s .outOfRange [.u16 none]

/-! Take-off and the limits -/

/-- The take-off of the INRUN record at the edge time (R107). -/
def takeoffWork (s : State) (r : Record) (t : HillTime) : State :=
  let invalid := r.flags.speedInvalid || r.speed.isNone
  let s1 := s.modifyRecord r.jump (fun x =>
    { x with takeoffTime := some t, state := .airborne, flags := { x.flags with speedInvalid := invalid } })
  let s2 := s1.setFlight { s1.flight with
    inrunLimit := none, trapJump := none, trapTime := none, trapDone := false
    landingLimit := some { jump := r.jump, expiry := plusTicks t (secTicks s1.start.timing.landing) } }
  let s3 := openContext s2 r.jump t
  let s4 := s3.setWind (startSnapshot s3.wind s3.clock)
  let s5 := s4.post (.tkof r.jump r.bib t (r.departureTime.map (fun d => elapsed t d)) r.speed invalid)
  s5.applyStaged r.jump

/-- TAKEOFF: the debounce of the take-off barrier completes (R101, R107). -/
def takeoffEvent (s : State) : State :=
  match debounced s.flight.barrierT s.clock with
  | none => s
  | some (t, b) =>
    let s1 := s.setFlight { s.flight with barrierT := b }
    match s1.round.inState (fun x => x == .inrun) with
    | some r => takeoffWork s1 r t
    | none => s1.post (.stry .takeoff t none none)

/-- INRUN_LIMIT_EXPIRY (R106). -/
def inrunLimitExpiryEvent (s : State) : State :=
  match s.flight.inrunLimit with
  | none => s
  | some l =>
    if reached s.clock l.expiry then
      let s1 := s.setFlight { s.flight with inrunLimit := none }
      match s1.expect l.jump .inrun with
      | some r => s1.voidRecord r .inrunTimeout false true
      | none => s1
    else s

/-- What PROP carries for a record that has entered AWAITING (R122). -/
def proposalNotice (r : Record) (kept counted : Nat) : ProposalNotice :=
  { jump := r.jump, bib := r.bib, landingTime := r.landingTime, flightTime := r.flightTime,
    landingMark := r.landingMark, spread := r.spread, proposed := r.proposed, kept := kept, counted := counted,
    noContact := r.flags.noContact, ambiguous := r.flags.ambiguous, crowded := r.flags.crowded,
    summaries := r.summaries }

/-- The record `r` has become AWAITING as `r'`: its context closed at `stop`, its summaries formed, the clearance timer
started from `stop`, PROP sent (R119, R120, R124). -/
def enterAwaiting (s : State) (r' : Record) (stop : HillTime) (kept counted : Nat) : State :=
  let c := s.round.ctxOf r'.jump
  let s1 := closeContext s r'.jump stop
  let summaries := match c with
    | some c => sectorSummaries s1.scoring.sectors s1.wind.stations (s1.wind.ctx c)
    | none => []
  let s2 := s1.modifyRecord r'.jump (fun _ => { r' with summaries := summaries })
  let s3 := s2.startClearance (plusTicks stop (secTicks s2.start.timing.clearance))
  s3.post (.prop (proposalNotice { r' with summaries := summaries } kept counted))

/-- LANDING_LIMIT_EXPIRY (R120): the landing-timeout moment is the expiry. -/
def landingLimitExpiryEvent (s : State) : State :=
  match s.flight.landingLimit with
  | none => s
  | some l =>
    if reached s.clock l.expiry then
      let s1 := s.setFlight { s.flight with landingLimit := none }
      match s1.expect l.jump .airborne with
      | some r =>
        enterAwaiting s1 { r with state := .awaiting, flags := { r.flags with noContact := true } } l.expiry 0 0
      | none => s1
    else s

/-! Strip units -/

/-- The marks two units of 24 marks share (R110). -/
def rangesMeet (a b : Nat) : Bool := decide (a ≤ b + 23 ∧ b ≤ a + 23)

/-- The body of the UNIT reply: index and state (R110). -/
def unitBody (i : Nat) (st : Option UnitState) : List Field := [byteField i, byteField (unitStateCode st)]

/-- The body of a refused UNIT. -/
def unitRefused : List Field := [.u8 none, .u8 none]

/-- A change of a unit's state sends UNTA (R111, R116). -/
def State.noteUnit (s : State) (i address : Nat) (before after : Option UnitState) (cause : UntaCause) : State :=
  if before = after then s else s.post (.unta i address before after cause s.clock)

/-- The poll in its slot runs on, but its outcome is not applied to the unit (R111). -/
def voidStripSlot (f : Flight) (i : Nat) : Flight :=
  { f with stripSlot := f.stripSlot.map (fun sl => if sl.unit = i then { sl with void := true } else sl) }

/-- The state of an entry, none for UNCONFIGURED. -/
def unitStateOf (f : Flight) (i : Nat) : Option UnitState := (entry f.units i).map (fun u => u.state)

/-- UNIT CONFIGURE (R110, R111). -/
def unitConfigure (s : State) (i : Nat) (f : UnitFields) : Answer :=
  if s.inRound then refuse s .roundOpen unitRefused
  else if ¬(1 ≤ i ∧ i ≤ 10) then refuse s .outOfRange unitRefused
  else
    match orientationOf f.orientation with
    | none => refuse s .outOfRange unitRefused
    | some o =>
      if ¬((1 ≤ f.address ∧ f.address ≤ 31) ∧ f.firstMark ≤ 216) then refuse s .outOfRange unitRefused
      else if othersAny (fun u => u.address == f.address) i s.flight.units then refuse s .addressInUse unitRefused
      else if othersAny (fun u => rangesMeet u.firstMark f.firstMark) i s.flight.units then
        refuse s .overlap unitRefused
      else
        let u : StripUnit := { address := f.address, firstMark := f.firstMark, orientation := o, state := .online,
                               miss := 0, good := 0 }
        let fl := voidStripSlot s.flight i
        let s1 := s.setFlight { fl with units := setEntry fl.units i (some u) }
        let s2 := s1.noteUnit i f.address (unitStateOf s.flight i) (some .online) .configured
        accept s2.evaluateReady (unitBody i (some .online))

/-- UNIT REMOVE (R110, R111). -/
def unitRemove (s : State) (i : Nat) : Answer :=
  if s.inRound then refuse s .roundOpen unitRefused
  else if ¬(1 ≤ i ∧ i ≤ 10) then refuse s .outOfRange unitRefused
  else
    match entry s.flight.units i with
    | none => refuse s .wrongState unitRefused
    | some u =>
      let fl := voidStripSlot s.flight i
      let s1 := s.setFlight { fl with units := setEntry fl.units i none }
      let s2 := s1.noteUnit i u.address (some u.state) none .removed
      accept s2.evaluateReady (unitBody i none)

/-- UNIT, by its action (R110): CONFIGURE 0, REMOVE 1; in a round every UNIT is refused first. -/
def serveUnit (s : State) (i action : Nat) (f : UnitFields) : Answer :=
  match action with
  | 0 => unitConfigure s i f
  | 1 => unitRemove s i
  | _ => if s.inRound then refuse s .roundOpen unitRefused else refuse s .outOfRange unitRefused

/-- The global mark of a unit's local mark (R112). -/
def globalMark (u : StripUnit) (m : Nat) : Nat :=
  match u.orientation with
  | .ascending => u.firstMark + m
  | .descending => u.firstMark + 23 - m

/-- BASE (R113). -/
def serveBase (s : State) (v : Nat) : Answer :=
  if s.inRound then refuse s .roundOpen [.u16 none]
  else if v ≤ 361 then accept (s.setFlight { s.flight with base := v }) [.u16 (some v)]
  else refuse s .outOfRange [.u16 none]

/-- A unit after a miss, or after a well-formed answer (R116). -/
def unitAfter (wellFormed : Bool) (u : StripUnit) : StripUnit :=
  if wellFormed then
    let g := countUp u.good
    { u with good := g, miss := 0,
             state := match u.state with | .online => .online | .silent => if 2 ≤ g then .online else .silent }
  else
    let m := countUp u.miss
    { u with miss := m, good := 0,
             state := match u.state with | .online => if 6 ≤ m then .silent else .online | .silent => .silent }

/-- An outcome applied to a unit, with UNTA on a change of state (R116). -/
def applyUnitOutcome (s : State) (i : Nat) (u : StripUnit) (wellFormed : Bool) : State :=
  let u' := unitAfter wellFormed u
  (s.setFlight { s.flight with units := setEntry s.flight.units i (some u') }).noteUnit i u.address (some u.state)
    (some u'.state) (if wellFormed then .recovered else .misses)

/-! The landing watch -/

/-- A contact that is not stray: it opens the watch, joins the kept list, or is ignored for crowding (R117, R118). -/
def keepContact (s : State) (r : Record) (c : Contact) : State :=
  match s.flight.watch with
  | none =>
    s.setFlight { s.flight with
      watch := some { jump := r.jump, proposalAt := plusTicks c.arrival 30000, kept := [c] }
      landingLimit := none }
  | some w =>
    if w.kept.length < 8 then s.setFlight { s.flight with watch := some { w with kept := w.kept ++ [c] } }
    else s.modifyRecord r.jump (fun x => { x with flags := { x.flags with crowded := true } })

/-- A contact report judged as it is handed (R117). -/
def takeContact (unit : Nat) (s : State) (c : Contact) : State :=
  match s.round.inState (fun x => x == .airborne) with
  | none => s.post (.stry .strip c.time (some unit) (some c.mark))
  | some r =>
    if (match r.takeoffTime with | some t => reached c.time t | none => true) then keepContact s r c
    else s.post (.stry .strip c.time (some unit) (some c.mark))

/-- The contact reports of a well-formed answer, in the order of its entries (R112, R115). -/
def contactsOf (u : StripUnit) (es : List StripEntry) (arrival : HillTime) : List Contact :=
  es.map (fun e => { mark := globalMark u e.localMark, time := arrival - BitVec.ofNat 32 e.age, arrival := arrival })

/-- Whether an answer to a poll of the address is well formed (R115). -/
def stripWellFormed (polled : Nat) (frame : Option StripAnswer) : Option (List StripEntry) :=
  match frame with
  | none => none
  | some a => if a.address = polled ∧ a.entries.all (fun e => decide (e.localMark ≤ 23)) = true then some a.entries
              else none

/-- STRIP_ANSWER (R114, R115): the first frame received whole within the slot is its answer; any other is discarded. The
unit's health is judged, with its UNTA, before the contacts of the same answer are handed on (log 36). -/
def stripAnswerEvent (s : State) (frame : LineFrame) : State :=
  match s.flight.stripSlot with
  | none => s
  | some sl =>
    if sl.answered = true ∨ wholeWithin frame.began s.clock sl.ends 500 = false then s
    else
      let s1 := s.setFlight { s.flight with stripSlot := some { sl with answered := true } }
      if sl.void then s1
      else
        match entry s1.flight.units sl.unit with
        | none => s1
        | some u =>
          match stripWellFormed sl.address (stripAnswerOf frame.bytes) with
          | none => applyUnitOutcome s1 sl.unit u false
          | some es =>
            (contactsOf u es s.clock).foldl (takeContact sl.unit) (applyUnitOutcome s1 sl.unit u true)

/-- STRIP_SLOT_END (R114): the miss, if no answer came, then the next poll while the part is READY or in ROUND. -/
def stripSlotEndEvent (s : State) : State :=
  match s.flight.stripSlot with
  | none => s
  | some sl =>
    if reached s.clock sl.ends then
      let s1 :=
        if sl.answered = true ∨ sl.void = true then s
        else match entry s.flight.units sl.unit with
          | none => s
          | some u => applyUnitOutcome s sl.unit u false
      match s1.round.part with
      | .unconfigured => s1.setFlight { s1.flight with stripSlot := none }
      | .ready | .round => s1.setFlight (beginStripSlot s1.flight sl.ends)
    else s

/-- The earlier of two hill times. -/
def earlier (t u : HillTime) : HillTime := if reached t u then u else t

/-- The landing time: the earliest contact time among the kept reports (R119). -/
def landingTimeOf (first : Contact) (rest : List Contact) : HillTime :=
  rest.foldl (fun t c => earlier t c.time) first.time

/-- The counted contacts: those at or before the landing time plus the pairing window (R119). -/
def countedOf (kept : List Contact) (landing : HillTime) (pairing : Nat) : List Contact :=
  kept.filter (fun c => decide (elapsed c.time landing ≤ pairing))

/-- The lowest and the highest mark of the contacts, with a starting mark for each. -/
def markBounds (lo hi : Nat) : List Contact → Nat × Nat
  | [] => (lo, hi)
  | c :: l => markBounds (min lo c.mark) (max hi c.mark) l

/-- PROPOSAL_MOMENT judged for an AIRBORNE record with the kept reports (R119). -/
def judgeLanding (s : State) (r : Record) (first : Contact) (rest : List Contact) : State :=
  let landing := landingTimeOf first rest
  let counted := countedOf (first :: rest) landing (msTicks s.start.timing.pairing)
  match counted with
  | [] => s
  | c :: l =>
    let b := markBounds c.mark c.mark l
    let spread := b.2 - b.1
    let r' : Record :=
      { r with
        landingTime := some landing, landingMark := some b.1, spread := some spread
        proposed := some (s.flight.base + b.1)
        flightTime := r.takeoffTime.map (fun t => elapsed landing t)
        state := .awaiting
        flags := { r.flags with
          ambiguous := r.flags.ambiguous || decide (s.start.timing.spread < spread) } }
    enterAwaiting s r' landing (first :: rest).length counted.length

/-- PROPOSAL_MOMENT (R119). -/
def proposalMomentEvent (s : State) : State :=
  match s.flight.watch with
  | none => s
  | some w =>
    if reached s.clock w.proposalAt then
      let s1 := s.setFlight { s.flight with watch := none }
      match s1.expect w.jump .airborne, w.kept with
      | some r, first :: rest => judgeLanding s1 r first rest
      | _, _ => s1
    else s

end Sys2Proof.Machine
end

