-- ==== Sys2Proof/Machine/Hill.lean ====
section
/-! DEFINITION. The hill record and the sector table (chapter 2): HILL and SECT. -/

namespace Sys2Proof.Machine

/-- The number of the first HILL field that fails its check, or none (R27). -/
def hillFault (f : HillFields) : Option Nat :=
  if ¬(1 ≤ f.kPoint ∧ f.kPoint ≤ 600) then some 1
  else if ¬(f.kPoint ≤ f.hillSize ∧ f.hillSize ≤ 600) then some 2
  else if ¬(f.basePoints ≤ 2000) then some 3
  else if ¬(100 ≤ f.metreValue ∧ f.metreValue ≤ 400) then some 4
  else if ¬(f.gateFactor ≤ 1000) then some 5
  else if ¬(f.headFactor ≤ 5000) then some 6
  else if ¬(f.tailFactor ≤ 5000) then some 7
  else if ¬(f.threshold ≤ 600) then some 8
  else if ¬(1 ≤ f.lowest ∧ f.lowest ≤ 40) then some 9
  else if ¬(f.lowest ≤ f.highest ∧ f.highest ≤ 40) then some 10
  else if ¬(f.mode ≤ 1) then some 11
  else if f.mode = 1 ∧ ¬(f.lowest ≤ f.fixedGate ∧ f.fixedGate ≤ f.highest) then some 12
  else none

/-- The hill record a HILL writes; the fixed gate is kept under FIXED only (R26). -/
def hillRecordOf (f : HillFields) : HillRecord :=
  { kPoint := f.kPoint, hillSize := f.hillSize, basePoints := f.basePoints, metreValue := f.metreValue,
    gateFactor := f.gateFactor, headFactor := f.headFactor, tailFactor := f.tailFactor, threshold := f.threshold,
    lowest := f.lowest, highest := f.highest,
    mode := if f.mode = 1 then .fixed f.fixedGate else .firstRelease }

/-- The jury gate moved into a gate range (R28). -/
def clampGate (g lowest highest : Nat) : Nat := if g < lowest then lowest else if highest < g then highest else g

/-- The jury gate follows a new gate range, with a GATE notice where it changes (R28). -/
def State.followRange (s : State) (lowest highest : Nat) : State :=
  let g := clampGate s.start.juryGate lowest highest
  if g = s.start.juryGate then s else (s.toGate g s.start.staged).post (.gate g .range none)

/-- HILL (R27, R28). -/
def serveHill (s : State) (f : HillFields) : Answer :=
  if s.inRound then refuse s .roundOpen [.u8 none]
  else
    match hillFault f with
    | some n => refuse s .outOfRange [byteField n]
    | none =>
      let s1 := s.setScoring { s.scoring with hill := some (hillRecordOf f) }
      accept (s1.evaluateReady.followRange f.lowest f.highest) [byteField 0]

/-- The first of the sectors, numbered from `i`, whose start or weight is out of range (R35 check 2). -/
def sectorRangeFault : Nat → List (Nat × Nat) → Option Nat
  | _, [] => none
  | i, (start, weight) :: l => if start ≤ 300 ∧ weight ≤ 100 then sectorRangeFault (i + 1) l else some i

/-- The first sector, numbered from `i`, whose start does not exceed the start before it (R35 check 4). -/
def sectorOrderFault : Nat → Nat → List (Nat × Nat) → Option Nat
  | _, _, [] => none
  | before, i, (start, _) :: l => if before < start then sectorOrderFault start (i + 1) l else some i

/-- The number SECT reports: 0 for the count, else the sector at fault; none where every check passes (R35). -/
def sectFault (count : Nat) (entries : List (Nat × Nat)) : Option Nat :=
  if 6 < count then some 0
  else
    match sectorRangeFault 1 (entries.take count) with
    | some i => some i
    | none =>
      match entries.take count with
      | [] => none
      | (start, _) :: l => if start = 0 then sectorOrderFault start 2 l else some 1

/-- SECT (R35, R36). -/
def serveSect (s : State) (count : Nat) (entries : List (Nat × Nat)) : Answer :=
  if s.inRound then refuse s .roundOpen [.u8 none]
  else
    match sectFault count entries with
    | some i => refuse s .outOfRange [byteField i]
    | none =>
      let sectors := (entries.take count).map (fun e => { start := e.1, weight := e.2 : Sector })
      accept (s.setScoring { s.scoring with sectors := sectors }).evaluateReady [byteField 0]

end Sys2Proof.Machine
end

