-- ==== Sys2Proof/Config.lean ====
section
/-! DEFINITION. The values the spec leaves open: constants without a body, of which nothing can be proved (log 14). -/

namespace Sys2Proof

/-- Whether a mark byte other than 0 and 1 stands for a present mark: R187 codes absent 0 and present 1 and no
rule refuses another value (log 14, a free value). -/
opaque Config.markPresent : Byte → Bool

/-- Whether a yes/no byte of STN other than the codes of R187 stands for yes: R66 checks neither the member nor
the enabled field (log 14, a free value). -/
opaque Config.yesOf : Byte → Bool

end Sys2Proof
end

