-- ==== Sys2Proof/Machine/Requests.lean ====
section
/-! DEFINITION. The requests as the links carry them: type codes, bodies read and written (R185 to R188), and the
links they belong to (R175). -/

namespace Sys2Proof.Machine

/-- A request with its fields, each as its body carries it. -/
inductive Request where
  | hill (f : HillFields)
  | sect (count : Nat) (entries : List (Nat × Nat))
  | stn (index action : Nat) (f : StnFields)
  | scan (mode : Nat) (f : ScanFields)
  | corr (f : CorrFields)
  | tims (f : TimsFields)
  | unit (index action : Nat) (f : UnitFields)
  | base (value : Nat)
  | trap (value : Nat)
  | panl (index action : Nat) (f : PanlFields)
  | fld (index action : Nat) (f : FldFields)
  | openRound
  | shutRound
  | list (clear : Bool) (bibs : List Nat)
  | drop (bib : Nat)
  | init
  | rels (jump : Nat) (override : Bool)
  | hold (jump : Nat)
  | gate (value : Nat)
  | rduc (jump gateValue : Nat)
  | call (bib : Option Nat)
  | void (jump : Nat) (requeue : Bool)
  | conf (jump : Nat) (distance : Option Nat)
  | revw (jump : Nat)
  | amnd (jump distance : Nat)
  | page (panel row column : Nat) (chars : List Byte)
  | cell (panel row column count : Nat)
  | jump (value : Nat)
  | wind
  | trce (jump start : Nat)
  | stat
  deriving DecidableEq, Repr

/-- The type code of a request (R187). -/
def Request.code : Request → Byte
  | .hill .. => 0x01#8 | .sect .. => 0x02#8 | .stn .. => 0x03#8 | .scan .. => 0x04#8 | .corr .. => 0x05#8
  | .tims .. => 0x06#8 | .unit .. => 0x07#8 | .base .. => 0x08#8 | .trap .. => 0x09#8 | .panl .. => 0x0A#8
  | .fld .. => 0x0B#8 | .openRound => 0x0C#8 | .shutRound => 0x0D#8 | .list .. => 0x0E#8 | .drop .. => 0x0F#8
  | .init => 0x10#8 | .rels .. => 0x11#8 | .hold .. => 0x12#8 | .gate .. => 0x13#8 | .rduc .. => 0x14#8
  | .call .. => 0x15#8 | .void .. => 0x16#8 | .conf .. => 0x17#8 | .revw .. => 0x18#8 | .amnd .. => 0x19#8
  | .page .. => 0x1A#8 | .cell .. => 0x1B#8 | .jump .. => 0x1C#8 | .wind => 0x1D#8 | .trce .. => 0x1E#8
  | .stat => 0x1F#8

/-! Bodies written -/

/-- A mark byte (R187). -/
def markByte (b : Bool) : Byte := byteOf (markCode b)

/-- A biased two-byte value (R186). -/
def biased (x : Int) : List Byte := le16 (x + 32768).toNat

/-- The body of a request (R187, R188). -/
def Request.body : Request → List Byte
  | .hill f =>
    le16 f.kPoint ++ le16 f.hillSize ++ le16 f.basePoints ++ le16 f.metreValue ++ le16 f.gateFactor
      ++ le16 f.headFactor ++ le16 f.tailFactor ++ le16 f.threshold
      ++ [byteOf f.lowest, byteOf f.highest, byteOf f.mode, byteOf f.fixedGate]
  | .sect count entries => byteOf count :: entries.flatMap (fun e => le16 e.1 ++ [byteOf e.2])
  | .stn index action f =>
    [byteOf index, byteOf action, byteOf f.address, byteOf f.sector] ++ le16 f.axis
      ++ [byteOf (yesNoCode f.member), byteOf (yesNoCode f.enabled)]
  | .scan mode f =>
    byteOf mode :: (le16 f.period ++ [byteOf f.silent, byteOf f.clear, byteOf f.entries.length]
      ++ f.entries.map byteOf)
  | .corr f => biased f.lower ++ biased f.upper ++ le16 f.lengthMs ++ [byteOf f.declare, byteOf f.clear]
  | .tims f =>
    [byteOf f.countdown, byteOf f.resumeMin, byteOf f.clearance, byteOf f.inrun, byteOf f.landing, byteOf f.pairing,
     byteOf f.spread]
  | .unit index action f =>
    [byteOf index, byteOf action, byteOf f.address, byteOf f.firstMark, byteOf f.orientation]
  | .base v => le16 v
  | .trap v => le16 v
  | .panl index action f =>
    [byteOf index, byteOf action, byteOf f.address, byteOf f.rows, byteOf f.columns, byteOf f.rights,
     byteOf f.enabled, byteOf f.period]
  | .fld index action f =>
    [byteOf index, byteOf action, byteOf f.panel, byteOf f.row, byteOf f.column, byteOf f.width, byteOf f.align,
     byteOf f.fill, byteOf f.item, byteOf f.view]
  | .list clear bibs => markByte clear :: byteOf bibs.length :: bibs.flatMap le16
  | .drop bib => le16 bib
  | .rels j override => le16 j ++ [markByte override]
  | .hold j => le16 j
  | .gate g => [byteOf g]
  | .rduc j g => le16 j ++ [byteOf g]
  | .call bib => le16 (bib.getD 65535)
  | .void j requeue => le16 j ++ [markByte requeue]
  | .conf j d => le16 j ++ le16 (d.getD 65535)
  | .revw j => le16 j
  | .amnd j d => le16 j ++ le16 d
  | .page panel row column chars =>
    [byteOf panel, byteOf row, byteOf column, byteOf chars.length] ++ chars
  | .cell panel row column count => [byteOf panel, byteOf row, byteOf column, byteOf count]
  | .jump j => le16 j
  | .trce j start => le16 j ++ le16 start
  | .openRound | .shutRound | .init | .wind | .stat => []

/-! Bodies read -/

/-- A mark byte read: absent 0, present 1 (R187), another value a free value (log 14). -/
def readMark (b : Byte) : Bool := if b = 0#8 then false else if b = 1#8 then true else Config.markPresent b

/-- A yes/no byte that no rule checks, read: yes 0, no 1 (log 13), another value a free value (log 14). -/
def readYesNo (b : Byte) : Bool := if b = 0#8 then true else if b = 1#8 then false else Config.yesOf b

/-- A biased two-byte value read (R186). -/
def unbias (lo hi : Byte) : Int := (of16 lo hi : Int) - 32768

/-- A two-byte field with an absent form, read (R186). -/
def readSentinel (lo hi : Byte) : Option Nat := if of16 lo hi = 65535 then none else some (of16 lo hi)

/-- Two-byte entries read, none where a byte is left over. -/
def readPairs : List Byte → Option (List Nat)
  | [] => some []
  | lo :: hi :: l => (readPairs l).map (fun r => of16 lo hi :: r)
  | [_] => none

/-- Three-byte entries of start and weight read, none where bytes are left over. -/
def readSectors : List Byte → Option (List (Nat × Nat))
  | [] => some []
  | lo :: hi :: w :: l => (readSectors l).map (fun r => (of16 lo hi, w.toNat) :: r)
  | _ => none

/-- A HILL body read. -/
def readHill : List Byte → Option Request
  | [k0, k1, s0, s1, b0, b1, m0, m1, g0, g1, h0, h1, t0, t1, r0, r1, low, high, mode, fixed] =>
    some (.hill { kPoint := of16 k0 k1, hillSize := of16 s0 s1, basePoints := of16 b0 b1, metreValue := of16 m0 m1,
                  gateFactor := of16 g0 g1, headFactor := of16 h0 h1, tailFactor := of16 t0 t1,
                  threshold := of16 r0 r1, lowest := low.toNat, highest := high.toNat, mode := mode.toNat,
                  fixedGate := fixed.toNat })
  | _ => none

/-- A SECT body read: the count and always six entries. -/
def readSect : List Byte → Option Request
  | count :: rest =>
    if rest.length = 18 then (readSectors rest).map (fun es => .sect count.toNat es) else none
  | [] => none

/-- An STN body read. -/
def readStn : List Byte → Option Request
  | [index, action, address, sector, a0, a1, member, enabled] =>
    some (.stn index.toNat action.toNat
      { address := address.toNat, sector := sector.toNat, axis := of16 a0 a1, member := readYesNo member,
        enabled := readYesNo enabled })
  | _ => none

/-- A SCAN body read, its length judged by its count. -/
def readScan : List Byte → Option Request
  | mode :: p0 :: p1 :: silent :: clear :: count :: entries =>
    if entries.length = count.toNat then
      some (.scan mode.toNat
        { period := of16 p0 p1, silent := silent.toNat, clear := clear.toNat,
          entries := entries.map BitVec.toNat })
    else none
  | _ => none

/-- A CORR body read. -/
def readCorr : List Byte → Option Request
  | [l0, l1, u0, u1, n0, n1, declare, clear] =>
    some (.corr { lower := unbias l0 l1, upper := unbias u0 u1, lengthMs := of16 n0 n1, declare := declare.toNat,
                  clear := clear.toNat })
  | _ => none

/-- A TIMS body read. -/
def readTims : List Byte → Option Request
  | [a, b, c, d, e, f, g] =>
    some (.tims { countdown := a.toNat, resumeMin := b.toNat, clearance := c.toNat, inrun := d.toNat,
                  landing := e.toNat, pairing := f.toNat, spread := g.toNat })
  | _ => none

/-- A UNIT body read. -/
def readUnit : List Byte → Option Request
  | [index, action, address, firstMark, orientation] =>
    some (.unit index.toNat action.toNat
      { address := address.toNat, firstMark := firstMark.toNat, orientation := orientation.toNat })
  | _ => none

/-- A PANL body read. -/
def readPanl : List Byte → Option Request
  | [index, action, address, rows, columns, rights, enabled, period] =>
    some (.panl index.toNat action.toNat
      { address := address.toNat, rows := rows.toNat, columns := columns.toNat, rights := rights.toNat,
        enabled := enabled.toNat, period := period.toNat })
  | _ => none

/-- An FLD body read. -/
def readFld : List Byte → Option Request
  | [index, action, panel, row, column, width, al, fill, item, view] =>
    some (.fld index.toNat action.toNat
      { panel := panel.toNat, row := row.toNat, column := column.toNat, width := width.toNat, align := al.toNat,
        fill := fill.toNat, item := item.toNat, view := view.toNat })
  | _ => none

/-- A LIST body read, its length judged by its count. -/
def readList : List Byte → Option Request
  | clear :: count :: rest =>
    if rest.length = 2 * count.toNat then (readPairs rest).map (fun bibs => .list (readMark clear) bibs) else none
  | _ => none

/-- A body of one two-byte field. -/
def readWord (f : Nat → Request) : List Byte → Option Request
  | [lo, hi] => some (f (of16 lo hi))
  | _ => none

/-- A body of two two-byte fields. -/
def readWords (f : Nat → Nat → Request) : List Byte → Option Request
  | [a0, a1, b0, b1] => some (f (of16 a0 a1) (of16 b0 b1))
  | _ => none

/-- A body of a two-byte field and a byte. -/
def readWordByte (f : Nat → Byte → Request) : List Byte → Option Request
  | [lo, hi, b] => some (f (of16 lo hi) b)
  | _ => none

/-- An empty body. -/
def readEmpty (r : Request) : List Byte → Option Request
  | [] => some r
  | _ => none

/-- A GATE body read. -/
def readGate : List Byte → Option Request
  | [g] => some (.gate g.toNat)
  | _ => none

/-- A CALL body read: the sentinel is no bib (R186). -/
def readCall : List Byte → Option Request
  | [lo, hi] => some (.call (readSentinel lo hi))
  | _ => none

/-- A CONF body read: the sentinel is AS_PROPOSED (R186). -/
def readConf : List Byte → Option Request
  | [j0, j1, d0, d1] => some (.conf (of16 j0 j1) (readSentinel d0 d1))
  | _ => none

/-- A PAGE body read, its length judged by its count. -/
def readPage : List Byte → Option Request
  | panel :: row :: column :: count :: chars =>
    if chars.length = count.toNat then some (.page panel.toNat row.toNat column.toNat chars) else none
  | _ => none

/-- A CELL body read. -/
def readCell : List Byte → Option Request
  | [panel, row, column, count] => some (.cell panel.toNat row.toNat column.toNat count.toNat)
  | _ => none

/-- The reader of a type's body; none where the type code names no request (R187). -/
def bodyReader (type : Byte) : Option (List Byte → Option Request) :=
  match type.toNat with
  | 0x01 => some readHill
  | 0x02 => some readSect
  | 0x03 => some readStn
  | 0x04 => some readScan
  | 0x05 => some readCorr
  | 0x06 => some readTims
  | 0x07 => some readUnit
  | 0x08 => some (readWord .base)
  | 0x09 => some (readWord .trap)
  | 0x0A => some readPanl
  | 0x0B => some readFld
  | 0x0C => some (readEmpty .openRound)
  | 0x0D => some (readEmpty .shutRound)
  | 0x0E => some readList
  | 0x0F => some (readWord .drop)
  | 0x10 => some (readEmpty .init)
  | 0x11 => some (readWordByte (fun j b => .rels j (readMark b)))
  | 0x12 => some (readWord .hold)
  | 0x13 => some readGate
  | 0x14 => some (readWordByte (fun j b => .rduc j b.toNat))
  | 0x15 => some readCall
  | 0x16 => some (readWordByte (fun j b => .void j (readMark b)))
  | 0x17 => some readConf
  | 0x18 => some (readWord .revw)
  | 0x19 => some (readWords .amnd)
  | 0x1A => some readPage
  | 0x1B => some readCell
  | 0x1C => some (readWord .jump)
  | 0x1D => some (readEmpty .wind)
  | 0x1E => some (readWords .trce)
  | 0x1F => some (readEmpty .stat)
  | _ => none

/-- What checks 1 and 2 of R174 find in a frame. -/
inductive Judged where
  | unknownType
  | badLength
  | request (r : Request)
  deriving DecidableEq, Repr

/-- Checks 1 and 2 of R174: the type code, then the length of the body. -/
def judge (type : Byte) (body : List Byte) : Judged :=
  match bodyReader type with
  | none => .unknownType
  | some read => match read body with
    | none => .badLength
    | some r => .request r

/-- Check 3 of R174: the type is permitted on the link (R175). -/
def Request.permitted (r : Request) (l : LinkId) : Bool :=
  match r with
  | .hill .. | .sect .. | .stn .. | .scan .. | .corr .. | .tims .. | .unit .. | .base .. | .trap .. | .panl .. | .fld ..
  | .openRound | .shutRound | .list .. | .drop .. | .init => l == .control
  | .rels .. | .hold .. | .gate .. | .rduc .. => l == .console
  | .call .. | .void .. | .conf .. | .revw .. | .amnd .. | .page .. | .cell .. | .jump .. | .wind | .trce .. | .stat =>
    true

end Sys2Proof.Machine
end

