-- ==== Sys2Proof/Machine/Links.lean ====
section
/-! DEFINITION. The Link Interface (chapter 9): receivers, request queues and busy lists, the checks before dispatch,
replies, transmitters, INIT and STAT. -/

namespace Sys2Proof.Machine

/-! Receivers -/

/-- A whole frame judged by its check (R171): `got` is everything after the lead. -/
def judgeFrame (got : List Byte) : Option LinkFrame :=
  if got.drop (got.length - 2) = checkBytes (got.take (got.length - 2)) then
    match got.take (got.length - 2) with
    | _ :: type :: tag :: body => some { type := type, tag := tag, body := body }
    | _ => none
  else none

/-- A byte examined while hunting: 0xA5 starts collecting, every other byte is dropped (R170). -/
def hunt (now : HillTime) (b : Byte) : Receiver := if b = 0xA5#8 then .collecting [] now else .hunting

/-- A byte taken while collecting: the length, the content, the check; a frame is judged after its second check byte
(R170, R171). -/
def collect (got : List Byte) (now : HillTime) (b : Byte) : Receiver × Option LinkFrame :=
  match got with
  | [] => (if 2 ≤ b.toNat ∧ b.toNat ≤ 250 then .collecting [b] now else .hunting, none)
  | len :: _ =>
    if got.length + 1 = len.toNat + 3 then (.hunting, judgeFrame (got ++ [b]))
    else (.collecting (got ++ [b]) now, none)

/-- A receiver takes one byte: its next state, and the good frame the byte completes. After a gap of more than 50 ms
the byte is examined as a possible lead (R170, R171; log 29). -/
def Receiver.take (r : Receiver) (now : HillTime) (b : Byte) : Receiver × Option LinkFrame :=
  match r with
  | .hunting => (hunt now b, none)
  | .collecting got last =>
    if laterThan now (plusTicks last 5000) then (hunt now b, none) else collect got now b

/-! Status and INIT -/

/-- The record list of the STAT reply: a count, then jump number and state of each (R180). -/
def statRecords (l : List Record) : List Field :=
  byteField l.length :: l.flatMap (fun r => [.u16 (some r.jump), byteField r.state.code])

/-- The jump number of the countdown, absent while IDLE. -/
def Countdown.jump : Countdown → Option Nat
  | .idle => none
  | .running j _ => some j
  | .held j _ => some j

/-- The body of the STAT reply, in the order of R180's list. A free context is sent as a jump number that is absent
(log 33), the NOTICE_LOST flag as a mark (log 15). -/
def statBody (s : State) (lost : Bool) : List Field :=
  [byteField s.round.part.code, byteField s.start.light.code,
   byteField s.start.countdown.code, .u16 s.start.countdown.jump, .u32 (s.countdownLeft.map msUp),
   byteField s.start.juryGate, .u8 (s.start.staged.map (fun g => g.1)), .u16 (s.start.staged.map (fun g => g.2)),
   .u8 s.scoring.refGate, .u16 (s.scoring.hill.map (fun h => h.kPoint)),
   .u16 (s.scoring.hill.map (fun h => h.hillSize)), byteField s.corridor.status.code,
   .u16 s.round.bindA, .u16 s.round.bindB, byteField s.round.startList.length, .u16 s.round.startList.head?,
   timeField (some s.clock), byteField (markCode lost)] ++ statRecords (sortByJump s.round.records)

/-- STAT (R180): the link's NOTICE_LOST flag is cleared after it has been placed in the reply. -/
def serveStat (s : State) (l : LinkId) : Answer :=
  accept (s.setLink l { s.link l with noticeLost := false }) (statBody s (s.link l).noticeLost)

/-- INIT (R181): from its taking no further request is taken. -/
def serveInit (s : State) : Answer := accept (s.setInitPhase .waiting) []

/-! Taking a request -/

/-- The owning block's answer to a request that has passed the checks before dispatch (R174). -/
def serve (s : State) (l : LinkId) : Request → Answer
  | .hill f => serveHill s f
  | .sect count entries => serveSect s count entries
  | .stn i action f => serveStn s i action f
  | .scan mode f => serveScan s mode f
  | .corr f => serveCorr s f
  | .tims f => serveTims s f
  | .unit i action f => serveUnit s i action f
  | .base v => serveBase s v
  | .trap v => serveTrap s v
  | .panl i action f => servePanl s i action f
  | .fld i action f => serveFld s i action f
  | .openRound => serveOpen s
  | .shutRound => serveShut s
  | .list clear bibs => serveList s clear bibs
  | .drop bib => serveDrop s bib
  | .init => serveInit s
  | .rels j override => serveRels s j override
  | .hold j => serveHold s j
  | .gate g => serveGate s g
  | .rduc j g => serveRduc s j g
  | .call bib => serveCall s bib
  | .void j requeue => serveVoid s j requeue
  | .conf j d => serveConf s j d
  | .revw j => serveRevw s j
  | .amnd j d => serveAmnd s j d
  | .page i row column chars => servePage s l i row column chars
  | .cell i row column count => serveCell s i row column count
  | .jump j => serveJump s j
  | .wind => serveWind s
  | .trce j start => serveTrce s j start
  | .stat => serveStat s l

/-- The request's own work marks rows dirty without a change of text: PANL alone (R147, R148). -/
def requestMarks (s : State) (r : Request) (a : Answer) : Bool :=
  match r with
  | .panl i action _ => panlMarks s i action a
  | .hill _ | .sect .. | .stn .. | .scan .. | .corr _ | .tims _ | .unit .. | .base _ | .trap _ | .fld .. | .openRound
  | .shutRound | .list .. | .drop _ | .init | .rels .. | .hold _ | .gate _ | .rduc .. | .call _ | .void .. | .conf ..
  | .revw _ | .amnd .. | .page .. | .cell .. | .jump _ | .wind | .trce .. | .stat => false

/-- The work of a request with the board brought up to date behind it (R159, R163). -/
def worked (s : State) (l : LinkId) (r : Request) : Answer :=
  let a := serve s l r
  { a with state := boardSync (requestMarks s r a) s a.state }

/-- The answer to a taken frame that checks 1 and 2 have judged: the refusals of R174 carry the code alone. -/
def answerTo (s : State) (l : LinkId) (d : Judged) : Answer :=
  match d with
  | .unknownType => refuse s .unknownType []
  | .badLength => refuse s .badLength []
  | .request r => if r.permitted l then worked s l r else refuse s .notPermitted []

/-- A reply held by the place of its request at the tail of the queue; a free transmitter begins what is ready (R172,
R173, R177). -/
def State.place (s : State) (l : LinkId) (p : Place) : State :=
  s.setLink l { s.link l with queue := (s.link l).queue ++ [p] }.beginNext

/-- A frame taken: its checks, its work, and its reply held by its place (R173, R176). -/
def State.takeFrame (s : State) (l : LinkId) (type tag : Byte) (d : Judged) : State :=
  let a := answerTo s l d
  a.state.place l (.answered { type := replyType type, tag := tag, code := a.code, body := a.body })

/-- A good frame that finds all 4 places held: a busy entry, or nothing where 4 of those are held (R172). -/
def State.busyFrame (s : State) (l : LinkId) (type tag : Byte) : State :=
  if (s.link l).busy.length < 4 then
    s.setLink l { s.link l with busy := (s.link l).busy ++ [BusyEntry.mk type tag] }.beginNext
  else s

/-- A good frame arrives (R172, R173, R181): LINK_BUSY, taken at once, or waiting while an INIT has been taken. -/
def State.arrive (s : State) (l : LinkId) (f : LinkFrame) (d : Judged) : State :=
  if 4 ≤ (s.link l).queue.length then s.busyFrame l f.type f.tag
  else
    match s.initPhase with
    | .none => s.takeFrame l f.type f.tag d
    | .waiting | .due => s.place l (.waiting f)

/-! The link events -/

/-- A link receives one byte at the present hill time (R170, R171). -/
def receiveByte (l : LinkId) (s : State) (b : Byte) : State :=
  let x := (s.link l).receiver.take s.clock b
  let s1 := s.setLink l { s.link l with receiver := x.1 }
  match x.2 with
  | some f => s1.arrive l f (judge f.type f.body)
  | none => s1

/-- FRAME_ARRIVAL: the bytes that end a frame are received, the last at the present hill time (R170, R171). -/
def frameArrivalEvent (s : State) (l : LinkId) (bytes : List Byte) : State := bytes.foldl (receiveByte l) s

/-- LINK_GAP_TIMEOUT (R171): 50 ms have passed since the last byte of a frame being collected. -/
def linkGapEvent (s : State) (l : LinkId) : State :=
  match (s.link l).receiver with
  | .hunting => s
  | .collecting _ last =>
    if reached s.clock (plusTicks last 5000) then s.setLink l { s.link l with receiver := .hunting } else s

/-- A good frame of a request arrives at the present hill time (R171 to R173). -/
def requestEvent (s : State) (l : LinkId) (tag : Byte) (r : Request) : State :=
  s.arrive l { type := r.code, tag := tag, body := r.body } (.request r)

/-- A good frame arrives whose type code names no request; a type code that names one is no such frame (R174). -/
def unknownTypeEvent (s : State) (l : LinkId) (type tag : Byte) (body : List Byte) : State :=
  if isRequestType type then s else s.arrive l { type := type, tag := tag, body := body } .unknownType

/-- The OK reply to INIT. -/
def Reply.isInitOk (r : Reply) : Bool := r.type == 0x90#8 && r.code == .ok

/-- The link with its sent frame gone and the place of a sent reply freed (R172, R177). -/
def Link.sent (x : Link) : Link :=
  match x.sending with
  | some (.reply _) => { x with queue := x.queue.drop 1, sending := none }
  | some (.busy _) => { x with sending := none }
  | some (.notice _) => { x with sending := none }
  | none => x

/-- The frame being sent is the reply whose end carries out the reset (R181). -/
def State.sendsInitReply (s : State) : Bool :=
  match s.control.sending with
  | some (.reply r) => r.isInitOk
  | some (.busy _) | some (.notice _) | none => false

/-- FRAME_SENT (R177): the transmitter ends its frame and begins the next; after the INIT reply the reset is due and
nothing more begins (R181). -/
def frameSentEvent (s : State) (l : LinkId) : State :=
  match l with
  | .control =>
    if s.sendsInitReply then (s.setControl s.control.sent).setInitPhase .due
    else if s.initPhase = .due then s
    else s.setControl s.control.sent.beginNext
  | .console => s.setConsole s.console.sent.beginNext

end Sys2Proof.Machine
end

