-- ==== Sys2Proof/Machine/Resets.lean ====
section
/-! DEFINITION. The resets (section 9.7): INIT, power-on, RESET pin, and the hold in reset. -/

namespace Sys2Proof.Machine

/-- Every block at the values its chapter gives after a reset at the hill time, the contacts showing the levels, the
first corridor window as given (R25, R26, R30, R34, R64, R89, R100, R123, R169, R183, R184). The waiting commands are
not the part's. -/
def resetState (pending : List Instr) (cause : ResetCause) (clock : HillTime) (levels : InputLevels)
    (window : Window) : State :=
  { pending := pending, clock := clock, held := false, initPhase := .none,
    control := Link.atReset cause clock, console := Link.atReset cause clock,
    round := Round.atReset, scoring := Scoring.atReset, start := StartLight.atReset levels.barOpen,
    wind := WindRx.atReset clock, corridor := Corridor.atReset window,
    flight := Flight.atReset levels.brokenA levels.brokenB levels.brokenT, board := Board.atReset clock }

/-- The levels the contacts show now. -/
def State.levels (s : State) : InputLevels :=
  { barOpen := s.start.barOpen, brokenA := s.flight.barrierA.broken, brokenB := s.flight.barrierB.broken,
    brokenT := s.flight.barrierT.broken }

/-- The reset of INIT at the present hill time: the clock keeps its count, the contacts their levels, and the first
window opens at the next whole multiple of 200 000 ticks (R100, R181; log 21). -/
def State.initReset (s : State) : State :=
  resetState s.pending .soft s.clock s.levels (.opensAt (boundaryAfter s.clock 200000))

/-- INIT_RESET (R181): carried out once the last byte of the INIT reply has been sent. The row taken while that reply
is being sent is the end of it (log 10). -/
def initResetEvent (s : State) : State :=
  if s.initPhase = .due ∨ (s.initPhase = .waiting ∧ s.sendsInitReply = true) then s.initReset else s

/-- The part while held in reset: every block in its reset state, the links idle, the clock at 0 (R182; log 9). -/
def State.hold0 (s : State) : State :=
  { resetState s.pending .pin 0#32 s.levels firstWindow with held := true, control := Link.idle, console := Link.idle }

end Sys2Proof.Machine
end

