-- ==== Sys2Proof/Machine/Events.lean ====
section
/-! DEFINITION. How a command is taken: the hill time it carries, the hold in reset, and the board behind it. -/

namespace Sys2Proof.Machine

/-- The outcome of a command. -/
abbrev StepOutcome := Host.Outcome State Fault Refusal

/-- A command taken at the hill time (log 1). While the part is held in reset nothing is received, watched or timed, so
no command but a reset has an effect (R182; log 9). -/
def taken (now : HillTime) (s : State) (f : State → State) : StepOutcome :=
  .next (if s.held then s else f (s.setClock now))

/-- An event of a block, with the board brought up to date behind it (R159, R163). -/
def withBoard (f : State → State) (s : State) : State := boardSync false s (f s)

/-- A request row: a good frame of the request arrives and, in its turn, is taken (log 5). -/
def takenRequest (now : HillTime) (l : LinkId) (tag : Byte) (r : Request) (s : State) : StepOutcome :=
  taken now s (fun s => requestEvent s l tag r)

end Sys2Proof.Machine
end

