-- ==== Sys2Proof/Machine/EventRows.lean ====
section
/-! DEFINITION. The meanings of the rows that are events of the blocks: timers, contacts, line frames. -/

namespace Sys2Proof.Machine

/-- CLEARANCE_EXPIRY (R18). -/
def execClearanceExpiry (now : HillTime) (s : State) : StepOutcome :=
  taken now s (withBoard clearanceExpiryEvent)

/-- FLASH_BOUNDARY (R44). -/
def execFlashBoundary (now : HillTime) (s : State) : StepOutcome :=
  taken now s (withBoard flashBoundaryEvent)

/-- FLASH_CADENCE (R41). -/
def execFlashCadence (now : HillTime) (s : State) : StepOutcome :=
  taken now s (withBoard flashCadenceEvent)

/-- COUNTDOWN_EXPIRY (R45). -/
def execCountdownExpiry (now : HillTime) (s : State) : StepOutcome :=
  taken now s (withBoard countdownExpiryEvent)

/-- START_BAR_EDGE (R54). -/
def execStartBarEdge (now : HillTime) (opens : Bool) (s : State) : StepOutcome :=
  taken now s (withBoard (fun s => startBarEdgeEvent s opens))

/-- DEPARTURE (R54 to R57). -/
def execDeparture (now : HillTime) (s : State) : StepOutcome :=
  taken now s (withBoard departureEvent)

/-- BARRIER_INPUT_EDGE (R101). -/
def execBarrierInputEdge (now : HillTime) (barrier : Barrier) (interrupts : Bool) (s : State) : StepOutcome :=
  taken now s (withBoard (fun s => barrierInputEdgeEvent s barrier interrupts))

/-- SPEED_TRAP_EDGE (R104). -/
def execSpeedTrapEdge (now : HillTime) (barrier : TrapBarrier) (s : State) : StepOutcome :=
  taken now s (withBoard (fun s => speedTrapEdgeEvent s barrier))

/-- TAKEOFF (R107). -/
def execTakeoff (now : HillTime) (s : State) : StepOutcome :=
  taken now s (withBoard takeoffEvent)

/-- INRUN_LIMIT_EXPIRY (R106). -/
def execInrunLimitExpiry (now : HillTime) (s : State) : StepOutcome :=
  taken now s (withBoard inrunLimitExpiryEvent)

/-- LANDING_LIMIT_EXPIRY (R120). -/
def execLandingLimitExpiry (now : HillTime) (s : State) : StepOutcome :=
  taken now s (withBoard landingLimitExpiryEvent)

/-- STRIP_SLOT_END (R114). -/
def execStripSlotEnd (now : HillTime) (s : State) : StepOutcome :=
  taken now s (withBoard stripSlotEndEvent)

/-- STRIP_ANSWER (R115). -/
def execStripAnswer (now : HillTime) (frame : LineFrame) (s : State) : StepOutcome :=
  taken now s (withBoard (fun s => stripAnswerEvent s frame))

/-- PROPOSAL_MOMENT (R119). -/
def execProposalMoment (now : HillTime) (s : State) : StepOutcome :=
  taken now s (withBoard proposalMomentEvent)

/-- SCAN_TICK (R71). -/
def execScanTick (now : HillTime) (s : State) : StepOutcome :=
  taken now s (withBoard scanTickEvent)

/-- STATION_SLOT_END (R74). -/
def execStationSlotEnd (now : HillTime) (s : State) : StepOutcome :=
  taken now s (withBoard stationSlotEndEvent)

/-- STATION_ANSWER (R75). -/
def execStationAnswer (now : HillTime) (frame : LineFrame) (s : State) : StepOutcome :=
  taken now s (withBoard (fun s => stationAnswerEvent s frame))

/-- WINDOW_END (R92). -/
def execWindowEnd (now : HillTime) (s : State) : StepOutcome :=
  taken now s (withBoard windowEndEvent)

/-- COUNTDOWN_SECOND_STEP (R156). -/
def execCountdownSecondStep (now : HillTime) (s : State) : StepOutcome :=
  taken now s (withBoard secondStepEvent)

/-- REFRESH_EXPIRY (R162). -/
def execRefreshExpiry (now : HillTime) (s : State) : StepOutcome :=
  taken now s (fun s => boardSync (refreshIsDue s) s (refreshExpiryEvent s))

/-- PROBE_DUE (R163). -/
def execProbeDue (now : HillTime) (s : State) : StepOutcome :=
  taken now s (fun s => boardSync (probeIsDue s) s s)

/-- ROW_FRAME_END (R165). -/
def execRowFrameEnd (now : HillTime) (s : State) : StepOutcome :=
  taken now s (withBoard rowFrameEndEvent)

/-- ACKNOWLEDGEMENT (R166). -/
def execAcknowledgement (now : HillTime) (frame : LineFrame) (s : State) : StepOutcome :=
  taken now s (withBoard (fun s => acknowledgementEvent s frame))

/-- ACK_WINDOW_END (R166). -/
def execAckWindowEnd (now : HillTime) (s : State) : StepOutcome :=
  taken now s (withBoard ackWindowEndEvent)

end Sys2Proof.Machine
end

