-- ==== Sys2Proof/Machine/LinkRows.lean ====
section
/-! DEFINITION. The meanings of the rows of the links and of the resets. -/

namespace Sys2Proof.Machine

/-- FRAME_ARRIVAL (R171). -/
def execFrameArrival (now : HillTime) (link : LinkId) (bytes : List Byte) (s : State) : StepOutcome :=
  taken now s (fun s => frameArrivalEvent s link bytes)

/-- LINK_GAP_TIMEOUT (R171). -/
def execLinkGapTimeout (now : HillTime) (link : LinkId) (s : State) : StepOutcome :=
  taken now s (fun s => linkGapEvent s link)

/-- REQUEST_UNKNOWN_TYPE (R174). -/
def execRequestUnknownType (now : HillTime) (link : LinkId) (type tag : Byte) (body : List Byte) (s : State) :
    StepOutcome :=
  taken now s (fun s => unknownTypeEvent s link type tag body)

/-- FRAME_SENT (R177). -/
def execFrameSent (now : HillTime) (link : LinkId) (s : State) : StepOutcome :=
  taken now s (fun s => frameSentEvent s link)

/-- LINK_BYTE_RECEIVED (R170). -/
def execLinkByteReceived (now : HillTime) (link : LinkId) (byte : Byte) (s : State) : StepOutcome :=
  taken now s (fun s => receiveByte link s byte)

/-- INIT_RESET (R181). -/
def execInitReset (now : HillTime) (s : State) : StepOutcome := taken now s initResetEvent

/-- POWER_ON_RESET (R182): the hold ends, the contacts showing the levels. -/
def execPowerOnReset (levels : InputLevels) (s : State) : StepOutcome :=
  .next (resetState s.pending .power 0#32 levels firstWindow)

/-- RESET_PIN (R182): the RESET input is released, the contacts showing the levels. -/
def execResetPin (levels : InputLevels) (s : State) : StepOutcome :=
  .next (resetState s.pending .pin 0#32 levels firstWindow)

/-- RESET_HOLD (R182). -/
def execResetHold (s : State) : StepOutcome := .next s.hold0

end Sys2Proof.Machine
end

