-- ==== Sys2Proof/Machine/RequestRows.lean ====
section
/-! DEFINITION. The meanings of the request rows. -/

namespace Sys2Proof.Machine

/-- HILL (R27). -/
def execHill (now : HillTime) (link : LinkId) (tag : Byte) (f : HillFields) (s : State) : StepOutcome :=
  takenRequest now link tag (.hill f) s

/-- SECT (R35). -/
def execSect (now : HillTime) (link : LinkId) (tag : Byte) (count : Nat) (entries : List (Nat × Nat)) (s : State) : StepOutcome :=
  takenRequest now link tag (.sect count entries) s

/-- STN_CONFIGURE (R66, R67). -/
def execStnConfigure (now : HillTime) (link : LinkId) (tag : Byte) (index : Nat) (f : StnFields) (s : State) : StepOutcome :=
  takenRequest now link tag (.stn index 0 f) s

/-- STN_UPDATE (R66, R68). -/
def execStnUpdate (now : HillTime) (link : LinkId) (tag : Byte) (index : Nat) (f : StnFields) (s : State) : StepOutcome :=
  takenRequest now link tag (.stn index 1 f) s

/-- STN_REMOVE (R66, R67). -/
def execStnRemove (now : HillTime) (link : LinkId) (tag : Byte) (index : Nat) (f : StnFields) (s : State) : StepOutcome :=
  takenRequest now link tag (.stn index 2 f) s

/-- SCAN_REPLACE (R70). -/
def execScanReplace (now : HillTime) (link : LinkId) (tag : Byte) (f : ScanFields) (s : State) : StepOutcome :=
  takenRequest now link tag (.scan 0 f) s

/-- SCAN_ADD (R70). -/
def execScanAdd (now : HillTime) (link : LinkId) (tag : Byte) (f : ScanFields) (s : State) : StepOutcome :=
  takenRequest now link tag (.scan 1 f) s

/-- SCAN_KEEP (R70). -/
def execScanKeep (now : HillTime) (link : LinkId) (tag : Byte) (f : ScanFields) (s : State) : StepOutcome :=
  takenRequest now link tag (.scan 2 f) s

/-- CORR (R96, R97). -/
def execCorr (now : HillTime) (link : LinkId) (tag : Byte) (f : CorrFields) (s : State) : StepOutcome :=
  takenRequest now link tag (.corr f) s

/-- TIMS (R63). -/
def execTims (now : HillTime) (link : LinkId) (tag : Byte) (f : TimsFields) (s : State) : StepOutcome :=
  takenRequest now link tag (.tims f) s

/-- UNIT_CONFIGURE (R110, R111). -/
def execUnitConfigure (now : HillTime) (link : LinkId) (tag : Byte) (index : Nat) (f : UnitFields) (s : State) : StepOutcome :=
  takenRequest now link tag (.unit index 0 f) s

/-- UNIT_REMOVE (R110, R111). -/
def execUnitRemove (now : HillTime) (link : LinkId) (tag : Byte) (index : Nat) (f : UnitFields) (s : State) : StepOutcome :=
  takenRequest now link tag (.unit index 1 f) s

/-- BASE (R113). -/
def execBase (now : HillTime) (link : LinkId) (tag : Byte) (value : Nat) (s : State) : StepOutcome :=
  takenRequest now link tag (.base value) s

/-- TRAP (R105). -/
def execTrap (now : HillTime) (link : LinkId) (tag : Byte) (value : Nat) (s : State) : StepOutcome :=
  takenRequest now link tag (.trap value) s

/-- PANL_CONFIGURE (R146, R147). -/
def execPanlConfigure (now : HillTime) (link : LinkId) (tag : Byte) (index : Nat) (f : PanlFields) (s : State) : StepOutcome :=
  takenRequest now link tag (.panl index 0 f) s

/-- PANL_UPDATE (R146, R148). -/
def execPanlUpdate (now : HillTime) (link : LinkId) (tag : Byte) (index : Nat) (f : PanlFields) (s : State) : StepOutcome :=
  takenRequest now link tag (.panl index 1 f) s

/-- PANL_REMOVE (R146, R147). -/
def execPanlRemove (now : HillTime) (link : LinkId) (tag : Byte) (index : Nat) (f : PanlFields) (s : State) : StepOutcome :=
  takenRequest now link tag (.panl index 2 f) s

/-- PANL_PERIOD (R146, R162). -/
def execPanlPeriod (now : HillTime) (link : LinkId) (tag : Byte) (index : Nat) (f : PanlFields) (s : State) : StepOutcome :=
  takenRequest now link tag (.panl index 3 f) s

/-- FLD_SET (R153, R154). -/
def execFldSet (now : HillTime) (link : LinkId) (tag : Byte) (index : Nat) (f : FldFields) (s : State) : StepOutcome :=
  takenRequest now link tag (.fld index 0 f) s

/-- FLD_CLEAR (R153, R154). -/
def execFldClear (now : HillTime) (link : LinkId) (tag : Byte) (index : Nat) (f : FldFields) (s : State) : StepOutcome :=
  takenRequest now link tag (.fld index 1 f) s

/-- OPEN (R3). -/
def execOpenRound (now : HillTime) (link : LinkId) (tag : Byte) (s : State) : StepOutcome :=
  takenRequest now link tag .openRound s

/-- SHUT (R4). -/
def execShutRound (now : HillTime) (link : LinkId) (tag : Byte) (s : State) : StepOutcome :=
  takenRequest now link tag .shutRound s

/-- LIST (R7). -/
def execList (now : HillTime) (link : LinkId) (tag : Byte) (clear : Bool) (bibs : List Nat) (s : State) : StepOutcome :=
  takenRequest now link tag (.list clear bibs) s

/-- DROP (R8). -/
def execDrop (now : HillTime) (link : LinkId) (tag : Byte) (bib : Nat) (s : State) : StepOutcome :=
  takenRequest now link tag (.drop bib) s

/-- INIT (R181). -/
def execInit (now : HillTime) (link : LinkId) (tag : Byte) (s : State) : StepOutcome :=
  takenRequest now link tag .init s

/-- RELS (R46 to R49). -/
def execRels (now : HillTime) (link : LinkId) (tag : Byte) (jump : Nat) (override : Bool) (s : State) : StepOutcome :=
  takenRequest now link tag (.rels jump override) s

/-- HOLD (R51). -/
def execHold (now : HillTime) (link : LinkId) (tag : Byte) (jump : Nat) (s : State) : StepOutcome :=
  takenRequest now link tag (.hold jump) s

/-- GATE (R59). -/
def execGate (now : HillTime) (link : LinkId) (tag : Byte) (gate : Nat) (s : State) : StepOutcome :=
  takenRequest now link tag (.gate gate) s

/-- RDUC (R62). -/
def execRduc (now : HillTime) (link : LinkId) (tag : Byte) (jump gate : Nat) (s : State) : StepOutcome :=
  takenRequest now link tag (.rduc jump gate) s

/-- CALL (R13, R14). -/
def execCall (now : HillTime) (link : LinkId) (tag : Byte) (bib : Option Nat) (s : State) : StepOutcome :=
  takenRequest now link tag (.call bib) s

/-- VOID (R19, R20). -/
def execVoid (now : HillTime) (link : LinkId) (tag : Byte) (jump : Nat) (requeue : Bool) (s : State) : StepOutcome :=
  takenRequest now link tag (.void jump requeue) s

/-- CONF (R127, R128). -/
def execConf (now : HillTime) (link : LinkId) (tag : Byte) (jump : Nat) (distance : Option Nat) (s : State) : StepOutcome :=
  takenRequest now link tag (.conf jump distance) s

/-- REVW (R131). -/
def execRevw (now : HillTime) (link : LinkId) (tag : Byte) (jump : Nat) (s : State) : StepOutcome :=
  takenRequest now link tag (.revw jump) s

/-- AMND (R132, R133). -/
def execAmnd (now : HillTime) (link : LinkId) (tag : Byte) (jump distance : Nat) (s : State) : StepOutcome :=
  takenRequest now link tag (.amnd jump distance) s

/-- PAGE (R151). -/
def execPage (now : HillTime) (link : LinkId) (tag : Byte) (panel row column : Nat) (chars : List Byte) (s : State) : StepOutcome :=
  takenRequest now link tag (.page panel row column chars) s

/-- CELL (R161). -/
def execCell (now : HillTime) (link : LinkId) (tag : Byte) (panel row column count : Nat) (s : State) : StepOutcome :=
  takenRequest now link tag (.cell panel row column count) s

/-- JUMP (R24). -/
def execJump (now : HillTime) (link : LinkId) (tag : Byte) (jump : Nat) (s : State) : StepOutcome :=
  takenRequest now link tag (.jump jump) s

/-- WIND (R88). -/
def execWind (now : HillTime) (link : LinkId) (tag : Byte) (s : State) : StepOutcome :=
  takenRequest now link tag .wind s

/-- TRCE (R87). -/
def execTrce (now : HillTime) (link : LinkId) (tag : Byte) (jump start : Nat) (s : State) : StepOutcome :=
  takenRequest now link tag (.trce jump start) s

/-- STAT (R180). -/
def execStat (now : HillTime) (link : LinkId) (tag : Byte) (s : State) : StepOutcome :=
  takenRequest now link tag .stat s

end Sys2Proof.Machine
end

