-- ==== Sys2Proof/Machine/Dispatch.lean ====
section
/-! DEFINITION. The dispatch of a command to its meaning. -/

namespace Sys2Proof.Machine

def exec (i : Instr) (s : State) : Host.Outcome State Fault Refusal :=
  match i with
  | .frameArrival now link bytes => Sys2Proof.Machine.execFrameArrival now link bytes s
  | .linkGapTimeout now link => Sys2Proof.Machine.execLinkGapTimeout now link s
  | .requestUnknownType now link type tag body => Sys2Proof.Machine.execRequestUnknownType now link type tag body s
  | .frameSent now link => Sys2Proof.Machine.execFrameSent now link s
  | .hill now link tag f => Sys2Proof.Machine.execHill now link tag f s
  | .sect now link tag count entries => Sys2Proof.Machine.execSect now link tag count entries s
  | .stnConfigure now link tag index f => Sys2Proof.Machine.execStnConfigure now link tag index f s
  | .stnUpdate now link tag index f => Sys2Proof.Machine.execStnUpdate now link tag index f s
  | .stnRemove now link tag index f => Sys2Proof.Machine.execStnRemove now link tag index f s
  | .scanReplace now link tag f => Sys2Proof.Machine.execScanReplace now link tag f s
  | .scanAdd now link tag f => Sys2Proof.Machine.execScanAdd now link tag f s
  | .scanKeep now link tag f => Sys2Proof.Machine.execScanKeep now link tag f s
  | .corr now link tag f => Sys2Proof.Machine.execCorr now link tag f s
  | .tims now link tag f => Sys2Proof.Machine.execTims now link tag f s
  | .unitConfigure now link tag index f => Sys2Proof.Machine.execUnitConfigure now link tag index f s
  | .unitRemove now link tag index f => Sys2Proof.Machine.execUnitRemove now link tag index f s
  | .base now link tag value => Sys2Proof.Machine.execBase now link tag value s
  | .trap now link tag value => Sys2Proof.Machine.execTrap now link tag value s
  | .panlConfigure now link tag index f => Sys2Proof.Machine.execPanlConfigure now link tag index f s
  | .panlUpdate now link tag index f => Sys2Proof.Machine.execPanlUpdate now link tag index f s
  | .panlRemove now link tag index f => Sys2Proof.Machine.execPanlRemove now link tag index f s
  | .panlPeriod now link tag index f => Sys2Proof.Machine.execPanlPeriod now link tag index f s
  | .fldSet now link tag index f => Sys2Proof.Machine.execFldSet now link tag index f s
  | .fldClear now link tag index f => Sys2Proof.Machine.execFldClear now link tag index f s
  | .openRound now link tag => Sys2Proof.Machine.execOpenRound now link tag s
  | .shutRound now link tag => Sys2Proof.Machine.execShutRound now link tag s
  | .list now link tag clear bibs => Sys2Proof.Machine.execList now link tag clear bibs s
  | .drop now link tag bib => Sys2Proof.Machine.execDrop now link tag bib s
  | .init now link tag => Sys2Proof.Machine.execInit now link tag s
  | .initReset now => Sys2Proof.Machine.execInitReset now s
  | .powerOnReset levels => Sys2Proof.Machine.execPowerOnReset levels s
  | .resetPin levels => Sys2Proof.Machine.execResetPin levels s
  | .rels now link tag j override => Sys2Proof.Machine.execRels now link tag j override s
  | .hold now link tag j => Sys2Proof.Machine.execHold now link tag j s
  | .gate now link tag g => Sys2Proof.Machine.execGate now link tag g s
  | .rduc now link tag j g => Sys2Proof.Machine.execRduc now link tag j g s
  | .call now link tag bib => Sys2Proof.Machine.execCall now link tag bib s
  | .void now link tag j requeue => Sys2Proof.Machine.execVoid now link tag j requeue s
  | .conf now link tag j distance => Sys2Proof.Machine.execConf now link tag j distance s
  | .revw now link tag j => Sys2Proof.Machine.execRevw now link tag j s
  | .amnd now link tag j distance => Sys2Proof.Machine.execAmnd now link tag j distance s
  | .page now link tag panel row column chars => Sys2Proof.Machine.execPage now link tag panel row column chars s
  | .cell now link tag panel row column count => Sys2Proof.Machine.execCell now link tag panel row column count s
  | .jump now link tag j => Sys2Proof.Machine.execJump now link tag j s
  | .wind now link tag => Sys2Proof.Machine.execWind now link tag s
  | .trce now link tag j start => Sys2Proof.Machine.execTrce now link tag j start s
  | .stat now link tag => Sys2Proof.Machine.execStat now link tag s
  | .clearanceExpiry now => Sys2Proof.Machine.execClearanceExpiry now s
  | .flashBoundary now => Sys2Proof.Machine.execFlashBoundary now s
  | .flashCadence now => Sys2Proof.Machine.execFlashCadence now s
  | .countdownExpiry now => Sys2Proof.Machine.execCountdownExpiry now s
  | .startBarEdge now opens => Sys2Proof.Machine.execStartBarEdge now opens s
  | .departure now => Sys2Proof.Machine.execDeparture now s
  | .barrierInputEdge now barrier interrupts => Sys2Proof.Machine.execBarrierInputEdge now barrier interrupts s
  | .speedTrapEdge now barrier => Sys2Proof.Machine.execSpeedTrapEdge now barrier s
  | .takeoff now => Sys2Proof.Machine.execTakeoff now s
  | .inrunLimitExpiry now => Sys2Proof.Machine.execInrunLimitExpiry now s
  | .landingLimitExpiry now => Sys2Proof.Machine.execLandingLimitExpiry now s
  | .stripSlotEnd now => Sys2Proof.Machine.execStripSlotEnd now s
  | .stripAnswer now frame => Sys2Proof.Machine.execStripAnswer now frame s
  | .proposalMoment now => Sys2Proof.Machine.execProposalMoment now s
  | .scanTick now => Sys2Proof.Machine.execScanTick now s
  | .stationSlotEnd now => Sys2Proof.Machine.execStationSlotEnd now s
  | .stationAnswer now frame => Sys2Proof.Machine.execStationAnswer now frame s
  | .windowEnd now => Sys2Proof.Machine.execWindowEnd now s
  | .countdownSecondStep now => Sys2Proof.Machine.execCountdownSecondStep now s
  | .refreshExpiry now => Sys2Proof.Machine.execRefreshExpiry now s
  | .probeDue now => Sys2Proof.Machine.execProbeDue now s
  | .rowFrameEnd now => Sys2Proof.Machine.execRowFrameEnd now s
  | .acknowledgement now frame => Sys2Proof.Machine.execAcknowledgement now frame s
  | .ackWindowEnd now => Sys2Proof.Machine.execAckWindowEnd now s
  | .linkByteReceived now link byte => Sys2Proof.Machine.execLinkByteReceived now link byte s
  | .resetHold => Sys2Proof.Machine.execResetHold s

end Sys2Proof.Machine
end

