-- ==== Sys2Proof/WellFormed.lean ====
section
/-! DEFINITION. The commands the outside can give: every field of a request fits the width its body gives it (R186,
R187), and a line frame is no longer than its line carries (R185, R189). Values outside a request's own range are
well-formed and refused by their owning block. -/

namespace Sys2Proof

open Sys2Proof.Machine

/-- The value fits one byte. -/
def fits1 (n : Nat) : Bool := decide (n < 256)

/-- The value fits two bytes. -/
def fits2 (n : Nat) : Bool := decide (n < 65536)

/-- The value fits two bytes with the bias of 32 768. -/
def fitsBiased (x : Int) : Bool := decide (-32768 ≤ x ∧ x ≤ 32767)

/-- An optional two-byte field: a present value is not the sentinel. -/
def fitsSentinel (v : Option Nat) : Bool :=
  match v with
  | none => true
  | some n => decide (n < 65535)

/-- A HILL's fields fit. -/
def HillFields.fits (f : HillFields) : Bool :=
  fits2 f.kPoint && fits2 f.hillSize && fits2 f.basePoints && fits2 f.metreValue && fits2 f.gateFactor
    && fits2 f.headFactor && fits2 f.tailFactor && fits2 f.threshold && fits1 f.lowest && fits1 f.highest
    && fits1 f.mode && fits1 f.fixedGate

/-- A SECT's six entries fit. -/
def fitsSectors (entries : List (Nat × Nat)) : Bool :=
  entries.length == 6 && entries.all (fun e => fits2 e.1 && fits1 e.2)

/-- An STN's fields fit. -/
def StnFields.fits (f : StnFields) : Bool := fits1 f.address && fits1 f.sector && fits2 f.axis

/-- A SCAN's fields fit, its entries within the largest body. -/
def ScanFields.fits (f : ScanFields) : Bool :=
  fits2 f.period && fits1 f.silent && fits1 f.clear && decide (f.entries.length ≤ 242) && f.entries.all fits1

/-- A CORR's fields fit. -/
def CorrFields.fits (f : CorrFields) : Bool :=
  fitsBiased f.lower && fitsBiased f.upper && fits2 f.lengthMs && fits1 f.declare && fits1 f.clear

/-- A TIMS's settings fit. -/
def TimsFields.fits (f : TimsFields) : Bool :=
  fits1 f.countdown && fits1 f.resumeMin && fits1 f.clearance && fits1 f.inrun && fits1 f.landing && fits1 f.pairing
    && fits1 f.spread

/-- A UNIT's fields fit. -/
def UnitFields.fits (f : UnitFields) : Bool := fits1 f.address && fits1 f.firstMark && fits1 f.orientation

/-- A PANL's fields fit. -/
def PanlFields.fits (f : PanlFields) : Bool :=
  fits1 f.address && fits1 f.rows && fits1 f.columns && fits1 f.rights && fits1 f.enabled && fits1 f.period

/-- An FLD's fields fit. -/
def FldFields.fits (f : FldFields) : Bool :=
  fits1 f.panel && fits1 f.row && fits1 f.column && fits1 f.width && fits1 f.align && fits1 f.fill && fits1 f.item
    && fits1 f.view

/-- A request can stand in a frame: each field fits its width and each list its body. -/
def Machine.Request.fits (r : Request) : Bool :=
  match r with
  | .hill f => f.fits
  | .sect count entries => fits1 count && fitsSectors entries
  | .stn i a f => fits1 i && fits1 a && f.fits
  | .scan m f => fits1 m && f.fits
  | .corr f => f.fits
  | .tims f => f.fits
  | .unit i a f => fits1 i && fits1 a && f.fits
  | .base v | .trap v | .drop v | .hold v | .revw v | .jump v => fits2 v
  | .panl i a f => fits1 i && fits1 a && f.fits
  | .fld i a f => fits1 i && fits1 a && f.fits
  | .list _ bibs => decide (bibs.length ≤ 123) && bibs.all fits2
  | .rels j _ | .void j _ => fits2 j
  | .gate g => fits1 g
  | .rduc j g => fits2 j && fits1 g
  | .call b => fitsSentinel b
  | .conf j d => fits2 j && fitsSentinel d
  | .amnd j d => fits2 j && fits2 d
  | .page p r c chars => fits1 p && fits1 r && fits1 c && decide (chars.length ≤ 244)
  | .cell p r c n => fits1 p && fits1 r && fits1 c && fits1 n
  | .trce j n => fits2 j && fits2 n
  | .openRound | .shutRound | .init | .wind | .stat => true

/-- The request a row stands for, with the hill time, the link and the tag it carries; none for a row that is no request
of the catalogue. -/
def Machine.requestOf : Instr → Option (HillTime × LinkId × Byte × Request)
  | .hill n l t f => some (n, l, t, .hill f)
  | .sect n l t c es => some (n, l, t, .sect c es)
  | .stnConfigure n l t i f => some (n, l, t, .stn i 0 f)
  | .stnUpdate n l t i f => some (n, l, t, .stn i 1 f)
  | .stnRemove n l t i f => some (n, l, t, .stn i 2 f)
  | .scanReplace n l t f => some (n, l, t, .scan 0 f)
  | .scanAdd n l t f => some (n, l, t, .scan 1 f)
  | .scanKeep n l t f => some (n, l, t, .scan 2 f)
  | .corr n l t f => some (n, l, t, .corr f)
  | .tims n l t f => some (n, l, t, .tims f)
  | .unitConfigure n l t i f => some (n, l, t, .unit i 0 f)
  | .unitRemove n l t i f => some (n, l, t, .unit i 1 f)
  | .base n l t v => some (n, l, t, .base v)
  | .trap n l t v => some (n, l, t, .trap v)
  | .panlConfigure n l t i f => some (n, l, t, .panl i 0 f)
  | .panlUpdate n l t i f => some (n, l, t, .panl i 1 f)
  | .panlRemove n l t i f => some (n, l, t, .panl i 2 f)
  | .panlPeriod n l t i f => some (n, l, t, .panl i 3 f)
  | .fldSet n l t i f => some (n, l, t, .fld i 0 f)
  | .fldClear n l t i f => some (n, l, t, .fld i 1 f)
  | .openRound n l t => some (n, l, t, .openRound)
  | .shutRound n l t => some (n, l, t, .shutRound)
  | .list n l t c bibs => some (n, l, t, .list c bibs)
  | .drop n l t b => some (n, l, t, .drop b)
  | .init n l t => some (n, l, t, .init)
  | .rels n l t j o => some (n, l, t, .rels j o)
  | .hold n l t j => some (n, l, t, .hold j)
  | .gate n l t g => some (n, l, t, .gate g)
  | .rduc n l t j g => some (n, l, t, .rduc j g)
  | .call n l t b => some (n, l, t, .call b)
  | .void n l t j r => some (n, l, t, .void j r)
  | .conf n l t j d => some (n, l, t, .conf j d)
  | .revw n l t j => some (n, l, t, .revw j)
  | .amnd n l t j d => some (n, l, t, .amnd j d)
  | .page n l t p r c cs => some (n, l, t, .page p r c cs)
  | .cell n l t p r c k => some (n, l, t, .cell p r c k)
  | .jump n l t j => some (n, l, t, .jump j)
  | .wind n l t => some (n, l, t, .wind)
  | .trce n l t j k => some (n, l, t, .trce j k)
  | .stat n l t => some (n, l, t, .stat)
  | .frameArrival .. | .linkGapTimeout .. | .requestUnknownType .. | .frameSent .. | .initReset .. | .powerOnReset ..
  | .resetPin .. | .clearanceExpiry .. | .flashBoundary .. | .flashCadence .. | .countdownExpiry .. | .startBarEdge ..
  | .departure .. | .barrierInputEdge .. | .speedTrapEdge .. | .takeoff .. | .inrunLimitExpiry ..
  | .landingLimitExpiry .. | .stripSlotEnd .. | .stripAnswer .. | .proposalMoment .. | .scanTick ..
  | .stationSlotEnd .. | .stationAnswer .. | .windowEnd .. | .countdownSecondStep .. | .refreshExpiry .. | .probeDue ..
  | .rowFrameEnd .. | .acknowledgement .. | .ackWindowEnd .. | .linkByteReceived .. | .resetHold => none

/-- The commands the outside can give. -/
def Instr.wellFormed (i : Instr) : Bool :=
  match requestOf i with
  | some (_, _, _, r) => r.fits
  | none =>
    match i with
    | .frameArrival _ _ bytes => decide (1 ≤ bytes.length ∧ bytes.length ≤ 254)
    | .requestUnknownType _ _ type _ body => !isRequestType type && decide (body.length ≤ 248)
    | .stripAnswer now frame => reached now frame.began && decide (1 ≤ frame.bytes.length ∧ frame.bytes.length ≤ 18)
    | .stationAnswer now frame => reached now frame.began && decide (1 ≤ frame.bytes.length ∧ frame.bytes.length ≤ 12)
    | .acknowledgement now frame => reached now frame.began && decide (1 ≤ frame.bytes.length ∧ frame.bytes.length ≤ 5)
    | _ => true

end Sys2Proof
end

