-- ==== Sys2Proof/Safety.lean ====
section
/-! DEFINITION. The terms in which claims about the part are stated: when a request is taken, what an event leaves on the
links, and the invariants of a safe run. -/

namespace Sys2Proof.Machine

/-- A request on the link is taken at its arrival: the part is not held in reset, no INIT has been taken, and a place of
the request queue is free (R172, R173, R181, R182). -/
abbrev State.takes (s : State) (l : LinkId) : Prop :=
  s.held = false ∧ s.initPhase = .none ∧ (s.link l).queue.length < 4

/-- A link after notices posted in their order (R178). -/
def Link.posts (x : Link) (ns : List Notice) : Link := ns.foldl Link.post x

/-- Both links of `t` are those of `s` after the notices. -/
def Posts (s t : State) (ns : List Notice) : Prop := ∀ m, t.link m = (s.link m).posts ns

/-- A link after its reply has been formed: the reply held by its place, a free transmitter at work (R176, R177). -/
def Link.answer (x : Link) (r : Reply) : Link := Link.beginNext { x with queue := x.queue ++ [.answered r] }

/-- Both links of `t` are those of `s` after the notices, and the link `l` after the reply besides. -/
def Answers (s t : State) (ns : List Notice) (l : LinkId) (r : Reply) : Prop :=
  t.link l = ((s.link l).posts ns).answer r ∧ ∀ m, m ≠ l → t.link m = (s.link m).posts ns

/-- The outcome of a request whose only effect on the state as given is its reply, formed at the hill time. -/
def State.answering (s : State) (now : HillTime) (l : LinkId) (type tag : Byte) (code : ResultCode)
    (body : List Field) : StepOutcome :=
  .next ((s.setClock now).place l (.answered { type := type, tag := tag, code := code, body := body }))

/-- A panel without what the board does to it of itself: which rows are dirty or in flight, and when its probe is due. -/
def Panel.kept (p : Panel) : Panel :=
  { p with probeDue := none, marks := p.marks.map (fun _ => { dirty := false, inFlight := false }) }

/-- The board of `t` is that of `s` but for what the board does of itself: row marks, probes, the line, and the seconds
its COUNTDOWN fields last showed. -/
def BoardKept (s t : State) : Prop :=
  t.board.fields = s.board.fields ∧ t.board.refreshPeriod = s.board.refreshPeriod ∧
  t.board.nextRefresh = s.board.nextRefresh ∧
  ∀ i, (entry t.board.panels i).map Panel.kept = (entry s.board.panels i).map Panel.kept

/-- `t` is `u` but for the links and for what the board does of itself. -/
def Becomes (t u : State) : Prop :=
  t = { u with control := t.control, console := t.console, board := t.board } ∧ BoardKept u t

/-- The record with the jump number, and the jump numbers of the table all different (R12). -/
abbrev State.only (s : State) (j : Nat) (r : Record) : Prop :=
  s.round.records.find? (fun x => x.jump == j) = some r ∧ (s.round.records.map (fun x => x.jump)).Nodup

/-- The expiry of a clearance timer started with it: none where it is not later than now (R18). -/
def clearanceFrom (now expiry : HillTime) : Option HillTime := if reached now expiry then none else some expiry

/-- The staged gate waits on the jump number. -/
def StartLight.stagedFor (st : StartLight) (j : Nat) : Option Nat :=
  match st.staged with
  | some (g, waits) => if waits = j then some g else none
  | none => none

/-- The milliseconds, rounded up, a countdown has left (R43). -/
def Countdown.msLeft (c : Countdown) (now : HillTime) : Option Nat :=
  match c with
  | .idle => none
  | .running _ expiry => some ((ticksLeft expiry now + 99) / 100)
  | .held _ ticks => some ((ticks + 99) / 100)

/-- The lights and gates after a void of the record: RED from the bar, a RELEASED record's countdown IDLE, a staged gate
that waited on the record applied (R20, R42, R60). -/
def voidStart (st : StartLight) (r : Record) : StartLight :=
  { st with
    light := if r.state.atBar then .red else st.light
    cadence := if r.state.atBar then none else st.cadence
    countdown := if r.state = .released then .idle else st.countdown
    juryGate := if r.state.stages then (st.stagedFor r.jump).getD st.juryGate else st.juryGate
    staged := if r.state.stages = true ∧ (st.stagedFor r.jump).isSome = true then none else st.staged }

/-- The flight timers after a void of the record (R20, R121). -/
def voidFlight (f : Flight) (r : Record) : Flight :=
  { f with
    inrunLimit := if r.state = .inrun then none else f.inrunLimit
    trapJump := if r.state = .inrun then none else f.trapJump
    trapTime := if r.state = .inrun then none else f.trapTime
    trapDone := if r.state = .inrun then false else f.trapDone
    landingLimit := if r.state = .airborne then none else f.landingLimit
    watch := if r.state = .airborne then none else f.watch }

/-- The round after a void of the record `r` at the hill time, before the publication check: the record VOIDED with its
reason, its context freed, the clearance timer started for a record on the hill, a requeued bib at the head (R19, R20). -/
def voidRound (s : State) (now : HillTime) (r : Record) (reason : VoidReason) (requeued : Bool) : Round :=
  { s.round with
    startList := if requeued then r.bib :: s.round.startList else s.round.startList
    table := s.round.table.map (Option.map (fun x =>
      if x.jump = r.jump then
        { x with
          state := .voided, voidReason := some reason
          context := if s.round.bindA = some r.jump ∨ s.round.bindB = some r.jump then none else x.context
          remaining := if r.state = .released then s.start.countdown.msLeft now else r.remaining }
      else x))
    bindA := if s.round.bindA = some r.jump then none else s.round.bindA
    bindB := if s.round.bindA ≠ some r.jump ∧ s.round.bindB = some r.jump then none else s.round.bindB
    clearance := if r.state.onHill then clearanceFrom now (plusTicks now (secTicks s.start.timing.clearance))
      else s.round.clearance }

/-- The wind contexts after a void of the record: its context empty (R16, R83). -/
def voidWind (s : State) (r : Record) : WindRx :=
  if s.round.bindA = some r.jump then { s.wind with ctxA := Context.empty .closed }
  else if s.round.bindB = some r.jump then { s.wind with ctxB := Context.empty .closed }
  else s.wind

/-- The whole state after a void of the record `r`, before the publication check, but for the links and what the board does
of itself. -/
def voidState (s : State) (now : HillTime) (r : Record) (reason : VoidReason) (requeued : Bool) : State :=
  { s with
    clock := now, round := voidRound s now r reason requeued, start := voidStart s.start r, wind := voidWind s r
    flight := voidFlight s.flight r }

/-- The notices of a void before those of the publication check: VOID, then LAMP from the bar, then GATE where a staged gate
is applied (R20). -/
def voidNotices (s : State) (now : HillTime) (r : Record) (reason : VoidReason) (requeued : Bool) : List Notice :=
  [.voided r.jump r.bib r.state reason requeued]
  ++ (if r.state = .called then [.lamp .red (some r.bib) none]
      else if r.state = .released then [.lamp .red (some r.bib) (s.start.countdown.msLeft now)] else [])
  ++ (if r.state.stages then
        (match s.start.stagedFor r.jump with | some g => [.gate g .staged (some r.jump)] | none => [])
      else [])

/-- The records a publication check publishes, in its order: of the CONFIRMED records those, and all those, whose every
lower-numbered record is terminal or published before them (R21). -/
def PublishedBy (rd : Round) (rs : List Record) : Prop :=
  rs.Pairwise (fun x y => x.jump < y.jump) ∧ (∀ r ∈ rs, r ∈ rd.records ∧ r.state = .confirmed) ∧
  ∀ x ∈ rd.records, x.state = .confirmed →
    (x ∈ rs ↔ ∀ y ∈ rd.records, y.jump < x.jump → y.state.terminal = true ∨ y ∈ rs)

/-- The context is bound to one of the records; no context is bound beside another to the same jump (R15). -/
def Round.bindsOneOf (rd : Round) (rs : List Record) : Ctx → Bool
  | .a => rs.any (fun r => rd.bindA == some r.jump)
  | .b => rs.any (fun r => rd.bindA != some r.jump && rd.bindB == some r.jump)

/-- A context with nothing in it, closed (R16, R83). -/
def freedContext : Context :=
  { sums := List.replicate 12 (0, 0), start := none, stop := none, mark := .closed, settling := [], trace := [] }

/-- The whole state after the publication of the records, but for the links and what the board does of itself: each
PUBLISHED, its context freed, unbound and emptied (R16, R21). -/
def publishState (s : State) (rs : List Record) : State :=
  { s with
    round := { s.round with
      table := s.round.table.map (Option.map (fun x =>
        if x ∈ rs then
          { x with
            state := .published
            context := if s.round.bindA = some x.jump ∨ s.round.bindB = some x.jump then none else x.context }
        else x))
      bindA := if s.round.bindsOneOf rs .a then none else s.round.bindA
      bindB := if s.round.bindsOneOf rs .b then none else s.round.bindB }
    wind := { s.wind with
      ctxA := if s.round.bindsOneOf rs .a then freedContext else s.wind.ctxA
      ctxB := if s.round.bindsOneOf rs .b then freedContext else s.wind.ctxB } }

/-- The RSLT notices of the published records, in their order (R21, R22). -/
def publishNotices (rs : List Record) : List Notice :=
  rs.map (fun r => .rslt
    { jump := r.jump, bib := r.bib, juryGate := r.juryGate, usedGate := r.usedGate, speed := r.speed,
      confirmed := r.confirmed, proposed := r.proposed, jumpWind := r.jumpWind, distPoints := r.distPoints,
      gateComp := r.gateComp, windComp := r.windComp, total := r.total, flags := r.flags, amended := false })

/-- The Board Line after a PANL that configures or removes the panel, or disables it: a frame of it being sent gets its
abort mark, a window of it ends at once and the next choice follows; what concerns another panel goes on (R168). -/
def LineDisturbed (i : Nat) (before after : BoardLine) : Prop :=
  (∀ f, before = .sending f → f.panel = i → after = .sending { f with aborted := true }) ∧
  (∀ f stop, before = .window f stop → f.panel = i → after = .free ∨ ∃ g, after = .sending g ∧ g.aborted = false) ∧
  (∀ f, before = .sending f → f.panel ≠ i → after = .sending f ∨ after = .sending { f with aborted := true }) ∧
  (∀ f stop, before = .window f stop → f.panel ≠ i → after = before)

/-- A row whose composed text is what it was keeps its dirty mark; a frame of it that was being sent, and an acknowledgement
window, go on (R151, R160, R165). -/
def RowsKept (s t : State) : Prop :=
  (∀ k row p q m n, entry s.board.panels k = some p → entry t.board.panels k = some q → 1 ≤ row →
    t.composed k q row = s.composed k p row → p.marks[row - 1]? = some m → q.marks[row - 1]? = some n →
    n.dirty = m.dirty) ∧
  (∀ f p q, s.board.line = .sending f → entry s.board.panels f.panel = some p → entry t.board.panels f.panel = some q →
    t.composed f.panel q f.row = s.composed f.panel p f.row → t.board.line = s.board.line) ∧
  (∀ f stop, s.board.line = .window f stop → t.board.line = s.board.line)

/-- One barrier input. -/
def Flight.barrier (f : Flight) : Barrier → BarrierInput
  | .a => f.barrierA
  | .b => f.barrierB
  | .takeoff => f.barrierT

/-- The flight state with one barrier input replaced. -/
def Flight.setBarrier (f : Flight) (w : Barrier) (v : BarrierInput) : Flight :=
  match w with
  | .a => { f with barrierA := v }
  | .b => { f with barrierB := v }
  | .takeoff => { f with barrierT := v }

/-- The record has become `r'`, AWAITING, at the end `stop` of its window: its context closed with the samples past the end
taken back, its summaries formed of the closed context, the clearance timer started from the end, PROP sent (R86, R119,
R120, R122, R124). -/
def EntersAwaiting (s : State) (r' : Record) (stop : HillTime) (t : State) (kept counted : Nat) : Prop :=
  ∃ (w : WindRx) (summaries : List Summary),
    w = (match s.round.ctxOf r'.jump with
      | some c => s.wind.setCtx c
          { s.wind.ctx c with
            stop := some stop, settling := [], mark := .closed
            sums := ((s.wind.ctx c).settling.filter (fun e => laterThan e.time stop)).foldl
              (fun sums e => sums.modify (e.station - 1) (fun x => (x.1 - e.tangential, x.2 - 1)))
              (s.wind.ctx c).sums }
      | none => s.wind) ∧
    summaries = (match s.round.ctxOf r'.jump with
      | some c => sectorSummaries s.scoring.sectors w.stations (w.ctx c)
      | none => []) ∧
    Becomes t { s with
      wind := w
      round := { s.round.modify r'.jump (fun _ => { r' with summaries := summaries }) with
        clearance := clearanceFrom s.clock (stop + BitVec.ofNat 32 (100000 * s.start.timing.clearance)) } } ∧
    Posts s t [.prop
      { jump := r'.jump, bib := r'.bib, landingTime := r'.landingTime, flightTime := r'.flightTime,
        landingMark := r'.landingMark, spread := r'.spread, proposed := r'.proposed, kept := kept, counted := counted,
        noContact := r'.flags.noContact, ambiguous := r'.flags.ambiguous, crowded := r'.flags.crowded,
        summaries := summaries }]

/-- The state after a reset, value by value (R25, R26, R30, R34, R64, R89, R100, R123, R169, R183, R184), but for the
corridor's first window, which differs from reset to reset. -/
def ResetValues (t : State) (cause : ResetCause) (clock : HillTime) (lv : InputLevels) : Prop :=
  t.clock = clock ∧ t.held = false ∧ t.initPhase = .none ∧
  (∀ l, t.link l = { receiver := .hunting, queue := [], busy := [], notices := [], noticeLost := false,
                     sending := some (.notice (.pwrup cause clock)) }) ∧
  t.round = { part := .unconfigured, startList := [], table := [none, none, none, none, none, none, none, none],
              counter := 1, bindA := none, bindB := none, clearance := none } ∧
  t.scoring = { hill := none, sectors := [], refGate := none } ∧
  t.start = { light := .dark, cadence := none, countdown := .idle, juryGate := 1, staged := none,
              barOpen := lv.barOpen, barDebounce := [],
              timing := { countdown := 30, resumeMin := 15, clearance := 5, inrun := 20, landing := 8, pairing := 60,
                          spread := 4 } } ∧
  (t.wind.stations = List.replicate 12 none ∧ t.wind.scanList = [] ∧ t.wind.scanPeriod = 250 ∧
    t.wind.silentCount = 5 ∧ t.wind.clearCount = 2 ∧ t.wind.nextTick = clock + 25000#32 ∧ t.wind.scan = none ∧
    t.wind.snapshot = none ∧ t.wind.slot = none ∧ t.wind.stopping = false ∧
    ∀ c, t.wind.ctx c = { sums := List.replicate 12 (0, 0), start := none, stop := none, mark := .closed,
                          settling := [], trace := [] }) ∧
  (t.corridor.lower = -150 ∧ t.corridor.upper = 250 ∧ t.corridor.lengthMs = 2000 ∧ t.corridor.declare = 2 ∧
    t.corridor.clear = 3 ∧ t.corridor.inRun = 0 ∧ t.corridor.outRun = 0 ∧ t.corridor.emptyRun = 0 ∧
    t.corridor.status = .noData ∧ t.corridor.live = none) ∧
  t.flight = { barrierA := { broken := lv.brokenA, debounce := [] },
               barrierB := { broken := lv.brokenB, debounce := [] },
               barrierT := { broken := lv.brokenT, debounce := [] }, trapJump := none, trapTime := none,
               trapDone := false, spacing := 8000, inrunLimit := none, landingLimit := none,
               units := List.replicate 10 none, base := 0, stripSlot := none, lastPolled := none, watch := none } ∧
  t.board = { panels := List.replicate 8 none, fields := List.replicate 48 none, refreshPeriod := 10,
              nextRefresh := some (clock + 1000000#32), line := .free, lastAddress := none,
              countdownShown := List.replicate 48 none }

/-! Invariants -/

/-- A link keeps to its places, its transmitter holds the reply of its oldest place, and it is idle only with nothing to
send (R172, R177, R178). -/
def Link.Sound (x : Link) : Prop :=
  x.queue.length ≤ 4 ∧ x.busy.length ≤ 4 ∧ x.notices.length ≤ 32 ∧
  ∀ r, x.sending = some (.reply r) → ∃ q, x.queue = .answered r :: q

/-- A free transmitter has nothing ready to send (R177). -/
def Link.Rested (x : Link) : Prop :=
  x.sending = none → x.busy = [] ∧ x.notices = [] ∧ ∀ r q, x.queue ≠ .answered r :: q

/-- Both links are sound, and both are at rest only with nothing to send; between the end of an INIT reply and its reset
the Control Link begins nothing (R181). -/
def LinksSound (s : State) : Prop :=
  s.control.Sound ∧ s.console.Sound ∧ s.console.Rested ∧ (s.initPhase ≠ .due → s.control.Rested)

/-- The tables keep the sizes the spec gives them, and the start list, the scan list, the kept list, the traces and the
settling lists stay within theirs (R6, R9, R65, R69, R83, R109, R117, R145, R152). -/
def TablesSized (s : State) : Prop :=
  s.round.table.length = 8 ∧ s.round.startList.length ≤ 96 ∧ s.scoring.sectors.length ≤ 6 ∧
  s.wind.stations.length = 12 ∧ s.wind.scanList.length ≤ 16 ∧
  (∀ c, (s.wind.ctx c).sums.length = 12 ∧ (s.wind.ctx c).settling.length ≤ 128 ∧ (s.wind.ctx c).trace.length ≤ 512) ∧
  s.flight.units.length = 10 ∧ (∀ w, s.flight.watch = some w → w.kept.length ≤ 8) ∧
  s.board.panels.length = 8 ∧ s.board.fields.length = 48

/-- The jump numbers of the table are all different, 1 or more and below the counter, and the counter is at most one past
65534 (R10). -/
def JumpsNumbered (s : State) : Prop :=
  (s.round.records.map (fun r => r.jump)).Nodup ∧ (∀ r ∈ s.round.records, 1 ≤ r.jump ∧ r.jump < s.round.counter) ∧
  1 ≤ s.round.counter ∧ s.round.counter ≤ 65535

/-- The page memory of a panel holds one character of 0x20 to 0x7E for each of its cells, and its row marks one entry for
each row (R145, R150). -/
abbrev Panel.Sized (p : Panel) : Prop :=
  p.page.length = p.rows * p.columns ∧ p.marks.length = p.rows ∧ ∀ b ∈ p.page, 0x20 ≤ b.toNat ∧ b.toNat ≤ 0x7E

/-- Every configured panel is sized. -/
def PanelsSized (s : State) : Prop := ∀ p, some p ∈ s.board.panels → p.Sized

/-- The character a cell of a panel's page memory holds, none for a cell that does not exist (R150). -/
def State.cell (s : State) (i row column : Nat) : Option Byte :=
  match entry s.board.panels i with
  | some p =>
    if (1 ≤ row ∧ row ≤ p.rows) ∧ (1 ≤ column ∧ column ≤ p.columns) then p.page[(row - 1) * p.columns + (column - 1)]?
    else none
  | none => none

end Sys2Proof.Machine
end

