-- ==== Sys2Proof/Certificates/Slice0/Obligations.lean ====
section
/-! DEFINITION. The statements for the provers, chapter by chapter of the spec. -/

open Sys2Proof
open Sys2Proof.Machine

/-! The queue of commands, the hold, the resets -/

/-- A step takes the command at the front of the queue; on an empty queue the part idles, which is the model's choice
(log 2). -/
def Obligations.StepTakesFrontCommand : Prop :=
  (∀ (c : Instr) (rest : List Instr) (s : State), s.pending = c :: rest → step s = exec c (s.setPending rest)) ∧
  (∀ s : State, s.pending = [] → step s = .next s)

/-- No command is a fault or a refusal, and none touches the commands that wait (section 9.4). -/
def Obligations.EveryCommandCompletes : Prop :=
  ∀ (c : Instr) (s : State), ∃ t, exec c s = .next t ∧ t.pending = s.pending

/-- While the part is held in reset every command but the resets by supply or pin leaves the state as it is (R182;
log 9). -/
def Obligations.HeldPartTakesOnlyResets : Prop :=
  ∀ (c : Instr) (s : State), s.held = true → (∀ lv, c ≠ .powerOnReset lv) → (∀ lv, c ≠ .resetPin lv) →
    c ≠ .resetHold → exec c s = .next s

/-- State.reset is the state after a power-on reset, the contacts at the levels of log 8, and it has the invariants. -/
def Obligations.ResetStateHasResetValues : Prop :=
  ResetValues State.reset .power 0#32 { barOpen := true, brokenA := false, brokenB := false, brokenT := false } ∧
  State.reset.pending = [] ∧ State.reset.corridor.window = .current 0#32 200000#32 0 0 ∧
  LinksSound State.reset ∧ TablesSized State.reset ∧ PanelsSized State.reset ∧ JumpsNumbered State.reset

/-- A power-on reset and a RESET pin reset at the end of the hold, and INIT's reset once the last byte of its reply has been
sent: every block at its reset values, PWRUP with its cause being sent. Supply and pin set the clock to 0 and open the first
window; INIT keeps the clock and the contacts' levels, and its first window opens at the next whole multiple of 200 000
ticks (R100, R181 to R184). -/
def Obligations.ResetsLeaveResetValues : Prop :=
  (∀ (lv : InputLevels) (s : State), ∃ t, exec (.powerOnReset lv) s = .next t ∧ ResetValues t .power 0#32 lv ∧
    t.pending = s.pending ∧ t.corridor.window = .current 0#32 200000#32 0 0) ∧
  (∀ (lv : InputLevels) (s : State), ∃ t, exec (.resetPin lv) s = .next t ∧ ResetValues t .pin 0#32 lv ∧
    t.pending = s.pending ∧ t.corridor.window = .current 0#32 200000#32 0 0) ∧
  (∀ (now : HillTime) (s : State), s.held = false → s.initPhase = .due →
    ∃ t, exec (.initReset now) s = .next t ∧
      ResetValues t .soft now { barOpen := s.start.barOpen, brokenA := s.flight.barrierA.broken,
                                brokenB := s.flight.barrierB.broken, brokenT := s.flight.barrierT.broken } ∧
      t.pending = s.pending ∧
      ∃ b : HillTime, t.corridor.window = .opensAt b ∧
        ((b.toNat % 200000 = 0 ∧ now.toNat < b.toNat ∧ b.toNat ≤ now.toNat + 200000) ∨
         (b = 0#32 ∧ 4294967296 ≤ (now.toNat / 200000 + 1) * 200000)))

/-- While held in reset the lamps are dark, the receivers and transmitters idle, the device lines idle, and the hill clock
stands at 0 (R182). -/
def Obligations.ResetHoldStopsThePart : Prop :=
  ∀ s : State, ∃ t, exec .resetHold s = .next t ∧ t.held = true ∧ t.clock = 0#32 ∧
    lamps t.start = (false, false, false) ∧
    (∀ l, t.link l = { receiver := .hunting, queue := [], busy := [], notices := [], noticeLost := false,
                       sending := none }) ∧
    t.wind.slot = none ∧ t.flight.stripSlot = none ∧ t.board.line = .free ∧ t.start.barDebounce = [] ∧
    t.flight.barrierA.debounce = [] ∧ t.flight.barrierB.debounce = [] ∧ t.flight.barrierT.debounce = [] ∧
    t.pending = s.pending

/-! The links -/

/-- A request's body reads back as the request, for every request whose fields fit their widths (R186 to R188). -/
def Obligations.RequestBodiesRoundTrip : Prop :=
  ∀ r : Request, r.fits = true → judge r.code r.body = .request r

/-- The bytes of a good frame, received by a hunting receiver, bring about the arrival of that frame and leave the
receiver hunting (R170 to R172, R185, R186). -/
def Obligations.GoodFrameArrives : Prop :=
  ∀ (now : HillTime) (l : LinkId) (type tag : Byte) (body : List Byte) (s : State),
    s.held = false → (s.link l).receiver = .hunting → body.length ≤ 248 →
    exec (.frameArrival now l (linkFrameBytes type tag body)) s =
      .next ((s.setClock now).arrive l { type := type, tag := tag, body := body } (judge type body))

/-- A request row does what the arrival of its frame does, for every row that is a request and every value its fields
admit; so does the row of an unknown type. That the row stands for the frame's arrival and its taking in one step is the
model's choice (log 5); what arrives and is taken is as R171 to R174 and R187 say. -/
def Obligations.RequestRowsAreTheirFrames : Prop :=
  (∀ (i : Instr) (now : HillTime) (l : LinkId) (tag : Byte) (r : Request) (s : State),
    requestOf i = some (now, l, tag, r) → r.fits = true → s.held = false → (s.link l).receiver = .hunting →
    exec (.frameArrival now l (linkFrameBytes r.code tag r.body)) s = exec i s) ∧
  (∀ (now : HillTime) (l : LinkId) (type tag : Byte) (body : List Byte) (s : State),
    isRequestType type = false → s.held = false → (s.link l).receiver = .hunting → body.length ≤ 248 →
    exec (.frameArrival now l (linkFrameBytes type tag body)) s = exec (.requestUnknownType now l type tag body) s)

/-- The checks before dispatch, on a frame that is taken: an unknown type is answered UNKNOWN_TYPE under the reply type
0xFF; a body of another length than its layout gives, BAD_LENGTH; a type that belongs to the other link, NOT_PERMITTED;
each with the code alone, and nothing else changes (R174, R175, R187). -/
def Obligations.ChecksBeforeDispatch : Prop :=
  (∀ (now : HillTime) (l : LinkId) (type tag : Byte) (body : List Byte) (s : State),
    s.takes l → isRequestType type = false →
    exec (.requestUnknownType now l type tag body) s =
      .next ((s.setClock now).place l (.answered { type := 0xFF#8, tag := tag, code := .unknownType, body := [] }))) ∧
  (∀ (now : HillTime) (l : LinkId) (type tag : Byte) (body : List Byte) (s : State),
    s.takes l → (s.link l).receiver = .hunting → body.length ≤ 248 → judge type body = .badLength →
    exec (.frameArrival now l (linkFrameBytes type tag body)) s =
      .next ((s.setClock now).place l
        (.answered { type := type + 0x80#8, tag := tag, code := .badLength, body := [] }))) ∧
  (∀ (i : Instr) (now : HillTime) (l : LinkId) (tag : Byte) (r : Request) (s : State),
    s.takes l → requestOf i = some (now, l, tag, r) → r.permitted l = false →
    exec i s =
      .next ((s.setClock now).place l
        (.answered { type := r.code + 0x80#8, tag := tag, code := .notPermitted, body := [] })))

/-- A request that finds all 4 places held changes nothing but the busy list, which takes its type and tag while it holds
fewer than 4 entries; with the busy list full too, it changes nothing at all (R172). -/
def Obligations.BusyWhenPlacesHeld : Prop :=
  ∀ (i : Instr) (now : HillTime) (l : LinkId) (tag : Byte) (r : Request) (s : State),
    requestOf i = some (now, l, tag, r) → s.held = false → 4 ≤ (s.link l).queue.length →
    exec i s = .next
      (if (s.link l).busy.length < 4 then
        (s.setClock now).setLink l
          (Link.beginNext { s.link l with busy := (s.link l).busy ++ [{ type := r.code, tag := tag }] })
      else s.setClock now)

/-- INIT on the Control Link is answered OK with an empty body, and from then on a request of either link holds a place and
is not taken (R181). -/
def Obligations.InitStopsTheTaking : Prop :=
  (∀ (now : HillTime) (tag : Byte) (s : State), s.takes .control →
    exec (.init now .control tag) s =
      .next (((s.setClock now).setInitPhase .waiting).place .control
        (.answered { type := 0x90#8, tag := tag, code := .ok, body := [] }))) ∧
  (∀ (i : Instr) (now : HillTime) (l : LinkId) (tag : Byte) (r : Request) (s : State),
    requestOf i = some (now, l, tag, r) → s.held = false → s.initPhase ≠ .none → (s.link l).queue.length < 4 →
    exec i s = .next ((s.setClock now).place l (.waiting { type := r.code, tag := tag, body := r.body })))

/-- A receiver takes its bytes one by one: a lead, a length of 2 to 250, the content, the check; a gap of more than 50 ms
makes the byte a possible lead, and LINK_GAP_TIMEOUT drops what was collected once 50 ms have passed (R170, R171). -/
def Obligations.LinkBytesCollectAFrame : Prop :=
  (∀ (now : HillTime) (l : LinkId) (b : Byte) (s : State), s.held = false → (s.link l).receiver = .hunting →
    exec (.linkByteReceived now l b) s =
      .next ((s.setClock now).setLink l
        { s.link l with receiver := if b = 0xA5#8 then .collecting [] now else .hunting })) ∧
  (∀ (now : HillTime) (l : LinkId) (b : Byte) (got : List Byte) (last : HillTime) (s : State), s.held = false →
    (s.link l).receiver = .collecting got last → laterThan now (last + 5000#32) = true →
    exec (.linkByteReceived now l b) s =
      .next ((s.setClock now).setLink l
        { s.link l with receiver := if b = 0xA5#8 then .collecting [] now else .hunting })) ∧
  (∀ (now : HillTime) (l : LinkId) (b : Byte) (last : HillTime) (s : State), s.held = false →
    (s.link l).receiver = .collecting [] last → laterThan now (last + 5000#32) = false →
    exec (.linkByteReceived now l b) s =
      .next ((s.setClock now).setLink l
        { s.link l with receiver := if 2 ≤ b.toNat ∧ b.toNat ≤ 250 then .collecting [b] now else .hunting })) ∧
  (∀ (now : HillTime) (l : LinkId) (b len : Byte) (got : List Byte) (last : HillTime) (s : State), s.held = false →
    (s.link l).receiver = .collecting (len :: got) last → laterThan now (last + 5000#32) = false →
    got.length + 1 < len.toNat + 2 →
    exec (.linkByteReceived now l b) s =
      .next ((s.setClock now).setLink l { s.link l with receiver := .collecting (len :: got ++ [b]) now })) ∧
  (∀ (now : HillTime) (l : LinkId) (len type tag high low : Byte) (body : List Byte) (last : HillTime) (s : State),
    s.held = false → (s.link l).receiver = .collecting (len :: type :: tag :: body ++ [high]) last →
    laterThan now (last + 5000#32) = false → len.toNat = body.length + 2 →
    exec (.linkByteReceived now l low) s =
      .next
        (if [high, low] = checkBytes (len :: type :: tag :: body) then
          ((s.setClock now).setLink l { s.link l with receiver := .hunting }).arrive l
            { type := type, tag := tag, body := body } (judge type body)
        else (s.setClock now).setLink l { s.link l with receiver := .hunting })) ∧
  (∀ (now : HillTime) (l : LinkId) (got : List Byte) (last : HillTime) (s : State), s.held = false →
    (s.link l).receiver = .collecting got last → reached now (last + 5000#32) = true →
    exec (.linkGapTimeout now l) s = .next ((s.setClock now).setLink l { s.link l with receiver := .hunting }))

/-- The end of a frame: a sent reply frees its place, and the transmitter begins the oldest busy entry, else the reply of
the oldest place if its request has been taken, else the notice at the head, also while an INIT waits for its reply to be
sent (R172, R177, R181). The end of the INIT reply begins nothing and leaves the reset due, a later row: that is the model's
reading of R181 (log 10). -/
def Obligations.FrameSentBeginsTheNext : Prop :=
  (∀ (x : Link), x.sending = none →
    (∀ e es, x.busy = e :: es → x.beginNext = { x with busy := es, sending := some (.busy e) }) ∧
    (∀ r q, x.busy = [] → x.queue = .answered r :: q → x.beginNext = { x with sending := some (.reply r) }) ∧
    (∀ n ns, x.busy = [] → (∀ r q, x.queue ≠ .answered r :: q) → x.notices = n :: ns →
      x.beginNext = { x with notices := ns, sending := some (.notice n) }) ∧
    (x.busy = [] → (∀ r q, x.queue ≠ .answered r :: q) → x.notices = [] → x.beginNext = x)) ∧
  (∀ (now : HillTime) (l : LinkId) (f : OutFrame) (s : State), s.held = false → (s.link l).sending = some f →
    (l = .control → s.initPhase ≠ .due ∧ ∀ r, f = .reply r → ¬(r.type = 0x90#8 ∧ r.code = .ok)) →
    exec (.frameSent now l) s =
      .next ((s.setClock now).setLink l (Link.beginNext
        { s.link l with
          sending := none
          queue := match f with
            | .reply _ => (s.link l).queue.drop 1
            | .busy _ => (s.link l).queue
            | .notice _ => (s.link l).queue }))) ∧
  (∀ (now : HillTime) (r : Reply) (s : State), s.held = false → s.initPhase = .waiting →
    s.control.sending = some (.reply r) → r.type = 0x90#8 → r.code = .ok →
    exec (.frameSent now .control) s =
      .next (((s.setClock now).setControl { s.control with sending := none, queue := s.control.queue.drop 1 }).setInitPhase
        .due)) ∧
  (∀ (now : HillTime) (s : State), s.held = false → s.initPhase = .due →
    (∀ r, s.control.sending = some (.reply r) → ¬(r.type = 0x90#8 ∧ r.code = .ok)) →
    exec (.frameSent now .control) s = .next (s.setClock now))

/-- A notice posted while a link holds 32 is lost on that link and sets its NOTICE_LOST flag; otherwise it joins the tail,
where a free transmitter finds it and begins by the order of R177; no other state changes (R177 to R179). That the transmitter
begins it at once, at the posting, is the model's reading (log 6). -/
def Obligations.NoticesArePostedOrLost : Prop :=
  ∀ (s : State) (n : Notice),
    (∀ l, 32 ≤ (s.link l).notices.length → (s.post n).link l = { s.link l with noticeLost := true }) ∧
    (∀ l, (s.link l).notices.length < 32 →
      (s.post n).link l = Link.beginNext { s.link l with notices := (s.link l).notices ++ [n] }) ∧
    s.post n = { s with control := (s.post n).control, console := (s.post n).console }

/-- STAT replies with the state of every block, field by field, and clears the flag of its own link after the flag has
been placed in the reply, every enumerated value by its number (R180, R187). The flag sent as 0 or 1 and a free context sent
as an absent jump number are the model's reading (log 15, log 33), and so is the order in which part states, light states,
countdown states and corridor statuses are numbered from 0 (log 18). -/
def Obligations.StatReportsAndClearsItsFlag : Prop :=
  ∀ (now : HillTime) (l : LinkId) (tag : Byte) (s : State), s.takes l →
    exec (.stat now l tag) s =
      .next (((s.setClock now).setLink l { s.link l with noticeLost := false }).place l
        (.answered { type := 0x9F#8, tag := tag, code := .ok, body :=
          [.u8 (some (match s.round.part with | .unconfigured => 0 | .ready => 1 | .round => 2)),
           .u8 (some (match s.start.light with
             | .dark => 0 | .red => 1 | .yellow => 2 | .green => 3 | .greenFlash => 4 | .hold => 5)),
           .u8 (some (match s.start.countdown with | .idle => 0 | .running _ _ => 1 | .held _ _ => 2)),
           .u16 (match s.start.countdown with | .idle => none | .running j _ => some j | .held j _ => some j),
           .u32 (match s.start.countdown with
             | .idle => none
             | .running _ expiry => some ((ticksLeft expiry now + 99) / 100)
             | .held _ ticks => some ((ticks + 99) / 100)),
           byteField s.start.juryGate, .u8 (s.start.staged.map Prod.fst), .u16 (s.start.staged.map Prod.snd),
           .u8 s.scoring.refGate, .u16 (s.scoring.hill.map (fun h => h.kPoint)),
           .u16 (s.scoring.hill.map (fun h => h.hillSize)),
           .u8 (some (match s.corridor.status with | .inside => 0 | .out => 1 | .noData => 2)),
           .u16 s.round.bindA, .u16 s.round.bindB, byteField s.round.startList.length, .u16 s.round.startList.head?,
           .u32 (some now.toNat), byteField (if (s.link l).noticeLost then 1 else 0),
           byteField s.round.records.length]
          ++ (sortByJump s.round.records).flatMap (fun r => [.u16 (some r.jump), .u8 (some (match r.state with
             | .called => 1 | .released => 2 | .inrun => 3 | .airborne => 4 | .awaiting => 5 | .review => 6
             | .confirmed => 7 | .published => 8 | .voided => 9))]) }))

/-- Every step keeps both links sound. -/
def Obligations.EveryStepKeepsLinksSound : Prop :=
  ∀ s t : State, LinksSound s → step s = .next t → LinksSound t

/-- Every step keeps the tables at their sizes, every panel's page memory whole and printable, one entry of last shown seconds
(log 12) for each descriptor, and the jump numbers of the table all different and below the counter (R9, R10, R145, R150, R152). -/
def Obligations.EveryStepKeepsTablesSized : Prop :=
  (∀ s t : State, TablesSized s → step s = .next t → TablesSized t) ∧
  (∀ s t : State, PanelsSized s → step s = .next t → PanelsSized t) ∧
  (∀ s t : State, TablesSized s → s.board.countdownShown.length = 48 → step s = .next t →
    t.board.countdownShown.length = 48) ∧
  (∀ s t : State, JumpsNumbered s → step s = .next t → JumpsNumbered t)

/-- JUMP, WIND, TRCE and CELL are answered, with what they ask for or with the code of the check that fails, and change
nothing; the record body, the station fields and the body of CELL are laid out field by field (R24, R87, R88, R161, R188).
TRCE's entry count in two bytes is the model's reading (log 17), and so are the fields WIND sends of an UNCONFIGURED entry
(log 19), the codes of yes and no and of the marks (log 13, log 15), and the order in which the corridor statuses, the marks
of a context and the station states are numbered from 0 (log 18). -/
def Obligations.QueriesChangeNothing : Prop :=
  (∀ r : Record, recordBody (some r) =
    [.u16 (some r.jump), .u16 (some r.bib),
     .u8 (some (match r.state with
       | .called => 1 | .released => 2 | .inrun => 3 | .airborne => 4 | .awaiting => 5 | .review => 6
       | .confirmed => 7 | .published => 8 | .voided => 9)),
     .u8 (some (match r.context with | none => 0 | some .a => 1 | some .b => 2)),
     .u8 r.reductionGate, .u8 r.juryGate, .u8 r.usedGate,
     .u8 (some (match r.holdCause with | .none => 0 | .corridor => 1 | .jury => 2)),
     .u8 (r.voidReason.map (fun v => match v with
       | .startTime => 0 | .earlyStart => 1 | .inrunTimeout => 2 | .juryRestart => 3 | .juryCancel => 4
       | .roundClosed => 5)),
     .u16 (some r.flags.code), .u32 (some r.callTime.toNat), .u32 (r.releaseTime.map (fun t => t.toNat)),
     .u32 (r.departureTime.map (fun t => t.toNat)), .u32 (r.takeoffTime.map (fun t => t.toNat)),
     .u32 (r.landingTime.map (fun t => t.toNat)), .u32 r.remaining, .u16 r.speed, .u32 r.flightTime,
     .u8 r.landingMark, .u8 r.spread, .u16 r.proposed, .u16 r.confirmed, .s16 r.jumpWind, .u16 r.distPoints,
     .s16 r.gateComp, .s16 r.windComp, .u16 r.total, .u8 (some r.summaries.length)]
    ++ r.summaries.flatMap (fun m => [.u8 (some m.sector), .s16 (some m.mean), .u8 (some m.stations)])) ∧
  (∀ st : Station, windStationFields (some st) =
    [.u8 (some (match st.state with | .active => 1 | .silent => 2 | .fault => 3 | .disabled => 4)),
     .u8 (some st.address), .u8 (some st.sector), .u16 (some st.axis), .u8 (some (if st.member then 0 else 1)),
     .u8 (some (if st.enabled then 0 else 1)), .u8 (some st.miss), .u8 (some st.good),
     .u16 (st.latest.map (fun x => x.speed)), .u16 (st.latest.map (fun x => x.direction)),
     .s16 (st.latest.map (fun x => x.tangential)), .u32 (st.latest.map (fun x => x.time.toNat)),
     .u8 (some ((if st.flags.clamped then 1 else 0) + (if st.flags.mismatch then 2 else 0)))]) ∧
  (windStationFields none =
    [.u8 (some 0), .u8 none, .u8 none, .u16 none, .u8 none, .u8 none, .u8 (some 0), .u8 (some 0), .u16 none, .u16 none,
     .s16 none, .u32 none, .u8 (some 0)]) ∧
  (∀ (p : Panel) (chars : List Byte) (pos : Nat), chars ≠ [] → cellBody p chars pos =
    [.bytes chars, .u8 (some chars.length), .u8 (some (match p.state with | .online => 1 | .offline => 2)),
     .u8 (some (if p.enabled then 0 else 1)), .u8 (some p.miss), .u8 (some p.ack)]
    ++ ((p.marks.take ((pos + chars.length - 1) / p.columns + 1)).drop (pos / p.columns)).flatMap (fun m =>
        [.u8 (some (if m.dirty then 1 else 0)), .u8 (some (if m.inFlight then 1 else 0))])) ∧
  (∀ f : RecFlags, f.code =
    (if f.override then 1 else 0) + (if f.held then 2 else 0) + (if f.heldStart then 4 else 0)
    + (if f.reduction then 8 else 0) + (if f.speedInvalid then 16 else 0) + (if f.noContact then 32 else 0)
    + (if f.ambiguous then 64 else 0) + (if f.crowded then 128 else 0) + (if f.corrected then 256 else 0)
    + (if f.manual then 512 else 0) + (if f.noWind then 1024 else 0) + (if f.traceFull then 2048 else 0)
    + (if f.amended then 4096 else 0)) ∧
  (∀ (now : HillTime) (l : LinkId) (tag : Byte) (j : Nat) (s : State), s.takes l →
    exec (.jump now l tag j) s =
      .next ((s.setClock now).place l (.answered
        (match s.round.records.find? (fun r => r.jump == j) with
         | some r => { type := 0x9C#8, tag := tag, code := .ok, body := recordBody (some r) }
         | none => { type := 0x9C#8, tag := tag, code := .noSuchJump, body := recordBody none })))) ∧
  (∀ (now : HillTime) (l : LinkId) (tag : Byte) (s : State), s.takes l →
    exec (.wind now l tag) s =
      .next ((s.setClock now).place l (.answered
        { type := 0x9D#8, tag := tag, code := .ok,
          body := s.wind.stations.flatMap windStationFields ++
            [.u8 (some (match s.corridor.status with | .inside => 0 | .out => 1 | .noData => 2)),
             .s16 s.corridor.live] }))) ∧
  (∀ (now : HillTime) (l : LinkId) (tag : Byte) (j start : Nat) (r : Record) (c : Ctx) (s : State), s.takes l →
    s.round.records.find? (fun x => x.jump == j) = some r → r.context = some c →
    exec (.trce now l tag j start) s =
      .next ((s.setClock now).place l (.answered
        { type := 0x9E#8, tag := tag, code := .ok,
          body :=
            [byteField (match c with | .a => 1 | .b => 2), .u16 (some (s.wind.ctx c).trace.length),
             byteField (if r.flags.traceFull then 1 else 0),
             .u8 (some (match (s.wind.ctx c).mark with | .waiting => 0 | .opened => 1 | .closed => 2))]
            ++ (((s.wind.ctx c).trace.drop start).take 20).flatMap (fun e =>
              [byteField e.station, .u32 (some e.time.toNat), .s16 (some e.tangential),
               byteField (if e.snap then 1 else 0)])
            ++ [.u16 (some (start + min 20 ((s.wind.ctx c).trace.length - start)))] }))) ∧
  (∀ (now : HillTime) (l : LinkId) (tag : Byte) (i row column count : Nat) (p : Panel) (s : State), s.takes l →
    1 ≤ i → i ≤ 8 → entry s.board.panels i = some p → 1 ≤ row → row ≤ p.rows → 1 ≤ column → column ≤ p.columns →
    1 ≤ count → count ≤ 32 →
    exec (.cell now l tag i row column count) s =
      .next ((s.setClock now).place l (.answered
        { type := 0x9B#8, tag := tag, code := .ok,
          body := cellBody p
            ((((List.range p.rows).flatMap (fun k => s.composed i p (k + 1))).drop
              ((row - 1) * p.columns + (column - 1))).take count) ((row - 1) * p.columns + (column - 1)) }))) ∧
  (∀ (now : HillTime) (l : LinkId) (tag : Byte) (j start i row column count : Nat) (s : State), s.takes l →
    ((∀ r ∈ s.round.records, r.jump ≠ j) → exec (.trce now l tag j start) s =
      s.answering now l 0x9E#8 tag .noSuchJump [.u8 none, .u16 (some 0), .u8 none, .u8 none, .u16 none]) ∧
    (∀ r, s.round.records.find? (fun x => x.jump == j) = some r → r.context = none → exec (.trce now l tag j start) s =
      s.answering now l 0x9E#8 tag .noTrace [.u8 none, .u16 (some 0), .u8 none, .u8 none, .u16 none]) ∧
    (i < 1 ∨ 8 < i → exec (.cell now l tag i row column count) s =
      s.answering now l 0x9B#8 tag .outOfRange [byteField 0, .u8 none, .u8 none, .u8 none, .u8 none]) ∧
    (1 ≤ i → i ≤ 8 → entry s.board.panels i = none → exec (.cell now l tag i row column count) s =
      s.answering now l 0x9B#8 tag .wrongState [byteField 0, .u8 none, .u8 none, .u8 none, .u8 none]) ∧
    (∀ p, 1 ≤ i → i ≤ 8 → entry s.board.panels i = some p →
      (row < 1 ∨ p.rows < row ∨ column < 1 ∨ p.columns < column ∨ count < 1 ∨ 32 < count) →
      exec (.cell now l tag i row column count) s =
        s.answering now l 0x9B#8 tag .outOfRange [byteField 0, .u8 none, .u8 none, .u8 none, .u8 none]))

/-- A request that its owning block refuses leaves everything as it was but for the reply (R176). -/
def Obligations.RefusedRequestsChangeNothing : Prop :=
  ∀ (i : Instr) (now : HillTime) (l : LinkId) (tag : Byte) (r : Request) (s t : State) (a : Reply),
    s.takes l → requestOf i = some (now, l, tag, r) → exec i s = .next t →
    (t.link l).queue = (s.link l).queue ++ [.answered a] → a.code ≠ .ok →
    t = (s.setClock now).place l (.answered a) ∧ a.type = r.code + 0x80#8 ∧ a.tag = tag

/-! The round -/

/-- OPEN in READY starts a round: an empty record table, the jump counter at 1, the reference gate set from the mode, RED;
in the other part states it is refused (R3, R31). -/
def Obligations.OpenStartsARound : Prop :=
  (∀ (now : HillTime) (tag : Byte) (s : State), s.takes .control → s.round.part = .ready →
    ∃ t, exec (.openRound now .control tag) s = .next t ∧
      Becomes t { s with
        clock := now
        round := { s.round with part := .round, table := List.replicate 8 none, counter := 1 }
        scoring := { s.scoring with
          refGate := match s.scoring.hill.map (fun h => h.mode) with
            | some (RefMode.fixed g) => some g
            | some .firstRelease | none => none }
        start := { s.start with light := .red, cadence := none } } ∧
      Answers s t [.lamp .red none none] .control { type := 0x8C#8, tag := tag, code := .ok, body := [] }) ∧
  (∀ (now : HillTime) (tag : Byte) (s : State), s.takes .control → s.round.part ≠ .ready →
    exec (.openRound now .control tag) s =
      s.answering now .control 0x8C#8 tag (if s.round.part = .round then .wrongState else .notConfigured) [])

/-- SHUT with no record on the hill voids every CALLED, RELEASED, AWAITING and REVIEW record for ROUND_CLOSED, so that every
CONFIRMED one is published, frees their contexts, applies a gate staged on the RELEASED record, ends the clearance timer and
the round, and leaves the lights DARK: the VOID, GATE and RSLT notices record by record in jump-number order, the LAMP last.
A CONFIRMED record waits before it for a lower-numbered one, as every publication check leaves it. Otherwise SHUT is refused
(R4, R20, R21, R60). -/
def Obligations.ShutClosesTheRound : Prop :=
  (∀ (now : HillTime) (tag : Byte) (open_ : List Record) (s : State), s.takes .control → s.round.part = .round →
    (∀ r ∈ s.round.records, r.state.onHill = false) → (s.round.records.map (fun r => r.jump)).Nodup →
    s.round.publishable = none → open_ = s.round.records.filter (fun r => !r.state.terminal) →
    ∃ t, exec (.shutRound now .control tag) s = .next t ∧
      Becomes t { s with
        clock := now
        round := { s.round with
          part := .ready, clearance := none
          table := s.round.table.map (Option.map (fun x =>
            if x.state.terminal then x
            else
              { x with
                state := if x.state = .confirmed then .published else .voided
                voidReason := if x.state = .confirmed then x.voidReason else some .roundClosed
                context := if s.round.bindA = some x.jump ∨ s.round.bindB = some x.jump then none else x.context
                remaining := if x.state = .released then
                    (if ∃ y ∈ s.round.records, y.state = .released ∧ y.jump < x.jump then none
                     else s.start.countdown.msLeft now)
                  else x.remaining }))
          bindA := if s.round.bindsOneOf open_ .a then none else s.round.bindA
          bindB := if s.round.bindsOneOf open_ .b then none else s.round.bindB }
        start := { s.start with
          light := .dark, cadence := none
          countdown := if ∃ r ∈ s.round.records, r.state = .released then .idle else s.start.countdown
          juryGate := match s.start.staged with
            | some (g, j) => if ∃ r ∈ s.round.records, r.state = .released ∧ r.jump = j then g else s.start.juryGate
            | none => s.start.juryGate
          staged := match s.start.staged with
            | some (g, j) => if ∃ r ∈ s.round.records, r.state = .released ∧ r.jump = j then none else some (g, j)
            | none => none }
        wind := { s.wind with
          ctxA := if s.round.bindsOneOf open_ .a then freedContext else s.wind.ctxA
          ctxB := if s.round.bindsOneOf open_ .b then freedContext else s.wind.ctxB } } ∧
      Answers s t
        ((sortByJump open_).flatMap (fun r =>
            if r.state = .confirmed then publishNotices [r]
            else .voided r.jump r.bib r.state .roundClosed false ::
              (match s.start.staged with
               | some (g, j) => if r.state = .released ∧ r.jump = j then [.gate g .staged (some j)] else []
               | none => []))
          ++ [.lamp .dark none none])
        .control { type := 0x8D#8, tag := tag, code := .ok, body := [] }) ∧
  (∀ (now : HillTime) (tag : Byte) (s : State), s.takes .control →
    (s.round.part ≠ .round ∨ ∃ r ∈ s.round.records, r.state.onHill = true) →
    exec (.shutRound now .control tag) s = s.answering now .control 0x8D#8 tag .wrongState [])

/-- LIST appends its bibs to the list, emptied first under CLEAR, or refuses by the first check that fails; DROP takes out
one bib; nothing else changes (R7, R8). -/
def Obligations.ListAndDropEditTheStartList : Prop :=
  (∀ (now : HillTime) (tag : Byte) (clear : Bool) (bibs kept : List Nat) (s : State), s.takes .control →
    kept = (if clear then [] else s.round.startList) →
    exec (.list now .control tag clear bibs) s =
      if (clear = false ∧ bibs = []) ∨ 16 < bibs.length ∨ ∃ b ∈ bibs, b = 0 ∨ 999 < b then
        s.answering now .control 0x8E#8 tag .outOfRange [byteField 0, .u16 none]
      else if ¬bibs.Nodup ∨ ∃ b ∈ bibs, b ∈ kept ∨ ∃ r ∈ s.round.records, r.bib = b ∧ r.state.terminal = false then
        s.answering now .control 0x8E#8 tag .duplicateBib [byteField 0, .u16 none]
      else if 96 < kept.length + bibs.length then
        s.answering now .control 0x8E#8 tag .listFull [byteField 0, .u16 none]
      else
        (s.setRound { s.round with startList := kept ++ bibs }).answering now .control 0x8E#8 tag .ok
          [byteField (kept.length + bibs.length), .u16 (kept ++ bibs).head?]) ∧
  (∀ (now : HillTime) (tag : Byte) (bib : Nat) (s : State), s.takes .control →
    exec (.drop now .control tag bib) s =
      if bib = 0 ∨ 999 < bib then s.answering now .control 0x8F#8 tag .outOfRange [byteField 0, .u16 none]
      else if bib ∈ s.round.startList then
        (s.setRound { s.round with startList := s.round.startList.erase bib }).answering now .control 0x8F#8 tag .ok
          [byteField (s.round.startList.erase bib).length, .u16 (s.round.startList.erase bib).head?]
      else s.answering now .control 0x8F#8 tag .notInList [byteField 0, .u16 none])

/-- CALL takes a bib off the list into a new CALLED record, in the lowest never-used slot, else in the slot of the terminal
record with the lowest jump number, raises the counter, and shows YELLOW; each check that fails refuses with its code (R9,
R11, R13, R14). -/
def Obligations.CallCreatesARecord : Prop :=
  (∀ (now : HillTime) (l : LinkId) (tag : Byte) (bib : Option Nat) (b i : Nat) (s : State), s.takes l →
    s.round.part = .round → (∀ r ∈ s.round.records, r.state.atBar = false) →
    ((bib = none ∧ s.round.startList.head? = some b) ∨ (bib = some b ∧ 1 ≤ b ∧ b ≤ 999 ∧ b ∈ s.round.startList)) →
    s.round.counter ≤ 65534 →
    ((s.round.table[i]? = some none ∧ ∀ k, k < i → s.round.table[k]? ≠ some none) ∨
     (none ∉ s.round.table ∧ (s.round.records.map (fun r => r.jump)).Nodup ∧
      ∃ old, s.round.table[i]? = some (some old) ∧ old.state.terminal = true ∧
        ∀ r ∈ s.round.records, r.state.terminal = true → old.jump ≤ r.jump)) →
    ∃ t, exec (.call now l tag bib) s = .next t ∧
      Becomes t { s with
        clock := now
        round := { s.round with
          startList := s.round.startList.erase b, counter := s.round.counter + 1
          table := s.round.table.set i (some
            { jump := s.round.counter, bib := b, state := .called, context := none, reductionGate := none,
              juryGate := none, usedGate := none, callTime := now, releaseTime := none, departureTime := none,
              takeoffTime := none, landingTime := none, remaining := none, holdCause := .none, speed := none,
              flightTime := none, landingMark := none, spread := none, proposed := none, confirmed := none,
              summaries := [], jumpWind := none, distPoints := none, gateComp := none, windComp := none,
              total := none, voidReason := none, flags := {} }) }
        start := { s.start with light := .yellow, cadence := none } } ∧
      Answers s t [.lamp .yellow (some b) none] l
        { type := 0x95#8, tag := tag, code := .ok, body := [.u16 (some s.round.counter), .u16 (some b)] }) ∧
  (∀ (now : HillTime) (l : LinkId) (tag : Byte) (bib : Option Nat) (s : State), s.takes l →
    (s.round.part ≠ .round →
      exec (.call now l tag bib) s = s.answering now l 0x95#8 tag .wrongState [.u16 none, .u16 none]) ∧
    (s.round.part = .round → (∃ b, bib = some b ∧ (b = 0 ∨ 999 < b)) →
      exec (.call now l tag bib) s = s.answering now l 0x95#8 tag .outOfRange [.u16 none, .u16 none]) ∧
    (s.round.part = .round → (∀ b, bib = some b → 1 ≤ b ∧ b ≤ 999) → (∃ r ∈ s.round.records, r.state.atBar = true) →
      exec (.call now l tag bib) s = s.answering now l 0x95#8 tag .barOccupied [.u16 none, .u16 none]) ∧
    (s.round.part = .round → (∀ b, bib = some b → 1 ≤ b ∧ b ≤ 999) → (∀ r ∈ s.round.records, r.state.atBar = false) →
      (bib = none → s.round.startList = [] →
        exec (.call now l tag bib) s = s.answering now l 0x95#8 tag .listEmpty [.u16 none, .u16 none]) ∧
      (∀ b, bib = some b → b ∉ s.round.startList →
        exec (.call now l tag bib) s = s.answering now l 0x95#8 tag .notInList [.u16 none, .u16 none]) ∧
      ((bib = none ∧ s.round.startList ≠ []) ∨ (∃ b, bib = some b ∧ b ∈ s.round.startList) → 65534 < s.round.counter →
        exec (.call now l tag bib) s = s.answering now l 0x95#8 tag .outOfRange [.u16 none, .u16 none])))

/-- VOID ends a record that is not terminal: the record VOIDED for JURY_RESTART or JURY_CANCEL, its context, its timers, its
lights and its staged gate dealt with, its bib requeued at the head of the list, and then every CONFIRMED record published
that waited only for it, the notices in that order; a check that fails refuses (R19 to R22). -/
def Obligations.VoidEndsARecord : Prop :=
  (∀ (now : HillTime) (l : LinkId) (tag : Byte) (requeue : Bool) (r : Record) (s : State), s.takes l →
    s.only r.jump r → r.state.terminal = false → (requeue = true → s.round.startList.length < 96) →
    ∃ t v rs, exec (.void now l tag r.jump requeue) s = .next t ∧
      v = voidState s now r (if requeue then .juryRestart else .juryCancel) requeue ∧
      PublishedBy v.round rs ∧ Becomes t (publishState v rs) ∧
      Answers s t (voidNotices s now r (if requeue then .juryRestart else .juryCancel) requeue ++ publishNotices rs) l
        { type := 0x96#8, tag := tag, code := .ok,
          body := [.u16 (some r.jump), .u8 (some (if requeue then 3 else 4))] }) ∧
  (∀ (now : HillTime) (l : LinkId) (tag : Byte) (requeue : Bool) (j : Nat) (s : State), s.takes l →
    ((∀ r ∈ s.round.records, r.jump ≠ j) →
      exec (.void now l tag j requeue) s = s.answering now l 0x96#8 tag .noSuchJump [.u16 none, .u8 none]) ∧
    (∀ r, s.only j r → r.state.terminal = true →
      exec (.void now l tag j requeue) s = s.answering now l 0x96#8 tag .wrongState [.u16 none, .u8 none]) ∧
    (∀ r, s.only j r → r.state.terminal = false → requeue = true → 96 ≤ s.round.startList.length →
      exec (.void now l tag j requeue) s = s.answering now l 0x96#8 tag .listFull [.u16 none, .u8 none]))

/-- The publication check publishes CONFIRMED records in increasing jump-number order, each once every lower-numbered record
is terminal, until none is left to publish: each becomes PUBLISHED, its context is freed and emptied, and its RSLT is sent in
that order; every other record and all other state stay as they were (R16, R21, R22). -/
def Obligations.PublicationRunsInJumpOrder : Prop :=
  ∀ s : State, (s.round.records.map (fun r => r.jump)).Nodup →
    ∃ rs, PublishedBy s.round rs ∧ Becomes s.publicationCheck (publishState s rs) ∧
      Posts s s.publicationCheck (publishNotices rs) ∧ s.publicationCheck.round.publishable = none

/-- The timers of the bar, the in-run and the hill: a clearance timer that has reached its expiry is not running; the
countdown of a RELEASED record voids it for START_TIME, the limit of an INRUN record voids it for INRUN_TIMEOUT, each void
followed by the publication of what waited for it; none of them does anything before its expiry (R18, R20, R21, R45,
R106). -/
def Obligations.TimersRunOut : Prop :=
  (∀ (now expiry : HillTime) (s : State), s.held = false → s.round.clearance = some expiry →
    exec (.clearanceExpiry now) s = .next
      (if reached now expiry then (s.setClock now).setRound { s.round with clearance := none } else s.setClock now)) ∧
  (∀ (now expiry : HillTime) (r : Record) (s : State), s.held = false →
    s.start.countdown = .running r.jump expiry → s.only r.jump r → r.state = .released →
    (reached now expiry = true →
      ∃ t v rs, exec (.countdownExpiry now) s = .next t ∧ v = voidState s now r .startTime false ∧ PublishedBy v.round rs ∧
        Becomes t (publishState v rs) ∧
        Posts s t (voidNotices s now r .startTime false ++ publishNotices rs)) ∧
    (reached now expiry = false → exec (.countdownExpiry now) s = .next (s.setClock now))) ∧
  (∀ (now expiry : HillTime) (r : Record) (s : State), s.held = false →
    s.flight.inrunLimit = some { jump := r.jump, expiry := expiry } → s.only r.jump r → r.state = .inrun →
    (reached now expiry = true →
      ∃ t v rs, exec (.inrunLimitExpiry now) s = .next t ∧ v = voidState s now r .inrunTimeout false ∧ PublishedBy v.round rs ∧
        Becomes t (publishState v rs) ∧
        Posts s t (voidNotices s now r .inrunTimeout false ++ publishNotices rs)) ∧
    (reached now expiry = false → exec (.inrunLimitExpiry now) s = .next (s.setClock now)))

/-! The hill, the sectors, READY, the settings -/

/-- READY asks for a hill record, an enabled station, a configured strip unit and a first sector that starts at 0. Outside a
round the evaluation sets the part state by it; READY starts strip polling where none runs, UNCONFIGURED lets the Station
Line's slot be the last, the scan or snapshot ending with it and keeping its entries until then; in a round nothing changes
(R1, R2, R72, R82, R114). -/
def Obligations.ReadyFollowsItsConditions : Prop :=
  ∀ s : State,
    (s.round.part = .round → s.evaluateReady = s) ∧
    (s.round.part ≠ .round → s.scoring.hill ≠ none → (∃ i st, entry s.wind.stations i = some st ∧ st.enabled = true) →
      (∃ i u, entry s.flight.units i = some u) → (∃ sec l, s.scoring.sectors = sec :: l ∧ sec.start = 0) →
      (∀ sl, s.flight.stripSlot = some sl → s.evaluateReady = s.setRound { s.round with part := .ready }) ∧
      (s.flight.stripSlot = none →
        s.evaluateReady = (s.setRound { s.round with part := .ready }).setFlight (beginStripSlot s.flight s.clock))) ∧
    (s.round.part ≠ .round →
      (s.scoring.hill = none ∨ (∀ i st, entry s.wind.stations i = some st → st.enabled = false) ∨
        (∀ i, entry s.flight.units i = none) ∨ s.scoring.sectors = [] ∨
        (∃ sec l, s.scoring.sectors = sec :: l ∧ sec.start ≠ 0)) →
      s.evaluateReady = { s with
        round := { s.round with part := .unconfigured }
        wind := { s.wind with
          scan := if s.wind.slot = none then none else s.wind.scan
          snapshot := if s.wind.slot = none then none else s.wind.snapshot
          stopping := if s.wind.slot = none then s.wind.stopping else true } })

/-- HILL outside a round replaces the hill record whole, follows it with the READY evaluation, and moves the jury gate into
the new gate range with a GATE notice; the first field that fails is named; in a round HILL is refused (R27, R28). -/
def Obligations.HillReplacesTheRecord : Prop :=
  (∀ (now : HillTime) (tag : Byte) (f : HillFields) (checks : List Bool) (u : State) (g : Nat) (s : State),
    s.takes .control → s.round.part ≠ .round →
    checks =
      [decide (1 ≤ f.kPoint ∧ f.kPoint ≤ 600), decide (f.kPoint ≤ f.hillSize ∧ f.hillSize ≤ 600),
       decide (f.basePoints ≤ 2000), decide (100 ≤ f.metreValue ∧ f.metreValue ≤ 400), decide (f.gateFactor ≤ 1000),
       decide (f.headFactor ≤ 5000), decide (f.tailFactor ≤ 5000), decide (f.threshold ≤ 600),
       decide (1 ≤ f.lowest ∧ f.lowest ≤ 40), decide (f.lowest ≤ f.highest ∧ f.highest ≤ 40), decide (f.mode ≤ 1),
       decide (f.mode = 1 → f.lowest ≤ f.fixedGate ∧ f.fixedGate ≤ f.highest)] →
    (∀ n : Nat, checks.findIdx? (fun b => !b) = some n →
      exec (.hill now .control tag f) s = s.answering now .control 0x81#8 tag .outOfRange [byteField (n + 1)]) ∧
    (checks.findIdx? (fun b => !b) = none →
      u = ((s.setClock now).setScoring { s.scoring with
        hill := some
          { kPoint := f.kPoint, hillSize := f.hillSize, basePoints := f.basePoints, metreValue := f.metreValue,
            gateFactor := f.gateFactor, headFactor := f.headFactor, tailFactor := f.tailFactor,
            threshold := f.threshold, lowest := f.lowest, highest := f.highest,
            mode := if f.mode = 1 then .fixed f.fixedGate else .firstRelease } }).evaluateReady →
      g = min (max s.start.juryGate f.lowest) f.highest →
      ∃ t, exec (.hill now .control tag f) s = .next t ∧
        Becomes t (u.setStart { u.start with juryGate := g }) ∧
        Answers s t (if g = s.start.juryGate then [] else [.gate g .range none]) .control
          { type := 0x81#8, tag := tag, code := .ok, body := [byteField 0] })) ∧
  (∀ (now : HillTime) (tag : Byte) (f : HillFields) (s : State), s.takes .control → s.round.part = .round →
    exec (.hill now .control tag f) s = s.answering now .control 0x81#8 tag .roundOpen [.u8 none])

/-- SECT outside a round replaces the sector table by its first entries, followed by the READY evaluation: the count at most
6, each start at most 300 and each weight at most 100, the first start 0 and each further one above the one before it; the
sector at fault is named, 0 for the count; in a round SECT is refused (R35). -/
def Obligations.SectReplacesTheTable : Prop :=
  (∀ (now : HillTime) (tag : Byte) (count : Nat) (es : List (Nat × Nat)) (s : State),
    s.takes .control → s.round.part ≠ .round → es.length = 6 →
    (6 < count →
      exec (.sect now .control tag count es) s = s.answering now .control 0x82#8 tag .outOfRange [byteField 0]) ∧
    (∀ k e, count ≤ 6 → k < count → es[k]? = some e → ¬(e.1 ≤ 300 ∧ e.2 ≤ 100) →
      (∀ m x, m < k → es[m]? = some x → x.1 ≤ 300 ∧ x.2 ≤ 100) →
      exec (.sect now .control tag count es) s = s.answering now .control 0x82#8 tag .outOfRange [byteField (k + 1)]) ∧
    (count ≤ 6 → (∀ k e, k < count → es[k]? = some e → e.1 ≤ 300 ∧ e.2 ≤ 100) →
      (∀ e, 1 ≤ count → es[0]? = some e → e.1 ≠ 0 →
        exec (.sect now .control tag count es) s = s.answering now .control 0x82#8 tag .outOfRange [byteField 1]) ∧
      (∀ e k a b, es[0]? = some e → e.1 = 0 → k + 1 < count → es[k]? = some a → es[k + 1]? = some b → b.1 ≤ a.1 →
        (∀ m x y, m < k → es[m]? = some x → es[m + 1]? = some y → x.1 < y.1) →
        exec (.sect now .control tag count es) s =
          s.answering now .control 0x82#8 tag .outOfRange [byteField (k + 2)]) ∧
      ((∀ e, 1 ≤ count → es[0]? = some e → e.1 = 0) →
        (∀ k a b, k + 1 < count → es[k]? = some a → es[k + 1]? = some b → a.1 < b.1) →
        exec (.sect now .control tag count es) s =
          ((s.setClock now).setScoring { s.scoring with
            sectors := (es.take count).map (fun e => { start := e.1, weight := e.2 }) }).evaluateReady.answering now
              .control 0x82#8 tag .ok [byteField 0]))) ∧
  (∀ (now : HillTime) (tag : Byte) (count : Nat) (es : List (Nat × Nat)) (s : State),
    s.takes .control → s.round.part = .round →
    exec (.sect now .control tag count es) s = s.answering now .control 0x82#8 tag .roundOpen [.u8 none])

/-- TIMS replaces its seven settings together, or names the first outside its range and changes nothing (R63). -/
def Obligations.TimsReplacesTheSettings : Prop :=
  ∀ (now : HillTime) (tag : Byte) (f : TimsFields) (checks : List Bool) (s : State), s.takes .control →
    checks =
      [decide (10 ≤ f.countdown ∧ f.countdown ≤ 120), decide (5 ≤ f.resumeMin ∧ f.resumeMin ≤ 60),
       decide (f.clearance ≤ 30), decide (5 ≤ f.inrun ∧ f.inrun ≤ 30), decide (2 ≤ f.landing ∧ f.landing ≤ 15),
       decide (10 ≤ f.pairing ∧ f.pairing ≤ 250), decide (1 ≤ f.spread ∧ f.spread ≤ 20)] →
    exec (.tims now .control tag f) s =
      match checks.findIdx? (fun b => !b) with
      | some n => s.answering now .control 0x86#8 tag .outOfRange [byteField (n + 1)]
      | none => (s.setStart { s.start with timing := f }).answering now .control 0x86#8 tag .ok [byteField 0]

/-! The start lights -/

/-- GATE within the range: with no record RELEASED or INRUN the jury gate is the gate at once and no gate is staged; with one,
the gate is staged on it and nothing else changes; outside the range nothing changes. Without a hill record the range is
gate 1 alone (R29, R59). -/
def Obligations.GateAppliesOrStages : Prop :=
  ∀ (now : HillTime) (tag : Byte) (g : Nat) (range : Nat × Nat) (s : State), s.takes .console →
    range = (match s.scoring.hill with | some h => (h.lowest, h.highest) | none => (1, 1)) →
    (g < range.1 ∨ range.2 < g →
      exec (.gate now .console tag g) s = s.answering now .console 0x93#8 tag .outOfRange [.u8 none, .u8 none]) ∧
    (range.1 ≤ g → g ≤ range.2 → (∀ r ∈ s.round.records, r.state ≠ .released ∧ r.state ≠ .inrun) →
      ∃ t, exec (.gate now .console tag g) s = .next t ∧
        Becomes t { s with clock := now, start := { s.start with juryGate := g, staged := none } } ∧
        Answers s t [.gate g .request none] .console
          { type := 0x93#8, tag := tag, code := .ok, body := [.u8 (some g), .u8 none] }) ∧
    (∀ r, range.1 ≤ g → g ≤ range.2 →
      s.round.records.find? (fun x => x.state == .released || x.state == .inrun) = some r →
      exec (.gate now .console tag g) s =
        (s.setStart { s.start with staged := some (g, r.jump) }).answering now .console 0x93#8 tag .ok
          [.u8 (some s.start.juryGate), .u8 (some g)])

/-- RDUC writes the reduction gate of a CALLED record and raises its REDUCTION flag, the gate at least the range's lowest and
below the jury gate; a check that fails refuses (R62). -/
def Obligations.RducWritesTheReductionGate : Prop :=
  ∀ (now : HillTime) (tag : Byte) (j g lowest : Nat) (s : State), s.takes .console →
    lowest = (match s.scoring.hill with | some h => h.lowest | none => 1) →
    ((∀ r ∈ s.round.records, r.jump ≠ j) →
      exec (.rduc now .console tag j g) s =
        s.answering now .console 0x94#8 tag .noSuchJump [.u16 none, .u8 none, .u8 none]) ∧
    (∀ r, s.only j r → r.state ≠ .called →
      exec (.rduc now .console tag j g) s =
        s.answering now .console 0x94#8 tag .wrongState [.u16 none, .u8 none, .u8 none]) ∧
    (∀ r, s.only j r → r.state = .called → g < lowest ∨ s.start.juryGate ≤ g →
      exec (.rduc now .console tag j g) s =
        s.answering now .console 0x94#8 tag .outOfRange [.u16 none, .u8 none, .u8 none]) ∧
    (∀ r, s.only j r → r.state = .called → lowest ≤ g → g < s.start.juryGate →
      ∃ t, exec (.rduc now .console tag j g) s = .next t ∧
        Becomes t { s with
          clock := now
          round := s.round.modify j (fun x =>
            { x with reductionGate := some g, flags := { x.flags with reduction := true } }) } ∧
        Answers s t [] .console
          { type := 0x94#8, tag := tag, code := .ok,
            body := [.u16 (some j), .u8 (some g), .u8 (some s.start.juryGate)] })

/-- RELS on a CALLED record releases it: its release time, gates and context written, the context emptied and waiting, the
reference gate taken under FIRST_RELEASE, the countdown RUNNING for its full time, GREEN above 10 s and GREEN_FLASH else.
On a RELEASED record with the countdown HELD it resumes with no less than the least resume time. A check that fails refuses
(R32, R46 to R49, R61). -/
def Obligations.RelsReleasesOrResumes : Prop :=
  (∀ (now : HillTime) (tag : Byte) (r : Record) (override : Bool) (c : Ctx) (jury used ticks : Nat) (s : State),
    s.takes .console → s.round.part = .round → s.only r.jump r → r.state = .called →
    (∀ x ∈ s.round.records, x.state.onHill = false) → s.round.clearance = none →
    ((s.round.bindA = none ∧ c = .a) ∨ (s.round.bindA ≠ none ∧ s.round.bindB = none ∧ c = .b)) →
    (s.corridor.status = .inside ∨ override = true) →
    jury = s.start.juryGate →
    used = (match r.reductionGate with | some g => min g jury | none => jury) →
    ticks = 100000 * s.start.timing.countdown →
    ∃ t, exec (.rels now .console tag r.jump override) s = .next t ∧
      Becomes t { s with
        clock := now
        round := (s.round.setBinding c (some r.jump)).modify r.jump (fun x =>
          { x with
            context := some c, releaseTime := some now, juryGate := some jury, usedGate := some used
            state := .released, flags := { x.flags with override := x.flags.override || override } })
        scoring := { s.scoring with
          refGate := if s.scoring.refGate = none ∧ s.scoring.hill.map (fun h => h.mode) = some .firstRelease
            then some jury else s.scoring.refGate }
        start := { s.start with
          countdown := .running r.jump (now + BitVec.ofNat 32 ticks)
          light := if 1000000 < ticks then .green else .greenFlash
          cadence := if 1000000 < ticks then none else some (true, now + 50000#32) }
        wind := s.wind.setCtx c
          { sums := List.replicate 12 (0, 0), start := none, stop := none, mark := .waiting, settling := [],
            trace := [] } } ∧
      Answers s t [.lamp (if 1000000 < ticks then .green else .greenFlash) (some r.bib)
          (some (1000 * s.start.timing.countdown))] .console
        { type := 0x91#8, tag := tag, code := .ok,
          body := [.u16 (some r.jump), .u8 (some (match c with | .a => 1 | .b => 2)), .u8 (some used),
                   .u32 (some (1000 * s.start.timing.countdown))] }) ∧
  (∀ (now : HillTime) (tag : Byte) (r : Record) (override : Bool) (j heldTicks ticks : Nat) (s : State),
    s.takes .console → s.round.part = .round → s.only r.jump r → r.state = .released →
    s.start.countdown = .held j heldTicks →
    (s.corridor.status = .inside ∨ r.flags.override = true ∨ override = true) →
    ticks = max heldTicks (100000 * s.start.timing.resumeMin) →
    ∃ t, exec (.rels now .console tag r.jump override) s = .next t ∧
      Becomes t { s with
        clock := now
        round := s.round.modify r.jump (fun x =>
          { x with
            holdCause := .none, remaining := none, flags := { x.flags with override := x.flags.override || override } })
        start := { s.start with
          countdown := .running r.jump (now + BitVec.ofNat 32 ticks)
          light := if 1000000 < ticks then .green else .greenFlash
          cadence := if 1000000 < ticks then none else some (true, now + 50000#32) } } ∧
      Answers s t [.lamp (if 1000000 < ticks then .green else .greenFlash) (some r.bib) (some ((ticks + 99) / 100))]
        .console
        { type := 0x91#8, tag := tag, code := .ok,
          body := [.u16 (some r.jump), .u8 (r.context.map (fun c => match c with | .a => 1 | .b => 2)), .u8 r.usedGate,
                   .u32 (some ((ticks + 99) / 100))] }) ∧
  (∀ (now : HillTime) (tag : Byte) (j : Nat) (override : Bool) (absent : List Field) (s : State), s.takes .console →
    absent = [.u16 none, .u8 none, .u8 none, .u32 none] →
    (s.round.part ≠ .round →
      exec (.rels now .console tag j override) s = s.answering now .console 0x91#8 tag .wrongState absent) ∧
    (s.round.part = .round → (∀ r ∈ s.round.records, r.jump ≠ j) →
      exec (.rels now .console tag j override) s = s.answering now .console 0x91#8 tag .noSuchJump absent) ∧
    (∀ r, s.round.part = .round → s.only j r → r.state ≠ .called →
      (r.state ≠ .released ∨ ∀ k n, s.start.countdown ≠ .held k n) →
      exec (.rels now .console tag j override) s = s.answering now .console 0x91#8 tag .wrongState absent) ∧
    (∀ r, s.round.part = .round → s.only j r → r.state = .called →
      ((∃ x ∈ s.round.records, x.state.onHill = true) ∨ s.round.clearance ≠ none →
        exec (.rels now .console tag j override) s = s.answering now .console 0x91#8 tag .hillNotClear absent) ∧
      ((∀ x ∈ s.round.records, x.state.onHill = false) → s.round.clearance = none →
        (s.round.bindA ≠ none → s.round.bindB ≠ none →
          exec (.rels now .console tag j override) s = s.answering now .console 0x91#8 tag .contextBusy absent) ∧
        (s.round.bindA = none ∨ s.round.bindB = none → s.corridor.status ≠ .inside → override = false →
          exec (.rels now .console tag j override) s = s.answering now .console 0x91#8 tag .corridorNotIn absent))) ∧
    (∀ r k n, s.round.part = .round → s.only j r → r.state = .released → s.start.countdown = .held k n →
      s.corridor.status ≠ .inside → r.flags.override = false → override = false →
      exec (.rels now .console tag j override) s = s.answering now .console 0x91#8 tag .corridorNotIn absent))

/-- HOLD on a RELEASED record with the countdown RUNNING freezes the remaining time, writes the hold cause JURY and the HELD
flag, and shows HOLD; a check that fails refuses (R51). -/
def Obligations.HoldFreezesTheCountdown : Prop :=
  (∀ (now expiry : HillTime) (tag : Byte) (r : Record) (j ms : Nat) (s : State), s.takes .console →
    s.only r.jump r → r.state = .released → s.start.countdown = .running j expiry →
    ms = (ticksLeft expiry now + 99) / 100 →
    ∃ t, exec (.hold now .console tag r.jump) s = .next t ∧
      Becomes t { s with
        clock := now
        round := s.round.modify r.jump (fun x =>
          { x with remaining := some ms, holdCause := .jury, flags := { x.flags with held := true } })
        start := { s.start with countdown := .held r.jump (ticksLeft expiry now), light := .hold, cadence := none } } ∧
      (∀ n d, entry s.board.fields n = some d → d.item = .countdown →
        entry t.board.countdownShown n = some ((ticksLeft expiry now + 99999) / 100000)) ∧
      Answers s t [.lamp .hold (some r.bib) (some ms)] .console
        { type := 0x92#8, tag := tag, code := .ok, body := [.u16 (some r.jump), .u32 (some ms)] }) ∧
  (∀ (now : HillTime) (tag : Byte) (j : Nat) (s : State), s.takes .console →
    ((∀ r ∈ s.round.records, r.jump ≠ j) →
      exec (.hold now .console tag j) s = s.answering now .console 0x92#8 tag .noSuchJump [.u16 none, .u32 none]) ∧
    (∀ r, s.only j r → (r.state ≠ .released ∨ ∀ k e, s.start.countdown ≠ .running k e) →
      exec (.hold now .console tag j) s = s.answering now .console 0x92#8 tag .wrongState [.u16 none, .u32 none]))

/-- The lamps, and the countdown's own events: each light state has its lamps, red, yellow and green, and in GREEN_FLASH the
cadence lights the green one. GREEN turns to GREEN_FLASH, lit, once 10 s are left; the cadence toggles every 500 ms; and every
COUNTDOWN field is rendered anew in whole seconds rounded up at a second step; nothing happens before its time (R40, R41, R44,
R156). -/
def Obligations.CountdownEvents : Prop :=
  (∀ st : StartLight,
    (st.light = .dark → lamps st = (false, false, false)) ∧ (st.light = .red → lamps st = (true, false, false)) ∧
    (st.light = .yellow → lamps st = (false, true, false)) ∧ (st.light = .green → lamps st = (false, false, true)) ∧
    (∀ lit next, st.light = .greenFlash → st.cadence = some (lit, next) → lamps st = (false, false, lit)) ∧
    (st.light = .hold → lamps st = (true, true, false))) ∧
  (∀ (now expiry : HillTime) (r : Record) (s : State), s.held = false → s.start.countdown = .running r.jump expiry →
    s.only r.jump r → s.start.light = .green →
    (reached now (expiry - 1000000#32) = true →
      ∃ t, exec (.flashBoundary now) s = .next t ∧
        Becomes t { s with
          clock := now, start := { s.start with light := .greenFlash, cadence := some (true, now + 50000#32) } } ∧
        Posts s t [.lamp .greenFlash (some r.bib) (some 10000)]) ∧
    (reached now (expiry - 1000000#32) = false → exec (.flashBoundary now) s = .next (s.setClock now))) ∧
  (∀ (now next : HillTime) (lit : Bool) (s : State), s.held = false → s.start.cadence = some (lit, next) →
    exec (.flashCadence now) s = .next
      (if reached now next then
        (s.setClock now).setStart { s.start with cadence := some (!lit, next + 50000#32) }
      else s.setClock now)) ∧
  (∀ (now expiry : HillTime) (j : Nat) (s : State), s.held = false → s.start.countdown = .running j expiry →
    ∃ t, exec (.countdownSecondStep now) s = .next t ∧ Becomes t { s with clock := now } ∧ Posts s t [] ∧
      ∀ n d, entry s.board.fields n = some d → d.item = .countdown →
        entry t.board.countdownShown n = some ((ticksLeft expiry now + 99999) / 100000)) ∧
  (∀ (now : HillTime) (s : State), s.held = false → (∀ j e, s.start.countdown ≠ .running j e) →
    exec (.flashBoundary now) s = .next (s.setClock now) ∧
    exec (.countdownSecondStep now) s = .next (s.setClock now))

/-- An edge of the start bar that opens the contact, or of a barrier that interrupts its beam, begins a debounce at its own
hill time, behind those that are complete and wait to be taken. The other edge drops the debounce it breaks off before its
2 ms, or 1 ms; one that has run its time still waits for its row (R54, R101; log 3). Nothing else changes. -/
def Obligations.EdgesBeginAndDropDebounces : Prop :=
  (∀ (now : HillTime) (s : State), s.held = false → s.start.barOpen = false →
    exec (.startBarEdge now true) s =
      .next ((s.setClock now).setStart { s.start with barOpen := true, barDebounce := s.start.barDebounce ++ [now] })) ∧
  (∀ (now t : HillTime) (l : List HillTime) (s : State), s.held = false → s.start.barOpen = true →
    (s.start.barDebounce = l ++ [t] →
      exec (.startBarEdge now false) s = .next ((s.setClock now).setStart
        { s.start with barOpen := false, barDebounce := if reached now (t + 200#32) then l ++ [t] else l })) ∧
    (s.start.barDebounce = [] →
      exec (.startBarEdge now false) s = .next ((s.setClock now).setStart { s.start with barOpen := false }))) ∧
  (∀ (now : HillTime) (w : Barrier) (s : State), s.held = false → (s.flight.barrier w).broken = false →
    exec (.barrierInputEdge now w true) s =
      .next ((s.setClock now).setFlight (s.flight.setBarrier w
        { broken := true, debounce := (s.flight.barrier w).debounce ++ [now] }))) ∧
  (∀ (now t : HillTime) (l : List HillTime) (w : Barrier) (s : State), s.held = false →
    (s.flight.barrier w).broken = true →
    ((s.flight.barrier w).debounce = l ++ [t] →
      exec (.barrierInputEdge now w false) s = .next ((s.setClock now).setFlight (s.flight.setBarrier w
        { broken := false, debounce := if reached now (t + 100#32) then l ++ [t] else l }))) ∧
    ((s.flight.barrier w).debounce = [] →
      exec (.barrierInputEdge now w false) s =
        .next ((s.setClock now).setFlight (s.flight.setBarrier w { broken := false, debounce := [] })))) ∧
  (∀ (now : HillTime) (b : Bool) (w : Barrier) (s : State), s.held = false →
    (s.start.barOpen = b → exec (.startBarEdge now b) s = .next (s.setClock now)) ∧
    ((s.flight.barrier w).broken = b → exec (.barrierInputEdge now w b) s = .next (s.setClock now)))

/-- A departure, taken once the bar contact has stayed open for 2 ms, its time that of the opening edge: the RELEASED record
goes to INRUN with the remaining time at that edge, its in-run limit and its speed trap set; the CALLED record is voided for
EARLY_START, and what waited for it is published; with no record at the bar the departure is stray. Before the 2 ms, and with
no debounce under way, nothing happens (R20, R21, R54 to R57). -/
def Obligations.DepartureIsTaken : Prop :=
  (∀ (now departed : HillTime) (rest : List HillTime) (r : Record) (ms : Nat) (heldStart : Bool) (s : State),
    s.held = false → s.start.barDebounce = departed :: rest → reached now (departed + 200#32) = true →
    s.round.records.find? (fun x => x.state.atBar) = some r → s.only r.jump r → r.state = .released →
    ms = (s.start.countdown.msLeft departed).getD 0 →
    (heldStart = true ↔ r.flags.heldStart = true ∨ ∃ j n, s.start.countdown = .held j n) →
    ∃ t, exec (.departure now) s = .next t ∧
      Becomes t { s with
        clock := now
        round := s.round.modify r.jump (fun x =>
          { x with
            departureTime := some departed, remaining := some ms, state := .inrun
            flags := { x.flags with heldStart := heldStart } })
        start := { s.start with countdown := .idle, light := .red, cadence := none, barDebounce := rest }
        flight := { s.flight with
          inrunLimit := some { jump := r.jump, expiry := departed + BitVec.ofNat 32 (100000 * s.start.timing.inrun) }
          trapJump := some r.jump, trapTime := none, trapDone := false } } ∧
      Posts s t [.dept r.jump r.bib departed ms heldStart, .lamp .red (some r.bib) (some ms)]) ∧
  (∀ (now departed : HillTime) (rest : List HillTime) (r : Record) (u : State) (s : State), s.held = false →
    s.start.barDebounce = departed :: rest → reached now (departed + 200#32) = true →
    s.round.records.find? (fun x => x.state.atBar) = some r → s.only r.jump r → r.state = .called →
    u = { s with
      round := s.round.modify r.jump (fun x => { x with departureTime := some departed })
      start := { s.start with barDebounce := rest } } →
    ∃ t v rs, exec (.departure now) s = .next t ∧ v = voidState u now r .earlyStart false ∧ PublishedBy v.round rs ∧
      Becomes t (publishState v rs) ∧
      Posts s t
        ([.voided r.jump r.bib .called .earlyStart false, .lamp .red (some r.bib) none] ++ publishNotices rs)) ∧
  (∀ (now departed : HillTime) (rest : List HillTime) (s : State), s.held = false →
    s.start.barDebounce = departed :: rest → reached now (departed + 200#32) = true → (∀ x ∈ s.round.records, x.state.atBar = false) →
    ∃ t, exec (.departure now) s = .next t ∧
      Becomes t { s with clock := now, start := { s.start with barDebounce := rest } } ∧
      Posts s t [.stry .startBar departed none none]) ∧
  (∀ (now departed : HillTime) (rest : List HillTime) (s : State), s.held = false →
    (s.start.barDebounce = [] ∨ (s.start.barDebounce = departed :: rest ∧ reached now (departed + 200#32) = false)) →
    exec (.departure now) s = .next (s.setClock now))

/-! The wind stations and the corridor -/

/-- STN edits the station table: CONFIGURE writes an entry whole, UPDATE its member and enabled marks, REMOVE takes it out of
the table and of the scan list; a poll of the entry under way is not applied; a change of state sends STNA; the READY
evaluation follows. Each check that fails refuses (R66 to R68, R78). The address in the STNA of a removal is the model's reading
(log 20). -/
def Obligations.StnEditsTheStationTable : Prop :=
  (∀ (now : HillTime) (tag : Byte) (i : Nat) (f : StnFields) (new : Station) (u : State) (s : State),
    s.takes .control → s.round.part ≠ .round → 1 ≤ i → i ≤ 12 →
    1 ≤ f.address → f.address ≤ 62 → 1 ≤ f.sector → f.sector ≤ 6 → f.axis ≤ 359 →
    (∀ k st, k ≠ i → entry s.wind.stations k = some st → st.address ≠ f.address) →
    new = { address := f.address, sector := f.sector, axis := f.axis, member := f.member, enabled := f.enabled,
            state := if f.enabled then .active else .disabled, miss := 0, good := 0, latest := none,
            flags := { clamped := false, mismatch := false } } →
    u = (s.setClock now).setWind { s.wind with
      stations := setEntry s.wind.stations i (some new)
      slot := s.wind.slot.map (fun sl => if sl.station = i then { sl with void := true } else sl) } →
    exec (.stnConfigure now .control tag i f) s =
      (if (entry s.wind.stations i).map (fun st => st.state) = some new.state then u
       else u.post (.stna i f.address ((entry s.wind.stations i).map (fun st => st.state)) (some new.state) .configured
         { clamped := false, mismatch := false } now)).evaluateReady.answering now .control 0x83#8 tag .ok
        [byteField i, byteField (if f.enabled then 1 else 4)]) ∧
  (∀ (now : HillTime) (tag : Byte) (i : Nat) (f : StnFields) (st : Station) (s : State), s.takes .control →
    1 ≤ i → i ≤ 12 → entry s.wind.stations i = some st →
    (s.round.part = .round → f.enabled = false →
      ∃ k x, k ≠ i ∧ entry s.wind.stations k = some x ∧ x.enabled = true) →
    (st.enabled = f.enabled →
      exec (.stnUpdate now .control tag i f) s =
        ((s.setClock now).setWind { s.wind with
          stations := setEntry s.wind.stations i (some { st with member := f.member }) }).evaluateReady.answering now
            .control 0x83#8 tag .ok [byteField i, byteField (match st.state with
              | .active => 1 | .silent => 2 | .fault => 3 | .disabled => 4)]) ∧
    (st.enabled = true → f.enabled = false → st.state ≠ .disabled →
      exec (.stnUpdate now .control tag i f) s =
        (((s.setClock now).setWind { s.wind with
          stations := setEntry s.wind.stations i (some
            { st with
              member := f.member, enabled := false, state := .disabled, miss := 0, good := 0, latest := none
              flags := { clamped := false, mismatch := false } })
          slot := s.wind.slot.map (fun sl => if sl.station = i then { sl with void := true } else sl) }).post
            (.stna i st.address (some st.state) (some .disabled) .disabled { clamped := false, mismatch := false }
              now)).evaluateReady.answering now .control 0x83#8 tag .ok [byteField i, byteField 4]) ∧
    (st.enabled = false → f.enabled = true → st.state = .disabled →
      exec (.stnUpdate now .control tag i f) s =
        (((s.setClock now).setWind { s.wind with
          stations := setEntry s.wind.stations i (some
            { st with member := f.member, enabled := true, state := .active, miss := 0, good := 0, latest := none })
          }).post (.stna i st.address (some .disabled) (some .active) .enabled st.flags now)).evaluateReady.answering now
            .control 0x83#8 tag .ok [byteField i, byteField 1])) ∧
  (∀ (now : HillTime) (tag : Byte) (i : Nat) (f : StnFields) (st : Station) (s : State), s.takes .control →
    s.round.part ≠ .round → 1 ≤ i → i ≤ 12 → entry s.wind.stations i = some st →
    exec (.stnRemove now .control tag i f) s =
      (((s.setClock now).setWind { s.wind with
        stations := setEntry s.wind.stations i none, scanList := s.wind.scanList.filter (fun k => k != i)
        slot := s.wind.slot.map (fun sl => if sl.station = i then { sl with void := true } else sl) }).post
          (.stna i st.address (some st.state) none .removed { clamped := false, mismatch := false }
            now)).evaluateReady.answering now .control 0x83#8 tag .ok [byteField i, byteField 0]) ∧
  (∀ (now : HillTime) (tag : Byte) (i : Nat) (f : StnFields) (s : State), s.takes .control →
    (s.round.part = .round →
      exec (.stnConfigure now .control tag i f) s =
        s.answering now .control 0x83#8 tag .roundOpen [.u8 none, .u8 none] ∧
      exec (.stnRemove now .control tag i f) s =
        s.answering now .control 0x83#8 tag .roundOpen [.u8 none, .u8 none]) ∧
    (s.round.part ≠ .round → i < 1 ∨ 12 < i →
      exec (.stnConfigure now .control tag i f) s =
        s.answering now .control 0x83#8 tag .outOfRange [.u8 none, .u8 none] ∧
      exec (.stnRemove now .control tag i f) s =
        s.answering now .control 0x83#8 tag .outOfRange [.u8 none, .u8 none]) ∧
    (i < 1 ∨ 12 < i →
      exec (.stnUpdate now .control tag i f) s =
        s.answering now .control 0x83#8 tag .outOfRange [.u8 none, .u8 none]) ∧
    (1 ≤ i → i ≤ 12 → entry s.wind.stations i = none →
      exec (.stnUpdate now .control tag i f) s =
        s.answering now .control 0x83#8 tag .wrongState [.u8 none, .u8 none]) ∧
    (∀ st, s.round.part = .round → 1 ≤ i → i ≤ 12 → entry s.wind.stations i = some st → f.enabled = false →
      (∀ k x, k ≠ i → entry s.wind.stations k = some x → x.enabled = false) →
      exec (.stnUpdate now .control tag i f) s =
        s.answering now .control 0x83#8 tag .roundOpen [.u8 none, .u8 none]) ∧
    (s.round.part ≠ .round → 1 ≤ i → i ≤ 12 → entry s.wind.stations i = none →
      exec (.stnRemove now .control tag i f) s =
        s.answering now .control 0x83#8 tag .wrongState [.u8 none, .u8 none]) ∧
    (s.round.part ≠ .round → 1 ≤ i → i ≤ 12 →
      (f.address < 1 ∨ 62 < f.address ∨ f.sector < 1 ∨ 6 < f.sector ∨ 359 < f.axis) →
      exec (.stnConfigure now .control tag i f) s =
        s.answering now .control 0x83#8 tag .outOfRange [.u8 none, .u8 none]) ∧
    (∀ k st, s.round.part ≠ .round → 1 ≤ i → i ≤ 12 → 1 ≤ f.address → f.address ≤ 62 → 1 ≤ f.sector →
      f.sector ≤ 6 → f.axis ≤ 359 → k ≠ i → entry s.wind.stations k = some st → st.address = f.address →
      exec (.stnConfigure now .control tag i f) s =
        s.answering now .control 0x83#8 tag .addressInUse [.u8 none, .u8 none]))

/-- SCAN checks its period, silent count and clear count, then its entries by its mode, and writes the settings with the list
replaced, added to or kept; a check that fails refuses and writes nothing (R70). -/
def Obligations.ScanWritesTheScanSettings : Prop :=
  ∀ (now : HillTime) (tag : Byte) (f : ScanFields) (settings entries : Prop) (u : List Nat → State) (s : State),
    s.takes .control →
    settings = ((100 ≤ f.period ∧ f.period ≤ 2000 ∧ f.period % 10 = 0) ∧ (1 ≤ f.silent ∧ f.silent ≤ 15) ∧
      (1 ≤ f.clear ∧ f.clear ≤ 15)) →
    entries = ((1 ≤ f.entries.length ∧ f.entries.length ≤ 16) ∧
      ∀ i ∈ f.entries, 1 ≤ i ∧ i ≤ 12 ∧ entry s.wind.stations i ≠ none) →
    u = (fun l => s.setWind { s.wind with
      scanPeriod := f.period, silentCount := f.silent, clearCount := f.clear, scanList := l }) →
    (settings → entries →
      exec (.scanReplace now .control tag f) s =
        (u f.entries).answering now .control 0x84#8 tag .ok [byteField f.entries.length, .u16 (some f.period)]) ∧
    (settings → entries → s.wind.scanList.length + f.entries.length ≤ 16 →
      exec (.scanAdd now .control tag f) s =
        (u (s.wind.scanList ++ f.entries)).answering now .control 0x84#8 tag .ok
          [byteField (s.wind.scanList.length + f.entries.length), .u16 (some f.period)]) ∧
    (settings → entries → 16 < s.wind.scanList.length + f.entries.length →
      exec (.scanAdd now .control tag f) s = s.answering now .control 0x84#8 tag .listFull [byteField 0, .u16 none]) ∧
    (settings → f.entries = [] →
      exec (.scanKeep now .control tag f) s =
        (u s.wind.scanList).answering now .control 0x84#8 tag .ok
          [byteField s.wind.scanList.length, .u16 (some f.period)]) ∧
    (¬settings ∨ ¬entries →
      exec (.scanReplace now .control tag f) s =
        s.answering now .control 0x84#8 tag .outOfRange [byteField 0, .u16 none] ∧
      exec (.scanAdd now .control tag f) s =
        s.answering now .control 0x84#8 tag .outOfRange [byteField 0, .u16 none]) ∧
    (¬settings ∨ f.entries ≠ [] →
      exec (.scanKeep now .control tag f) s =
        s.answering now .control 0x84#8 tag .outOfRange [byteField 0, .u16 none])

/-- Scanning. A tick sets the next one a scan period on; in READY and ROUND it posts SCOV where a scan is in progress, starts
none while a snapshot runs, and otherwise polls the first entry of the scan list whose station is configured and enabled,
for 8 ms; UNCONFIGURED polls nothing. A slot that ends without an answer is a miss of its station, and the line goes on with
the LATCH of a snapshot, its next latched read, or the scan's next entry, or is free; where the part became UNCONFIGURED in
the slot, the scan or snapshot ends with it. Nothing happens before its time (R71 to R75, R77, R78, R81, R82). -/
def Obligations.ScanningRuns : Prop :=
  (∀ (now tick next : HillTime) (w : WindRx) (s : State), s.held = false → tick = s.wind.nextTick →
      next = tick + BitVec.ofNat 32 (100 * s.wind.scanPeriod) → w = { s.wind with nextTick := next } →
      (reached now tick = false → exec (.scanTick now) s = .next (s.setClock now)) ∧
      (reached now tick = true → (s.round.part = .unconfigured ∨ s.wind.snapshot ≠ none) →
        exec (.scanTick now) s = .next ((s.setClock now).setWind w)) ∧
      (∀ left, reached now tick = true → s.round.part ≠ .unconfigured → s.wind.snapshot = none →
        s.wind.scan = some left →
        exec (.scanTick now) s =
          .next (((s.setClock now).setWind w).post (.scov tick left.length s.wind.scanPeriod))) ∧
      (reached now tick = true → s.round.part ≠ .unconfigured → s.wind.snapshot = none → s.wind.scan = none →
        (∀ pre i post st, s.wind.scanList = pre ++ i :: post →
          (∀ k ∈ pre, ∀ x, entry s.wind.stations k = some x → x.enabled = false) →
          entry s.wind.stations i = some st → st.enabled = true →
          exec (.scanTick now) s = .next ((s.setClock now).setWind { w with
            scan := some post
            slot := some { kind := .poll, station := i, address := st.address, ends := tick + 800#32, answered := false,
                           void := false } })) ∧
        ((∀ k ∈ s.wind.scanList, ∀ x, entry s.wind.stations k = some x → x.enabled = false) →
          exec (.scanTick now) s = .next ((s.setClock now).setWind { w with scan := none, slot := none })))) ∧
  (∀ (now : HillTime) (s : State), s.held = false →
    (s.wind.slot = none ∨ ∃ sl, s.wind.slot = some sl ∧ reached now sl.ends = false) →
    exec (.stationSlotEnd now) s = .next (s.setClock now)) ∧
  (∀ (now : HillTime) (sl : StationSlot) (m : State) (s : State), s.held = false →
    s.wind.slot = some sl → reached now sl.ends = true →
    (((sl.kind = .latch ∨ sl.answered = true ∨ sl.void = true) ∧ m = s.setClock now) ∨
     (sl.kind ≠ .latch ∧ sl.answered = false ∧ sl.void = false ∧
      ∃ st, entry s.wind.stations sl.station = some st ∧ m = applyOutcome (s.setClock now) sl.station st .miss)) →
    (s.wind.stopping = true → exec (.stationSlotEnd now) s = .next (m.setWind { m.wind with
      scan := none, snapshot := none, slot := none, stopping := false })) ∧
    (∀ sn, s.wind.stopping = false → s.wind.snapshot = some sn → sn.latchDue = true →
      exec (.stationSlotEnd now) s = .next (m.setWind { m.wind with
        snapshot := some { latchDue := false, left := sn.left }
        slot := some { kind := .latch, station := 0, address := 0, ends := sl.ends + 800#32, answered := false,
                       void := false } })) ∧
    (∀ sn pre i post x, s.wind.stopping = false → s.wind.snapshot = some sn → sn.latchDue = false →
      sn.left = pre ++ i :: post →
      (∀ k ∈ pre, ∀ y, entry m.wind.stations k = some y → y.enabled = false) →
      entry m.wind.stations i = some x → x.enabled = true →
      exec (.stationSlotEnd now) s = .next (m.setWind { m.wind with
        snapshot := some { latchDue := false, left := post }
        slot := some { kind := .latchedRead, station := i, address := x.address, ends := sl.ends + 800#32,
                       answered := false, void := false } })) ∧
    (∀ left pre i post x, s.wind.stopping = false → s.wind.snapshot = none → s.wind.scan = some left →
      left = pre ++ i :: post →
      (∀ k ∈ pre, ∀ y, entry m.wind.stations k = some y → y.enabled = false) →
      entry m.wind.stations i = some x → x.enabled = true →
      exec (.stationSlotEnd now) s = .next (m.setWind { m.wind with
        scan := some post
        slot := some { kind := .poll, station := i, address := x.address, ends := sl.ends + 800#32, answered := false,
                       void := false } })) ∧
    (∀ sn, s.wind.stopping = false → s.wind.snapshot = some sn → sn.latchDue = false →
      (∀ k ∈ sn.left, ∀ y, entry m.wind.stations k = some y → y.enabled = false) →
      exec (.stationSlotEnd now) s = .next (m.setWind { m.wind with snapshot := none, slot := none })) ∧
    (∀ left, s.wind.stopping = false → s.wind.snapshot = none → s.wind.scan = some left →
      (∀ k ∈ left, ∀ y, entry m.wind.stations k = some y → y.enabled = false) →
      exec (.stationSlotEnd now) s = .next (m.setWind { m.wind with scan := none, slot := none })) ∧
    (s.wind.stopping = false → s.wind.snapshot = none → s.wind.scan = none →
      exec (.stationSlotEnd now) s = .next (m.setWind { m.wind with slot := none }))) ∧
  (∀ (i : Nat) (st : Station) (m : Nat) (s : State), entry s.wind.stations i = some st →
    m = min (st.miss + 1) 15 →
    (st.state = .active ∨ st.state = .fault → s.wind.silentCount ≤ m →
      applyOutcome s i st .miss = (s.setWind { s.wind with
        stations := setEntry s.wind.stations i (some { st with miss := m, good := 0, state := .silent }) }).post
          (.stna i st.address (some st.state) (some .silent) .misses st.flags s.clock)) ∧
    (st.state = .silent ∨ st.state = .disabled ∨ m < s.wind.silentCount →
      applyOutcome s i st .miss = s.setWind { s.wind with
        stations := setEntry s.wind.stations i (some { st with miss := m, good := 0 }) }))

/-- The first frame received whole within a poll slot is judged once, in the order of R75: a failed check, another address
(which raises the mismatch flag), SENSOR_FAULT, a direction of 360 or more, or good. A fault answer clears both counts and
makes the station FAULT, with STNA where it was not. A good answer of a station that is not
ACTIVE only counts towards its recovery; in a slot made void by STN the frame is the slot's answer and is applied to nothing.
A frame outside a slot, begun before it, after the answer, or in a LATCH slot is discarded (R67, R68, R74 to R78). That a
frame counts whose last byte falls on the very tick of the slot's end, or its first on that of its start, is the model's
reading (log 25, log 32). -/
def Obligations.StationAnswerIsJudged : Prop :=
  (∀ (now began : HillTime) (bytes : List Byte) (s : State), s.held = false →
    (s.wind.slot = none ∨ ∃ sl, s.wind.slot = some sl ∧
      (sl.kind = .latch ∨ sl.answered = true ∨ laterThan now sl.ends = true ∨ reached began (sl.ends - 800#32) = false)) →
    exec (.stationAnswer now ⟨began, bytes⟩) s = .next (s.setClock now)) ∧
  (∀ (now began : HillTime) (bytes : List Byte) (sl : StationSlot) (s : State), s.held = false →
    s.wind.slot = some sl → sl.kind ≠ .latch → sl.answered = false → sl.void = true →
    laterThan now sl.ends = false → reached began (sl.ends - 800#32) = true →
    exec (.stationAnswer now ⟨began, bytes⟩) s =
      .next ((s.setClock now).setWind { s.wind with slot := some { sl with answered := true } })) ∧
  (∀ (now began : HillTime) (bytes : List Byte) (sl : StationSlot) (st : Station) (u : State) (s : State),
    s.held = false → s.wind.slot = some sl → sl.kind ≠ .latch → sl.answered = false → sl.void = false →
    laterThan now sl.ends = false → reached began (sl.ends - 800#32) = true →
    entry s.wind.stations sl.station = some st →
    u = (s.setClock now).setWind { s.wind with slot := some { sl with answered := true } } →
    (stationAnswerOf bytes = none →
      exec (.stationAnswer now ⟨began, bytes⟩) s = .next (applyOutcome u sl.station st .miss)) ∧
    (∀ a, stationAnswerOf bytes = some a → a.address ≠ sl.address →
      exec (.stationAnswer now ⟨began, bytes⟩) s = .next
        (applyOutcome u sl.station { st with flags := { clamped := st.flags.clamped, mismatch := true } } .miss)) ∧
    (∀ a, stationAnswerOf bytes = some a → a.address = sl.address → a.sensorFault = true →
      exec (.stationAnswer now ⟨began, bytes⟩) s = .next (applyOutcome u sl.station st .fault)) ∧
    (∀ a, stationAnswerOf bytes = some a → a.address = sl.address → a.sensorFault = false → 360 ≤ a.direction →
      exec (.stationAnswer now ⟨began, bytes⟩) s = .next (applyOutcome u sl.station st .miss)) ∧
    (∀ a, stationAnswerOf bytes = some a → a.address = sl.address → a.sensorFault = false → a.direction < 360 →
      st.state ≠ .active →
      exec (.stationAnswer now ⟨began, bytes⟩) s = .next (applyOutcome u sl.station
        { st with flags := { clamped := decide (5000 < a.speed), mismatch := false } } .good))) ∧
  (∀ (i : Nat) (st : Station) (s : State), entry s.wind.stations i = some st →
    (st.state = .active ∨ st.state = .silent →
      applyOutcome s i st .fault = (s.setWind { s.wind with
        stations := setEntry s.wind.stations i (some { st with miss := 0, good := 0, state := .fault }) }).post
          (.stna i st.address (some st.state) (some .fault) .sensorFault st.flags s.clock)) ∧
    (st.state = .fault ∨ st.state = .disabled →
      applyOutcome s i st .fault = s.setWind { s.wind with
        stations := setEntry s.wind.stations i (some { st with miss := 0, good := 0 }) }) ∧
    (st.state = .silent ∨ st.state = .fault → s.wind.clearCount ≤ min (st.good + 1) 15 →
      applyOutcome s i st .good = (s.setWind { s.wind with
        stations := setEntry s.wind.stations i (some
          { st with good := min (st.good + 1) 15, miss := 0, state := .active }) }).post
          (.stna i st.address (some st.state) (some .active) .recovered st.flags s.clock)) ∧
    (st.state = .active ∨ st.state = .disabled ∨ min (st.good + 1) 15 < s.wind.clearCount →
      applyOutcome s i st .good = s.setWind { s.wind with
        stations := setEntry s.wind.stations i (some { st with good := min (st.good + 1) 15, miss := 0 }) }))

/-- A good answer of an ACTIVE station is a used sample: clamped at 50 m/s, its tangential component from the cosine table,
its time the arrival less its age. It becomes the station's latest, goes to the corridor for a member, and is offered to
context A and to context B where they are bound. The corridor adds it to the window in which it arrives; one that arrives at
a window's end or later waits for the window that begins there, one before the first window is added to nothing. A context
that is waiting or open takes the sample into its trace, at most 512, and an open one whose window has begun into its sums
and its settling list; the other context and all else stay (R76, R77, R79, R80, R84, R85, R91). Frames on the very ticks of the
slot's start and end count, and samples wait, by the model's reading (log 25, log 32, log 22). -/
def Obligations.GoodAnswerIsUsed : Prop :=
  (∀ (now began : HillTime) (bytes : List Byte) (sl : StationSlot) (st : Station) (a : StationAnswer) (speed : Nat)
      (tangential : Int) (time : HillTime) (u : UsedSample) (s : State), s.held = false →
    s.wind.slot = some sl → sl.kind ≠ .latch → sl.answered = false → sl.void = false →
    laterThan now sl.ends = false → reached began (sl.ends - 800#32) = true → entry s.wind.stations sl.station = some st → st.state = .active →
    stationAnswerOf bytes = some a → a.address = sl.address → a.sensorFault = false → a.direction < 360 →
    speed = min a.speed 5000 →
    tangential = roundDiv (speed * cosValue ((a.direction + 360 - st.axis) % 360)) 10000 →
    time = now - BitVec.ofNat 32 a.age →
    u = { station := sl.station, speed := speed, direction := a.direction, tangential := tangential, time := time,
          arrival := now, snap := sl.kind == .latchedRead } →
    exec (.stationAnswer now ⟨began, bytes⟩) s = .next
      (offerTo (offerTo { s with
        clock := now
        wind := { s.wind with
          slot := some { sl with answered := true }
          stations := setEntry s.wind.stations sl.station (some
            { st with
              miss := 0, good := min (st.good + 1) 15
              flags := { clamped := decide (5000 < a.speed), mismatch := false }
              latest := some { speed := speed, direction := a.direction, tangential := tangential, time := time } }) }
        corridor := if st.member then s.corridor.take tangential now else s.corridor } .a u) .b u)) ∧
  (∀ (c : Corridor) (tangential : Int) (arrival start stop : HillTime) (sum : Int) (count : Nat),
    c.window = .current start stop sum count →
    (reached arrival stop = true →
      c.take tangential arrival = { c with waitSum := c.waitSum + tangential, waitCount := c.waitCount + 1 }) ∧
    (reached arrival stop = false → reached arrival start = true →
      c.take tangential arrival = { c with window := .current start stop (sum + tangential) (count + 1) }) ∧
    (reached arrival stop = false → reached arrival start = false → c.take tangential arrival = c)) ∧
  (∀ (c : Corridor) (tangential : Int) (arrival opens : HillTime), c.window = .opensAt opens →
    c.take tangential arrival =
      if reached arrival opens then { c with waitSum := c.waitSum + tangential, waitCount := c.waitCount + 1 }
      else c) ∧
  (∀ (c : Ctx) (u : UsedSample) (s : State), s.round.binding c = none → offerTo s c u = s) ∧
  (∀ (c : Ctx) (u : UsedSample) (j : Nat) (x : Context) (s : State), s.round.binding c = some j → x = s.wind.ctx c →
    (x.mark = .closed → offerTo s c u = s) ∧
    (∀ (summed : Bool) (y : Context), x.mark ≠ .closed →
      (summed = true ↔ x.mark = .opened ∧ ∃ start, x.start = some start ∧ reached u.time start = true) →
      y = { x with
        trace := if x.trace.length < 512 then
            x.trace ++ [{ station := u.station, time := u.time, tangential := u.tangential, snap := u.snap }]
          else x.trace
        sums := if summed then x.sums.modify (u.station - 1) (fun e => (e.1 + u.tangential, e.2 + 1)) else x.sums
        settling := if summed then
            (if x.settling.length < 128 then x.settling else x.settling.drop 1)
              ++ [{ station := u.station, time := u.time, tangential := u.tangential }]
          else x.settling } →
      offerTo s c u = { s with
        wind := match c with
          | .a => { s.wind with ctxA := y }
          | .b => { s.wind with ctxB := y }
        round := if x.trace.length < 512 then s.round
          else s.round.modify j (fun r => { r with flags := { r.flags with traceFull := true } }) }))

/-- A window's end judges it: fewer than 2 samples make it empty, its rounded mean within both limits IN, else OUT; the runs
follow, the status changes at the declare count, the clear count or 3 empty windows, and the next window opens with the
samples that waited. A change of status sends CORR; one away from IN holds the running countdown of a RELEASED record
without OVERRIDE. Before the boundary nothing happens (R90 to R95, R52, R53). -/
def Obligations.WindowEndJudgesTheWindow : Prop :=
  (∀ (now stop start : HillTime) (sum : Int) (count : Nat) (mean : Option Int) (inside : Bool) (c : Corridor)
      (before after : CorridorStatus) (s : State), s.held = false → s.corridor.window = .current start stop sum count →
    reached now stop = true → before = s.corridor.status →
    mean = (if count < 2 then none else some (roundDiv sum count)) →
    (inside = true ↔ ∃ m, mean = some m ∧ s.corridor.lower ≤ m ∧ m ≤ s.corridor.upper) →
    after =
      (if mean = none then (if 3 ≤ min (s.corridor.emptyRun + 1) 15 then .noData else before)
       else if inside = true then (if s.corridor.clear ≤ min (s.corridor.inRun + 1) 15 then .inside else before)
       else (if s.corridor.declare ≤ min (s.corridor.outRun + 1) 15 then .out else before)) →
    c = { s.corridor with
      live := mean
      inRun := if mean ≠ none ∧ inside = true then min (s.corridor.inRun + 1) 15 else 0
      outRun := if mean ≠ none ∧ inside = false then min (s.corridor.outRun + 1) 15 else 0
      emptyRun := if mean = none then min (s.corridor.emptyRun + 1) 15 else 0
      status := after
      window := .current stop (boundaryAfter stop (100 * s.corridor.lengthMs)) s.corridor.waitSum s.corridor.waitCount
      waitSum := 0, waitCount := 0, lastEnd := some stop } →
    (after = before → ∃ t, exec (.windowEnd now) s = .next t ∧ Becomes t { s with clock := now, corridor := c } ∧
      Posts s t []) ∧
    (after ≠ before →
      (before ≠ .inside ∨ (∀ x ∈ s.round.records, x.state ≠ .released) ∨ (∀ j e, s.start.countdown ≠ .running j e)) →
      ∃ t, exec (.windowEnd now) s = .next t ∧ Becomes t { s with clock := now, corridor := c } ∧
        Posts s t [.corr before after stop mean c.inRun c.outRun c.emptyRun]) ∧
    (∀ r j expiry ms, after ≠ before → before = .inside →
      s.round.records.find? (fun x => x.state == .released) = some r →
      s.start.countdown = .running j expiry → ms = (ticksLeft expiry now + 99) / 100 →
      (r.flags.override = true →
        ∃ t, exec (.windowEnd now) s = .next t ∧ Becomes t { s with clock := now, corridor := c } ∧
          Posts s t [.corr before after stop mean c.inRun c.outRun c.emptyRun]) ∧
      (r.flags.override = false →
        ∃ t, exec (.windowEnd now) s = .next t ∧
          Becomes t { s with
            clock := now, corridor := c
            round := s.round.modify r.jump (fun x =>
              { x with remaining := some ms, holdCause := .corridor, flags := { x.flags with held := true } })
            start := { s.start with
              countdown := .held r.jump (ticksLeft expiry now), light := .hold, cadence := none } } ∧
          Posts s t [.corr before after stop mean c.inRun c.outRun c.emptyRun, .lamp .hold (some r.bib) (some ms)]))) ∧
  (∀ (now time : HillTime) (s : State), s.held = false → s.corridor.window = .opensAt time →
    exec (.windowEnd now) s = .next
      (if reached now time then
        (s.setClock now).setCorridor { s.corridor with
          window := .current time (boundaryAfter time (100 * s.corridor.lengthMs)) s.corridor.waitSum
            s.corridor.waitCount
          waitSum := 0, waitCount := 0 }
      else s.setClock now)) ∧
  (∀ (now stop start : HillTime) (sum : Int) (count : Nat) (s : State), s.held = false →
    s.corridor.window = .current start stop sum count → reached now stop = false →
    exec (.windowEnd now) s = .next (s.setClock now))

/-- CORR checks its five fields in order, naming the first that fails, and writes them; the runs go to 0, status and live wind
stay, and the first window under the new length opens at once on a boundary not yet taken, with nothing in its sums but the
samples that already waited for a window due at that very hill time, else at the next boundary, whose hill time the reply
carries (R90, R91, R96, R97). That such samples go with the new window is the model's reading (log 22). -/
def Obligations.CorrRestartsTheWindows : Prop :=
  ∀ (now opens : HillTime) (tag : Byte) (f : CorrFields) (checks : List Bool) (len : Nat) (s : State),
    s.takes .control →
    checks =
      [decide (-500 ≤ f.lower ∧ f.lower ≤ 500), decide (-500 ≤ f.upper ∧ f.upper ≤ 500 ∧ f.lower < f.upper),
       decide (500 ≤ f.lengthMs ∧ f.lengthMs ≤ 10000 ∧ f.lengthMs % 500 = 0),
       decide (1 ≤ f.declare ∧ f.declare ≤ 15), decide (1 ≤ f.clear ∧ f.clear ≤ 15)] →
    len = 100 * f.lengthMs →
    opens = (if now.toNat % len = 0 ∧ s.corridor.lastEnd ≠ some now then now else boundaryAfter now len) →
    (∀ n : Nat, checks.findIdx? (fun b => !b) = some n →
      exec (.corr now .control tag f) s =
        s.answering now .control 0x85#8 tag .outOfRange [byteField (n + 1), .u32 none]) ∧
    (checks.findIdx? (fun b => !b) = none →
      ∃ c : Corridor,
        exec (.corr now .control tag f) s =
          (s.setCorridor c).answering now .control 0x85#8 tag .ok [byteField 0, .u32 (some opens.toNat)] ∧
        c = { s.corridor with
          lower := f.lower, upper := f.upper, lengthMs := f.lengthMs, declare := f.declare, clear := f.clear
          inRun := 0, outRun := 0, emptyRun := 0, waitSum := 0, waitCount := 0, window := c.window } ∧
        (opens ≠ now → c.window = .opensAt opens) ∧
        (now.toNat % len = 0 → s.corridor.lastEnd ≠ some now →
          ((s.corridor.window = .opensAt now ∨ ∃ start sum count, s.corridor.window = .current start now sum count) →
            c.window = .current now (boundaryAfter now len) s.corridor.waitSum s.corridor.waitCount) ∧
          (s.corridor.window ≠ .opensAt now → (∀ start sum count, s.corridor.window ≠ .current start now sum count) →
            c.window = .current now (boundaryAfter now len) 0 0)))

/-! The in-run, the flight and the landing -/

/-- An edge of barrier A or B, taken once its beam has stayed interrupted for 1 ms, its time that of the edge: with no record
INRUN it is stray; of barrier A the first is kept; of barrier B, the first after it, the speed is computed from the spacing
and the ticks between, written if 40.0 to 140.0 km/h, else flagged SPEED_INVALID. TRAP outside a round sets the spacing,
1000 to 20 000 mm (R101, R104, R105). -/
def Obligations.SpeedTrapMeasures : Prop :=
  (∀ (now t : HillTime) (rest : List HillTime) (u : State) (s : State), s.held = false →
    s.flight.barrierA.debounce = t :: rest →
    u = (s.setClock now).setFlight { s.flight with
      barrierA := { broken := s.flight.barrierA.broken, debounce := rest } } →
    (reached now (t + 100#32) = false → exec (.speedTrapEdge now .a) s = .next (s.setClock now)) ∧
    (reached now (t + 100#32) = true → (∀ r ∈ s.round.records, r.state ≠ .inrun) →
      exec (.speedTrapEdge now .a) s = .next (u.post (.stry .barrierA t none none))) ∧
    (∀ r, reached now (t + 100#32) = true → s.round.records.find? (fun x => x.state == .inrun) = some r →
      exec (.speedTrapEdge now .a) s = .next
        (if s.flight.trapJump = some r.jump ∧ s.flight.trapTime = none ∧ s.flight.trapDone = false then
          u.setFlight { u.flight with trapTime := some t }
        else u))) ∧
  (∀ (now t : HillTime) (rest : List HillTime) (u : State) (s : State), s.held = false →
    s.flight.barrierB.debounce = t :: rest →
    u = (s.setClock now).setFlight { s.flight with
      barrierB := { broken := s.flight.barrierB.broken, debounce := rest } } →
    (reached now (t + 100#32) = false → exec (.speedTrapEdge now .b) s = .next (s.setClock now)) ∧
    (reached now (t + 100#32) = true → (∀ r ∈ s.round.records, r.state ≠ .inrun) →
      exec (.speedTrapEdge now .b) s = .next (u.post (.stry .barrierB t none none))) ∧
    (∀ r, reached now (t + 100#32) = true → s.round.records.find? (fun x => x.state == .inrun) = some r →
      (s.flight.trapTime = none ∨ s.flight.trapJump ≠ some r.jump ∨ s.flight.trapDone = true) →
      exec (.speedTrapEdge now .b) s = .next u) ∧
    (∀ (r : Record) (first : HillTime) (dt v : Nat), reached now (t + 100#32) = true →
      s.round.records.find? (fun x => x.state == .inrun) = some r → s.only r.jump r →
      s.flight.trapTime = some first → s.flight.trapJump = some r.jump → s.flight.trapDone = false →
      dt = (t - first).toNat → v = (2 * s.flight.spacing * 3600 + dt) / (2 * dt) →
      ∃ x, exec (.speedTrapEdge now .b) s = .next x ∧
        Becomes x { u with
          flight := { u.flight with trapDone := true }
          round := s.round.modify r.jump (fun y =>
            if 0 < dt ∧ 400 ≤ v ∧ v ≤ 1400 then { y with speed := some v }
            else { y with flags := { y.flags with speedInvalid := true } }) } ∧
        Posts s x [])) ∧
  (∀ (now : HillTime) (tag : Byte) (v : Nat) (s : State), s.takes .control →
    exec (.trap now .control tag v) s =
      if s.round.part = .round then s.answering now .control 0x89#8 tag .roundOpen [.u16 none]
      else if 1000 ≤ v ∧ v ≤ 20000 then
        (s.setFlight { s.flight with spacing := v }).answering now .control 0x89#8 tag .ok [.u16 (some v)]
      else s.answering now .control 0x89#8 tag .outOfRange [.u16 none])

/-- The take-off of the INRUN record at the barrier's edge time: AIRBORNE, SPEED_INVALID where no speed has been written, the
in-run limit and the trap done with, the landing limit running, its context open from that time, TKOF sent and a gate staged
on it applied. A snapshot begins where none runs: the scan ends, and the LATCH takes the next slot. With no record INRUN the
edge is stray (R60, R81, R85, R107, R120). That the snapshot's stations are listed at the take-off, also where its LATCH waits
for a slot to end, is the model's reading (log 23), and so is that the snapshot goes on where the scan was to end with that
slot, the part having been UNCONFIGURED within it (log 35). -/
def Obligations.TakeoffMakesAirborne : Prop :=
  (∀ (now t : HillTime) (rest : List HillTime) (r : Record) (invalid : Bool) (w : WindRx) (left : List Nat) (s : State),
    s.held = false → s.flight.barrierT.debounce = t :: rest → reached now (t + 100#32) = true →
    s.round.records.find? (fun x => x.state == .inrun) = some r → s.only r.jump r →
    (invalid = true ↔ r.flags.speedInvalid = true ∨ r.speed = none) →
    w = (if s.round.bindA = some r.jump then
          { s.wind with ctxA := { s.wind.ctxA with start := some t, mark := .opened } }
         else if s.round.bindB = some r.jump then
          { s.wind with ctxB := { s.wind.ctxB with start := some t, mark := .opened } }
         else s.wind) →
    left = indicesWhere (fun st => st.enabled) s.wind.stations →
    ∃ x, exec (.takeoff now) s = .next x ∧
      Becomes x { s with
        clock := now
        round := s.round.modify r.jump (fun y =>
          { y with
            takeoffTime := some t, state := .airborne, flags := { y.flags with speedInvalid := invalid } })
        start := { s.start with
          juryGate := (s.start.stagedFor r.jump).getD s.start.juryGate
          staged := if (s.start.stagedFor r.jump).isSome then none else s.start.staged }
        flight := { s.flight with
          barrierT := { broken := s.flight.barrierT.broken, debounce := rest }
          inrunLimit := none, trapJump := none, trapTime := none, trapDone := false
          landingLimit := some
            { jump := r.jump, expiry := t + BitVec.ofNat 32 (100000 * s.start.timing.landing) } }
        wind :=
          if s.wind.snapshot ≠ none then w
          else if s.wind.slot ≠ none then
            { w with scan := none, snapshot := some { latchDue := true, left := left }, stopping := false }
          else
            { w with
              scan := none, snapshot := some { latchDue := false, left := left }, stopping := false
              slot := some { kind := .latch, station := 0, address := 0, ends := now + 800#32, answered := false,
                             void := false } } } ∧
      Posts s x (.tkof r.jump r.bib t (r.departureTime.map (fun d => (t - d).toNat)) r.speed invalid ::
        (match s.start.stagedFor r.jump with | some g => [.gate g .staged (some r.jump)] | none => []))) ∧
  (∀ (now t : HillTime) (rest : List HillTime) (s : State), s.held = false →
    s.flight.barrierT.debounce = t :: rest → reached now (t + 100#32) = true → (∀ r ∈ s.round.records, r.state ≠ .inrun) →
    exec (.takeoff now) s = .next
      (((s.setClock now).setFlight { s.flight with
        barrierT := { broken := s.flight.barrierT.broken, debounce := rest } }).post (.stry .takeoff t none none))) ∧
  (∀ (now t : HillTime) (rest : List HillTime) (s : State), s.held = false →
    (s.flight.barrierT.debounce = [] ∨
      (s.flight.barrierT.debounce = t :: rest ∧ reached now (t + 100#32) = false)) →
    exec (.takeoff now) s = .next (s.setClock now))

/-- The flight of an AIRBORNE record ends in AWAITING: at the landing limit with NO_CONTACT, its window ending at the expiry;
at the proposal moment with the landing time the earliest kept contact, the lowest mark counted within the pairing window,
its spread, AMBIGUOUS above the spread limit, and the proposed distance the base plus the mark. Its summaries are those of
the defined sectors that have a station mean, a station giving one from 2 samples on. Neither does anything before its time
(R118 to R120, R124, R125). -/
def Obligations.FlightEndsInAwaiting : Prop :=
  (∀ (now expiry : HillTime) (r : Record) (s : State), s.held = false →
    s.flight.landingLimit = some { jump := r.jump, expiry := expiry } → s.only r.jump r → r.state = .airborne →
    (reached now expiry = true →
      ∃ t, exec (.landingLimitExpiry now) s = .next t ∧
        EntersAwaiting { s with clock := now, flight := { s.flight with landingLimit := none } }
          { r with state := .awaiting, flags := { r.flags with noContact := true } } expiry t 0 0) ∧
    (reached now expiry = false → exec (.landingLimitExpiry now) s = .next (s.setClock now))) ∧
  (∀ (now landing : HillTime) (r : Record) (w : Watch) (counted : List Contact) (mark top : Nat) (s : State),
    s.held = false → s.flight.watch = some w → s.only r.jump r → r.jump = w.jump → r.state = .airborne →
    (∃ c ∈ w.kept, c.time = landing) → (∀ c ∈ w.kept, (c.time - landing).toNat < 2147483648) →
    counted = w.kept.filter (fun c => decide ((c.time - landing).toNat ≤ 100 * s.start.timing.pairing)) →
    (∃ c ∈ counted, c.mark = mark) → (∀ c ∈ counted, mark ≤ c.mark) →
    (∃ c ∈ counted, c.mark = top) → (∀ c ∈ counted, c.mark ≤ top) →
    (reached now w.proposalAt = true →
      ∃ t, exec (.proposalMoment now) s = .next t ∧
        EntersAwaiting { s with clock := now, flight := { s.flight with watch := none } }
          { r with
            landingTime := some landing, landingMark := some mark, spread := some (top - mark)
            proposed := some (s.flight.base + mark)
            flightTime := r.takeoffTime.map (fun x => (landing - x).toNat), state := .awaiting
            flags := { r.flags with
              ambiguous := r.flags.ambiguous || decide (s.start.timing.spread < top - mark) } }
          landing t w.kept.length counted.length) ∧
    (reached now w.proposalAt = false → exec (.proposalMoment now) s = .next (s.setClock now))) ∧
  (∀ (sectors : List Sector) (stations : List (Option Station)) (c : Context) (means : Nat → List Int),
    means = (fun k => (stations.zip c.sums).filterMap (fun e => e.1.bind (fun st =>
      if st.sector = k ∧ 2 ≤ e.2.2 then some (roundDiv e.2.1 e.2.2) else none))) →
    sectorSummaries sectors stations c = ((List.range sectors.length).filter (fun k => !(means (k + 1)).isEmpty)).map
      (fun k =>
        { sector := k + 1, mean := roundDiv (means (k + 1)).sum (means (k + 1)).length
          stations := (means (k + 1)).length }))

/-- A strip poll's answer and its end: a whole, good answer of the polled unit counts towards ONLINE and hands its contacts on
in order, each with its mark along the strip and its time the arrival less its age; any other frame, and a slot with no
answer, is a miss; in a slot made void by UNIT a frame is the answer and is applied to nothing; UNTA tells a change of state;
a slot that ends is followed by the next configured unit's in READY and ROUND, and by none where no unit is configured. A contact is stray with no record AIRBORNE or before its take-off; the first opens the watch, its proposal moment 300 ms
after its arrival, and stops the landing limit; further ones are kept while fewer than 8 are, then flag the record CROWDED
(R111, R112, R114 to R118). Frames on the very ticks of the slot's start and end count, and UNTA precedes the STRY of the same
answer, by the model's reading (log 25, log 32, log 36). -/
def Obligations.StripAnswersAreJudged : Prop :=
  (∀ (now began : HillTime) (bytes : List Byte) (s : State), s.held = false →
    (s.flight.stripSlot = none ∨ ∃ sl, s.flight.stripSlot = some sl ∧
      (sl.answered = true ∨ laterThan now sl.ends = true ∨ reached began (sl.ends - 500#32) = false)) →
    exec (.stripAnswer now ⟨began, bytes⟩) s = .next (s.setClock now)) ∧
  (∀ (now began : HillTime) (bytes : List Byte) (sl : StripSlot) (s : State), s.held = false →
    s.flight.stripSlot = some sl → sl.answered = false → sl.void = true → laterThan now sl.ends = false →
    reached began (sl.ends - 500#32) = true →
    exec (.stripAnswer now ⟨began, bytes⟩) s =
      .next ((s.setClock now).setFlight { s.flight with stripSlot := some { sl with answered := true } })) ∧
  (∀ (now began : HillTime) (bytes : List Byte) (sl : StripSlot) (x : StripUnit) (u : State) (s : State),
    s.held = false → s.flight.stripSlot = some sl → sl.answered = false → sl.void = false →
    laterThan now sl.ends = false → reached began (sl.ends - 500#32) = true →
    entry s.flight.units sl.unit = some x →
    u = (s.setClock now).setFlight { s.flight with stripSlot := some { sl with answered := true } } →
    ((∀ a, stripAnswerOf bytes = some a → a.address ≠ sl.address ∨ ∃ e ∈ a.entries, 23 < e.localMark) →
      exec (.stripAnswer now ⟨began, bytes⟩) s = .next (applyUnitOutcome u sl.unit x false)) ∧
    (∀ a, stripAnswerOf bytes = some a → a.address = sl.address → (∀ e ∈ a.entries, e.localMark ≤ 23) →
      exec (.stripAnswer now ⟨began, bytes⟩) s = .next
        ((a.entries.map (fun e =>
            { mark := match x.orientation with
                | .ascending => x.firstMark + e.localMark
                | .descending => x.firstMark + 23 - e.localMark
              time := now - BitVec.ofNat 32 e.age, arrival := now : Contact })).foldl (takeContact sl.unit)
          (applyUnitOutcome u sl.unit x true)))) ∧
  (∀ (now : HillTime) (sl : StripSlot) (m : State) (s : State), s.held = false → s.flight.stripSlot = some sl →
    (((sl.answered = true ∨ sl.void = true) ∧ m = s.setClock now) ∨
     (sl.answered = false ∧ sl.void = false ∧
      ∃ x, entry s.flight.units sl.unit = some x ∧ m = applyUnitOutcome (s.setClock now) sl.unit x false)) →
    (reached now sl.ends = false → exec (.stripSlotEnd now) s = .next (s.setClock now)) ∧
    (reached now sl.ends = true → (s.round.part = .unconfigured ∨ ∀ k, entry m.flight.units k = none) →
      exec (.stripSlotEnd now) s = .next (m.setFlight { m.flight with stripSlot := none })) ∧
    (∀ i x, reached now sl.ends = true → s.round.part ≠ .unconfigured → entry m.flight.units i = some x →
      (∀ last, s.flight.lastPolled = some last →
        (last < i ∧ ∀ k, last < k → k < i → entry m.flight.units k = none) ∨
        ((∀ k, last < k → entry m.flight.units k = none) ∧ ∀ k, k < i → entry m.flight.units k = none)) →
      (s.flight.lastPolled = none → ∀ k, k < i → entry m.flight.units k = none) →
      exec (.stripSlotEnd now) s = .next (m.setFlight { m.flight with
        lastPolled := some i
        stripSlot := some { unit := i, address := x.address, ends := sl.ends + 500#32, answered := false,
                            void := false } }))) ∧
  (∀ (i : Nat) (x : StripUnit) (s : State), entry s.flight.units i = some x →
    (x.state = .online → 6 ≤ min (x.miss + 1) 15 →
      applyUnitOutcome s i x false = (s.setFlight { s.flight with
        units := setEntry s.flight.units i (some { x with miss := min (x.miss + 1) 15, good := 0, state := .silent })
        }).post (.unta i x.address (some .online) (some .silent) .misses s.clock)) ∧
    (x.state = .silent ∨ min (x.miss + 1) 15 < 6 →
      applyUnitOutcome s i x false = s.setFlight { s.flight with
        units := setEntry s.flight.units i (some { x with miss := min (x.miss + 1) 15, good := 0 }) }) ∧
    (x.state = .silent → 2 ≤ min (x.good + 1) 15 →
      applyUnitOutcome s i x true = (s.setFlight { s.flight with
        units := setEntry s.flight.units i (some { x with good := min (x.good + 1) 15, miss := 0, state := .online })
        }).post (.unta i x.address (some .silent) (some .online) .recovered s.clock)) ∧
    (x.state = .online ∨ min (x.good + 1) 15 < 2 →
      applyUnitOutcome s i x true = s.setFlight { s.flight with
        units := setEntry s.flight.units i (some { x with good := min (x.good + 1) 15, miss := 0 }) })) ∧
  (∀ (unit : Nat) (c : Contact) (s : State), (∀ r ∈ s.round.records, r.state ≠ .airborne) →
    takeContact unit s c = s.post (.stry .strip c.time (some unit) (some c.mark))) ∧
  (∀ (unit : Nat) (c : Contact) (r : Record) (t : HillTime) (s : State),
    s.round.records.find? (fun x => x.state == .airborne) = some r → r.takeoffTime = some t →
    (reached c.time t = false →
      takeContact unit s c = s.post (.stry .strip c.time (some unit) (some c.mark))) ∧
    (reached c.time t = true → s.flight.watch = none →
      takeContact unit s c = s.setFlight { s.flight with
        watch := some { jump := r.jump, proposalAt := c.arrival + 30000#32, kept := [c] }, landingLimit := none }) ∧
    (∀ w, reached c.time t = true → s.flight.watch = some w →
      takeContact unit s c =
        if w.kept.length < 8 then s.setFlight { s.flight with watch := some { w with kept := w.kept ++ [c] } }
        else s.setRound (s.round.modify r.jump (fun x => { x with flags := { x.flags with crowded := true } }))))

/-- UNIT outside a round configures a strip unit, ONLINE with its counts at 0, or removes one; a poll of the entry under way is
not applied; UNTA tells a change of state; the READY evaluation follows. BASE outside a round sets the base distance, at
most 361 half metres. Each check that fails refuses (R110, R111, R113). The address in the UNTA of a removal is the model's
reading (log 20). -/
def Obligations.UnitAndBaseEditTheStrip : Prop :=
  (∀ (now : HillTime) (tag : Byte) (i : Nat) (f : UnitFields) (new : StripUnit) (o : Orientation) (u : State)
      (s : State), s.takes .control → s.round.part ≠ .round → 1 ≤ i → i ≤ 10 →
    ((f.orientation = 0 ∧ o = .ascending) ∨ (f.orientation = 1 ∧ o = .descending)) →
    1 ≤ f.address → f.address ≤ 31 → f.firstMark ≤ 216 →
    (∀ k x, k ≠ i → entry s.flight.units k = some x → x.address ≠ f.address) →
    (∀ k x, k ≠ i → entry s.flight.units k = some x → x.firstMark + 23 < f.firstMark ∨ f.firstMark + 23 < x.firstMark) →
    new = { address := f.address, firstMark := f.firstMark, orientation := o, state := .online, miss := 0, good := 0 } →
    u = (s.setClock now).setFlight { s.flight with
      units := setEntry s.flight.units i (some new)
      stripSlot := s.flight.stripSlot.map (fun sl => if sl.unit = i then { sl with void := true } else sl) } →
    exec (.unitConfigure now .control tag i f) s =
      (if (entry s.flight.units i).map (fun x => x.state) = some .online then u
       else u.post (.unta i f.address ((entry s.flight.units i).map (fun x => x.state)) (some .online) .configured
         now)).evaluateReady.answering now .control 0x87#8 tag .ok [byteField i, byteField 1]) ∧
  (∀ (now : HillTime) (tag : Byte) (i : Nat) (f : UnitFields) (x : StripUnit) (s : State), s.takes .control →
    s.round.part ≠ .round → 1 ≤ i → i ≤ 10 → entry s.flight.units i = some x →
    exec (.unitRemove now .control tag i f) s =
      (((s.setClock now).setFlight { s.flight with
        units := setEntry s.flight.units i none
        stripSlot := s.flight.stripSlot.map (fun sl => if sl.unit = i then { sl with void := true } else sl) }).post
          (.unta i x.address (some x.state) none .removed now)).evaluateReady.answering now .control 0x87#8 tag .ok
            [byteField i, byteField 0]) ∧
  (∀ (now : HillTime) (tag : Byte) (i : Nat) (f : UnitFields) (s : State), s.takes .control →
    (s.round.part = .round →
      exec (.unitConfigure now .control tag i f) s =
        s.answering now .control 0x87#8 tag .roundOpen [.u8 none, .u8 none] ∧
      exec (.unitRemove now .control tag i f) s =
        s.answering now .control 0x87#8 tag .roundOpen [.u8 none, .u8 none]) ∧
    (s.round.part ≠ .round → i < 1 ∨ 10 < i →
      exec (.unitConfigure now .control tag i f) s =
        s.answering now .control 0x87#8 tag .outOfRange [.u8 none, .u8 none] ∧
      exec (.unitRemove now .control tag i f) s =
        s.answering now .control 0x87#8 tag .outOfRange [.u8 none, .u8 none]) ∧
    (s.round.part ≠ .round → 1 ≤ i → i ≤ 10 →
      (1 < f.orientation ∨ f.address < 1 ∨ 31 < f.address ∨ 216 < f.firstMark →
        exec (.unitConfigure now .control tag i f) s =
          s.answering now .control 0x87#8 tag .outOfRange [.u8 none, .u8 none]) ∧
      (f.orientation ≤ 1 → 1 ≤ f.address → f.address ≤ 31 → f.firstMark ≤ 216 →
        (∀ k x, k ≠ i → entry s.flight.units k = some x → x.address = f.address →
          exec (.unitConfigure now .control tag i f) s =
            s.answering now .control 0x87#8 tag .addressInUse [.u8 none, .u8 none]) ∧
        (∀ k x, k ≠ i → (∀ m y, m ≠ i → entry s.flight.units m = some y → y.address ≠ f.address) →
          entry s.flight.units k = some x → x.firstMark ≤ f.firstMark + 23 → f.firstMark ≤ x.firstMark + 23 →
          exec (.unitConfigure now .control tag i f) s =
            s.answering now .control 0x87#8 tag .overlap [.u8 none, .u8 none]))) ∧
    (s.round.part ≠ .round → 1 ≤ i → i ≤ 10 → entry s.flight.units i = none →
      exec (.unitRemove now .control tag i f) s =
        s.answering now .control 0x87#8 tag .wrongState [.u8 none, .u8 none])) ∧
  (∀ (now : HillTime) (tag : Byte) (v : Nat) (s : State), s.takes .control →
    exec (.base now .control tag v) s =
      if s.round.part = .round then s.answering now .control 0x88#8 tag .roundOpen [.u16 none]
      else if v ≤ 361 then
        (s.setFlight { s.flight with base := v }).answering now .control 0x88#8 tag .ok [.u16 (some v)]
      else s.answering now .control 0x88#8 tag .outOfRange [.u16 none])

/-! Scoring -/

/-- The arithmetic of the results: the jump wind the weighted mean of the included sectors, those with a summary, a weight and
a start before the distance; the wind compensation by the head or the tail factor; the distance points by the metre value
from the K point; the gate compensation by gate factor and metre value from the reference gate, 0 while that is unset, the
jury gate reckoned under REDUCTION short of the threshold; the total; each rounded once, distance points and total not
below 0 (R135 to R142). -/
def Obligations.ResultsAreComputed : Prop :=
  ∀ (sc : Scoring) (h : HillRecord) (r : Record) (d : Nat) (inc : List (Nat × Int)) (gate : Option Nat),
    sc.hill = some h →
    inc = r.summaries.filterMap (fun e => (sc.sectors[e.sector - 1]?).bind (fun sec =>
      if 1 ≤ e.sector ∧ 0 < sec.weight ∧ 2 * sec.start < d then some (sec.weight, e.mean) else none)) →
    gate = (if r.flags.reduction = true ∧ d < h.threshold then r.juryGate else r.usedGate) →
    ((computeResults sc r d).jumpWind =
      if inc = [] then none
      else some (roundDiv (inc.map (fun x => (x.1 : Int) * x.2)).sum (inc.map (fun x => x.1)).sum)) ∧
    ((computeResults sc r d).jumpWind = none → (computeResults sc r d).windComp = some 0) ∧
    (∀ w, (computeResults sc r d).jumpWind = some w →
      (0 ≤ w → (computeResults sc r d).windComp = some (roundDiv (-(w * h.headFactor)) 1000)) ∧
      (w ≤ 0 → (computeResults sc r d).windComp = some (roundDiv (-(w * h.tailFactor)) 1000))) ∧
    (computeResults sc r d).distPoints =
      some (max 0 ((h.basePoints : Int) + roundDiv (((d : Int) - h.kPoint) * h.metreValue) 20)).toNat ∧
    (sc.refGate = none → (computeResults sc r d).gateComp = some 0) ∧
    (∀ ref g, sc.refGate = some ref → gate = some g →
      (computeResults sc r d).gateComp = some (roundDiv (((ref : Int) - g) * h.gateFactor * h.metreValue) 1000)) ∧
    (∀ dp gc wc, (computeResults sc r d).distPoints = some dp → (computeResults sc r d).gateComp = some gc →
      (computeResults sc r d).windComp = some wc →
      (computeResults sc r d).total = some (max 0 ((dp : Int) + gc + wc)).toNat)

/-- CONF of an AWAITING, REVIEW or CONFIRMED record fixes its distance, raises its flags, writes the results together and moves
it to CONFIRMED; then the publication check publishes it, and every CONFIRMED record after it, that waits for no lower-numbered
one, freeing their contexts and sending their RSLT in order; its reply shows the record as it then stands. A check that fails
refuses (R16, R21, R22, R127, R128). -/
def Obligations.ConfConfirmsARecord : Prop :=
  (∀ (now : HillTime) (l : LinkId) (tag : Byte) (distance : Option Nat) (d : Nat) (r new : Record) (res : Results)
      (u : State) (s : State), s.takes l → s.only r.jump r →
    (r.state = .awaiting ∨ r.state = .review ∨ r.state = .confirmed) →
    ((distance = some d ∧ d ≤ 600) ∨ (distance = none ∧ r.proposed = some d)) →
    res = computeResults s.scoring r d →
    new = { r with
      state := .confirmed, confirmed := some d, jumpWind := res.jumpWind, windComp := res.windComp
      distPoints := res.distPoints, gateComp := res.gateComp, total := res.total
      flags := { r.flags with
        corrected := r.flags.corrected || decide (r.proposed ≠ none ∧ r.proposed ≠ some d)
        manual := r.flags.manual || decide (r.proposed = none)
        noWind := r.flags.noWind || decide (res.jumpWind = none) } } →
    u = { s with clock := now, round := s.round.modify r.jump (fun _ => new) } →
    ∃ t rs, exec (.conf now l tag r.jump distance) s = .next t ∧
      PublishedBy u.round rs ∧ Becomes t (publishState u rs) ∧
      (new ∈ rs ↔ ∀ y ∈ s.round.records, y.jump < r.jump → y.state.terminal = true ∨ y ∈ rs) ∧
      Answers s t (publishNotices rs) l
        { type := 0x97#8, tag := tag, code := .ok,
          body := [.u16 (some r.jump), .u8 (some (if new ∈ rs then 8 else 7)), .u16 (some d), .s16 res.jumpWind,
                   .u16 res.distPoints, .s16 res.gateComp, .s16 res.windComp, .u16 res.total,
                   .u16 (some new.flags.code)] }) ∧
  (∀ (now : HillTime) (l : LinkId) (tag : Byte) (j : Nat) (distance : Option Nat) (absent : List Field) (s : State),
    s.takes l →
    absent = [.u16 none, .u8 none, .u16 none, .s16 none, .u16 none, .s16 none, .s16 none, .u16 none, .u16 none] →
    ((∀ r ∈ s.round.records, r.jump ≠ j) →
      exec (.conf now l tag j distance) s = s.answering now l 0x97#8 tag .noSuchJump absent) ∧
    (∀ r, s.only j r → r.state ≠ .awaiting → r.state ≠ .review → r.state ≠ .confirmed →
      exec (.conf now l tag j distance) s = s.answering now l 0x97#8 tag .wrongState absent) ∧
    (∀ r, s.only j r → r.state = .awaiting ∨ r.state = .review ∨ r.state = .confirmed →
      (∀ d, distance = some d → 600 < d →
        exec (.conf now l tag j distance) s = s.answering now l 0x97#8 tag .outOfRange absent) ∧
      (distance = none → r.proposed = none →
        exec (.conf now l tag j distance) s = s.answering now l 0x97#8 tag .noProposal absent)))

/-- REVW moves an AWAITING record to REVIEW and answers OK without effect to one already there. AMND of a PUBLISHED record
writes its new distance and results, raises AMENDED and sends a marked RSLT; the record stays PUBLISHED. A check that fails
refuses (R131 to R133). -/
def Obligations.RevwAndAmnd : Prop :=
  (∀ (now : HillTime) (l : LinkId) (tag : Byte) (r : Record) (s : State), s.takes l → s.only r.jump r →
    (r.state = .awaiting ∨ r.state = .review) →
    ∃ t, exec (.revw now l tag r.jump) s = .next t ∧
      Becomes t { s with clock := now, round := s.round.modify r.jump (fun x => { x with state := .review }) } ∧
      Answers s t [] l { type := 0x98#8, tag := tag, code := .ok, body := [.u16 (some r.jump), .u8 (some 6)] }) ∧
  (∀ (now : HillTime) (l : LinkId) (tag : Byte) (j : Nat) (s : State), s.takes l →
    ((∀ r ∈ s.round.records, r.jump ≠ j) →
      exec (.revw now l tag j) s = s.answering now l 0x98#8 tag .noSuchJump [.u16 none, .u8 none]) ∧
    (∀ r, s.only j r → r.state ≠ .awaiting → r.state ≠ .review →
      exec (.revw now l tag j) s = s.answering now l 0x98#8 tag .wrongState [.u16 none, .u8 none])) ∧
  (∀ (now : HillTime) (l : LinkId) (tag : Byte) (d : Nat) (r new : Record) (res : Results) (s : State), s.takes l →
    s.only r.jump r → r.state = .published → d ≤ 600 →
    res = computeResults s.scoring r d →
    new = { r with
      confirmed := some d, jumpWind := res.jumpWind, windComp := res.windComp, distPoints := res.distPoints
      gateComp := res.gateComp, total := res.total
      flags := { r.flags with
        corrected := r.flags.corrected || decide (r.proposed ≠ none ∧ r.proposed ≠ some d)
        manual := r.flags.manual || decide (r.proposed = none)
        noWind := r.flags.noWind || decide (res.jumpWind = none), amended := true } } →
    ∃ t, exec (.amnd now l tag r.jump d) s = .next t ∧
      Becomes t { s with clock := now, round := s.round.modify r.jump (fun _ => new) } ∧
      Answers s t [.rslt
        { jump := new.jump, bib := new.bib, juryGate := new.juryGate, usedGate := new.usedGate, speed := new.speed,
          confirmed := new.confirmed, proposed := new.proposed, jumpWind := new.jumpWind,
          distPoints := new.distPoints, gateComp := new.gateComp, windComp := new.windComp, total := new.total,
          flags := new.flags, amended := true }] l
        { type := 0x99#8, tag := tag, code := .ok,
          body := [.u16 (some new.jump), .u8 (some 8), .u16 new.confirmed, .s16 new.jumpWind, .u16 new.distPoints,
                   .s16 new.gateComp, .s16 new.windComp, .u16 new.total, .u16 (some new.flags.code)] }) ∧
  (∀ (now : HillTime) (l : LinkId) (tag : Byte) (j d : Nat) (absent : List Field) (s : State), s.takes l →
    absent = [.u16 none, .u8 none, .u16 none, .s16 none, .u16 none, .s16 none, .s16 none, .u16 none, .u16 none] →
    ((∀ r ∈ s.round.records, r.jump ≠ j) →
      exec (.amnd now l tag j d) s = s.answering now l 0x99#8 tag .noSuchJump absent) ∧
    (∀ r, s.only j r → r.state ≠ .published →
      exec (.amnd now l tag j d) s = s.answering now l 0x99#8 tag .wrongState absent) ∧
    (∀ r, s.only j r → r.state = .published → 600 < d →
      exec (.amnd now l tag j d) s = s.answering now l 0x99#8 tag .outOfRange absent))

/-! The board -/

/-- After every command but FRAME_ARRIVAL, whose frames do what their request rows do, each row of a panel whose composed text
is another than before is dirty, and a frame of that row that was being sent has its abort mark. So is each row whose text a
publication changes, whatever the publications after it in the same check make of it (R159, R160, R165). -/
def Obligations.ChangedTextMakesRowsDirty : Prop :=
  (∀ (c : Instr) (s t : State) (i row : Nat) (p q : Panel), (∀ now l bytes, c ≠ .frameArrival now l bytes) →
    exec c s = .next t → PanelsSized s → TablesSized s →
    entry s.board.panels i = some p → entry t.board.panels i = some q → 1 ≤ row → row ≤ q.rows →
    t.composed i q row ≠ s.composed i p row →
    (∃ m, q.marks[row - 1]? = some m ∧ m.dirty = true) ∧
    (∀ f, s.board.line = .sending f → f.panel = i → f.row = row →
      t.board.line = .sending { f with aborted := true })) ∧
  (∀ (s u : State) (r : Record) (i row : Nat) (p q : Panel), PanelsSized s → TablesSized s →
    s.round.publishable = some r → u = s.publish r →
    entry s.board.panels i = some p → entry u.board.panels i = some q → 1 ≤ row → row ≤ p.rows →
    u.composed i q row ≠ s.composed i p row →
    (∃ x m, entry s.publicationCheck.board.panels i = some x ∧ x.marks[row - 1]? = some m ∧ m.dirty = true) ∧
    (∀ f, s.board.line = .sending f → f.panel = i → f.row = row →
      s.publicationCheck.board.line = .sending { f with aborted := true }))

/-- A rendered text fills its field's width: spaces where the view names no record, the fill for an absent item, asterisks
for a text too long, else the text at its side, a COUNTDOWN by the seconds it was last rendered with; a row's composed text has one character
for each column, is the page memory where no field lies, and shows each field's text at its columns where no other field
overlaps it. The views, the live items and the record items are as their tables give them, a result item present in CONFIRMED
and PUBLISHED alone; a COUNTDOWN field is rendered absent while the countdown is IDLE, else with the whole seconds left,
rounded up (R155 to R159). That a field shows the seconds of its own last rendering is the model's choice (log 12). -/
def Obligations.TextsFillTheirFields : Prop :=
  (∀ rd : Round,
    viewRecord rd .bar = rd.records.find? (fun r => decide (r.state = .called ∨ r.state = .released)) ∧
    (∀ (v : View) (shows : Record → Prop), v ≠ .bar →
      shows = (fun r => if v = .published then r.state = .published
        else r.state = .inrun ∨ r.state = .airborne ∨ r.state = .awaiting ∨ r.state = .review ∨ r.state = .confirmed) →
      (viewRecord rd v = none → ∀ y ∈ rd.records, ¬shows y) ∧
      (∀ r, viewRecord rd v = some r → r ∈ rd.records ∧ shows r ∧ ∀ y ∈ rd.records, shows y → y.jump ≤ r.jump))) ∧
  (∀ n : Nat, n < 1000000000 →
    (n < 10 → decimalText n = [BitVec.ofNat 8 (0x30 + n)]) ∧
    (10 ≤ n → decimalText n = decimalText (n / 10) ++ [BitVec.ofNat 8 (0x30 + n % 10)])) ∧
  (∀ (tenths hundredths : Nat → List Byte) (signed : (Nat → List Byte) → Int → List Byte) (st : StartLight)
      (co : Corridor) (shown : Option Nat) (r : Record) (results : Bool),
    tenths = (fun n => decimalText (n / 10) ++ [0x2E#8, BitVec.ofNat 8 (0x30 + n % 10)]) →
    hundredths = (fun n => decimalText (n / 100) ++
      [0x2E#8, BitVec.ofNat 8 (0x30 + n / 10 % 10), BitVec.ofNat 8 (0x30 + n % 10)]) →
    signed = (fun text x =>
      (if 0 < x then [0x2B#8] else if x < 0 then [0x2D#8] else []) ++ text x.natAbs) →
    results = decide (r.state = .confirmed ∨ r.state = .published) →
    (liveText st co shown .countdown = shown.map decimalText ∧
     liveText st co shown .light = some (match st.light with
       | .dark => [] | .red => [0x52#8, 0x45#8, 0x44#8] | .yellow => [0x59#8, 0x45#8, 0x4C#8]
       | .green => [0x47#8, 0x4F#8] | .greenFlash => [0x47#8, 0x4F#8] | .hold => [0x48#8, 0x4F#8, 0x4C#8, 0x44#8]) ∧
     liveText st co shown .juryGate = some (decimalText st.juryGate) ∧
     liveText st co shown .corridorWind = co.live.map (signed hundredths) ∧
     liveText st co shown .corridorState = some (match co.status with
       | .inside => [0x49#8, 0x4E#8] | .out => [0x4F#8, 0x55#8, 0x54#8] | .noData => [0x2D#8, 0x2D#8])) ∧
    (recordText r .bib = some (decimalText r.bib) ∧ recordText r .usedGate = r.usedGate.map decimalText ∧
     recordText r .speed = r.speed.map tenths ∧
     recordText r .distance =
       (if r.confirmed = none then r.proposed else r.confirmed).map (fun d => tenths (5 * d)) ∧
     recordText r .flightTime = r.flightTime.map (fun t => hundredths ((2 * t + 1000) / 2000)) ∧
     recordText r .wind = (if results then r.jumpWind.map (signed hundredths) else none) ∧
     recordText r .windComp = (if results then r.windComp.map (signed tenths) else none) ∧
     recordText r .gateComp = (if results then r.gateComp.map (signed tenths) else none) ∧
     recordText r .distPoints = (if results then r.distPoints.map tenths else none) ∧
     recordText r .total = (if results then r.total.map tenths else none))) ∧
  (∀ (n : Nat) (d : FieldDesc) (s : State), entry s.board.fields n = some d → d.item = .countdown →
    entry s.showCountdown.board.countdownShown n = (match s.start.countdown with
      | .idle => none
      | .running _ expiry => some ((ticksLeft expiry s.clock + 99999) / 100000)
      | .held _ ticks => some ((ticks + 99999) / 100000))) ∧
  (∀ (rd : Round) (st : StartLight) (co : Corridor) (shown : Option Nat) (d : FieldDesc),
    (renderField rd st co shown d).length = d.width) ∧
  (∀ (d : FieldDesc) (text : List Byte),
    (d.width < text.length → placeText d (some text) = List.replicate d.width 0x2A#8) ∧
    (text.length ≤ d.width → d.align = .left →
      placeText d (some text) = text ++ List.replicate (d.width - text.length) 0x20#8) ∧
    (text.length ≤ d.width → d.align = .right →
      placeText d (some text) = List.replicate (d.width - text.length) 0x20#8 ++ text) ∧
    placeText d none = List.replicate d.width d.fill) ∧
  (∀ (rd : Round) (st : StartLight) (co : Corridor) (shown : Option Nat) (d : FieldDesc),
    (d.item.isLive = true → renderField rd st co shown d = placeText d (liveText st co shown d.item)) ∧
    (d.item.isLive = false → viewRecord rd d.view = none →
      renderField rd st co shown d = List.replicate d.width 0x20#8) ∧
    (∀ r, d.item.isLive = false → viewRecord rd d.view = some r →
      renderField rd st co shown d = placeText d (recordText r d.item))) ∧
  (∀ (i row : Nat) (p : Panel) (s : State), p.Sized → 1 ≤ row → row ≤ p.rows →
    (∀ d, some d ∈ s.board.fields → d.panel = i → d.row = row → 1 ≤ d.column ∧ d.column + d.width ≤ p.columns + 1) →
    (s.composed i p row).length = p.columns ∧
    (∀ k, k < p.columns →
      (∀ d, some d ∈ s.board.fields → d.panel = i → d.row = row → k + 1 < d.column ∨ d.column + d.width ≤ k + 1) →
      (s.composed i p row)[k]? = p.page[(row - 1) * p.columns + k]?) ∧
    (∀ n d, entry s.board.fields n = some d → d.panel = i → d.row = row →
      (∀ m x, m ≠ n → entry s.board.fields m = some x → x.panel = i → x.row = row →
        x.column + x.width ≤ d.column ∨ d.column + d.width ≤ x.column) →
      ((s.composed i p row).drop (d.column - 1)).take d.width =
        renderField s.round s.start s.corridor (entry s.board.countdownShown n) d))

/-- PANL configures a panel with a blank page, every row dirty and none in flight but for the frame the arbiter then starts;
updates its rights and enabled mark, the rights alone changing nothing else and a disabling keeping the dirty marks; removes
it; or sets the refresh period with the next refresh a period from now, none under 0. A CONFIGURE, a REMOVE or an UPDATE that
disables the panel sets the abort mark of a frame to it, or ends its acknowledgement window; another UPDATE leaves the line.
PANA tells a change of state; a check that fails refuses (R146 to R149, R162, R168). The model's reading: enabled coded 0 for
yes (log 13), the body of a refused PERIOD (log 30), the in-flight mark taken away with the window (log 27), the address and
the counts of 0 in the PANA of a removal (log 20); its choice: a CONFIGURE renders no COUNTDOWN field again (log 12). -/
def Obligations.PanlEditsThePanelTable : Prop :=
  (∀ (now : HillTime) (tag : Byte) (i : Nat) (f : PanlFields) (rights : Rights) (enabled : Bool) (s : State),
    s.takes .control → 1 ≤ i → i ≤ 8 → 1 ≤ f.address → f.address ≤ 15 → 1 ≤ f.rows → f.rows ≤ 4 → 8 ≤ f.columns →
    f.columns ≤ 32 →
    ((f.rights = 0 ∧ rights = .control) ∨ (f.rights = 1 ∧ rights = .console) ∨ (f.rights = 2 ∧ rights = .both)) →
    ((f.enabled = 0 ∧ enabled = true) ∨ (f.enabled = 1 ∧ enabled = false)) →
    (∀ k p, k ≠ i → entry s.board.panels k = some p → p.address ≠ f.address) →
    (entry s.board.panels i ≠ none → ∀ d, some d ∈ s.board.fields → d.panel = i →
      d.row ≤ f.rows ∧ d.column + d.width - 1 ≤ f.columns) →
    s.board.panels.length = 8 →
    ∃ t p, exec (.panlConfigure now .control tag i f) s = .next t ∧
      t = { s with clock := now, control := t.control, console := t.console, board := t.board } ∧
      t.board.fields = s.board.fields ∧ t.board.refreshPeriod = s.board.refreshPeriod ∧
      t.board.nextRefresh = s.board.nextRefresh ∧ t.board.countdownShown = s.board.countdownShown ∧
      (∀ k, k ≠ i → (entry t.board.panels k).map Panel.kept = (entry s.board.panels k).map Panel.kept) ∧
      entry t.board.panels i = some p ∧
      p = { address := f.address, rows := f.rows, columns := f.columns, rights := rights, enabled := enabled,
            state := if enabled then .online else .offline, miss := 0, ack := 0, probeDue := none,
            page := List.replicate (f.rows * f.columns) 0x20#8, marks := p.marks } ∧
      p.marks.length = f.rows ∧ (∀ m ∈ p.marks, m.dirty = true) ∧
      (∀ k m, p.marks[k]? = some m → m.inFlight = true → (∀ g, s.board.line ≠ .sending g) ∧
        ∃ g, t.board.line = .sending g ∧ g.panel = i ∧ g.row = k + 1 ∧ g.aborted = false) ∧
      LineDisturbed i s.board.line t.board.line ∧
      Answers s t
        (if (entry s.board.panels i).map (fun x => x.state) = some p.state then []
         else [.pana i f.address ((entry s.board.panels i).map (fun x => x.state)) (some p.state) .configured 0 0 now])
        .control { type := 0x8A#8, tag := tag, code := .ok, body := [byteField i, byteField (if enabled then 1 else 2)] }) ∧
  (∀ (now : HillTime) (tag : Byte) (i : Nat) (f : PanlFields) (rights : Rights) (enabled : Bool) (p : Panel) (s : State),
    s.takes .control → 1 ≤ i → i ≤ 8 → entry s.board.panels i = some p →
    ((f.rights = 0 ∧ rights = .control) ∨ (f.rights = 1 ∧ rights = .console) ∨ (f.rights = 2 ∧ rights = .both)) →
    ((f.enabled = 0 ∧ enabled = true) ∨ (f.enabled = 1 ∧ enabled = false)) →
    ∃ t q, exec (.panlUpdate now .control tag i f) s = .next t ∧
      t = { s with clock := now, control := t.control, console := t.console, board := t.board } ∧
      t.board.fields = s.board.fields ∧ t.board.refreshPeriod = s.board.refreshPeriod ∧
      t.board.nextRefresh = s.board.nextRefresh ∧
      (∀ k, k ≠ i → (entry t.board.panels k).map Panel.kept = (entry s.board.panels k).map Panel.kept) ∧
      entry t.board.panels i = some q ∧
      q.kept = (if p.enabled = enabled then { p with rights := rights }
        else { p with
          rights := rights, enabled := enabled, state := if enabled then .online else .offline, miss := 0
          ack := 0 }).kept ∧
      (p.enabled = enabled → t.board =
        { s.board with panels := setEntry s.board.panels i (some { p with rights := rights }) }) ∧
      (p.enabled = false → enabled = true → ∀ m ∈ q.marks, m.dirty = true) ∧
      (p.enabled = true → enabled = false →
        q.probeDue = none ∧ q.marks.map (fun m => m.dirty) = p.marks.map (fun m => m.dirty) ∧
        ((∀ g stop, s.board.line = .window g stop → g.panel ≠ i) → q.marks = p.marks)) ∧
      (p.enabled = true → enabled = false → LineDisturbed i s.board.line t.board.line ∧
        ∀ g stop m, s.board.line = .window g stop → g.panel = i → q.marks[g.row - 1]? = some m → m.inFlight = false) ∧
      (p.enabled = false ∨ enabled = true → s.board.line ≠ .free → t.board.line = s.board.line) ∧
      Answers s t
        (if p.enabled = enabled ∨ p.state = q.state then []
         else [.pana i p.address (some p.state) (some q.state) (if enabled then .enabled else .disabled) 0 0 now])
        .control
        { type := 0x8A#8, tag := tag, code := .ok, body := [byteField i,
          byteField (match q.state with | .online => 1 | .offline => 2)] }) ∧
  (∀ (now : HillTime) (tag : Byte) (i : Nat) (f : PanlFields) (p : Panel) (s : State), s.takes .control →
    1 ≤ i → i ≤ 8 → entry s.board.panels i = some p →
    ((∃ d, some d ∈ s.board.fields ∧ d.panel = i) →
      exec (.panlRemove now .control tag i f) s =
        s.answering now .control 0x8A#8 tag .fieldConflict [.u8 none, .u8 none]) ∧
    ((∀ d, some d ∈ s.board.fields → d.panel ≠ i) →
      ∃ t, exec (.panlRemove now .control tag i f) s = .next t ∧
        t = { s with clock := now, control := t.control, console := t.console, board := t.board } ∧
        t.board.fields = s.board.fields ∧ t.board.refreshPeriod = s.board.refreshPeriod ∧
        t.board.nextRefresh = s.board.nextRefresh ∧
        (∀ k, k ≠ i → (entry t.board.panels k).map Panel.kept = (entry s.board.panels k).map Panel.kept) ∧
        entry t.board.panels i = none ∧
        LineDisturbed i s.board.line t.board.line ∧
        Answers s t [.pana i p.address (some p.state) none .removed 0 0 now] .control
          { type := 0x8A#8, tag := tag, code := .ok, body := [byteField i, byteField 0] })) ∧
  (∀ (now : HillTime) (tag : Byte) (i : Nat) (f : PanlFields) (s : State), s.takes .control →
    exec (.panlPeriod now .control tag i f) s =
      if f.period = 0 then
        (s.setBoard { s.board with refreshPeriod := 0, nextRefresh := none }).answering now .control 0x8A#8 tag .ok
          [byteField 0]
      else if 2 ≤ f.period ∧ f.period ≤ 60 then
        (s.setBoard { s.board with
          refreshPeriod := f.period, nextRefresh := some (now + BitVec.ofNat 32 (100000 * f.period)) }).answering now
            .control 0x8A#8 tag .ok [byteField f.period]
      else s.answering now .control 0x8A#8 tag .outOfRange [.u8 none]) ∧
  (∀ (now : HillTime) (tag : Byte) (i : Nat) (f : PanlFields) (s : State), s.takes .control →
    (i < 1 ∨ 8 < i →
      exec (.panlConfigure now .control tag i f) s =
        s.answering now .control 0x8A#8 tag .outOfRange [.u8 none, .u8 none] ∧
      exec (.panlUpdate now .control tag i f) s =
        s.answering now .control 0x8A#8 tag .outOfRange [.u8 none, .u8 none] ∧
      exec (.panlRemove now .control tag i f) s =
        s.answering now .control 0x8A#8 tag .outOfRange [.u8 none, .u8 none]) ∧
    (1 ≤ i → i ≤ 8 → entry s.board.panels i = none →
      exec (.panlRemove now .control tag i f) s =
        s.answering now .control 0x8A#8 tag .wrongState [.u8 none, .u8 none] ∧
      (f.rights ≤ 2 → f.enabled ≤ 1 → exec (.panlUpdate now .control tag i f) s =
        s.answering now .control 0x8A#8 tag .wrongState [.u8 none, .u8 none])) ∧
    (1 ≤ i → i ≤ 8 → 2 < f.rights ∨ 1 < f.enabled →
      exec (.panlConfigure now .control tag i f) s =
        s.answering now .control 0x8A#8 tag .outOfRange [.u8 none, .u8 none] ∧
      exec (.panlUpdate now .control tag i f) s =
        s.answering now .control 0x8A#8 tag .outOfRange [.u8 none, .u8 none]) ∧
    (1 ≤ i → i ≤ 8 → f.rights ≤ 2 → f.enabled ≤ 1 →
      (f.address < 1 ∨ 15 < f.address ∨ f.rows < 1 ∨ 4 < f.rows ∨ f.columns < 8 ∨ 32 < f.columns →
        exec (.panlConfigure now .control tag i f) s =
          s.answering now .control 0x8A#8 tag .outOfRange [.u8 none, .u8 none]) ∧
      (1 ≤ f.address → f.address ≤ 15 → 1 ≤ f.rows → f.rows ≤ 4 → 8 ≤ f.columns → f.columns ≤ 32 →
        (∀ k p, k ≠ i → entry s.board.panels k = some p → p.address = f.address →
          exec (.panlConfigure now .control tag i f) s =
            s.answering now .control 0x8A#8 tag .addressInUse [.u8 none, .u8 none]) ∧
        (∀ p d, (∀ k q, k ≠ i → entry s.board.panels k = some q → q.address ≠ f.address) →
          entry s.board.panels i = some p → some d ∈ s.board.fields → d.panel = i →
          (f.rows < d.row ∨ f.columns < d.column + d.width - 1) →
          exec (.panlConfigure now .control tag i f) s =
            s.answering now .control 0x8A#8 tag .fieldConflict [.u8 none, .u8 none]))))

/-- FLD SET writes a field descriptor that lies within its panel and overlaps no other, a COUNTDOWN rendered from the remaining
time as it stands; FLD CLEAR empties one, and changes nothing where it is empty. After either the rows that neither the old
nor the new descriptor covers keep their texts, and a row that keeps its text keeps its mark and its frame; a check that fails
refuses (R152 to R154, R156, R159). The reply's byte 1 or 0 for 'holds a field' is the model's reading (log 15), the view kept
as BAR for a live item, which no text reads, its choice (log 28), and so is that no other COUNTDOWN field is rendered again
(log 12). -/
def Obligations.FldEditsTheFieldMap : Prop :=
  (∀ (now : HillTime) (tag : Byte) (i : Nat) (f : FldFields) (p : Panel) (d : FieldDesc) (s : State),
    s.takes .control → 1 ≤ i → i ≤ 48 → entry s.board.panels f.panel = some p →
    1 ≤ f.row → f.row ≤ p.rows → 1 ≤ f.width → f.width ≤ 32 → 1 ≤ f.column → f.column + f.width - 1 ≤ p.columns →
    0x20 ≤ f.fill → f.fill ≤ 0x7E →
    ((f.align = 0 ∧ d.align = .left) ∨ (f.align = 1 ∧ d.align = .right)) →
    itemOf f.item = some d.item →
    ((f.item ≤ 4 ∧ d.view = .bar) ∨ (4 < f.item ∧
      ((f.view = 0 ∧ d.view = .bar) ∨ (f.view = 1 ∧ d.view = .flight) ∨ (f.view = 2 ∧ d.view = .published)))) →
    d = { panel := f.panel, row := f.row, column := f.column, width := f.width, align := d.align,
          fill := BitVec.ofNat 8 f.fill, item := d.item, view := d.view } →
    ((∀ k x, k ≠ i → entry s.board.fields k = some x → x.panel = f.panel → x.row = f.row →
        x.column + x.width ≤ f.column ∨ f.column + f.width ≤ x.column) →
      ∃ t, exec (.fldSet now .control tag i f) s = .next t ∧
        Becomes t { s with
          clock := now, board := { s.board with fields := setEntry s.board.fields i (some d) } } ∧
        t.board.countdownShown = setEntry s.board.countdownShown i (if d.item ≠ .countdown then none else
          match s.start.countdown with
          | .idle => none
          | .running _ expiry => some ((ticksLeft expiry now + 99999) / 100000)
          | .held _ ticks => some ((ticks + 99999) / 100000)) ∧
        (∀ k row x y, entry s.board.panels k = some x → entry t.board.panels k = some y →
          ¬(k = f.panel ∧ row = f.row) → (∀ o, entry s.board.fields i = some o → ¬(k = o.panel ∧ row = o.row)) →
          t.composed k y row = s.composed k x row) ∧
        RowsKept s t ∧
        Answers s t [] .control
          { type := 0x8B#8, tag := tag, code := .ok, body := [byteField i, byteField 1] }) ∧
    (∀ k x, k ≠ i → entry s.board.fields k = some x → x.panel = f.panel → x.row = f.row →
      x.column < f.column + f.width → f.column < x.column + x.width →
      exec (.fldSet now .control tag i f) s =
        s.answering now .control 0x8B#8 tag .fieldOverlap [.u8 none, .u8 none])) ∧
  (∀ (now : HillTime) (tag : Byte) (i : Nat) (f : FldFields) (s : State), s.takes .control → 1 ≤ i → i ≤ 48 →
    (entry s.board.fields i = none →
      exec (.fldClear now .control tag i f) s =
        s.answering now .control 0x8B#8 tag .ok [byteField i, byteField 0]) ∧
    (∀ o, entry s.board.fields i = some o →
      ∃ t, exec (.fldClear now .control tag i f) s = .next t ∧
        Becomes t { s with clock := now, board := { s.board with fields := setEntry s.board.fields i none } } ∧
        t.board.countdownShown = setEntry s.board.countdownShown i none ∧
        (∀ k row x y, entry s.board.panels k = some x → entry t.board.panels k = some y →
          ¬(k = o.panel ∧ row = o.row) → t.composed k y row = s.composed k x row) ∧
        RowsKept s t ∧
        Answers s t [] .control
          { type := 0x8B#8, tag := tag, code := .ok, body := [byteField i, byteField 0] })) ∧
  (∀ (now : HillTime) (tag : Byte) (i : Nat) (f : FldFields) (s : State), s.takes .control →
    (i < 1 ∨ 48 < i →
      exec (.fldSet now .control tag i f) s =
        s.answering now .control 0x8B#8 tag .outOfRange [.u8 none, .u8 none] ∧
      exec (.fldClear now .control tag i f) s =
        s.answering now .control 0x8B#8 tag .outOfRange [.u8 none, .u8 none]) ∧
    (∀ p, 1 ≤ i → i ≤ 48 → entry s.board.panels f.panel = some p →
      (f.row < 1 ∨ p.rows < f.row ∨ f.width < 1 ∨ 32 < f.width ∨ f.column < 1 ∨ p.columns < f.column + f.width - 1 ∨
        f.fill < 0x20 ∨ 0x7E < f.fill ∨ 1 < f.align ∨ 14 < f.item ∨ (4 < f.item ∧ 2 < f.view)) →
      exec (.fldSet now .control tag i f) s =
        s.answering now .control 0x8B#8 tag .outOfRange [.u8 none, .u8 none]) ∧
    (1 ≤ i → i ≤ 48 → entry s.board.panels f.panel = none →
      exec (.fldSet now .control tag i f) s =
        s.answering now .control 0x8B#8 tag .outOfRange [.u8 none, .u8 none]))

/-- PAGE stores characters row after row from a cell on, '?' for one outside 0x20 to 0x7E, none past the last cell; every
other cell of every panel keeps its character, every panel its address, size, rights, enabled mark, state and counts, and a
row that keeps its text its dirty mark and its frame; a check that fails refuses (R150, R151, R159). That no COUNTDOWN field is rendered again is
the model's choice (log 12). -/
def Obligations.PageWritesCells : Prop :=
  (∀ (now : HillTime) (l : LinkId) (tag : Byte) (i row column pos n : Nat) (chars : List Byte) (p : Panel) (s : State),
    s.takes l → 1 ≤ i → i ≤ 8 → entry s.board.panels i = some p → p.Sized →
    (p.rights = .both ∨ (p.rights = .control ∧ l = .control) ∨ (p.rights = .console ∧ l = .console)) →
    1 ≤ row → row ≤ p.rows → 1 ≤ column → column ≤ p.columns → 1 ≤ chars.length → chars.length ≤ 32 →
    pos = (row - 1) * p.columns + (column - 1) → n = min chars.length (p.rows * p.columns - pos) →
    ∃ t, exec (.page now l tag i row column chars) s = .next t ∧
      t = { s with clock := now, control := t.control, console := t.console, board := t.board } ∧
      t.board.fields = s.board.fields ∧ t.board.refreshPeriod = s.board.refreshPeriod ∧
      t.board.nextRefresh = s.board.nextRefresh ∧ t.board.countdownShown = s.board.countdownShown ∧
      (∃ q, entry t.board.panels i = some q ∧ q.page.length = p.page.length ∧
        q.kept = ({ p with page := q.page } : Panel).kept) ∧
      (∀ k, k ≠ i → (entry t.board.panels k).map Panel.kept = (entry s.board.panels k).map Panel.kept) ∧
      RowsKept s t ∧
      (∀ k r c ch, 1 ≤ r → r ≤ p.rows → 1 ≤ c → c ≤ p.columns → (r - 1) * p.columns + (c - 1) = pos + k → k < n →
        chars[k]? = some ch →
        t.cell i r c = some (if 0x20 ≤ ch.toNat ∧ ch.toNat ≤ 0x7E then ch else 0x3F#8)) ∧
      (∀ r c, 1 ≤ r → r ≤ p.rows → 1 ≤ c → c ≤ p.columns →
        ((r - 1) * p.columns + (c - 1) < pos ∨ pos + n ≤ (r - 1) * p.columns + (c - 1)) →
        t.cell i r c = s.cell i r c) ∧
      (∀ k r c, k ≠ i → t.cell k r c = s.cell k r c) ∧
      Answers s t [] l
        { type := 0x9A#8, tag := tag, code := .ok,
          body := byteField n ::
            (if pos + n < p.rows * p.columns then
              [byteField ((pos + n) / p.columns + 1), byteField ((pos + n) % p.columns + 1)]
             else [.u8 none, .u8 none]) }) ∧
  (∀ (now : HillTime) (l : LinkId) (tag : Byte) (i row column : Nat) (chars : List Byte) (absent : List Field)
      (s : State), s.takes l → absent = [byteField 0, .u8 none, .u8 none] →
    (i < 1 ∨ 8 < i →
      exec (.page now l tag i row column chars) s = s.answering now l 0x9A#8 tag .outOfRange absent) ∧
    (1 ≤ i → i ≤ 8 → entry s.board.panels i = none →
      exec (.page now l tag i row column chars) s = s.answering now l 0x9A#8 tag .wrongState absent) ∧
    (∀ p, 1 ≤ i → i ≤ 8 → entry s.board.panels i = some p →
      ((p.rights = .control ∧ l = .console) ∨ (p.rights = .console ∧ l = .control)) →
      exec (.page now l tag i row column chars) s = s.answering now l 0x9A#8 tag .notPermitted absent) ∧
    (∀ p, 1 ≤ i → i ≤ 8 → entry s.board.panels i = some p →
      (p.rights = .both ∨ (p.rights = .control ∧ l = .control) ∨ (p.rights = .console ∧ l = .console)) →
      (row < 1 ∨ p.rows < row ∨ column < 1 ∨ p.columns < column ∨ chars = [] ∨ 32 < chars.length) →
      exec (.page now l tag i row column chars) s = s.answering now l 0x9A#8 tag .outOfRange absent))

/-- A refresh marks every row of every panel dirty and sets the next one a period on; before its time it does nothing. A probe
that is due while the line is free, like every arbiter's choice, sends to the eligible panel with the next line address in
turn its lowest dirty row, or row 1 to an OFFLINE panel with the next probe 1 s on; with none eligible nothing is sent
(R162 to R164). -/
def Obligations.RefreshAndProbeReachThePanels : Prop :=
  (∀ (now due : HillTime) (s : State), s.held = false → s.board.nextRefresh = some due →
    (reached now due = false → exec (.refreshExpiry now) s = .next (s.setClock now)) ∧
    (reached now due = true →
      ∃ t, exec (.refreshExpiry now) s = .next t ∧
        Becomes t { s with
          clock := now
          board := { s.board with nextRefresh := some (due + BitVec.ofNat 32 (100000 * s.board.refreshPeriod)) } } ∧
        Posts s t [] ∧
        ∀ k p, entry t.board.panels k = some p → ∀ m ∈ p.marks, m.dirty = true)) ∧
  (∀ (now : HillTime) (s : State), s.held = false → s.board.line = .free →
    (∃ k p t, entry s.board.panels k = some p ∧ p.enabled = true ∧ p.state = .offline ∧ p.probeDue = some t ∧
      reached now t = true) → exec (.probeDue now) s = .next (arbiterChoice (s.setClock now))) ∧
  (∀ (now : HillTime) (s : State), s.held = false →
    (∀ k p t, entry s.board.panels k = some p → p.enabled = true → p.state = .offline → p.probeDue = some t →
      reached now t = false) → s.board.line = .free →
    exec (.probeDue now) s = .next (s.setClock now)) ∧
  (∀ (i row : Nat) (p : Panel) (s : State), s.board.line = .free → entry s.board.panels i = some p →
    p.eligible s.clock = true → 1 ≤ p.address → p.address ≤ 15 →
    (∀ k q, k ≠ i → entry s.board.panels k = some q → q.address ≠ p.address) →
    (∀ k q, entry s.board.panels k = some q → q.eligible s.clock = true → k ≠ i →
      if s.board.lastAddress.getD 0 < p.address then
        ¬(s.board.lastAddress.getD 0 < q.address ∧ q.address < p.address)
      else q.address ≤ s.board.lastAddress.getD 0 ∧ p.address < q.address ∨ 15 < q.address ∨ q.address = 0) →
    ((p.state = .offline ∧ row = 1) ∨
     (p.state = .online ∧ 1 ≤ row ∧ (∃ m, p.marks[row - 1]? = some m ∧ m.dirty = true) ∧
      ∀ k m, k + 1 < row → p.marks[k]? = some m → m.dirty = false)) →
    arbiterChoice s = s.setBoard { s.board with
      panels := setEntry s.board.panels i (some
        { p with
          marks := p.marks.modify (row - 1) (fun m => { m with inFlight := true })
          probeDue := if p.state = .offline then some (s.clock + 100000#32) else p.probeDue })
      line := .sending { panel := i, address := p.address, row := row, text := s.composed i p row, aborted := false }
      lastAddress := some p.address }) ∧
  (∀ s : State, s.board.line ≠ .free ∨ (∀ k p, entry s.board.panels k = some p → p.eligible s.clock = false) →
    arbiterChoice s = s)

/-- A row frame's end opens its acknowledgement window of 20 ms, or frees the line if it was aborted, its row no longer in
flight. An acknowledgement of the frame's address and row received whole within the window counts for the panel, and its row
is clean if its text still stands; the window's end without one is a miss. Four misses make an ONLINE panel OFFLINE with a
probe 1 s on, two acknowledgements an OFFLINE one ONLINE with every row dirty, each with PANA (R165 to R167). Acknowledgements
on the very ticks of the window's start and end count by the model's reading (log 25, log 32). -/
def Obligations.RowFramesAreAcknowledged : Prop :=
  (∀ (now : HillTime) (f : RowFrame) (s : State), s.held = false → s.board.line = .sending f →
    (f.aborted = false →
      exec (.rowFrameEnd now) s =
        .next ((s.setClock now).setBoard { s.board with line := .window f (now + 2000#32) })) ∧
    (f.aborted = true →
      exec (.rowFrameEnd now) s = .next (arbiterChoice ((s.setClock now).setBoard { s.board with
        line := .free
        panels := setEntry s.board.panels f.panel ((entry s.board.panels f.panel).map (fun p =>
          { p with marks := p.marks.modify (f.row - 1) (fun m => { m with inFlight := false }) })) })))) ∧
  (∀ (now began stop : HillTime) (bytes : List Byte) (f : RowFrame) (p q : Panel) (s : State), s.held = false →
    s.board.line = .window f stop → laterThan now stop = false → reached began (stop - 2000#32) = true →
    acknowledgementOf bytes = some (f.address, f.row) →
    entry s.board.panels f.panel = some p →
    q = { p with
      ack := min (p.ack + 1) 15, miss := 0
      marks := p.marks.modify (f.row - 1) (fun m =>
        { dirty := m.dirty && !decide (s.composed f.panel p f.row = f.text), inFlight := false }) } →
    (p.state = .online ∨ min (p.ack + 1) 15 < 2 →
      exec (.acknowledgement now ⟨began, bytes⟩) s = .next (arbiterChoice ((s.setClock now).setBoard { s.board with
        line := .free, panels := setEntry s.board.panels f.panel (some q) }))) ∧
    (p.state = .offline → 2 ≤ min (p.ack + 1) 15 →
      exec (.acknowledgement now ⟨began, bytes⟩) s = .next (arbiterChoice (((s.setClock now).setBoard { s.board with
        line := .free
        panels := setEntry s.board.panels f.panel (some
          { q with
            state := .online, probeDue := none, marks := q.marks.map (fun m => { m with dirty := true }) }) }).post
          (.pana f.panel p.address (some .offline) (some .online) .recovered 0 (min (p.ack + 1) 15) now))))) ∧
  (∀ (now began stop : HillTime) (bytes : List Byte) (f : RowFrame) (s : State), s.held = false →
    s.board.line = .window f stop →
    (laterThan now stop = true ∨ reached began (stop - 2000#32) = false ∨
      acknowledgementOf bytes ≠ some (f.address, f.row)) →
    exec (.acknowledgement now ⟨began, bytes⟩) s = .next (s.setClock now)) ∧
  (∀ (now stop : HillTime) (f : RowFrame) (p q : Panel) (s : State), s.held = false → s.board.line = .window f stop →
    entry s.board.panels f.panel = some p →
    q = { p with
      miss := min (p.miss + 1) 15, ack := 0
      marks := p.marks.modify (f.row - 1) (fun m => { m with inFlight := false }) } →
    (reached now stop = false → exec (.ackWindowEnd now) s = .next (s.setClock now)) ∧
    (reached now stop = true → p.state = .offline ∨ min (p.miss + 1) 15 < 4 →
      exec (.ackWindowEnd now) s = .next (arbiterChoice ((s.setClock now).setBoard { s.board with
        line := .free, panels := setEntry s.board.panels f.panel (some q) }))) ∧
    (reached now stop = true → p.state = .online → 4 ≤ min (p.miss + 1) 15 →
      exec (.ackWindowEnd now) s = .next (arbiterChoice (((s.setClock now).setBoard { s.board with
        line := .free
        panels := setEntry s.board.panels f.panel (some
          { q with state := .offline, probeDue := some (now + 100000#32) }) }).post
          (.pana f.panel p.address (some .online) (some .offline) .misses (min (p.miss + 1) 15) 0 now)))))
end

