-- ==== Sys2Proof/Laws/State.lean ====
section
/-! SUPPORT. One lemma per field of the state per update of it. -/

namespace Sys2Proof.Machine

@[simp] theorem State.setPending_pending (s : State) (v : List Instr) : (s.setPending v).pending = v := rfl
@[simp] theorem State.setPending_clock (s : State) (v : List Instr) : (s.setPending v).clock = s.clock := rfl
@[simp] theorem State.setPending_held (s : State) (v : List Instr) : (s.setPending v).held = s.held := rfl
@[simp] theorem State.setPending_initPhase (s : State) (v : List Instr) : (s.setPending v).initPhase = s.initPhase := rfl
@[simp] theorem State.setPending_control (s : State) (v : List Instr) : (s.setPending v).control = s.control := rfl
@[simp] theorem State.setPending_console (s : State) (v : List Instr) : (s.setPending v).console = s.console := rfl
@[simp] theorem State.setPending_round (s : State) (v : List Instr) : (s.setPending v).round = s.round := rfl
@[simp] theorem State.setPending_scoring (s : State) (v : List Instr) : (s.setPending v).scoring = s.scoring := rfl
@[simp] theorem State.setPending_start (s : State) (v : List Instr) : (s.setPending v).start = s.start := rfl
@[simp] theorem State.setPending_wind (s : State) (v : List Instr) : (s.setPending v).wind = s.wind := rfl
@[simp] theorem State.setPending_corridor (s : State) (v : List Instr) : (s.setPending v).corridor = s.corridor := rfl
@[simp] theorem State.setPending_flight (s : State) (v : List Instr) : (s.setPending v).flight = s.flight := rfl
@[simp] theorem State.setPending_board (s : State) (v : List Instr) : (s.setPending v).board = s.board := rfl

@[simp] theorem State.setClock_pending (s : State) (v : HillTime) : (s.setClock v).pending = s.pending := rfl
@[simp] theorem State.setClock_clock (s : State) (v : HillTime) : (s.setClock v).clock = v := rfl
@[simp] theorem State.setClock_held (s : State) (v : HillTime) : (s.setClock v).held = s.held := rfl
@[simp] theorem State.setClock_initPhase (s : State) (v : HillTime) : (s.setClock v).initPhase = s.initPhase := rfl
@[simp] theorem State.setClock_control (s : State) (v : HillTime) : (s.setClock v).control = s.control := rfl
@[simp] theorem State.setClock_console (s : State) (v : HillTime) : (s.setClock v).console = s.console := rfl
@[simp] theorem State.setClock_round (s : State) (v : HillTime) : (s.setClock v).round = s.round := rfl
@[simp] theorem State.setClock_scoring (s : State) (v : HillTime) : (s.setClock v).scoring = s.scoring := rfl
@[simp] theorem State.setClock_start (s : State) (v : HillTime) : (s.setClock v).start = s.start := rfl
@[simp] theorem State.setClock_wind (s : State) (v : HillTime) : (s.setClock v).wind = s.wind := rfl
@[simp] theorem State.setClock_corridor (s : State) (v : HillTime) : (s.setClock v).corridor = s.corridor := rfl
@[simp] theorem State.setClock_flight (s : State) (v : HillTime) : (s.setClock v).flight = s.flight := rfl
@[simp] theorem State.setClock_board (s : State) (v : HillTime) : (s.setClock v).board = s.board := rfl

@[simp] theorem State.setInitPhase_pending (s : State) (v : InitPhase) : (s.setInitPhase v).pending = s.pending := rfl
@[simp] theorem State.setInitPhase_clock (s : State) (v : InitPhase) : (s.setInitPhase v).clock = s.clock := rfl
@[simp] theorem State.setInitPhase_held (s : State) (v : InitPhase) : (s.setInitPhase v).held = s.held := rfl
@[simp] theorem State.setInitPhase_initPhase (s : State) (v : InitPhase) : (s.setInitPhase v).initPhase = v := rfl
@[simp] theorem State.setInitPhase_control (s : State) (v : InitPhase) : (s.setInitPhase v).control = s.control := rfl
@[simp] theorem State.setInitPhase_console (s : State) (v : InitPhase) : (s.setInitPhase v).console = s.console := rfl
@[simp] theorem State.setInitPhase_round (s : State) (v : InitPhase) : (s.setInitPhase v).round = s.round := rfl
@[simp] theorem State.setInitPhase_scoring (s : State) (v : InitPhase) : (s.setInitPhase v).scoring = s.scoring := rfl
@[simp] theorem State.setInitPhase_start (s : State) (v : InitPhase) : (s.setInitPhase v).start = s.start := rfl
@[simp] theorem State.setInitPhase_wind (s : State) (v : InitPhase) : (s.setInitPhase v).wind = s.wind := rfl
@[simp] theorem State.setInitPhase_corridor (s : State) (v : InitPhase) : (s.setInitPhase v).corridor = s.corridor := rfl
@[simp] theorem State.setInitPhase_flight (s : State) (v : InitPhase) : (s.setInitPhase v).flight = s.flight := rfl
@[simp] theorem State.setInitPhase_board (s : State) (v : InitPhase) : (s.setInitPhase v).board = s.board := rfl

@[simp] theorem State.setControl_pending (s : State) (v : Link) : (s.setControl v).pending = s.pending := rfl
@[simp] theorem State.setControl_clock (s : State) (v : Link) : (s.setControl v).clock = s.clock := rfl
@[simp] theorem State.setControl_held (s : State) (v : Link) : (s.setControl v).held = s.held := rfl
@[simp] theorem State.setControl_initPhase (s : State) (v : Link) : (s.setControl v).initPhase = s.initPhase := rfl
@[simp] theorem State.setControl_control (s : State) (v : Link) : (s.setControl v).control = v := rfl
@[simp] theorem State.setControl_console (s : State) (v : Link) : (s.setControl v).console = s.console := rfl
@[simp] theorem State.setControl_round (s : State) (v : Link) : (s.setControl v).round = s.round := rfl
@[simp] theorem State.setControl_scoring (s : State) (v : Link) : (s.setControl v).scoring = s.scoring := rfl
@[simp] theorem State.setControl_start (s : State) (v : Link) : (s.setControl v).start = s.start := rfl
@[simp] theorem State.setControl_wind (s : State) (v : Link) : (s.setControl v).wind = s.wind := rfl
@[simp] theorem State.setControl_corridor (s : State) (v : Link) : (s.setControl v).corridor = s.corridor := rfl
@[simp] theorem State.setControl_flight (s : State) (v : Link) : (s.setControl v).flight = s.flight := rfl
@[simp] theorem State.setControl_board (s : State) (v : Link) : (s.setControl v).board = s.board := rfl

@[simp] theorem State.setConsole_pending (s : State) (v : Link) : (s.setConsole v).pending = s.pending := rfl
@[simp] theorem State.setConsole_clock (s : State) (v : Link) : (s.setConsole v).clock = s.clock := rfl
@[simp] theorem State.setConsole_held (s : State) (v : Link) : (s.setConsole v).held = s.held := rfl
@[simp] theorem State.setConsole_initPhase (s : State) (v : Link) : (s.setConsole v).initPhase = s.initPhase := rfl
@[simp] theorem State.setConsole_control (s : State) (v : Link) : (s.setConsole v).control = s.control := rfl
@[simp] theorem State.setConsole_console (s : State) (v : Link) : (s.setConsole v).console = v := rfl
@[simp] theorem State.setConsole_round (s : State) (v : Link) : (s.setConsole v).round = s.round := rfl
@[simp] theorem State.setConsole_scoring (s : State) (v : Link) : (s.setConsole v).scoring = s.scoring := rfl
@[simp] theorem State.setConsole_start (s : State) (v : Link) : (s.setConsole v).start = s.start := rfl
@[simp] theorem State.setConsole_wind (s : State) (v : Link) : (s.setConsole v).wind = s.wind := rfl
@[simp] theorem State.setConsole_corridor (s : State) (v : Link) : (s.setConsole v).corridor = s.corridor := rfl
@[simp] theorem State.setConsole_flight (s : State) (v : Link) : (s.setConsole v).flight = s.flight := rfl
@[simp] theorem State.setConsole_board (s : State) (v : Link) : (s.setConsole v).board = s.board := rfl

@[simp] theorem State.setRound_pending (s : State) (v : Round) : (s.setRound v).pending = s.pending := rfl
@[simp] theorem State.setRound_clock (s : State) (v : Round) : (s.setRound v).clock = s.clock := rfl
@[simp] theorem State.setRound_held (s : State) (v : Round) : (s.setRound v).held = s.held := rfl
@[simp] theorem State.setRound_initPhase (s : State) (v : Round) : (s.setRound v).initPhase = s.initPhase := rfl
@[simp] theorem State.setRound_control (s : State) (v : Round) : (s.setRound v).control = s.control := rfl
@[simp] theorem State.setRound_console (s : State) (v : Round) : (s.setRound v).console = s.console := rfl
@[simp] theorem State.setRound_round (s : State) (v : Round) : (s.setRound v).round = v := rfl
@[simp] theorem State.setRound_scoring (s : State) (v : Round) : (s.setRound v).scoring = s.scoring := rfl
@[simp] theorem State.setRound_start (s : State) (v : Round) : (s.setRound v).start = s.start := rfl
@[simp] theorem State.setRound_wind (s : State) (v : Round) : (s.setRound v).wind = s.wind := rfl
@[simp] theorem State.setRound_corridor (s : State) (v : Round) : (s.setRound v).corridor = s.corridor := rfl
@[simp] theorem State.setRound_flight (s : State) (v : Round) : (s.setRound v).flight = s.flight := rfl
@[simp] theorem State.setRound_board (s : State) (v : Round) : (s.setRound v).board = s.board := rfl

@[simp] theorem State.setScoring_pending (s : State) (v : Scoring) : (s.setScoring v).pending = s.pending := rfl
@[simp] theorem State.setScoring_clock (s : State) (v : Scoring) : (s.setScoring v).clock = s.clock := rfl
@[simp] theorem State.setScoring_held (s : State) (v : Scoring) : (s.setScoring v).held = s.held := rfl
@[simp] theorem State.setScoring_initPhase (s : State) (v : Scoring) : (s.setScoring v).initPhase = s.initPhase := rfl
@[simp] theorem State.setScoring_control (s : State) (v : Scoring) : (s.setScoring v).control = s.control := rfl
@[simp] theorem State.setScoring_console (s : State) (v : Scoring) : (s.setScoring v).console = s.console := rfl
@[simp] theorem State.setScoring_round (s : State) (v : Scoring) : (s.setScoring v).round = s.round := rfl
@[simp] theorem State.setScoring_scoring (s : State) (v : Scoring) : (s.setScoring v).scoring = v := rfl
@[simp] theorem State.setScoring_start (s : State) (v : Scoring) : (s.setScoring v).start = s.start := rfl
@[simp] theorem State.setScoring_wind (s : State) (v : Scoring) : (s.setScoring v).wind = s.wind := rfl
@[simp] theorem State.setScoring_corridor (s : State) (v : Scoring) : (s.setScoring v).corridor = s.corridor := rfl
@[simp] theorem State.setScoring_flight (s : State) (v : Scoring) : (s.setScoring v).flight = s.flight := rfl
@[simp] theorem State.setScoring_board (s : State) (v : Scoring) : (s.setScoring v).board = s.board := rfl

@[simp] theorem State.setStart_pending (s : State) (v : StartLight) : (s.setStart v).pending = s.pending := rfl
@[simp] theorem State.setStart_clock (s : State) (v : StartLight) : (s.setStart v).clock = s.clock := rfl
@[simp] theorem State.setStart_held (s : State) (v : StartLight) : (s.setStart v).held = s.held := rfl
@[simp] theorem State.setStart_initPhase (s : State) (v : StartLight) : (s.setStart v).initPhase = s.initPhase := rfl
@[simp] theorem State.setStart_control (s : State) (v : StartLight) : (s.setStart v).control = s.control := rfl
@[simp] theorem State.setStart_console (s : State) (v : StartLight) : (s.setStart v).console = s.console := rfl
@[simp] theorem State.setStart_round (s : State) (v : StartLight) : (s.setStart v).round = s.round := rfl
@[simp] theorem State.setStart_scoring (s : State) (v : StartLight) : (s.setStart v).scoring = s.scoring := rfl
@[simp] theorem State.setStart_start (s : State) (v : StartLight) : (s.setStart v).start = v := rfl
@[simp] theorem State.setStart_wind (s : State) (v : StartLight) : (s.setStart v).wind = s.wind := rfl
@[simp] theorem State.setStart_corridor (s : State) (v : StartLight) : (s.setStart v).corridor = s.corridor := rfl
@[simp] theorem State.setStart_flight (s : State) (v : StartLight) : (s.setStart v).flight = s.flight := rfl
@[simp] theorem State.setStart_board (s : State) (v : StartLight) : (s.setStart v).board = s.board := rfl

@[simp] theorem State.setWind_pending (s : State) (v : WindRx) : (s.setWind v).pending = s.pending := rfl
@[simp] theorem State.setWind_clock (s : State) (v : WindRx) : (s.setWind v).clock = s.clock := rfl
@[simp] theorem State.setWind_held (s : State) (v : WindRx) : (s.setWind v).held = s.held := rfl
@[simp] theorem State.setWind_initPhase (s : State) (v : WindRx) : (s.setWind v).initPhase = s.initPhase := rfl
@[simp] theorem State.setWind_control (s : State) (v : WindRx) : (s.setWind v).control = s.control := rfl
@[simp] theorem State.setWind_console (s : State) (v : WindRx) : (s.setWind v).console = s.console := rfl
@[simp] theorem State.setWind_round (s : State) (v : WindRx) : (s.setWind v).round = s.round := rfl
@[simp] theorem State.setWind_scoring (s : State) (v : WindRx) : (s.setWind v).scoring = s.scoring := rfl
@[simp] theorem State.setWind_start (s : State) (v : WindRx) : (s.setWind v).start = s.start := rfl
@[simp] theorem State.setWind_wind (s : State) (v : WindRx) : (s.setWind v).wind = v := rfl
@[simp] theorem State.setWind_corridor (s : State) (v : WindRx) : (s.setWind v).corridor = s.corridor := rfl
@[simp] theorem State.setWind_flight (s : State) (v : WindRx) : (s.setWind v).flight = s.flight := rfl
@[simp] theorem State.setWind_board (s : State) (v : WindRx) : (s.setWind v).board = s.board := rfl

@[simp] theorem State.setCorridor_pending (s : State) (v : Corridor) : (s.setCorridor v).pending = s.pending := rfl
@[simp] theorem State.setCorridor_clock (s : State) (v : Corridor) : (s.setCorridor v).clock = s.clock := rfl
@[simp] theorem State.setCorridor_held (s : State) (v : Corridor) : (s.setCorridor v).held = s.held := rfl
@[simp] theorem State.setCorridor_initPhase (s : State) (v : Corridor) : (s.setCorridor v).initPhase = s.initPhase := rfl
@[simp] theorem State.setCorridor_control (s : State) (v : Corridor) : (s.setCorridor v).control = s.control := rfl
@[simp] theorem State.setCorridor_console (s : State) (v : Corridor) : (s.setCorridor v).console = s.console := rfl
@[simp] theorem State.setCorridor_round (s : State) (v : Corridor) : (s.setCorridor v).round = s.round := rfl
@[simp] theorem State.setCorridor_scoring (s : State) (v : Corridor) : (s.setCorridor v).scoring = s.scoring := rfl
@[simp] theorem State.setCorridor_start (s : State) (v : Corridor) : (s.setCorridor v).start = s.start := rfl
@[simp] theorem State.setCorridor_wind (s : State) (v : Corridor) : (s.setCorridor v).wind = s.wind := rfl
@[simp] theorem State.setCorridor_corridor (s : State) (v : Corridor) : (s.setCorridor v).corridor = v := rfl
@[simp] theorem State.setCorridor_flight (s : State) (v : Corridor) : (s.setCorridor v).flight = s.flight := rfl
@[simp] theorem State.setCorridor_board (s : State) (v : Corridor) : (s.setCorridor v).board = s.board := rfl

@[simp] theorem State.setFlight_pending (s : State) (v : Flight) : (s.setFlight v).pending = s.pending := rfl
@[simp] theorem State.setFlight_clock (s : State) (v : Flight) : (s.setFlight v).clock = s.clock := rfl
@[simp] theorem State.setFlight_held (s : State) (v : Flight) : (s.setFlight v).held = s.held := rfl
@[simp] theorem State.setFlight_initPhase (s : State) (v : Flight) : (s.setFlight v).initPhase = s.initPhase := rfl
@[simp] theorem State.setFlight_control (s : State) (v : Flight) : (s.setFlight v).control = s.control := rfl
@[simp] theorem State.setFlight_console (s : State) (v : Flight) : (s.setFlight v).console = s.console := rfl
@[simp] theorem State.setFlight_round (s : State) (v : Flight) : (s.setFlight v).round = s.round := rfl
@[simp] theorem State.setFlight_scoring (s : State) (v : Flight) : (s.setFlight v).scoring = s.scoring := rfl
@[simp] theorem State.setFlight_start (s : State) (v : Flight) : (s.setFlight v).start = s.start := rfl
@[simp] theorem State.setFlight_wind (s : State) (v : Flight) : (s.setFlight v).wind = s.wind := rfl
@[simp] theorem State.setFlight_corridor (s : State) (v : Flight) : (s.setFlight v).corridor = s.corridor := rfl
@[simp] theorem State.setFlight_flight (s : State) (v : Flight) : (s.setFlight v).flight = v := rfl
@[simp] theorem State.setFlight_board (s : State) (v : Flight) : (s.setFlight v).board = s.board := rfl

@[simp] theorem State.setBoard_pending (s : State) (v : Board) : (s.setBoard v).pending = s.pending := rfl
@[simp] theorem State.setBoard_clock (s : State) (v : Board) : (s.setBoard v).clock = s.clock := rfl
@[simp] theorem State.setBoard_held (s : State) (v : Board) : (s.setBoard v).held = s.held := rfl
@[simp] theorem State.setBoard_initPhase (s : State) (v : Board) : (s.setBoard v).initPhase = s.initPhase := rfl
@[simp] theorem State.setBoard_control (s : State) (v : Board) : (s.setBoard v).control = s.control := rfl
@[simp] theorem State.setBoard_console (s : State) (v : Board) : (s.setBoard v).console = s.console := rfl
@[simp] theorem State.setBoard_round (s : State) (v : Board) : (s.setBoard v).round = s.round := rfl
@[simp] theorem State.setBoard_scoring (s : State) (v : Board) : (s.setBoard v).scoring = s.scoring := rfl
@[simp] theorem State.setBoard_start (s : State) (v : Board) : (s.setBoard v).start = s.start := rfl
@[simp] theorem State.setBoard_wind (s : State) (v : Board) : (s.setBoard v).wind = s.wind := rfl
@[simp] theorem State.setBoard_corridor (s : State) (v : Board) : (s.setBoard v).corridor = s.corridor := rfl
@[simp] theorem State.setBoard_flight (s : State) (v : Board) : (s.setBoard v).flight = s.flight := rfl
@[simp] theorem State.setBoard_board (s : State) (v : Board) : (s.setBoard v).board = v := rfl

@[simp] theorem State.setPending_link (s : State) (v : List Instr) (l : LinkId) : (s.setPending v).link l = s.link l := by
  cases l <;> rfl
@[simp] theorem State.setClock_link (s : State) (v : HillTime) (l : LinkId) : (s.setClock v).link l = s.link l := by
  cases l <;> rfl
@[simp] theorem State.setInitPhase_link (s : State) (v : InitPhase) (l : LinkId) : (s.setInitPhase v).link l = s.link l := by
  cases l <;> rfl
@[simp] theorem State.setRound_link (s : State) (v : Round) (l : LinkId) : (s.setRound v).link l = s.link l := by
  cases l <;> rfl
@[simp] theorem State.setScoring_link (s : State) (v : Scoring) (l : LinkId) : (s.setScoring v).link l = s.link l := by
  cases l <;> rfl
@[simp] theorem State.setStart_link (s : State) (v : StartLight) (l : LinkId) : (s.setStart v).link l = s.link l := by
  cases l <;> rfl
@[simp] theorem State.setWind_link (s : State) (v : WindRx) (l : LinkId) : (s.setWind v).link l = s.link l := by
  cases l <;> rfl
@[simp] theorem State.setCorridor_link (s : State) (v : Corridor) (l : LinkId) : (s.setCorridor v).link l = s.link l := by
  cases l <;> rfl
@[simp] theorem State.setFlight_link (s : State) (v : Flight) (l : LinkId) : (s.setFlight v).link l = s.link l := by
  cases l <;> rfl
@[simp] theorem State.setBoard_link (s : State) (v : Board) (l : LinkId) : (s.setBoard v).link l = s.link l := by
  cases l <;> rfl

@[simp] theorem State.setLink_pending (s : State) (l : LinkId) (v : Link) : (s.setLink l v).pending = s.pending := by
  cases l <;> rfl
@[simp] theorem State.setLink_clock (s : State) (l : LinkId) (v : Link) : (s.setLink l v).clock = s.clock := by
  cases l <;> rfl
@[simp] theorem State.setLink_held (s : State) (l : LinkId) (v : Link) : (s.setLink l v).held = s.held := by
  cases l <;> rfl
@[simp] theorem State.setLink_initPhase (s : State) (l : LinkId) (v : Link) : (s.setLink l v).initPhase = s.initPhase := by
  cases l <;> rfl
@[simp] theorem State.setLink_round (s : State) (l : LinkId) (v : Link) : (s.setLink l v).round = s.round := by
  cases l <;> rfl
@[simp] theorem State.setLink_scoring (s : State) (l : LinkId) (v : Link) : (s.setLink l v).scoring = s.scoring := by
  cases l <;> rfl
@[simp] theorem State.setLink_start (s : State) (l : LinkId) (v : Link) : (s.setLink l v).start = s.start := by
  cases l <;> rfl
@[simp] theorem State.setLink_wind (s : State) (l : LinkId) (v : Link) : (s.setLink l v).wind = s.wind := by
  cases l <;> rfl
@[simp] theorem State.setLink_corridor (s : State) (l : LinkId) (v : Link) : (s.setLink l v).corridor = s.corridor := by
  cases l <;> rfl
@[simp] theorem State.setLink_flight (s : State) (l : LinkId) (v : Link) : (s.setLink l v).flight = s.flight := by
  cases l <;> rfl
@[simp] theorem State.setLink_board (s : State) (l : LinkId) (v : Link) : (s.setLink l v).board = s.board := by
  cases l <;> rfl

@[simp] theorem State.setLink_link_self (s : State) (l : LinkId) (v : Link) : (s.setLink l v).link l = v := by
  cases l <;> rfl

theorem State.setLink_link_of_ne (s : State) {l m : LinkId} (v : Link) (h : m ≠ l) :
    (s.setLink l v).link m = s.link m := by
  cases l <;> cases m <;> first | rfl | exact absurd rfl h

end Sys2Proof.Machine
end

