-- ==== Sys2Proof/Laws/Ops.lean ====
section
/-! SUPPORT. What each shared operation can do, said once. -/

namespace Sys2Proof.Machine

/-! Transmitters -/

theorem Link.beginNext_queue (x : Link) : x.beginNext.queue = x.queue := by
  unfold Link.beginNext; split
  · rfl
  · split
    · rfl
    · split
      · rfl
      · split <;> rfl

theorem Link.beginNext_receiver (x : Link) : x.beginNext.receiver = x.receiver := by
  unfold Link.beginNext; split
  · rfl
  · split
    · rfl
    · split
      · rfl
      · split <;> rfl

theorem Link.beginNext_noticeLost (x : Link) : x.beginNext.noticeLost = x.noticeLost := by
  unfold Link.beginNext; split
  · rfl
  · split
    · rfl
    · split
      · rfl
      · split <;> rfl

theorem Link.beginNext_of_sending {x : Link} {f : OutFrame} (h : x.sending = some f) : x.beginNext = x := by
  unfold Link.beginNext; rw [h]

/-- A posted notice touches neither the receiver nor the request queue. -/
theorem Link.post_queue (x : Link) (n : Notice) : (x.post n).queue = x.queue := by
  unfold Link.post; split
  · rw [Link.beginNext_queue]
  · rfl

theorem Link.post_receiver (x : Link) (n : Notice) : (x.post n).receiver = x.receiver := by
  unfold Link.post; split
  · rw [Link.beginNext_receiver]
  · rfl

/-! Posting: the two links alone change -/

theorem State.post_link (s : State) (n : Notice) (l : LinkId) : (s.post n).link l = (s.link l).post n := by
  cases l <;> rfl

@[simp] theorem State.post_pending (s : State) (n : Notice) : (s.post n).pending = s.pending := rfl
@[simp] theorem State.post_clock (s : State) (n : Notice) : (s.post n).clock = s.clock := rfl
@[simp] theorem State.post_held (s : State) (n : Notice) : (s.post n).held = s.held := rfl
@[simp] theorem State.post_initPhase (s : State) (n : Notice) : (s.post n).initPhase = s.initPhase := rfl
@[simp] theorem State.post_control (s : State) (n : Notice) : (s.post n).control = s.control.post n := rfl
@[simp] theorem State.post_console (s : State) (n : Notice) : (s.post n).console = s.console.post n := rfl
@[simp] theorem State.post_round (s : State) (n : Notice) : (s.post n).round = s.round := rfl
@[simp] theorem State.post_scoring (s : State) (n : Notice) : (s.post n).scoring = s.scoring := rfl
@[simp] theorem State.post_start (s : State) (n : Notice) : (s.post n).start = s.start := rfl
@[simp] theorem State.post_wind (s : State) (n : Notice) : (s.post n).wind = s.wind := rfl
@[simp] theorem State.post_corridor (s : State) (n : Notice) : (s.post n).corridor = s.corridor := rfl
@[simp] theorem State.post_flight (s : State) (n : Notice) : (s.post n).flight = s.flight := rfl
@[simp] theorem State.post_board (s : State) (n : Notice) : (s.post n).board = s.board := rfl

/-! Marking changed rows: the board alone changes -/

@[simp] theorem markChanged_pending (a b : State) : (markChanged a b).pending = b.pending := rfl
@[simp] theorem markChanged_clock (a b : State) : (markChanged a b).clock = b.clock := rfl
@[simp] theorem markChanged_held (a b : State) : (markChanged a b).held = b.held := rfl
@[simp] theorem markChanged_initPhase (a b : State) : (markChanged a b).initPhase = b.initPhase := rfl
@[simp] theorem markChanged_control (a b : State) : (markChanged a b).control = b.control := rfl
@[simp] theorem markChanged_console (a b : State) : (markChanged a b).console = b.console := rfl
@[simp] theorem markChanged_round (a b : State) : (markChanged a b).round = b.round := rfl
@[simp] theorem markChanged_scoring (a b : State) : (markChanged a b).scoring = b.scoring := rfl
@[simp] theorem markChanged_start (a b : State) : (markChanged a b).start = b.start := rfl
@[simp] theorem markChanged_wind (a b : State) : (markChanged a b).wind = b.wind := rfl
@[simp] theorem markChanged_corridor (a b : State) : (markChanged a b).corridor = b.corridor := rfl
@[simp] theorem markChanged_flight (a b : State) : (markChanged a b).flight = b.flight := rfl
@[simp] theorem markChanged_link (a b : State) (l : LinkId) : (markChanged a b).link l = b.link l := by cases l <;> rfl

/-- A publication: the record PUBLISHED, its context freed, its RSLT posted, the board marked. -/
theorem State.publish_eq (s : State) (r : Record) :
    s.publish r =
      { ((s.modifyRecord r.jump (fun x => { x with state := .published })).freeCtxOf r.jump).post
          (.rslt (resultNotice r false)) with
        board := (markChanged s
          ((s.modifyRecord r.jump (fun x => { x with state := .published })).freeCtxOf r.jump)).board } := rfl

/-! Lights, countdown and gate: each operation as its field updates -/

theorem State.showCountdown_eq (s : State) :
    s.showCountdown =
      { s with board := { s.board with
        countdownShown := s.board.fields.map
          (fun e => e.bind (fun d => d.shown (countdownSeconds s.start.countdown s.clock))) } } := rfl

theorem State.toLight_eq (s : State) (light : Light) (bib remaining : Option Nat) :
    s.toLight light bib remaining =
      { s with
        start := { s.start with
          light := light
          cadence := if light = .greenFlash then some (true, plusTicks s.clock 50000) else none }
        board := { s.board with
          countdownShown := s.board.fields.map
            (fun e => e.bind (fun d => d.shown (countdownSeconds s.start.countdown s.clock))) }
        control := s.control.post (.lamp light bib remaining)
        console := s.console.post (.lamp light bib remaining) } := rfl

theorem State.toGate_eq (s : State) (g : Nat) (staged : Option (Nat × Nat)) :
    s.toGate g staged =
      { s with
        start := { s.start with juryGate := g, staged := staged }
        board := { s.board with
          countdownShown := if g = s.start.juryGate then s.board.countdownShown
            else s.board.fields.map
              (fun e => e.bind (fun d => d.shown (countdownSeconds s.start.countdown s.clock))) } } := by
  unfold State.toGate
  simp only
  split <;> rfl

theorem State.toCountdown_eq (s : State) (c : Countdown) :
    s.toCountdown c =
      { s with
        start := { s.start with countdown := c }
        board := { s.board with
          countdownShown := s.board.fields.map
            (fun e => e.bind (fun d => d.shown (countdownSeconds c s.clock))) } } := rfl

/-! Records -/

@[simp] theorem Round.modify_bindA (r : Round) (j : Nat) (f : Record → Record) : (r.modify j f).bindA = r.bindA := rfl
@[simp] theorem Round.modify_bindB (r : Round) (j : Nat) (f : Record → Record) : (r.modify j f).bindB = r.bindB := rfl
@[simp] theorem Round.modify_part (r : Round) (j : Nat) (f : Record → Record) : (r.modify j f).part = r.part := rfl
@[simp] theorem Round.modify_counter (r : Round) (j : Nat) (f : Record → Record) :
    (r.modify j f).counter = r.counter := rfl
@[simp] theorem Round.modify_startList (r : Round) (j : Nat) (f : Record → Record) :
    (r.modify j f).startList = r.startList := rfl
@[simp] theorem Round.modify_clearance (r : Round) (j : Nat) (f : Record → Record) :
    (r.modify j f).clearance = r.clearance := rfl

/-- The records of a changed table are the records, each changed where it bears the number. -/
theorem Round.records_modify (r : Round) (j : Nat) (f : Record → Record) :
    (r.modify j f).records = r.records.map (fun x => if x.jump = j then f x else x) := by
  unfold Round.records Round.modify
  generalize r.table = l
  induction l with
  | nil => rfl
  | cons a l ih => cases a <;> simp_all

/-- A change that keeps jump numbers is found under the number. -/
theorem Round.find_modify_self (r : Round) (j : Nat) (f : Record → Record) (hf : ∀ x, (f x).jump = x.jump) :
    (r.modify j f).find j = (r.find j).map f := by
  unfold Round.find
  rw [Round.records_modify]
  induction r.records with
  | nil => rfl
  | cons a l ih =>
    by_cases h : a.jump = j
    · simp [h, hf]
    · simp [h, ih]

theorem Round.find_modify_other (r : Round) {j k : Nat} (f : Record → Record) (hf : ∀ x, (f x).jump = x.jump)
    (hk : k ≠ j) : (r.modify j f).find k = r.find k := by
  unfold Round.find
  rw [Round.records_modify]
  induction r.records with
  | nil => rfl
  | cons a l ih =>
    by_cases h : a.jump = j
    · have : a.jump ≠ k := by omega
      simp [h, hf, ih, Ne.symm hk]
    · by_cases h2 : a.jump = k
      · simp [h2, hk]
      · simp [h, h2, ih]

end Sys2Proof.Machine
end

