-- ==== Sys2Proof/Laws/Board.lean ====
section
/-! SUPPORT. What bringing the board up to date can do: it changes the board alone, and nothing where no text changed. -/

namespace Sys2Proof.Machine

/-! The field map -/

@[simp] theorem Board.setField_panels (b : Board) (i : Nat) (d : FieldDesc) (n : Option Nat) :
    (b.setField i d n).panels = b.panels := rfl
@[simp] theorem Board.setField_line (b : Board) (i : Nat) (d : FieldDesc) (n : Option Nat) :
    (b.setField i d n).line = b.line := rfl

/-- An empty descriptor is emptied without effect (R154). -/
theorem Board.clearField_of_none {b : Board} {i : Nat} (h : entry b.fields i = none) : b.clearField i = b := by
  simp [Board.clearField, h]

theorem Board.clearField_of_some {b : Board} {i : Nat} {d : FieldDesc} (h : entry b.fields i = some d) :
    b.clearField i =
      { b with fields := setEntry b.fields i none, countdownShown := setEntry b.countdownShown i none } := by
  simp [Board.clearField, h]

/-! The arbiter and boardSync -/

theorem startFrame_eq (s : State) (i : Nat) (pn : Panel) : ∃ b, startFrame s i pn = s.setBoard b := ⟨_, rfl⟩

theorem arbiterChoice_eq (s : State) : ∃ b, arbiterChoice s = s.setBoard b := by
  unfold arbiterChoice
  split
  · split
    · exact startFrame_eq s _ _
    · exact ⟨s.board, rfl⟩
  · exact ⟨s.board, rfl⟩
  · exact ⟨s.board, rfl⟩

/-- The board is all that boardSync changes. -/
theorem boardSync_eq (marked : Bool) (old new : State) : ∃ b, boardSync marked old new = new.setBoard b := by
  unfold boardSync
  simp only
  split
  · obtain ⟨b, hb⟩ := arbiterChoice_eq (markChanged old new)
    exact ⟨b, by rw [hb]; rfl⟩
  · exact ⟨_, rfl⟩

@[simp] theorem boardSync_pending (m : Bool) (a b : State) : (boardSync m a b).pending = b.pending := by
  obtain ⟨x, h⟩ := boardSync_eq m a b; rw [h]; rfl
@[simp] theorem boardSync_clock (m : Bool) (a b : State) : (boardSync m a b).clock = b.clock := by
  obtain ⟨x, h⟩ := boardSync_eq m a b; rw [h]; rfl
@[simp] theorem boardSync_held (m : Bool) (a b : State) : (boardSync m a b).held = b.held := by
  obtain ⟨x, h⟩ := boardSync_eq m a b; rw [h]; rfl
@[simp] theorem boardSync_initPhase (m : Bool) (a b : State) : (boardSync m a b).initPhase = b.initPhase := by
  obtain ⟨x, h⟩ := boardSync_eq m a b; rw [h]; rfl
@[simp] theorem boardSync_control (m : Bool) (a b : State) : (boardSync m a b).control = b.control := by
  obtain ⟨x, h⟩ := boardSync_eq m a b; rw [h]; rfl
@[simp] theorem boardSync_console (m : Bool) (a b : State) : (boardSync m a b).console = b.console := by
  obtain ⟨x, h⟩ := boardSync_eq m a b; rw [h]; rfl
@[simp] theorem boardSync_round (m : Bool) (a b : State) : (boardSync m a b).round = b.round := by
  obtain ⟨x, h⟩ := boardSync_eq m a b; rw [h]; rfl
@[simp] theorem boardSync_scoring (m : Bool) (a b : State) : (boardSync m a b).scoring = b.scoring := by
  obtain ⟨x, h⟩ := boardSync_eq m a b; rw [h]; rfl
@[simp] theorem boardSync_start (m : Bool) (a b : State) : (boardSync m a b).start = b.start := by
  obtain ⟨x, h⟩ := boardSync_eq m a b; rw [h]; rfl
@[simp] theorem boardSync_wind (m : Bool) (a b : State) : (boardSync m a b).wind = b.wind := by
  obtain ⟨x, h⟩ := boardSync_eq m a b; rw [h]; rfl
@[simp] theorem boardSync_corridor (m : Bool) (a b : State) : (boardSync m a b).corridor = b.corridor := by
  obtain ⟨x, h⟩ := boardSync_eq m a b; rw [h]; rfl
@[simp] theorem boardSync_flight (m : Bool) (a b : State) : (boardSync m a b).flight = b.flight := by
  obtain ⟨x, h⟩ := boardSync_eq m a b; rw [h]; rfl
@[simp] theorem boardSync_link (m : Bool) (a b : State) (l : LinkId) : (boardSync m a b).link l = b.link l := by
  obtain ⟨x, h⟩ := boardSync_eq m a b; rw [h]; cases l <;> rfl

/-- A state is the event's own state with boardSync's board. -/
theorem boardSync_with_board (m : Bool) (a b : State) :
    boardSync m a b = { b with board := (boardSync m a b).board } := by
  obtain ⟨x, h⟩ := boardSync_eq m a b; rw [h]; rfl

/-- The text of a live item reads the light state, the jury gate, the corridor and the countdown last shown. -/
theorem liveText_congr {st st' : StartLight} {co co' : Corridor} (sh : Option Nat)
    (hl : st'.light = st.light) (hg : st'.juryGate = st.juryGate) (hs : co'.status = co.status)
    (hw : co'.live = co.live) (it : Item) : liveText st' co' sh it = liveText st co sh it := by
  cases it <;> simp [liveText, hl, hg, hs, hw]

theorem viewRecord_congr {r r' : Round} (h : r'.table = r.table) (v : View) : viewRecord r' v = viewRecord r v := by
  cases v <;> simp [viewRecord, Round.inState, Round.records, h]

/-- The composed text of a row reads the record table, the light state, the jury gate, the corridor's status and live
wind, the field map and the seconds its COUNTDOWN fields last showed. -/
theorem composed_congr {s t : State} (hr : t.round.table = s.round.table) (hl : t.start.light = s.start.light)
    (hg : t.start.juryGate = s.start.juryGate) (hs : t.corridor.status = s.corridor.status)
    (hw : t.corridor.live = s.corridor.live) (hf : t.board.fields = s.board.fields)
    (hc : t.board.countdownShown = s.board.countdownShown) (i : Nat) (p : Panel) (row : Nat) :
    t.composed i p row = s.composed i p row := by
  unfold State.composed composedRow
  rw [hf]
  congr 1
  funext x n
  simp only [layField, hf, hc, renderField, viewRecord_congr hr, liveText_congr _ hl hg hs hw]

theorem changedRows_of_same {a b : State} (hp : b.board.panels = a.board.panels)
    (hc : ∀ i p row, b.composed i p row = a.composed i p row) (i : Nat) : changedRows a b i = [] := by
  unfold changedRows
  rw [hp]
  cases entry a.board.panels i with
  | none => rfl
  | some p => simp [hc]

/-- No row is newly dirty against itself. -/
theorem newlyDirty_self (l : List (Option Panel)) : newlyDirty l l = false := by
  have h : ∀ ms : List RowMarks, (ms.zip ms).any (fun m => !m.1.dirty && m.2.dirty) = false := by
    intro ms
    induction ms with
    | nil => rfl
    | cons m ms ih => simp [ih]
  unfold newlyDirty
  induction l with
  | nil => rfl
  | cons e l ih => cases e <;> simp [ih, h]

/-- Where neither the panels nor a composed text has changed, and the line is as it was, the board stays as it is. -/
theorem boardSync_quiet {a b : State} (hp : b.board.panels = a.board.panels) (hline : b.board.line = a.board.line)
    (hc : ∀ i p row, b.composed i p row = a.composed i p row) : boardSync false a b = b := by
  have h0 : ∀ i, changedRows a b i = [] := changedRows_of_same hp hc
  have hm : markChanged a b = b := by
    unfold markChanged
    simp only [panelIndices, List.foldl, h0, Board.dirty]
    rfl
  unfold boardSync
  simp only [hm]
  split
  · rename_i h
    have ha : anyChanged a b = false := by simp [anyChanged, h0]
    rw [ha, hp, newlyDirty_self] at h
    unfold arbiterChoice
    rw [hline]
    cases hl : a.board.line <;> simp_all [BoardLine.isFree]
  · rfl

end Sys2Proof.Machine
end

