-- ==== Sys2Proof/Laws/Links.lean ====
section
/-! SUPPORT. A taken request said once: its answer's state, the board brought up to date, the reply held by its place. -/

namespace Sys2Proof.Machine

@[simp] theorem Request.replyType_code (r : Request) : replyType r.code = r.code + 0x80#8 := by
  cases r <;> rfl

/-- A request row that is taken and permitted: the block's work, the board behind it, the reply in its place. -/
theorem takenRequest_of_takes {s : State} {l : LinkId} (h : s.takes l) (now : HillTime) (tag : Byte) {r : Request}
    (hp : r.permitted l = true) :
    takenRequest now l tag r s =
      .next ((boardSync (requestMarks (s.setClock now) r (serve (s.setClock now) l r)) (s.setClock now)
          (serve (s.setClock now) l r).state).place l
        (.answered { type := r.code + 0x80#8, tag := tag, code := (serve (s.setClock now) l r).code,
                     body := (serve (s.setClock now) l r).body })) := by
  obtain ⟨hh, hi, hq⟩ := h
  have hq' : ¬ 4 ≤ (s.link l).queue.length := by omega
  simp [takenRequest, taken, hh, requestEvent, State.arrive, hq', hi, State.takeFrame, answerTo, hp, worked]

/-- A request row whose link the type does not belong to. -/
theorem takenRequest_not_permitted {s : State} {l : LinkId} (h : s.takes l) (now : HillTime) (tag : Byte) {r : Request}
    (hp : r.permitted l = false) :
    takenRequest now l tag r s =
      .next ((s.setClock now).place l
        (.answered { type := r.code + 0x80#8, tag := tag, code := .notPermitted, body := [] })) := by
  obtain ⟨hh, hi, hq⟩ := h
  have hq' : ¬ 4 ≤ (s.link l).queue.length := by omega
  simp [takenRequest, taken, hh, requestEvent, State.arrive, hq', hi, State.takeFrame, answerTo, hp, refuse]

/-- An event row while the part is not held in reset. -/
theorem taken_of_not_held {s : State} (h : s.held = false) (now : HillTime) (f : State → State) :
    taken now s f = .next (f (s.setClock now)) := by
  simp [taken, h]

@[simp] theorem State.place_pending (s : State) (l : LinkId) (p : Place) : (s.place l p).pending = s.pending := by
  simp [State.place]
@[simp] theorem State.place_clock (s : State) (l : LinkId) (p : Place) : (s.place l p).clock = s.clock := by
  simp [State.place]
@[simp] theorem State.place_held (s : State) (l : LinkId) (p : Place) : (s.place l p).held = s.held := by
  simp [State.place]
@[simp] theorem State.place_initPhase (s : State) (l : LinkId) (p : Place) :
    (s.place l p).initPhase = s.initPhase := by
  simp [State.place]
@[simp] theorem State.place_round (s : State) (l : LinkId) (p : Place) : (s.place l p).round = s.round := by
  simp [State.place]
@[simp] theorem State.place_scoring (s : State) (l : LinkId) (p : Place) : (s.place l p).scoring = s.scoring := by
  simp [State.place]
@[simp] theorem State.place_start (s : State) (l : LinkId) (p : Place) : (s.place l p).start = s.start := by
  simp [State.place]
@[simp] theorem State.place_wind (s : State) (l : LinkId) (p : Place) : (s.place l p).wind = s.wind := by
  simp [State.place]
@[simp] theorem State.place_corridor (s : State) (l : LinkId) (p : Place) : (s.place l p).corridor = s.corridor := by
  simp [State.place]
@[simp] theorem State.place_flight (s : State) (l : LinkId) (p : Place) : (s.place l p).flight = s.flight := by
  simp [State.place]
@[simp] theorem State.place_board (s : State) (l : LinkId) (p : Place) : (s.place l p).board = s.board := by
  simp [State.place]

end Sys2Proof.Machine
end

