-- ==== Sys2Proof/Laws/Effects.lean ====
section
/-! SUPPORT. A command's effect said once: from what its block's work becomes to what exec answers, with the board brought
up to date behind it and the reply held by its place. -/

namespace Sys2Proof.Machine

/-! The board keeps what BoardKept names -/

theorem entry_setEntry_self {α : Type} (l : List (Option α)) (i : Nat) (v : Option α) (h : (entry l i).isSome) :
    entry (setEntry l i v) i = v := by
  unfold entry setEntry at *
  by_cases hi : i = 0
  · simp [hi] at h
  · simp only [hi, if_false] at *
    cases hx : l[i - 1]? with
    | none => simp [hx] at h
    | some y =>
      obtain ⟨hl, -⟩ := List.getElem?_eq_some_iff.mp hx
      simp [hl]

theorem entry_setEntry_of_ne {α : Type} (l : List (Option α)) {i k : Nat} (v : Option α) (h : k ≠ i) :
    entry (setEntry l i v) k = entry l k := by
  unfold entry setEntry
  by_cases hk : k = 0
  · simp [hk]
  · by_cases hi : i = 0
    · simp [hi]
    · simp only [hi, hk, if_false]
      rw [List.getElem?_set_ne (by omega)]

/-- Replacing an entry by one that keeps the same keeps every entry. -/
theorem entry_map_setEntry {α β : Type} (f : α → β) (l : List (Option α)) (i : Nat) (v : Option α)
    (h : v.map f = (entry l i).map f) (k : Nat) : (entry (setEntry l i v) k).map f = (entry l k).map f := by
  by_cases hk : k = i
  · subst hk
    by_cases hs : (entry l k).isSome
    · rw [entry_setEntry_self l k v hs, h]
    · have hn : entry l k = none := by simpa using hs
      rw [hn] at h ⊢
      have hv : v = none := by simpa using h
      subst hv
      unfold entry setEntry at *
      by_cases h0 : k = 0
      · simp [h0]
      · simp only [h0, if_false] at *
        by_cases hl : k - 1 < l.length
        · simp [hl]
        · simp [List.getElem?_eq_none (by simpa using hl : (l.set (k - 1) none).length ≤ k - 1)]
  · rw [entry_setEntry_of_ne l v hk]

theorem BoardKept.refl (s : State) : BoardKept s s := ⟨rfl, rfl, rfl, fun _ => rfl⟩

theorem BoardKept.trans {a b c : State} (h : BoardKept a b) (g : BoardKept b c) : BoardKept a c :=
  ⟨g.1.trans h.1, g.2.1.trans h.2.1, g.2.2.1.trans h.2.2.1, fun i => (g.2.2.2 i).trans (h.2.2.2 i)⟩

theorem markFrom_length (p : Nat → Bool) (k : Nat) (l : List RowMarks) : (markFrom p k l).length = l.length := by
  induction l generalizing k with
  | nil => rfl
  | cons m l ih => simp [markFrom, ih]

theorem Panel.kept_markRows (pn : Panel) (p : Nat → Bool) : (pn.markRows p).kept = pn.kept := by
  simp [Panel.kept, Panel.markRows, markFrom_length]

theorem Panel.kept_onRow (pn : Panel) (row : Nat) (f : RowMarks → RowMarks) : (pn.onRow row f).kept = pn.kept := by
  simp only [Panel.kept, Panel.onRow]
  congr 1
  apply List.ext_getElem <;> simp

theorem Board.dirty_fields (b : Board) (i : Nat) (rows : List Nat) :
    (b.dirty i rows).fields = b.fields ∧ (b.dirty i rows).refreshPeriod = b.refreshPeriod ∧
    (b.dirty i rows).nextRefresh = b.nextRefresh ∧
    ∀ k, (entry (b.dirty i rows).panels k).map Panel.kept = (entry b.panels k).map Panel.kept := by
  cases rows with
  | nil => exact ⟨rfl, rfl, rfl, fun _ => rfl⟩
  | cons a l =>
    refine ⟨rfl, rfl, rfl, fun k => ?_⟩
    apply entry_map_setEntry
    cases entry b.panels i <;> simp [Panel.kept_markRows]

/-- Marking the changed rows keeps the board. -/
theorem markChanged_kept (old new : State) : BoardKept new (markChanged old new) := by
  have h : ∀ (l : List Nat) (b : Board),
      (l.foldl (fun b i => b.dirty i (changedRows old new i)) b).fields = b.fields ∧
      (l.foldl (fun b i => b.dirty i (changedRows old new i)) b).refreshPeriod = b.refreshPeriod ∧
      (l.foldl (fun b i => b.dirty i (changedRows old new i)) b).nextRefresh = b.nextRefresh ∧
      ∀ k, (entry (l.foldl (fun b i => b.dirty i (changedRows old new i)) b).panels k).map Panel.kept =
        (entry b.panels k).map Panel.kept := by
    intro l
    induction l with
    | nil => exact fun _ => ⟨rfl, rfl, rfl, fun _ => rfl⟩
    | cons a l ih =>
      intro b
      obtain ⟨h1, h2, h3, h4⟩ := ih (b.dirty a (changedRows old new a))
      obtain ⟨g1, g2, g3, g4⟩ := b.dirty_fields a (changedRows old new a)
      exact ⟨h1.trans g1, h2.trans g2, h3.trans g3, fun k => (h4 k).trans (g4 k)⟩
  exact h panelIndices new.board

theorem startFrame_kept (s : State) (i : Nat) (pn : Panel) (h : entry s.board.panels i = some pn) :
    BoardKept s (startFrame s i pn) := by
  refine ⟨rfl, rfl, rfl, fun k => ?_⟩
  apply entry_map_setEntry
  rw [h]
  simp only [Option.map_some, Option.some.injEq]
  exact Panel.kept_onRow pn pn.rowToSend _

theorem panelAt_entry {panels : List (Option Panel)} {a i : Nat} {pn : Panel} (h : panelAt panels a = some (i, pn)) :
    entry panels i = some pn := by
  unfold panelAt at h
  split at h
  · obtain ⟨x, hx, hy⟩ := Option.map_eq_some_iff.mp h
    cases hy
    exact hx
  · cases h

theorem firstEligible_entry {panels : List (Option Panel)} {now : HillTime} {l : List Nat} {i : Nat} {pn : Panel}
    (h : firstEligible panels now l = some (i, pn)) : entry panels i = some pn := by
  induction l with
  | nil => cases h
  | cons a l ih =>
    simp only [firstEligible] at h
    split at h
    · rename_i hx
      split at h
      · cases h
        exact panelAt_entry hx
      · exact ih h
    · exact ih h

theorem arbiterChoice_kept (s : State) : BoardKept s (arbiterChoice s) := by
  unfold arbiterChoice
  split
  · split
    · rename_i h
      exact startFrame_kept s _ _ (firstEligible_entry h)
    · exact BoardKept.refl s
  · exact BoardKept.refl s
  · exact BoardKept.refl s

/-- Bringing the board up to date keeps the board. -/
theorem boardSync_kept (m : Bool) (old new : State) : BoardKept new (boardSync m old new) := by
  unfold boardSync
  simp only
  split
  · exact (markChanged_kept old new).trans (arbiterChoice_kept _)
  · exact markChanged_kept old new

/-! From a block's work to the outcome of its row -/

theorem Becomes.boardSync {w u : State} (m : Bool) (old : State) (h : Becomes w u) :
    Becomes (boardSync m old w) u := by
  obtain ⟨h1, h2⟩ := h
  refine ⟨?_, h2.trans (boardSync_kept m old w)⟩
  obtain ⟨x, hx⟩ := boardSync_eq m old w
  rw [hx]
  exact congrArg (fun y => State.setBoard y x) h1

theorem Posts.boardSync {s w : State} {ns : List Notice} (m : Bool) (old : State) (h : Posts s w ns) :
    Posts s (boardSync m old w) ns := fun l => by rw [boardSync_link]; exact h l

theorem Becomes.place {w u : State} (l : LinkId) (p : Place) (h : Becomes w u) : Becomes (w.place l p) u := by
  obtain ⟨h1, h2⟩ := h
  refine ⟨?_, h2.trans ⟨by simp, by simp, by simp, by simp⟩⟩
  cases l
  · exact congrArg (fun y => State.setControl y (w.place .control p).control) h1
  · exact congrArg (fun y => State.setConsole y (w.place .console p).console) h1

theorem Answers.of_posts {s w : State} {ns : List Notice} (l : LinkId) (r : Reply) (h : Posts s w ns) :
    Answers s (w.place l (.answered r)) ns l r := by
  refine ⟨?_, fun m hm => ?_⟩
  · rw [← h l]
    cases l <;> rfl
  · rw [← h m]
    cases l <;> cases m <;> first | rfl | exact absurd rfl hm

/-- A taken request whose block's work becomes `u` and posts `ns`. -/
theorem takenRequest_becomes {s : State} {l : LinkId} (h : s.takes l) (now : HillTime) (tag : Byte) {r : Request}
    (hp : r.permitted l = true) {u : State} {ns : List Notice} {code : ResultCode} {body : List Field}
    (hc : (serve (s.setClock now) l r).code = code) (hb : (serve (s.setClock now) l r).body = body)
    (hw : Becomes (serve (s.setClock now) l r).state u) (hn : Posts s (serve (s.setClock now) l r).state ns) :
    ∃ t, takenRequest now l tag r s = .next t ∧ Becomes t u ∧
      Answers s t ns l { type := r.code + 0x80#8, tag := tag, code := code, body := body } := by
  rw [takenRequest_of_takes h now tag hp, hc, hb]
  exact ⟨_, rfl, (hw.boardSync _ _).place _ _, Answers.of_posts l _ (hn.boardSync _ _)⟩

/-- A taken request that its block refuses, or that leaves the board and its texts as they are. -/
theorem takenRequest_answers {s : State} {l : LinkId} (h : s.takes l) (now : HillTime) (tag : Byte) {r : Request}
    (hp : r.permitted l = true) {u : State} {code : ResultCode} {body : List Field}
    (hs : serve (s.setClock now) l r = { state := u.setClock now, code := code, body := body })
    (hq : boardSync (requestMarks (s.setClock now) r (serve (s.setClock now) l r)) (s.setClock now) (u.setClock now) =
      u.setClock now) :
    takenRequest now l tag r s = u.answering now l (r.code + 0x80#8) tag code body := by
  rw [takenRequest_of_takes h now tag hp]
  rw [hs] at hq ⊢
  simp only [hq, State.answering]

/-- An event of a block that becomes `u` and posts `ns`. -/
theorem taken_becomes {s : State} (h : s.held = false) (now : HillTime) {f : State → State} {u : State}
    {ns : List Notice} (hw : Becomes (f (s.setClock now)) u) (hn : Posts s (f (s.setClock now)) ns) :
    ∃ t, taken now s (withBoard f) = .next t ∧ Becomes t u ∧ Posts s t ns := by
  rw [taken_of_not_held h]
  exact ⟨_, rfl, hw.boardSync _ _, hn.boardSync _ _⟩

end Sys2Proof.Machine
end

