-- ==== Sys2Proof/Tests/Slice0.lean ====
section
/-! SUPPORT. Tests: terms WellFormed refuses, the spec's worked cases, bodies and frames written out from chapter 10, and
for each obligation with hypotheses a state and operands that meet them. -/

namespace Sys2Proof.Tests

open Sys2Proof.Machine

/-! WellFormed refuses a field wider than its frame gives it, one check each (R186, R187) -/

def hillF : HillFields :=
  { kPoint := 400, hillSize := 470, basePoints := 1200, metreValue := 120, gateFactor := 420, headFactor := 1440,
    tailFactor := 1742, threshold := 456, lowest := 4, highest := 30, mode := 0, fixedGate := 0 }
def timsF : TimsFields := timingAtReset
def stnF : StnFields := { address := 62, sector := 6, axis := 359, member := true, enabled := true }
def scanF : ScanFields := { period := 100, silent := 1, clear := 15, entries := [1] }
def corrF : CorrFields := { lower := -500, upper := 500, lengthMs := 500, declare := 1, clear := 15 }
def unitF : UnitFields := { address := 31, firstMark := 216, orientation := 1 }
def panlF : PanlFields := { address := 15, rows := 4, columns := 32, rights := 2, enabled := 0, period := 60 }
def fldF : FldFields :=
  { panel := 1, row := 1, column := 1, width := 8, align := 0, fill := 0x2D, item := 8, view := 2 }

theorem test_wf_refuses_hill : (Instr.hill 0 .control 0 { hillF with kPoint := 65536 }).wellFormed = false := by decide
theorem test_wf_refuses_hill_gate : (Instr.hill 0 .control 0 { hillF with lowest := 256 }).wellFormed = false := by
  decide
theorem test_wf_refuses_sect : (Instr.sect 0 .control 0 0 []).wellFormed = false := by decide
theorem test_wf_refuses_stn : (Instr.stnConfigure 0 .control 0 256 stnF).wellFormed = false := by decide
theorem test_wf_refuses_scan : (Instr.scanReplace 0 .control 0 { scanF with entries := [256] }).wellFormed = false := by
  decide
theorem test_wf_refuses_corr : (Instr.corr 0 .control 0 { corrF with lower := -32769 }).wellFormed = false := by decide
theorem test_wf_refuses_tims : (Instr.tims 0 .control 0 { timsF with spread := 256 }).wellFormed = false := by decide
theorem test_wf_refuses_unit : (Instr.unitRemove 0 .control 0 256 unitF).wellFormed = false := by decide
theorem test_wf_refuses_word : (Instr.base 0 .control 0 65536).wellFormed = false := by decide
theorem test_wf_refuses_panl : (Instr.panlUpdate 0 .control 0 1 { panlF with rows := 256 }).wellFormed = false := by
  decide
theorem test_wf_refuses_fld : (Instr.fldSet 0 .control 0 1 { fldF with fill := 256 }).wellFormed = false := by decide
theorem test_wf_refuses_list : (Instr.list 0 .control 0 false (List.replicate 124 1)).wellFormed = false := by decide +kernel
theorem test_wf_refuses_sentinel : (Instr.call 0 .control 0 (some 65535)).wellFormed = false := by decide
theorem test_wf_refuses_page : (Instr.page 0 .control 0 1 1 1 (List.replicate 245 0#8)).wellFormed = false := by decide +kernel
theorem test_wf_refuses_station_answer : (Instr.stationAnswer 799 ⟨800, [0x5A#8]⟩).wellFormed = false := by decide
theorem test_wf_refuses_strip_answer : (Instr.stripAnswer 0 ⟨0, List.replicate 19 0#8⟩).wellFormed = false := by decide
theorem test_wf_refuses_acknowledgement : (Instr.acknowledgement 0 ⟨0, []⟩).wellFormed = false := by decide
theorem test_wf_takes_out_of_range : (Instr.gate 0 .console 0 255).wellFormed = true := by decide

/-! Chapter 10 -/

/-- The register of R186 over "123456789": 0x29B1, as chapter 10 gives it. -/
theorem test_crc : crc16 [0x31#8, 0x32#8, 0x33#8, 0x34#8, 0x35#8, 0x36#8, 0x37#8, 0x38#8, 0x39#8] = 0x29B1#16 := by
  decide +kernel

/-- STAT with tag 9: lead, length 2, type 0x1F, tag, and the check over the three bytes (section 10, worked case). -/
theorem test_stat_frame :
    linkFrameBytes 0x1F#8 9#8 [] = [0xA5#8, 2#8, 0x1F#8, 9#8] ++ checkBytes [2#8, 0x1F#8, 9#8] := by decide +kernel

/-- RELS of jump 0x0102 with OVERRIDE: type 0x11, the word low byte first, the mark 1. -/
theorem test_rels_body : judge 0x11#8 [2#8, 1#8, 1#8] = .request (.rels 0x0102 true) := by decide

/-- CONF with a distance field of all ones is AS_PROPOSED. -/
theorem test_conf_body : judge 0x17#8 [5#8, 0#8, 0xFF#8, 0xFF#8] = .request (.conf 5 none) := by decide

/-- A CORR limit of -150 is sent as 32 618. -/
theorem test_corr_body :
    judge 0x05#8 [0x6A#8, 0x7F#8, 0xFA#8, 0x80#8, 0xD0#8, 7#8, 2#8, 3#8] =
      .request (.corr { lower := -150, upper := 250, lengthMs := 2000, declare := 2, clear := 3 }) := by decide

/-- A body one byte short fails check 2; a reply's code fails check 1. -/
theorem test_bad_length : judge 0x12#8 [1#8] = .badLength := by decide
theorem test_unknown_type : judge 0x81#8 [] = .unknownType := by decide

/-! The worked cases of chapters 4 to 8 -/

theorem test_tangential :
    tangentialOf 171 210 180 = 148 ∧ tangentialOf 203 217 180 = 162 ∧ tangentialOf 240 10 180 = -236 ∧
    tangentialOf 171 240 180 = 86 ∧ tangentialOf 171 300 180 = -86 ∧ tangentialOf 5000 180 180 = 5000 := by decide

theorem test_speed :
    speedOf 8000 29630 = some 972 ∧ speedOf 8000 30720 = some 938 ∧ speedOf 8000 75000 = none ∧
    speedOf 8000 19000 = none := by decide

/-- The window means of the worked run of chapter 5: 265 from 4232 over 16, none from one sample. -/
theorem test_window_mean :
    windowMean 1890 14 = some 135 ∧ windowMean 4232 16 = some 265 ∧ windowMean 240 1 = none := by decide

def scoringF (ref : Nat) : Scoring :=
  { hill := some (hillRecordOf hillF), refGate := some ref,
    sectors := [⟨0, 20⟩, ⟨60, 30⟩, ⟨120, 30⟩, ⟨180, 20⟩, ⟨235, 10⟩] }

def recF (state : RecState) : Record := { newRecord 1 17 0#32 with state := state }

def jumpOf (means : List Int) (jury used : Nat) : Record :=
  { recF .awaiting with
    juryGate := some jury, usedGate := some used
    summaries := (means.zip (List.range 5)).map (fun e => { sector := e.2 + 1, mean := e.1, stations := 1 }) }

/-- The headwind jump 63 at 463 and at 475. -/
theorem test_headwind :
    computeResults (scoringF 12) (jumpOf [95, 150, 140, 155, 160] 10 10) 463 =
      { jumpWind := some 137, windComp := some (-197), distPoints := some 1578, gateComp := some 101,
        total := some 1482 } ∧
    computeResults (scoringF 12) (jumpOf [95, 150, 140, 155, 160] 10 10) 475 =
      { jumpWind := some 139, windComp := some (-200), distPoints := some 1650, gateComp := some 101,
        total := some 1551 } := by decide

/-- The tailwind jump 71 at 371, 150 and 0. -/
theorem test_tailwind :
    computeResults (scoringF 12) (jumpOf [-40, -85, -120, -133] 13 13) 371 =
      { jumpWind := some (-96), windComp := some 167, distPoints := some 1026, gateComp := some (-50),
        total := some 1143 } ∧
    computeResults (scoringF 12) (jumpOf [-40, -85, -120, -133] 13 13) 150 =
      { jumpWind := some (-67), windComp := some 117, distPoints := some 0, gateComp := some (-50), total := some 67 } ∧
    computeResults (scoringF 12) (jumpOf [-40, -85, -120, -133] 13 13) 0 =
      { jumpWind := none, windComp := some 0, distPoints := some 0, gateComp := some (-50), total := some 0 } := by
  decide

/-- The reduction of jump 80 below and above the threshold of 456. -/
theorem test_reduction :
    (computeResults (scoringF 14)
      { jumpOf [110, 125, 130, 118] 14 12 with flags := { reduction := true } } 450).total = some 1324 ∧
    (computeResults (scoringF 14)
      { jumpOf [110, 125, 130, 118] 14 12 with flags := { reduction := true } } 460).total = some 1485 := by decide

/-- The sector mean of 143 and 137 from their sums, and a station with one sample left out (section 7.1). -/
theorem test_summaries :
    sectorSummaries (scoringF 12).sectors
      [some { address := 4, sector := 3, axis := 0, member := true, enabled := true, state := .active, miss := 0,
              good := 0, latest := none, flags := {} },
       some { address := 5, sector := 3, axis := 0, member := true, enabled := true, state := .active, miss := 0,
              good := 0, latest := none, flags := {} },
       some { address := 9, sector := 5, axis := 0, member := true, enabled := true, state := .silent, miss := 0,
              good := 0, latest := none, flags := {} }]
      { Context.empty .closed with sums := [(1716, 12), (1781, 13), (171, 1)] } =
      [{ sector := 3, mean := 140, stations := 2 }] := by decide

/-- A descending unit with first mark 168: local mark 19 is global mark 172 (section 6.5). -/
theorem test_global_mark :
    globalMark { address := 8, firstMark := 168, orientation := .descending, state := .online, miss := 0, good := 0 } 19 =
      172 := by decide

/-- The landing of jump 63: marks 165, 167 and 163 counted of four kept, landing time 4822 ms. -/
theorem test_landing :
    let kept : List Contact :=
      [⟨165, 482600#32, 483000#32⟩, ⟨167, 482700#32, 483000#32⟩, ⟨163, 482200#32, 488000#32⟩,
       ⟨172, 490000#32, 493500#32⟩]
    landingTimeOf ⟨165, 482600#32, 483000#32⟩ kept = 482200#32 ∧
    (countedOf kept 482200#32 (msTicks 60)).map (fun c => c.mark) = [165, 167, 163] := by decide

def distF (width : Nat) : FieldDesc :=
  { panel := 1, row := 1, column := 1, width := width, align := .right, fill := 0x2D#8, item := .distance,
    view := .flight }

/-- DISTANCE at proposal 463 is "231.5" in five cells and stars in four; an absent TOTAL shows the fill (section 8.4). -/
theorem test_rendering :
    placeText (distF 5) (recordText { recF .awaiting with proposed := some 463 } .distance) =
      [0x32#8, 0x33#8, 0x31#8, 0x2E#8, 0x35#8] ∧
    placeText (distF 4) (recordText { recF .awaiting with proposed := some 436 } .distance) =
      [0x2A#8, 0x2A#8, 0x2A#8, 0x2A#8] ∧
    placeText (distF 5) (recordText (recF .awaiting) .total) = [0x2D#8, 0x2D#8, 0x2D#8, 0x2D#8, 0x2D#8] := by decide

/-- A CORRIDOR_WIND of -236 is "-2.36" (R156). -/
theorem test_signed_text : signedText hundredthsText (-236) = [0x2D#8, 0x32#8, 0x2E#8, 0x33#8, 0x36#8] := by decide

def panelF : Panel :=
  { address := 15, rows := 2, columns := 16, rights := .both, enabled := true, state := .online, miss := 0, ack := 0,
    probeDue := none, page := List.replicate 32 0x20#8, marks := List.replicate 2 { dirty := false, inFlight := false } }

/-- Ten characters from row 1, column 13 of a panel of 2 by 16 all fit, the next cell row 2, column 7; from row 2, column 13
only four do (section 8.2). -/
theorem test_page_reply :
    pageBody panelF (cellPos panelF 1 13) (storedChars panelF (cellPos panelF 1 13) (List.replicate 10 0x41#8)).length =
      [byteField 10, byteField 2, byteField 7] ∧
    pageBody panelF (cellPos panelF 2 13) (storedChars panelF (cellPos panelF 2 13) (List.replicate 10 0x41#8)).length =
      [byteField 4, .u8 none, .u8 none] := by decide

/-! States and operands that meet the hypotheses of the obligations, clause by clause -/

/-- A part in ROUND with the records in the first slots of its table. -/
def inRound (rs : List Record) : State :=
  State.reset.setRound { Round.atReset with
    part := .round, table := rs.map some ++ List.replicate (8 - rs.length) none, counter := 65534, startList := [3, 999] }

/-- A part in READY, no record in its table. -/
def inReady : State := State.reset.setRound { Round.atReset with part := .ready }

/-- The state with the countdown as given. -/
def counting (c : Countdown) (s : State) : State := s.setStart { s.start with countdown := c }

/-- The state with the corridor IN. -/
def corridorIn (s : State) : State := s.setCorridor { s.corridor with status := .inside }

/-- The state with its Control Link changed. -/
def onControl (f : Link → Link) (s : State) : State := s.setControl (f s.control)

def reply0 : Reply := { type := 0x9F#8, tag := 0#8, code := .ok, body := [] }
def initReply : Reply := { type := 0x90#8, tag := 0#8, code := .ok, body := [] }
def frame0 : LinkFrame := { type := 0x1F#8, tag := 0#8, body := [] }

/-- Nothing is configured in a table of empty entries. -/
theorem entry_empty {α : Type} (n k : Nat) : entry (List.replicate n (none : Option α)) k = none := by
  unfold entry
  split
  · rfl
  · cases h : (List.replicate n (none : Option α))[k - 1]? with
    | none => rfl
    | some x => rw [List.eq_of_mem_replicate (List.mem_of_getElem? h)]; rfl

theorem witness_StepTakesFrontCommand :
    (State.reset.setPending [.initReset 0]).pending = .initReset 0 :: [] ∧ State.reset.pending = [] := ⟨rfl, rfl⟩

theorem witness_HeldPartTakesOnlyResets :
    State.reset.hold0.held = true ∧ (∀ lv, Instr.stat 0 .control 0 ≠ .powerOnReset lv) ∧
    (∀ lv, Instr.stat 0 .control 0 ≠ .resetPin lv) ∧ Instr.stat 0 .control 0 ≠ .resetHold := by
  refine ⟨rfl, ?_, ?_, ?_⟩ <;> simp

theorem witness_ResetsLeaveResetValues :
    (State.reset.setInitPhase .due).held = false ∧ (State.reset.setInitPhase .due).initPhase = .due := by decide

theorem witness_RequestBodiesRoundTrip :
    (Request.call (some 65534)).fits = true ∧ (Request.gate 255).fits = true ∧
    (Request.corr { corrF with lower := -32768, upper := 32767, lengthMs := 65535 }).fits = true ∧
    (Request.list true (List.replicate 123 65535)).fits = true ∧
    (Request.page 255 255 255 (List.replicate 244 0xFF#8)).fits = true := by decide +kernel

theorem witness_GoodFrameArrives :
    State.reset.held = false ∧ (State.reset.link .console).receiver = .hunting ∧ (List.replicate 248 0#8).length ≤ 248 := by
  decide +kernel

theorem witness_RequestRowsAreTheirFrames :
    (requestOf (.gate 0 .console 0 255) = some (0, .console, 0, .gate 255) ∧ (Request.gate 255).fits = true) ∧
    isRequestType 0x00#8 = false ∧ isRequestType 0x20#8 = false := by decide

theorem witness_ChecksBeforeDispatch :
    (State.reset.takes .control ∧ isRequestType 0x20#8 = false) ∧ judge 0x12#8 [1#8] = .badLength ∧
    (requestOf (.hold 0 .control 0 1) = some (0, .control, 0, .hold 1) ∧ (Request.hold 1).permitted .control = false) ∧
    (Request.openRound).permitted .console = false := by decide

theorem witness_BusyWhenPlacesHeld :
    4 ≤ ((onControl (fun x => { x with queue := List.replicate 4 (.waiting frame0) }) State.reset).link .control).queue.length
      := by decide

theorem witness_InitStopsTheTaking :
    State.reset.takes .control ∧ (State.reset.setInitPhase .waiting).initPhase ≠ .none ∧
    (State.reset.setInitPhase .due).initPhase ≠ .none := by decide

theorem witness_LinkBytesCollectAFrame :
    laterThan 5001#32 (0#32 + 5000#32) = true ∧ laterThan 5000#32 (0#32 + 5000#32) = false ∧
    reached 5000#32 (0#32 + 5000#32) = true ∧
    ((onControl (fun x => { x with receiver := .collecting [] 0#32 }) State.reset).link .control).receiver =
      .collecting [] 0#32 ∧ (0 + 1 < (2#8).toNat + 2) ∧ (2#8).toNat = ([] : List Byte).length + 2 ∧
    (250#8).toNat = (List.replicate 248 0#8).length + 2 := by decide +kernel

theorem witness_FrameSentBeginsTheNext :
    Link.idle.sending = none ∧ State.reset.initPhase = .none ∧
    (State.reset.link .control).sending = some (.notice (.pwrup .power 0#32)) ∧
    ¬(reply0.type = 0x90#8 ∧ reply0.code = .ok) ∧
    ((onControl (fun x => { x with sending := some (.reply initReply) }) State.reset).setInitPhase
      .waiting).control.sending = some (.reply initReply) ∧
    ((State.reset.setInitPhase .waiting).initPhase ≠ .due ∧
      (State.reset.setInitPhase .waiting).control.sending = some (.notice (.pwrup .power 0#32))) ∧
    ((onControl (fun x => { x with sending := none }) State.reset).setInitPhase .due).initPhase = .due := by decide

theorem witness_NoticesArePostedOrLost :
    32 ≤ ((onControl (fun x => { x with notices := List.replicate 32 (.pwrup .pin 0#32) }) State.reset).link
      .control).notices.length ∧
    ((onControl (fun x => { x with notices := List.replicate 31 (.pwrup .pin 0#32) }) State.reset).link
      .control).notices.length < 32 := by decide

theorem witness_StatReportsAndClearsItsFlag : State.reset.takes .control ∧ State.reset.takes .console := by decide

theorem witness_EveryStepKeepsLinksSound : LinksSound State.reset ∧ step State.reset = .next State.reset := by
  refine ⟨⟨?_, ?_, ?_, ?_⟩, rfl⟩ <;>
    simp [Link.Sound, Link.Rested, State.reset, Link.atReset, Link.idle]

theorem witness_EveryStepKeepsTablesSized :
    TablesSized State.reset ∧ PanelsSized State.reset ∧ step State.reset = .next State.reset ∧
    State.reset.board.countdownShown.length = 48 ∧
    JumpsNumbered ((inRound [recF .published, { recF .called with jump := 2 }]).setRound
      { (inRound [recF .published, { recF .called with jump := 2 }]).round with counter := 3 }) := by
  refine ⟨?_, ?_, rfl, by decide, by decide, by decide, by decide, by decide⟩
  · refine ⟨by decide, by decide, by decide, by decide, by decide, ?_, by decide, ?_, by decide, by decide⟩
    · intro c; cases c <;> decide
    · intro w h; cases h
  · intro p h
    simp [State.reset, Board.atReset] at h

def traced : State := inRound [{ recF .inrun with context := some .a }]

def paneled : State :=
  State.reset.setBoard { State.reset.board with panels := some panelF :: List.replicate 7 none }

theorem witness_QueriesChangeNothing :
    traced.takes .console ∧
    (traced.round.records.find? (fun x => x.jump == 1) = some { recF .inrun with context := some .a }) ∧
    (paneled.takes .control ∧ entry paneled.board.panels 1 = some panelF ∧ 2 ≤ panelF.rows ∧ 16 ≤ panelF.columns) ∧
    (∀ r ∈ State.reset.round.records, r.jump ≠ 1) ∧ (recF .called).context = none ∧
    entry State.reset.board.panels 8 = none ∧ [0x41#8] ≠ [] := by decide

theorem witness_RefusedRequestsChangeNothing :
    ∃ t a, exec (.shutRound 0 .control 0) State.reset = .next t ∧
      (t.link .control).queue = (State.reset.link .control).queue ++ [.answered a] ∧ a.code ≠ .ok :=
  ⟨_, { type := 0x8D#8, tag := 0#8, code := .wrongState, body := [] }, rfl, by decide +kernel, by decide⟩

theorem witness_OpenStartsARound :
    (inReady.takes .control ∧ inReady.round.part = .ready) ∧ State.reset.round.part ≠ .ready ∧
    (inRound []).round.part ≠ .ready := by decide

/-- A round whose CONFIRMED record waits for the one before it, both contexts bound. -/
def waitingRound (first : RecState) : State :=
  let s := inRound [{ recF first with context := some .a }, { recF .confirmed with jump := 2, context := some .b }]
  s.setRound { s.round with bindA := some 1, bindB := some 2 }

theorem witness_ShutClosesTheRound :
    ((waitingRound .review).takes .control ∧ (waitingRound .review).round.part = .round ∧
      (∀ r ∈ (waitingRound .review).round.records, r.state.onHill = false) ∧
      ((waitingRound .review).round.records.map (fun r => r.jump)).Nodup ∧
      (waitingRound .review).round.publishable = none) ∧
    (∃ r ∈ (inRound [recF .airborne]).round.records, r.state.onHill = true) := by decide

/-- A void lets the record that waited for it be published, and both contexts are free (R20, R21). -/
theorem test_void_publishes :
    ((exec (.void 0 .control 0 1 false) (waitingRound .review)) |> fun o => match o with
      | .next t => (t.round.records.map (fun r => r.state), t.round.bindA, t.round.bindB)
      | .fault _ | .refused _ => ([], none, none)) = ([.voided, .published], none, none) := by decide +kernel

theorem witness_ListAndDropEditTheStartList : State.reset.takes .control := by decide

def fullTable : State :=
  State.reset.setRound { Round.atReset with
    part := .round, startList := [3]
    table := (List.range 8).map (fun k => some { recF .published with jump := k + 1 }) }

theorem witness_CallCreatesARecord :
    ((inRound []).takes .console ∧ (inRound []).round.part = .round ∧
      (∀ r ∈ (inRound []).round.records, r.state.atBar = false) ∧ (999 ∈ (inRound []).round.startList) ∧
      (inRound []).round.startList.head? = some 3 ∧ (inRound []).round.counter ≤ 65534 ∧
      (inRound []).round.table[0]? = some none ∧ ∀ k, k < 0 → (inRound []).round.table[k]? ≠ some none) ∧
    (none ∉ fullTable.round.table ∧ (fullTable.round.records.map (fun r => r.jump)).Nodup ∧
      fullTable.round.table[0]? = some (some { recF .published with jump := 1 }) ∧
      ∀ r ∈ fullTable.round.records, r.state.terminal = true → 1 ≤ r.jump) ∧
    (∃ r ∈ (inRound [recF .called]).round.records, r.state.atBar = true) ∧ 7 ∉ (inRound []).round.startList ∧
    State.reset.round.startList = [] ∧
    65534 < ((inRound []).setRound { (inRound []).round with counter := 65535 }).round.counter := by
  refine ⟨⟨by decide, by decide, by decide, by decide, by decide, by decide, by decide, by simp⟩, by decide, by decide,
    by decide, by decide, by decide⟩

theorem witness_VoidEndsARecord :
    ((inRound [recF .inrun]).takes .console ∧ (inRound [recF .inrun]).only 1 (recF .inrun) ∧
      (recF .inrun).state.terminal = false ∧ (inRound [recF .inrun]).round.startList.length < 96) ∧
    ((inRound [recF .voided]).only 1 (recF .voided) ∧ (recF .voided).state.terminal = true) ∧
    96 ≤ ((inRound [recF .called]).setRound { (inRound [recF .called]).round with
      startList := List.replicate 96 5 }).round.startList.length := by decide

theorem witness_PublicationRunsInJumpOrder :
    ((waitingRound .voided).round.records.map (fun r => r.jump)).Nodup ∧
    (waitingRound .voided).round.publishable =
      some { recF .confirmed with jump := 2, context := some .b } := by decide

theorem witness_TimersRunOut :
    (reached 500#32 500#32 = true ∧ reached 499#32 500#32 = false) ∧
    ((inRound [recF .inrun]).setRound { (inRound [recF .inrun]).round with clearance := some 500#32 }).round.clearance =
      some 500#32 ∧
    ((counting (.running 1 500#32) (inRound [recF .released])).only 1 (recF .released) ∧
      (counting (.running 1 500#32) (inRound [recF .released])).start.countdown = .running 1 500#32) ∧
    (((inRound [recF .inrun]).setFlight { State.reset.flight with
        inrunLimit := some { jump := 1, expiry := 500#32 } }).flight.inrunLimit = some { jump := 1, expiry := 500#32 } ∧
      (inRound [recF .inrun]).only 1 (recF .inrun)) := by decide

def stationF : Station :=
  { address := 62, sector := 6, axis := 359, member := true, enabled := true, state := .active, miss := 0, good := 0,
    latest := none, flags := {} }

def stripF : StripUnit :=
  { address := 31, firstMark := 216, orientation := .ascending, state := .online, miss := 0, good := 0 }

/-- A part that meets the READY conditions. -/
def configured : State :=
  { State.reset with
    scoring := scoringF 12
    wind := { State.reset.wind with stations := some stationF :: List.replicate 11 none, scanList := [1] }
    flight := { State.reset.flight with units := some stripF :: List.replicate 9 none } }

theorem witness_ReadyFollowsItsConditions :
    (configured.round.part ≠ .round ∧ configured.scoring.hill ≠ none ∧
      entry configured.wind.stations 1 = some stationF ∧ stationF.enabled = true ∧
      entry configured.flight.units 1 = some stripF ∧
      (∃ sec l, configured.scoring.sectors = sec :: l ∧ sec.start = 0) ∧ configured.flight.stripSlot = none) ∧
    State.reset.scoring.hill = none ∧ (inRound []).round.part = .round := by
  refine ⟨⟨by decide, by decide, by decide, by decide, by decide, ⟨⟨0, 20⟩, _, rfl, rfl⟩, by decide⟩, by decide, by decide⟩

theorem witness_HillReplacesTheRecord :
    State.reset.takes .control ∧ State.reset.round.part ≠ .round ∧ (inRound []).round.part = .round ∧
    [true, false].findIdx? (fun b => !b) = some 1 ∧ [true, true].findIdx? (fun b => !b) = none ∧
    hillFault hillF = none ∧ hillFault { hillF with mode := 1, fixedGate := 31 } = some 12 := by decide

theorem witness_SectReplacesTheTable :
    (State.reset.takes .control ∧ State.reset.round.part ≠ .round ∧ (inRound []).round.part = .round) ∧
    sectFault 6 [(0, 0), (1, 100), (2, 0), (3, 0), (4, 0), (300, 100)] = none ∧
    sectFault 7 [(0, 0), (1, 0), (2, 0), (3, 0), (4, 0), (5, 0)] = some 0 ∧
    sectFault 2 [(0, 0), (301, 0), (2, 0), (3, 0), (4, 0), (5, 0)] = some 2 ∧
    sectFault 2 [(1, 0), (2, 0), (2, 0), (3, 0), (4, 0), (5, 0)] = some 1 ∧
    sectFault 3 [(0, 0), (2, 0), (2, 0), (3, 0), (4, 0), (5, 0)] = some 3 ∧
    sectFault 0 [(9, 0), (2, 0), (2, 0), (3, 0), (4, 0), (5, 0)] = none := by decide

theorem witness_TimsReplacesTheSettings :
    State.reset.takes .control ∧ timsFault timsF = none ∧ timsFault { timsF with spread := 21 } = some 7 := by decide

theorem witness_GateAppliesOrStages :
    State.reset.takes .console ∧ State.reset.gateRange = (1, 1) ∧ configured.gateRange = (4, 30) ∧
    (∀ r ∈ (inRound [recF .called]).round.records, r.state ≠ .released ∧ r.state ≠ .inrun) ∧
    (inRound [recF .inrun]).round.records.find? (fun x => x.state == .released || x.state == .inrun) =
      some (recF .inrun) := by decide

theorem witness_RducWritesTheReductionGate :
    (inRound [recF .called]).takes .console ∧ (inRound [recF .called]).only 1 (recF .called) ∧
    (inRound [recF .released]).only 1 (recF .released) ∧ (∀ r ∈ (inRound []).round.records, r.jump ≠ 1) ∧
    (1 ≤ 1 ∧ 1 < ({ State.reset.start with juryGate := 2 } : StartLight).juryGate) ∧
    State.reset.start.juryGate ≤ 1 := by decide

theorem witness_RelsReleasesOrResumes :
    ((corridorIn (inRound [recF .called])).takes .console ∧ (inRound [recF .called]).only 1 (recF .called) ∧
      (∀ x ∈ (inRound [recF .called]).round.records, x.state.onHill = false) ∧
      (inRound [recF .called]).round.clearance = none ∧ (inRound [recF .called]).round.bindA = none ∧
      (corridorIn (inRound [recF .called])).corridor.status = .inside) ∧
    ((counting (.held 1 5) (inRound [recF .released])).start.countdown = .held 1 5 ∧
      (inRound [recF .released]).only 1 (recF .released)) ∧
    ((inRound [recF .awaiting]).only 1 (recF .awaiting) ∧ (recF .awaiting).state ≠ .called) ∧
    (∃ x ∈ (inRound [{ recF .called with jump := 2 }, recF .inrun]).round.records, x.state.onHill = true) ∧
    State.reset.corridor.status ≠ .inside := by decide

theorem witness_HoldFreezesTheCountdown :
    (counting (.running 1 500#32) (inRound [recF .released])).takes .console ∧
    (counting (.running 1 500#32) (inRound [recF .released])).only 1 (recF .released) ∧
    (inRound [recF .inrun]).only 1 (recF .inrun) ∧ (recF .inrun).state ≠ .released := by decide

theorem witness_CountdownEvents :
    (counting (.running 1 1000500#32) (inRound [recF .released])).held = false ∧
    (counting (.running 1 1000500#32) (inRound [recF .released])).only 1 (recF .released) ∧
    reached 500#32 (1000500#32 - 1000000#32) = true ∧ reached 499#32 (1000500#32 - 1000000#32) = false ∧
    ({ State.reset.start with light := .green, cadence := some (true, 7#32) } : StartLight).cadence =
      some (true, 7#32) ∧ State.reset.start.countdown = .idle ∧
    ({ State.reset.start with light := .greenFlash, cadence := some (false, 7#32) } : StartLight).light = .greenFlash := by
  decide

/-- The state with start-bar debounces begun at the ticks. -/
def opened (edges : List HillTime) (s : State) : State :=
  s.setStart { s.start with barOpen := true, barDebounce := edges }

theorem witness_EdgesBeginAndDropDebounces :
    (State.reset.setStart { State.reset.start with barOpen := false }).start.barOpen = false ∧
    (State.reset.flight.barrier .a).broken = false ∧
    ((opened [9#32, 300#32] State.reset).start.barDebounce = [9#32] ++ [300#32] ∧
      (opened [9#32, 300#32] State.reset).start.barOpen = true ∧
      reached 500#32 (300#32 + 200#32) = true ∧ reached 499#32 (300#32 + 200#32) = false) ∧
    (State.reset.start.barDebounce = [] ∧ State.reset.start.barOpen = true) ∧
    ((State.reset.flight.setBarrier .b { broken := true, debounce := [300#32] }).barrier .b).debounce =
      [] ++ [300#32] ∧ reached 400#32 (300#32 + 100#32) = true ∧ reached 399#32 (300#32 + 100#32) = false := by decide

/-- A closing edge at 1.99 ms drops the debounce, one at 2 ms leaves it to DEPARTURE, and a new opening edge begins
another behind it (R54). -/
theorem test_closing_edge :
    afterEdge true false [300#32] 499#32 200 = [] ∧ afterEdge true false [300#32] 500#32 200 = [300#32] ∧
    afterEdge false true [300#32] 501#32 200 = [300#32, 501#32] ∧
    completed [300#32, 501#32] 502#32 200 = some (300#32, [501#32]) := by decide

theorem witness_DepartureIsTaken :
    (reached 500#32 (300#32 + 200#32) = true ∧ reached 499#32 (300#32 + 200#32) = false ∧
      (opened [300#32] (inRound [recF .released])).start.barDebounce = 300#32 :: []) ∧
    ((opened [300#32] (inRound [recF .released])).round.records.find? (fun x => x.state.atBar) = some (recF .released) ∧
      (opened [300#32] (inRound [recF .released])).only 1 (recF .released)) ∧
    ((opened [300#32] (inRound [recF .called])).round.records.find? (fun x => x.state.atBar) = some (recF .called) ∧
      (opened [300#32] (inRound [recF .called])).only 1 (recF .called)) ∧
    (∀ x ∈ (opened [300#32] (inRound [recF .inrun])).round.records, x.state.atBar = false) ∧
    State.reset.start.barDebounce = [] := by decide

theorem witness_StnEditsTheStationTable :
    (State.reset.takes .control ∧ State.reset.round.part ≠ .round ∧ 62 ≤ stnF.address ∧ 6 ≤ stnF.sector ∧
      359 ≤ stnF.axis) ∧
    (∀ k st, k ≠ 12 → entry State.reset.wind.stations k = some st → st.address ≠ stnF.address) ∧
    (entry configured.wind.stations 1 = some stationF ∧ stationF.state ≠ .disabled) ∧
    (∀ k x, k ≠ 1 → entry (configured.wind.stations) k = some x → x.enabled = false) ∧
    (1 ≠ 12 ∧ stationF.address = stnF.address) := by
  refine ⟨by decide, ?_, by decide, ?_, by decide⟩
  · intro k st _ h
    rw [show State.reset.wind.stations = List.replicate 12 none from rfl, entry_empty] at h
    cases h
  · intro k x hk h
    have e : configured.wind.stations = setEntry (List.replicate 12 none) 1 (some stationF) := rfl
    rw [e, entry_setEntry_of_ne _ _ hk, entry_empty] at h
    cases h

theorem witness_ScanWritesTheScanSettings :
    configured.takes .control ∧ scanSettingsFit { scanF with period := 2000 } = true ∧
    scanEntriesFit configured.wind [1] = true ∧ (1 ≤ [1].length ∧ [1].length ≤ 16) ∧
    scanSettingsFit { scanF with period := 2010 } = false ∧ scanEntriesFit configured.wind [13] = false := by decide

def scanning (sn : Option Snapshot) (scan : Option (List Nat)) (kind : PollKind) : State :=
  configured.setWind { configured.wind with
    snapshot := sn, scan := scan
    slot := some { kind := kind, station := 1, address := 62, ends := 800#32, answered := false, void := false } }

theorem witness_ScanningRuns :
    (configured.held = false ∧ reached 25000#32 configured.wind.nextTick = true ∧
      reached 24999#32 configured.wind.nextTick = false) ∧
    (configured.wind.snapshot = none ∧ configured.wind.scan = none ∧ configured.wind.scanList = [] ++ 1 :: [] ∧
      (∀ k ∈ ([] : List Nat), ∀ x, entry configured.wind.stations k = some x → x.enabled = false)) ∧
    (reached 800#32 800#32 = true ∧ (scanning none none .latch).wind.slot ≠ none ∧
      (scanning (some { latchDue := true, left := [1] }) none .poll).wind.snapshot =
        some { latchDue := true, left := [1] } ∧
      (scanning none (some [1]) .poll).wind.scan = some ([] ++ 1 :: []) ∧
      (scanning none (some [1]) .poll).wind.stopping = false ∧
      (stopPolling (scanning none (some [1]) .poll).wind).stopping = true) ∧
    (stationF.state = .active ∧ 5 ≤ min ({ stationF with miss := 4 }.miss + 1) 15) := by decide

/-- The part becomes UNCONFIGURED in the slot of a scan with two entries left, and READY again before its end: a tick in
that slot is an overrun with two left, and the scan ends with the slot (R72, R73). -/
theorem test_stopped_scan :
    let s0 := scanning none (some [1, 1]) .poll
    let s := s0.setWind (stopPolling { s0.wind with nextTick := 700#32 })
    (match exec (.scanTick 700) (s.setRound { s.round with part := .ready }) with
     | .next t => some (t.wind.scan, t.control.notices ++ (t.control.sending.toList.filterMap
         (fun f => match f with | .notice n => some n | .reply _ | .busy _ => none)))
     | .fault _ | .refused _ => none) =
      some (some [1, 1], s.control.notices ++ (.scov 700 2 s.wind.scanPeriod :: s.control.sending.toList.filterMap
         (fun f => match f with | .notice n => some n | .reply _ | .busy _ => none))) ∧
    ((stationSlotEndEvent (s.setClock 800#32)).wind.scan, (stationSlotEndEvent (s.setClock 800#32)).wind.slot,
      (stationSlotEndEvent (s.setClock 800#32)).wind.stopping) = (none, none, false) := by decide +kernel

/-- A good answer of the station at address 62: 1.00 m/s from 0 degrees, no fault, age 0. -/
def answerBytes : List Byte :=
  [0x5A#8, 0x81#8, 62#8, 100#8, 0#8, 0#8, 0#8, 0#8, 0#8, 0#8] ++ checkBytes [0x81#8, 62#8, 100#8, 0#8, 0#8, 0#8, 0#8, 0#8, 0#8]

theorem test_station_answer :
    stationAnswerOf answerBytes =
      some { address := 62, speed := 100, direction := 0, sensorFault := false, age := 0 } ∧
    stationAnswerOf (answerBytes.drop 1) = none := by decide +kernel

/-- The polled slot made void. -/
def stnVoided : State :=
  (scanning none none .poll).setWind { (scanning none none .poll).wind with
    slot := some { kind := .poll, station := 1, address := 62, ends := 800#32, answered := false, void := true } }

/-- A frame begun in the slot before is no answer of this one; begun in this one it is (R74). -/
theorem test_straddling_answer :
    ((stationAnswerEvent ((scanning none none .poll).setClock 9#32) ⟨4294967295#32, answerBytes⟩).wind.slot.map
      (fun sl => sl.answered)) = some false ∧
    ((stationAnswerEvent ((scanning none none .poll).setClock 9#32) ⟨0#32, answerBytes⟩).wind.slot.map
      (fun sl => sl.answered)) = some true := by decide +kernel

theorem witness_StationAnswerIsJudged :
    ((scanning none none .poll).held = false ∧ (scanning none none .poll).wind.slot =
        some { kind := .poll, station := 1, address := 62, ends := 800#32, answered := false, void := false } ∧
      laterThan 800#32 800#32 = false ∧ reached 0#32 (800#32 - 800#32) = true ∧
      entry (scanning none none .poll).wind.stations 1 = some stationF) ∧
    reached 4294967295#32 (800#32 - 800#32) = false ∧
    (∃ sl, (stnVoided).wind.slot = some sl ∧ sl.void = true ∧ sl.answered = false) ∧
    laterThan 801#32 800#32 = true ∧ State.reset.wind.slot = none ∧
    ({ stationF with state := .silent, good := 1 } : Station).state = .silent ∧ 2 ≤ min (1 + 1) 15 ∧
    ({ stationF with state := .fault } : Station).state = .fault := by decide

theorem witness_GoodAnswerIsUsed :
    (entry (scanning none none .poll).wind.stations 1 = some stationF ∧ stationF.state = .active ∧
      (stationAnswerOf answerBytes).isSome = true) ∧
    (State.reset.round.binding .a = none ∧
      (State.reset.setRound { Round.atReset with bindB := some 1 }).round.binding .b = some 1 ∧
      (State.reset.wind.ctx .b).mark = .closed ∧ (Context.empty .waiting).mark ≠ .closed ∧
      (Context.empty .waiting).trace.length < 512 ∧
      (false = true ↔ (Context.empty .waiting).mark = .opened ∧ (Context.empty .waiting).start ≠ none)) ∧
    (State.reset.corridor.window = .current 0#32 200000#32 0 0 ∧ reached 200000#32 200000#32 = true ∧
      reached 199999#32 200000#32 = false ∧ reached 0#32 0#32 = true ∧ reached 4294967295#32 0#32 = false ∧
      State.reset.initReset.corridor.window = .opensAt 200000#32) := by decide +kernel

def windowed (sum : Int) (count : Nat) (s : State) : State :=
  s.setCorridor { s.corridor with window := .current 0#32 200000#32 sum count }

theorem witness_WindowEndJudgesTheWindow :
    ((windowed 500 2 State.reset).corridor.window = .current 0#32 200000#32 500 2 ∧
      reached 200000#32 200000#32 = true ∧ reached 199999#32 200000#32 = false ∧ windowMean 500 2 = some 250 ∧
      State.reset.corridor.insideLimits 250 = true ∧ State.reset.corridor.insideLimits 251 = false ∧
      State.reset.corridor.insideLimits (-150) = true) ∧
    ((corridorIn (counting (.running 1 500#32) (inRound [recF .released]))).corridor.status = .inside ∧
      (inRound [recF .released]).round.records.find? (fun x => x.state == .released) = some (recF .released) ∧
      (recF .released).flags.override = false) ∧
    (State.reset.initReset.corridor.window = .opensAt 200000#32) := by decide

theorem witness_CorrRestartsTheWindows :
    State.reset.takes .control ∧ corrFault corrF = none ∧ corrFault { corrF with clear := 16 } = some 5 ∧
    (0#32).toNat % 50000 = 0 ∧ State.reset.corridor.lastEnd ≠ some 0#32 ∧
    (200000#32).toNat % 50000 = 0 ∧ State.reset.corridor.window = .current 0#32 200000#32 0 0 ∧
    State.reset.corridor.window ≠ .opensAt 0#32 := by decide

/-- The state with a debounce begun at tick 300 on every barrier, the trap set for jump 1. -/
def trapped (s : State) : State :=
  s.setFlight { s.flight with
    barrierA := { broken := true, debounce := [300#32] }, barrierB := { broken := true, debounce := [300#32] }
    barrierT := { broken := true, debounce := [300#32] }, trapJump := some 1, trapTime := some 200#32 }

theorem witness_SpeedTrapMeasures :
    (reached 400#32 (300#32 + 100#32) = true ∧ reached 399#32 (300#32 + 100#32) = false ∧
      (trapped (inRound [recF .inrun])).flight.barrierA.debounce = 300#32 :: [] ∧
      (trapped (inRound [recF .inrun])).round.records.find? (fun x => x.state == .inrun) = some (recF .inrun) ∧
      (trapped (inRound [recF .inrun])).only 1 (recF .inrun) ∧
      (trapped (inRound [recF .inrun])).flight.trapTime = some 200#32 ∧
      (trapped (inRound [recF .inrun])).flight.trapDone = false) ∧
    (∀ r ∈ (trapped (inRound [])).round.records, r.state ≠ .inrun) ∧ State.reset.takes .control := by decide

theorem witness_TakeoffMakesAirborne :
    (trapped (inRound [recF .inrun])).flight.barrierT.debounce = 300#32 :: [] ∧
    (trapped (inRound [recF .inrun])).only 1 (recF .inrun) ∧ (recF .inrun).speed = none ∧
    (∀ r ∈ (trapped (inRound [recF .airborne])).round.records, r.state ≠ .inrun) ∧
    State.reset.flight.barrierT.debounce = [] := by decide

def landingWatch : Watch :=
  { jump := 1, proposalAt := 30500#32, kept := [⟨167, 460#32, 500#32⟩, ⟨163, 400#32, 500#32⟩] }

def landed : State :=
  (inRound [recF .airborne]).setFlight { State.reset.flight with
    watch := some landingWatch, landingLimit := some { jump := 1, expiry := 500#32 } }

theorem witness_FlightEndsInAwaiting :
    (landed.flight.landingLimit = some { jump := 1, expiry := 500#32 } ∧ landed.only 1 (recF .airborne)) ∧
    (landed.flight.watch = some landingWatch ∧ (∃ c ∈ landingWatch.kept, c.time = 400#32) ∧
      (∀ c ∈ landingWatch.kept, (c.time - 400#32).toNat < 2147483648) ∧
      landingWatch.kept.filter (fun c => decide ((c.time - 400#32).toNat ≤ 100 * landed.start.timing.pairing)) =
        landingWatch.kept ∧ (∃ c ∈ landingWatch.kept, c.mark = 163) ∧ (∀ c ∈ landingWatch.kept, 163 ≤ c.mark) ∧
      (∃ c ∈ landingWatch.kept, c.mark = 167) ∧ (∀ c ∈ landingWatch.kept, c.mark ≤ 167)) ∧
    (reached 30500#32 30500#32 = true ∧ reached 30499#32 30500#32 = false) := by decide

def stripPolling : State :=
  (inRound [{ recF .airborne with takeoffTime := some 100#32 }]).setFlight { configured.flight with
    stripSlot := some { unit := 1, address := 31, ends := 500#32, answered := false, void := false } }

/-- An answer of the unit at address 31 with one contact, local mark 23, age 5. -/
def stripBytes : List Byte :=
  [0x5A#8, 0x82#8, 31#8, 1#8, 23#8, 5#8, 0#8] ++ checkBytes [0x82#8, 31#8, 1#8, 23#8, 5#8, 0#8]

theorem test_strip_answer :
    stripAnswerOf stripBytes = some { address := 31, entries := [{ localMark := 23, age := 5 }] } ∧
    stripAnswerOf (stripBytes.drop 1) = none := by decide +kernel

theorem witness_StripAnswersAreJudged :
    (stripPolling.held = false ∧ stripPolling.flight.stripSlot =
        some { unit := 1, address := 31, ends := 500#32, answered := false, void := false } ∧
      entry stripPolling.flight.units 1 = some stripF ∧ laterThan 500#32 500#32 = false ∧
      reached 0#32 (500#32 - 500#32) = true) ∧ reached 4294967295#32 (500#32 - 500#32) = false ∧
    ((voidStripSlot stripPolling.flight 1).stripSlot.map (fun sl => sl.void)) = some true ∧
    (∀ k, entry State.reset.flight.units k = none) ∧
    laterThan 501#32 500#32 = true ∧ State.reset.flight.stripSlot = none ∧ reached 500#32 500#32 = true ∧
    (stripPolling.flight.lastPolled = none ∧ stripPolling.round.part ≠ .unconfigured) ∧
    6 ≤ min ({ stripF with miss := 5 }.miss + 1) 15 ∧ 2 ≤ min ({ stripF with good := 1 }.good + 1) 15 ∧
    (stripPolling.round.records.find? (fun x => x.state == .airborne) =
        some { recF .airborne with takeoffTime := some 100#32 } ∧ reached 100#32 100#32 = true ∧
      reached 99#32 100#32 = false ∧ stripPolling.flight.watch = none) ∧
    (∀ r ∈ (inRound []).round.records, r.state ≠ .airborne) := by
  refine ⟨by decide, by decide, by decide, ?_, by decide⟩
  intro k
  rw [show State.reset.flight.units = List.replicate 10 none from rfl, entry_empty]

theorem witness_UnitAndBaseEditTheStrip :
    (State.reset.takes .control ∧ State.reset.round.part ≠ .round ∧ unitF.orientation = 1 ∧ 31 ≤ unitF.address ∧
      216 ≤ unitF.firstMark) ∧
    (∀ k x, k ≠ 10 → entry State.reset.flight.units k = some x → x.address ≠ unitF.address) ∧
    (∀ k x, k ≠ 10 → entry State.reset.flight.units k = some x →
      x.firstMark + 23 < unitF.firstMark ∨ unitF.firstMark + 23 < x.firstMark) ∧
    (entry configured.flight.units 1 = some stripF ∧ stripF.address = unitF.address) ∧
    (192 ≤ stripF.firstMark ∧ stripF.firstMark ≤ 193 + 23) := by
  refine ⟨by decide, ?_, ?_, by decide, by decide⟩ <;>
    (intro k x _ h
     rw [show State.reset.flight.units = List.replicate 10 none from rfl, entry_empty] at h
     cases h)

theorem witness_ResultsAreComputed :
    (scoringF 12).hill = some (hillRecordOf hillF) ∧ (scoringF 12).refGate = some 12 ∧
    ({ scoringF 12 with refGate := none } : Scoring).refGate = none := by decide

theorem witness_ConfConfirmsARecord :
    ((inRound [recF .review]).takes .control ∧ (inRound [recF .review]).only 1 (recF .review)) ∧
    (inRound [{ recF .awaiting with proposed := some 600 }]).only 1 { recF .awaiting with proposed := some 600 } ∧
    ((recF .called).state ≠ .awaiting ∧ (recF .called).state ≠ .review ∧ (recF .called).state ≠ .confirmed) ∧
    (recF .review).proposed = none := by decide

theorem witness_RevwAndAmnd :
    (inRound [recF .awaiting]).only 1 (recF .awaiting) ∧ (inRound [recF .published]).only 1 (recF .published) ∧
    (inRound [recF .published]).takes .console ∧ (∀ r ∈ (inRound []).round.records, r.jump ≠ 1) := by decide

/-- A part with one panel, TOTAL of the PUBLISHED view in row 1, that row's frame being sent. -/
def totalled (rs : List Record) : State :=
  let s := inRound rs
  s.setBoard { s.board with
    panels := some panelF :: List.replicate 7 none
    fields := some { distF 5 with item := .total, view := .published } :: List.replicate 47 none
    line := .sending { panel := 1, address := 15, row := 1, text := List.replicate 16 0x20#8, aborted := false } }

def totalRec (j : Nat) (state : RecState) (total : Nat) : Record := { recF state with jump := j, total := some total }

theorem paneled_sized (s : State) (h : s.board.panels = some panelF :: List.replicate 7 none)
    (hw : s.wind = State.reset.wind) (hf : s.flight = State.reset.flight) (ht : s.round.table.length = 8)
    (hl : s.round.startList.length ≤ 96) (hs : s.scoring = State.reset.scoring) (hb : s.board.fields.length = 48) :
    PanelsSized s ∧ TablesSized s := by
  refine ⟨?_, ht, hl, by rw [hs]; decide, by rw [hw]; decide, by rw [hw]; decide, ?_, by rw [hf]; decide, ?_,
    by rw [h]; decide, hb⟩
  · intro p hp
    rw [h] at hp
    simp only [List.mem_cons, Option.some.injEq, List.mem_replicate, reduceCtorEq, and_false, or_false] at hp
    subst hp; decide
  · rw [show s.wind.ctx = State.reset.wind.ctx from by rw [hw]]
    intro c; cases c <;> decide
  · intro w hx; rw [hf] at hx; cases hx

theorem witness_ChangedTextMakesRowsDirty :
    (PanelsSized paneled ∧ TablesSized paneled) ∧ entry paneled.board.panels 1 = some panelF ∧
    (∃ t q, exec (.page 0 .control 0 1 1 1 [0x41#8]) paneled = .next t ∧ entry t.board.panels 1 = some q ∧
      t.composed 1 q 1 ≠ paneled.composed 1 panelF 1) ∧
    ((PanelsSized (totalled [totalRec 1 .confirmed 1482]) ∧ TablesSized (totalled [totalRec 1 .confirmed 1482])) ∧
      (totalled [totalRec 1 .confirmed 1482]).round.publishable = some (totalRec 1 .confirmed 1482) ∧
      ((totalled [totalRec 1 .confirmed 1482]).publish (totalRec 1 .confirmed 1482)).composed 1 panelF 1 ≠
        (totalled [totalRec 1 .confirmed 1482]).composed 1 panelF 1) :=
  ⟨paneled_sized _ rfl rfl rfl rfl (by decide) rfl rfl, by decide,
    ⟨_, { panelF with page := 0x41#8 :: List.replicate 31 0x20#8, marks := [⟨true, true⟩, ⟨false, false⟩] }, rfl,
      by decide +kernel, by decide +kernel⟩,
    paneled_sized _ rfl rfl rfl rfl (by decide) rfl rfl, by decide, by decide +kernel⟩

/-- One CONF publishes two records, and PUBLISHED TOTAL goes from 148.2 to 130.0 and back: the row is dirty and the frame
of it has its abort mark, though the text is what it was (R159, R160, R165). -/
theorem test_restored_text :
    let s := totalled [totalRec 1 .published 1482, totalRec 2 .confirmed 1300, totalRec 3 .confirmed 1482]
    let t := s.publicationCheck
    t.composed 1 panelF 1 = s.composed 1 panelF 1 ∧
    (entry t.board.panels 1).map (fun p => p.marks.map (fun m => m.dirty)) = some [true, false] ∧
    (match t.board.line with | .sending f => f.aborted | .free | .window _ _ => false) = true := by decide +kernel

/-- A COUNTDOWN field set 1.5 s before the expiry shows 2, whatever was shown before (R156). -/
theorem test_countdown_field :
    (match exec (.fldSet 150000 .control 0 1 { fldF with item := 0, view := 0 })
        (counting (.running 1 300000#32) paneled) with
     | .next t => entry t.board.countdownShown 1
     | .fault _ | .refused _ => none) = some 2 := by decide +kernel

/-- A COUNTDOWN field last rendered with 3, its second step due and not yet taken: a PAGE of the same characters beside it
and a CLEAR of an empty descriptor leave its text; the second step shows 2 (R151, R154, R156). -/
theorem test_untouched_countdown :
    let s := counting (.running 1 300000#32) (paneled.setBoard { paneled.board with
      fields := some { distF 5 with item := .countdown } :: List.replicate 47 none
      countdownShown := some 3 :: List.replicate 47 none })
    let texts := fun (o : StepOutcome) => match o with
      | .next t => some (t.composed 1 panelF 1, t.board.panels == s.board.panels)
      | .fault _ | .refused _ => none
    texts (exec (.page 150000 .console 0 1 1 6 [0x20#8]) s) =
      some ([0x20#8, 0x20#8, 0x20#8, 0x20#8, 0x33#8] ++ List.replicate 11 0x20#8, true) ∧
    texts (exec (.fldClear 150000 .control 0 2 fldF) s) =
      some ([0x20#8, 0x20#8, 0x20#8, 0x20#8, 0x33#8] ++ List.replicate 11 0x20#8, true) ∧
    (texts (exec (.countdownSecondStep 150000) s)).map Prod.fst =
      some ([0x20#8, 0x20#8, 0x20#8, 0x20#8, 0x32#8] ++ List.replicate 11 0x20#8) := by decide +kernel

/-- The panel with one field, its first five cells. -/
def fielded : State :=
  paneled.setBoard { paneled.board with fields := some (distF 5) :: List.replicate 47 none }

theorem witness_TextsFillTheirFields :
    panelF.Sized ∧ 2 ≤ panelF.rows ∧ (distF 16).column + (distF 16).width ≤ panelF.columns + 1 ∧
    (∀ d, some d ∈ fielded.board.fields → d.panel = 1 → 1 ≤ d.column ∧ d.column + d.width ≤ panelF.columns + 1) ∧
    entry fielded.board.fields 1 = some (distF 5) ∧
    (∀ m x, m ≠ 1 → entry fielded.board.fields m = some x → x.panel ≠ 1) ∧
    viewRecord fielded.round (distF 5).view = none ∧
    viewRecord (inRound [recF .awaiting]).round .flight = some (recF .awaiting) ∧
    viewRecord (inRound [recF .called]).round .published = none ∧ View.published ≠ .bar ∧ 999999999 < 1000000000 := by
  refine ⟨by decide, by decide, by decide, ?_, by decide, ?_, by decide, by decide, by decide, by decide, by decide⟩
  · intro d h
    rw [show fielded.board.fields = some (distF 5) :: List.replicate 47 none from rfl] at h
    simp only [List.mem_cons, Option.some.injEq, List.mem_replicate, reduceCtorEq, and_false, or_false] at h
    subst h; decide
  · intro m x hm h
    rcases m with _ | _ | m
    · cases h
    · exact absurd rfl hm
    · rw [show fielded.board.fields = some (distF 5) :: List.replicate 47 none from rfl] at h
      have := entry_empty 47 (m + 1) (α := FieldDesc)
      simp_all [entry]

def rowF : RowFrame := { panel := 1, address := 15, row := 1, text := List.replicate 16 0x20#8, aborted := false }

/-- A REMOVE of the panel whose frame is being sent aborts the frame; in its acknowledgement window it frees the line
(R168). -/
theorem test_removed_panel_line :
    ((paneled.setBoard { paneled.board with line := .sending rowF }).board.disturb 1).line =
      .sending { rowF with aborted := true } ∧
    ((paneled.setBoard { paneled.board with line := .window rowF 2000#32 }).board.disturb 1).line = .free := by decide

theorem witness_PanlEditsThePanelTable :
    (State.reset.takes .control ∧ 15 ≤ panlF.address ∧ 4 ≤ panlF.rows ∧ 32 ≤ panlF.columns ∧ panlF.rights = 2 ∧
      panlF.enabled = 0) ∧
    (∀ k p, k ≠ 8 → entry State.reset.board.panels k = some p → p.address ≠ panlF.address) ∧
    (entry State.reset.board.panels 8 = none ∧ State.reset.board.panels.length = 8) ∧
    (entry paneled.board.panels 1 = some panelF ∧ panelF.address = panlF.address) ∧
    (panelF.enabled = true ∧ ({ panelF with enabled := false } : Panel).enabled = false ∧
      (paneled.setBoard { paneled.board with line := .window rowF 2000#32 }).board.line ≠ .free ∧ rowF.panel = 1) ∧
    (∀ d, some d ∈ paneled.board.fields → d.panel ≠ 1) := by
  refine ⟨by decide, ?_, by decide, by decide, by decide, ?_⟩
  · intro k p _ h
    rw [show State.reset.board.panels = List.replicate 8 none from rfl, entry_empty] at h
    cases h
  · intro d h
    simp [paneled, State.reset, Board.atReset, State.setBoard] at h

theorem witness_FldEditsTheFieldMap :
    (paneled.takes .control ∧ entry paneled.board.panels fldF.panel = some panelF ∧ fldF.row ≤ panelF.rows ∧
      fldF.column + fldF.width - 1 ≤ panelF.columns ∧ itemOf fldF.item = some .distance ∧ fldF.view = 2) ∧
    (∀ k x, k ≠ 48 → entry paneled.board.fields k = some x → x.panel = fldF.panel → x.row = fldF.row →
      x.column + x.width ≤ fldF.column ∨ fldF.column + fldF.width ≤ x.column) ∧
    ((distF 5).column < fldF.column + fldF.width ∧ fldF.column < (distF 5).column + (distF 5).width) ∧
    (entry fielded.board.fields 1 = some (distF 5) ∧ entry fielded.board.fields 48 = none ∧ fielded.takes .control) ∧
    itemOf 15 = none ∧ entry State.reset.board.panels 1 = none := by
  refine ⟨by decide, ?_, by decide, by decide, by decide, by decide⟩
  intro k x _ h
  rw [show paneled.board.fields = List.replicate 48 none from rfl, entry_empty] at h
  cases h

theorem witness_PageWritesCells :
    (paneled.takes .control ∧ entry paneled.board.panels 1 = some panelF ∧ panelF.Sized ∧ panelF.rights = .both ∧
      2 ≤ panelF.rows ∧ 16 ≤ panelF.columns ∧ (List.replicate 32 0x41#8).length ≤ 32) ∧
    entry paneled.board.panels 2 = none ∧ Rights.control ≠ .both ∧
    ({ panelF with rights := .control } : Panel).rights = .control ∧ panelF.rows < 3 := by decide

theorem witness_RefreshAndProbeReachThePanels :
    (State.reset.board.nextRefresh = some 1000000#32 ∧ reached 1000000#32 1000000#32 = true ∧
      reached 999999#32 1000000#32 = false) ∧
    (paneled.board.line = .free ∧
      ({ panelF with state := .offline, probeDue := some 500#32 } : Panel).eligible 500#32 = true ∧
      ({ panelF with state := .offline, probeDue := some 500#32 } : Panel).eligible 499#32 = false ∧
      ({ panelF with marks := [⟨false, false⟩, ⟨true, false⟩] } : Panel).eligible 0#32 = true) ∧
    (∀ k p, entry State.reset.board.panels k = some p → p.eligible 0#32 = false) := by
  refine ⟨by decide, by decide, ?_⟩
  intro k p h
  rw [show State.reset.board.panels = List.replicate 8 none from rfl, entry_empty] at h
  cases h

theorem witness_RowFramesAreAcknowledged :
    ((paneled.setBoard { paneled.board with line := .window rowF 2000#32 }).board.line = .window rowF 2000#32 ∧
      laterThan 2000#32 2000#32 = false ∧ laterThan 2001#32 2000#32 = true ∧
      reached 0#32 (2000#32 - 2000#32) = true ∧ reached 4294967295#32 (2000#32 - 2000#32) = false ∧
      acknowledgementOf ([0x06#8, 15#8, 1#8] ++ checkBytes [15#8, 1#8]) = some (rowF.address, rowF.row) ∧
      acknowledgementOf ([0x06#8, 15#8, 2#8] ++ checkBytes [15#8, 2#8]) ≠ some (rowF.address, rowF.row) ∧
      entry paneled.board.panels 1 = some panelF) ∧
    rowF.aborted = false ∧ 4 ≤ min ({ panelF with miss := 3 }.miss + 1) 15 ∧
    2 ≤ min ({ panelF with ack := 1 }.ack + 1) 15 := by decide +kernel

end Sys2Proof.Tests
end

