-- ==== Sys2Proof/Proofs/StartList.lean ====
section
/-! The start list: what LIST and DROP answer in the words of R7 and R8, and that an edit of the list alone leaves the board
as it is. -/

namespace Sys2Proof.Machine

/-! Requests that leave every text of the board as it is -/

theorem boardSync_self (s : State) : boardSync false s s = s := boardSync_quiet rfl rfl fun _ _ _ => rfl

/-- No composed text reads the start list, so an edit of it leaves the board as it is (R159). -/
theorem boardSync_startList (s : State) (list : List Nat) :
    boardSync false s (s.setRound { s.round with startList := list }) =
      s.setRound { s.round with startList := list } :=
  boardSync_quiet rfl rfl (composed_congr rfl rfl rfl rfl rfl rfl rfl)

section
variable {s : State} {l : LinkId} {now : HillTime} {r : Request} {body : List Field}

/-- A request other than PANL that its block refuses leaves its reply alone (R176). -/
theorem takenRequest_refuse (h : s.takes l) (tag : Byte) (hp : r.permitted l = true)
    (hm : ∀ a, requestMarks (s.setClock now) r a = false) {code : ResultCode}
    (hs : serve (s.setClock now) l r = refuse (s.setClock now) code body) :
    takenRequest now l tag r s = s.answering now l (r.code + 0x80#8) tag code body :=
  takenRequest_answers h now tag hp hs (by rw [hm, boardSync_self])

/-- A request other than PANL that its block accepts as an edit of the start list alone. -/
theorem takenRequest_accept_startList (h : s.takes l) (tag : Byte) (hp : r.permitted l = true)
    (hm : ∀ a, requestMarks (s.setClock now) r a = false) {list : List Nat}
    (hs : serve (s.setClock now) l r =
      accept ((s.setClock now).setRound { s.round with startList := list }) body) :
    takenRequest now l tag r s =
      (s.setRound { s.round with startList := list }).answering now l (r.code + 0x80#8) tag .ok body :=
  takenRequest_answers h now tag hp hs (by rw [hm]; exact boardSync_startList (s.setClock now) list)

end

/-! The blocks' answers -/

theorem Round.bibActive_iff (r : Round) (bib : Nat) :
    r.bibActive bib = true ↔ ∃ x ∈ r.records, x.bib = bib ∧ x.state.terminal = false := by
  simp [Round.bibActive]

/-- The range check of LIST fails on a count or on a bib (R7). -/
theorem list_outOfRange_iff (clear : Bool) (bibs : List Nat) :
    ((clear = false ∧ bibs = []) ∨ 16 < bibs.length ∨ ∃ b ∈ bibs, b = 0 ∨ 999 < b) ↔
      ¬ (((clear = true ∨ 1 ≤ bibs.length) ∧ bibs.length ≤ 16) ∧ ∀ b ∈ bibs, 1 ≤ b ∧ b ≤ 999) := by
  have hcount : (clear = false ∧ bibs = []) ↔ ¬ (clear = true ∨ 1 ≤ bibs.length) := by
    simp [Nat.one_le_iff_ne_zero]
  have hbibs : (∃ b ∈ bibs, b = 0 ∨ 999 < b) ↔ ¬ ∀ b ∈ bibs, 1 ≤ b ∧ b ≤ 999 := by
    push Not
    exact exists_congr fun b => and_congr_right fun _ => by omega
  rw [hcount, hbibs, not_and_or, not_and_or, not_le, or_assoc]

/-- LIST in the order of R7's checks. -/
theorem serveList_eq (s : State) (clear : Bool) (bibs kept : List Nat)
    (hk : kept = if clear then [] else s.round.startList) :
    serveList s clear bibs =
      if (clear = false ∧ bibs = []) ∨ 16 < bibs.length ∨ ∃ b ∈ bibs, b = 0 ∨ 999 < b then
        refuse s .outOfRange listRefused
      else if ¬ bibs.Nodup ∨ ∃ b ∈ bibs, b ∈ kept ∨ ∃ r ∈ s.round.records, r.bib = b ∧ r.state.terminal = false then
        refuse s .duplicateBib listRefused
      else if 96 < kept.length + bibs.length then refuse s .listFull listRefused
      else accept (s.setRound { s.round with startList := kept ++ bibs }) (listBody (kept ++ bibs)) := by
  subst hk
  simp only [serveList, list_outOfRange_iff, ite_not, Round.bibActive_iff, gt_iff_lt]

/-- DROP in the order of R8's checks. -/
theorem serveDrop_eq (s : State) (bib : Nat) :
    serveDrop s bib =
      if bib = 0 ∨ 999 < bib then refuse s .outOfRange listRefused
      else if bib ∈ s.round.startList then
        accept (s.setRound { s.round with startList := s.round.startList.erase bib })
          (listBody (s.round.startList.erase bib))
      else refuse s .notInList listRefused := by
  have hrange : (bib = 0 ∨ 999 < bib) ↔ ¬ (1 ≤ bib ∧ bib ≤ 999) := by omega
  simp only [serveDrop, hrange, ite_not]

/-- Settles O23: each row is its block's answer, and an edit of the start list changes no text of the board. -/
theorem listAndDropEditTheStartList : Obligations.ListAndDropEditTheStartList := by
  refine ⟨fun now tag clear bibs kept s h hk => ?list, fun now tag bib s h => ?drop⟩
  case list =>
    have hserve := serveList_eq (s.setClock now) clear bibs kept hk
    rw [← List.length_append] at hserve ⊢
    split_ifs with hrange hdup hfull
    · exact takenRequest_refuse h tag rfl (fun _ => rfl) (hserve.trans (if_pos hrange))
    all_goals replace hserve := hserve.trans (if_neg hrange)
    · exact takenRequest_refuse h tag rfl (fun _ => rfl) (hserve.trans (if_pos hdup))
    all_goals replace hserve := hserve.trans (if_neg hdup)
    · exact takenRequest_refuse h tag rfl (fun _ => rfl) (hserve.trans (if_pos hfull))
    · exact takenRequest_accept_startList h tag rfl (fun _ => rfl) (hserve.trans (if_neg hfull))
  case drop =>
    have hserve := serveDrop_eq (s.setClock now) bib
    split_ifs with hrange hin
    · exact takenRequest_refuse h tag rfl (fun _ => rfl) (hserve.trans (if_pos hrange))
    all_goals replace hserve := hserve.trans (if_neg hrange)
    · exact takenRequest_accept_startList h tag rfl (fun _ => rfl) (hserve.trans (if_pos hin))
    · exact takenRequest_refuse h tag rfl (fun _ => rfl) (hserve.trans (if_neg hin))

end Sys2Proof.Machine
end

