-- ==== Sys2Proof/Proofs/SectorTable.lean ====
section
/-! The sector table: what the checks of SECT report in the words of R35, and that the READY evaluation behind an accepted
one leaves the board as it is. -/

namespace Sys2Proof.Machine

/-! The READY evaluation -/

/-- The READY evaluation changes the part state, the wind line and the flight lines alone (R2, R72, R114). -/
theorem State.evaluateReady_eq (s : State) :
    ∃ part wind flight,
      s.evaluateReady = ((s.setRound { s.round with part := part }).setWind wind).setFlight flight := by
  unfold State.evaluateReady
  split
  · exact ⟨s.round.part, s.wind, s.flight, rfl⟩
  all_goals
    split
    · exact ⟨.ready, s.wind, _, rfl⟩
    · exact ⟨.unconfigured, stopPolling s.wind, s.flight, rfl⟩

theorem State.evaluateReady_setClock (s : State) : s.evaluateReady.setClock s.clock = s.evaluateReady := by
  obtain ⟨part, wind, flight, h⟩ := s.evaluateReady_eq
  rw [h]
  rfl

/-- No composed text reads the scoring parameters or what the READY evaluation changes (R159). -/
theorem boardSync_setScoring_evaluateReady (s : State) (v : Scoring) :
    boardSync false s (s.setScoring v).evaluateReady = (s.setScoring v).evaluateReady := by
  obtain ⟨part, wind, flight, h⟩ := (s.setScoring v).evaluateReady_eq
  rw [h]
  exact boardSync_quiet rfl rfl (composed_congr rfl rfl rfl rfl rfl rfl rfl)

/-- A request other than PANL that its block accepts as an edit of the scoring parameters and the READY evaluation. -/
theorem takenRequest_accept_scoring {s : State} {l : LinkId} (h : s.takes l) {now : HillTime} (tag : Byte) {r : Request}
    (hp : r.permitted l = true) (hm : ∀ a, requestMarks (s.setClock now) r a = false) {v : Scoring} {body : List Field}
    (hs : serve (s.setClock now) l r = accept ((s.setClock now).setScoring v).evaluateReady body) :
    takenRequest now l tag r s =
      ((s.setClock now).setScoring v).evaluateReady.answering now l (r.code + 0x80#8) tag .ok body := by
  have hclock := ((s.setClock now).setScoring v).evaluateReady_setClock
  refine takenRequest_answers h now tag hp (hs.trans ?_) ?_
  · exact congrArg (fun t => accept t body) hclock.symm
  · rw [hm]
    exact (congrArg _ hclock).trans ((boardSync_setScoring_evaluateReady _ v).trans hclock.symm)

/-! The checks of SECT over the entries the count takes -/

/-- An entry within the ranges of R35's second check. -/
abbrev sectorInRange (e : Nat × Nat) : Prop := e.1 ≤ 300 ∧ e.2 ≤ 100

theorem sectorRangeFault_cons (i : Nat) (e : Nat × Nat) (l : List (Nat × Nat)) :
    sectorRangeFault i (e :: l) = if sectorInRange e then sectorRangeFault (i + 1) l else some i := rfl

theorem sectorOrderFault_cons (before i : Nat) (e : Nat × Nat) (l : List (Nat × Nat)) :
    sectorOrderFault before i (e :: l) = if before < e.1 then sectorOrderFault e.1 (i + 1) l else some i := rfl

theorem sectorRangeFault_eq_none {l : List (Nat × Nat)} (i : Nat) (h : ∀ e ∈ l, sectorInRange e) :
    sectorRangeFault i l = none := by
  induction l generalizing i with
  | nil => rfl
  | cons e l ih =>
    rw [List.forall_mem_cons] at h
    rw [sectorRangeFault_cons, if_pos h.1, ih (i + 1) h.2]

/-- The first entry out of range is the one reported. -/
theorem sectorRangeFault_eq_some {l : List (Nat × Nat)} (i : Nat) {k : Nat} {e : Nat × Nat} (he : l[k]? = some e)
    (hbad : ¬ sectorInRange e) (hgood : ∀ m x, m < k → l[m]? = some x → sectorInRange x) :
    sectorRangeFault i l = some (i + k) := by
  induction l generalizing i k with
  | nil => simp at he
  | cons x l ih =>
    rw [sectorRangeFault_cons]
    cases k with
    | zero =>
      obtain rfl : x = e := by simpa using he
      exact if_neg hbad
    | succ k =>
      rw [if_pos (hgood 0 x k.succ_pos rfl),
        ih (i + 1) he fun m y hm hy => hgood (m + 1) y (Nat.succ_lt_succ hm) hy]
      exact congrArg some (by omega)

theorem sectorOrderFault_eq_none {e : Nat × Nat} {l : List (Nat × Nat)} (i : Nat)
    (h : ∀ k a b, (e :: l)[k]? = some a → (e :: l)[k + 1]? = some b → a.1 < b.1) :
    sectorOrderFault e.1 i l = none := by
  induction l generalizing e i with
  | nil => rfl
  | cons x l ih =>
    rw [sectorOrderFault_cons, if_pos (h 0 e x rfl rfl)]
    exact ih (i + 1) fun k a b ha hb => h (k + 1) a b ha hb

/-- The first entry whose start does not exceed the start before it is the one reported. -/
theorem sectorOrderFault_eq_some {e : Nat × Nat} {l : List (Nat × Nat)} (i : Nat) {k : Nat} {a b : Nat × Nat}
    (ha : (e :: l)[k]? = some a) (hb : (e :: l)[k + 1]? = some b) (hab : b.1 ≤ a.1)
    (hbelow : ∀ m x y, m < k → (e :: l)[m]? = some x → (e :: l)[m + 1]? = some y → x.1 < y.1) :
    sectorOrderFault e.1 i l = some (i + k) := by
  induction l generalizing e i k with
  | nil => simp at hb
  | cons x l ih =>
    rw [sectorOrderFault_cons]
    cases k with
    | zero =>
      obtain rfl : e = a := by simpa using ha
      obtain rfl : x = b := by simpa using hb
      exact if_neg (Nat.not_lt.mpr hab)
    | succ k =>
      rw [if_pos (hbelow 0 e x k.succ_pos rfl rfl),
        ih (i + 1) ha hb fun m y z hm hy hz => hbelow (m + 1) y z (Nat.succ_lt_succ hm) hy hz]
      exact congrArg some (by omega)

/-! What SECT reports -/

/-- The entries that the count takes. -/
theorem getElem?_take_eq_some {α : Type} {l : List α} {n k : Nat} {e : α} :
    (l.take n)[k]? = some e ↔ k < n ∧ l[k]? = some e := by
  rw [List.getElem?_take, Option.ite_none_right_eq_some]

theorem exists_take_eq_cons {α : Type} {l : List α} {n : Nat} {e : α} (h : 1 ≤ n) (he : l[0]? = some e) :
    ∃ rest, l.take n = e :: rest :=
  List.head?_eq_some_iff.mp (List.head?_eq_getElem?.trans (getElem?_take_eq_some.mpr ⟨h, he⟩))

section
variable {count : Nat} {es : List (Nat × Nat)}

theorem sectFault_of_count (h : 6 < count) : sectFault count es = some 0 := if_pos h

theorem sectFault_of_range (hc : count ≤ 6) {k : Nat} {e : Nat × Nat} (hk : k < count) (he : es[k]? = some e)
    (hbad : ¬ sectorInRange e) (hgood : ∀ m x, m < k → es[m]? = some x → sectorInRange x) :
    sectFault count es = some (k + 1) := by
  have hfault : sectorRangeFault 1 (es.take count) = some (1 + k) :=
    sectorRangeFault_eq_some 1 (getElem?_take_eq_some.mpr ⟨hk, he⟩) hbad
      fun m x hm hx => hgood m x hm (getElem?_take_eq_some.mp hx).2
  simp [sectFault, Nat.not_lt.mpr hc, hfault, Nat.add_comm]

theorem sectorRangeFault_take (hr : ∀ k e, k < count → es[k]? = some e → sectorInRange e) :
    sectorRangeFault 1 (es.take count) = none := by
  refine sectorRangeFault_eq_none 1 fun e he => ?_
  obtain ⟨k, hk⟩ := List.mem_iff_getElem?.mp he
  obtain ⟨hlt, hes⟩ := getElem?_take_eq_some.mp hk
  exact hr k e hlt hes

/-- With the count and the ranges passed, the starts alone are judged. -/
theorem sectFault_of_inRange (hc : count ≤ 6) (hr : ∀ k e, k < count → es[k]? = some e → sectorInRange e)
    {e : Nat × Nat} {l : List (Nat × Nat)} (htake : es.take count = e :: l) :
    sectFault count es = if e.1 = 0 then sectorOrderFault e.1 2 l else some 1 := by
  have hnone := sectorRangeFault_take hr
  rw [htake] at hnone
  simp only [sectFault, if_neg (Nat.not_lt.mpr hc), htake, hnone]

theorem sectFault_of_firstStart (hc : count ≤ 6) (hr : ∀ k e, k < count → es[k]? = some e → sectorInRange e)
    {e : Nat × Nat} (h1 : 1 ≤ count) (he : es[0]? = some e) (h0 : e.1 ≠ 0) : sectFault count es = some 1 := by
  obtain ⟨l, htake⟩ := exists_take_eq_cons h1 he
  rw [sectFault_of_inRange hc hr htake, if_neg h0]

theorem sectFault_of_order (hc : count ≤ 6) (hr : ∀ k e, k < count → es[k]? = some e → sectorInRange e)
    {e a b : Nat × Nat} {k : Nat} (he : es[0]? = some e) (h0 : e.1 = 0) (hk : k + 1 < count)
    (ha : es[k]? = some a) (hb : es[k + 1]? = some b) (hab : b.1 ≤ a.1)
    (hbelow : ∀ m x y, m < k → es[m]? = some x → es[m + 1]? = some y → x.1 < y.1) :
    sectFault count es = some (k + 2) := by
  obtain ⟨l, htake⟩ := exists_take_eq_cons (Nat.one_le_of_lt hk) he
  rw [sectFault_of_inRange hc hr htake, if_pos h0, Nat.add_comm k 2]
  apply sectorOrderFault_eq_some 2 (a := a) (b := b) _ _ hab
  all_goals rw [← htake]
  · exact fun m x y hm hx hy =>
      hbelow m x y hm (getElem?_take_eq_some.mp hx).2 (getElem?_take_eq_some.mp hy).2
  · exact getElem?_take_eq_some.mpr ⟨by omega, ha⟩
  · exact getElem?_take_eq_some.mpr ⟨hk, hb⟩

theorem sectFault_eq_none (hc : count ≤ 6) (hr : ∀ k e, k < count → es[k]? = some e → sectorInRange e)
    (hfirst : ∀ e, 1 ≤ count → es[0]? = some e → e.1 = 0)
    (horder : ∀ k a b, k + 1 < count → es[k]? = some a → es[k + 1]? = some b → a.1 < b.1) :
    sectFault count es = none := by
  cases htake : es.take count with
  | nil => simp [sectFault, htake, sectorRangeFault, Nat.not_lt.mpr hc]
  | cons e l =>
    have he : (es.take count)[0]? = some e := by rw [htake]; rfl
    obtain ⟨hlt, he⟩ := getElem?_take_eq_some.mp he
    rw [sectFault_of_inRange hc hr htake, if_pos (hfirst e hlt he)]
    apply sectorOrderFault_eq_none
    intro k a b ha hb
    rw [← htake] at ha hb
    obtain ⟨-, ha⟩ := getElem?_take_eq_some.mp ha
    obtain ⟨hlt, hb⟩ := getElem?_take_eq_some.mp hb
    exact horder k a b hlt ha hb

end

/-! The outcome of a SECT that is taken -/

section
variable {s : State} (count : Nat) (es : List (Nat × Nat))

theorem serveSect_of_inRound (h : s.round.part = .round) :
    serveSect s count es = refuse s .roundOpen [.u8 none] := by
  simp [serveSect, State.inRound, h]

variable {count es}

theorem serveSect_of_fault (h : s.round.part ≠ .round) {i : Nat} (hf : sectFault count es = some i) :
    serveSect s count es = refuse s .outOfRange [byteField i] := by
  simp [serveSect, State.inRound, h, hf]

theorem serveSect_of_no_fault (h : s.round.part ≠ .round) (hf : sectFault count es = none) :
    serveSect s count es =
      accept (s.setScoring { s.scoring with
        sectors := (es.take count).map (fun e => { start := e.1, weight := e.2 }) }).evaluateReady [byteField 0] := by
  simp [serveSect, State.inRound, h, hf]

theorem exec_sect_of_fault (h : s.takes .control) (hr : s.round.part ≠ .round) (now : HillTime) (tag : Byte) {i : Nat}
    (hf : sectFault count es = some i) :
    exec (.sect now .control tag count es) s = s.answering now .control 0x82#8 tag .outOfRange [byteField i] :=
  takenRequest_refuse h tag rfl (fun _ => rfl) (serveSect_of_fault (s := s.setClock now) hr hf)

end

/-- Settles O30: each row is what the checks report in their order, and an accepted table changes no text of the board. -/
theorem sectReplacesTheTable : Obligations.SectReplacesTheTable := by
  refine ⟨fun now tag count es s h hr _ => ⟨fun hc => ?count, ?range, fun hc hin => ⟨?first, ?order, ?accepted⟩⟩,
    fun now tag count es s h hr => ?inRound⟩
  case count => exact exec_sect_of_fault h hr now tag (sectFault_of_count hc)
  case range =>
    intro k e hc hk he hbad hgood
    exact exec_sect_of_fault h hr now tag (sectFault_of_range hc hk he hbad hgood)
  case first =>
    intro e h1 he h0
    exact exec_sect_of_fault h hr now tag (sectFault_of_firstStart hc hin h1 he h0)
  case order =>
    intro e k a b he h0 hk ha hb hab hbelow
    exact exec_sect_of_fault h hr now tag (sectFault_of_order hc hin he h0 hk ha hb hab hbelow)
  case accepted =>
    intro hfirst horder
    exact takenRequest_accept_scoring h tag rfl (fun _ => rfl)
      (serveSect_of_no_fault (s := s.setClock now) hr (sectFault_eq_none hc hin hfirst horder))
  case inRound =>
    exact takenRequest_refuse h tag rfl (fun _ => rfl) (serveSect_of_inRound (s := s.setClock now) count es hr)

end Sys2Proof.Machine
end

