-- ==== Sys2Proof/Proofs/CountdownShown.lean ====
section
/-! The seconds the COUNTDOWN fields show: which operations render them, and that what follows a block's work in the taking
of a command keeps them (R156, R159). -/

namespace Sys2Proof.Machine

/-! Rendering -/

theorem entry_map_bind {α β : Type} (f : α → Option β) (l : List (Option α)) (i : Nat) :
    entry (l.map (fun e => e.bind f)) i = (entry l i).bind f := by
  unfold entry
  split
  · rfl
  · rw [List.getElem?_map]
    rcases l[i - 1]? with _ | _ | a <;> rfl

/-- A change of light state renders every COUNTDOWN field from the countdown as it stands (R159). -/
theorem State.toLight_countdownShown (s : State) (light : Light) (bib remaining : Option Nat) {n : Nat} {d : FieldDesc}
    (hd : entry s.board.fields n = some d) (hi : d.item = .countdown) :
    entry (s.toLight light bib remaining).board.countdownShown n = countdownSeconds s.start.countdown s.clock := by
  simp only [State.toLight_eq, entry_map_bind, hd, Option.bind_some, FieldDesc.shown, if_pos hi]

/-! What keeps the seconds shown -/

@[simp] theorem Board.dirty_countdownShown (b : Board) (i : Nat) (rows : List Nat) :
    (b.dirty i rows).countdownShown = b.countdownShown := by
  cases rows <;> rfl

@[simp] theorem markChanged_countdownShown (old new : State) :
    (markChanged old new).board.countdownShown = new.board.countdownShown :=
  List.foldlRecOn (motive := fun b : Board => b.countdownShown = new.board.countdownShown) panelIndices _ rfl
    fun b hb i _ => (b.dirty_countdownShown i (changedRows old new i)).trans hb

@[simp] theorem arbiterChoice_countdownShown (s : State) :
    (arbiterChoice s).board.countdownShown = s.board.countdownShown := by
  unfold arbiterChoice
  split
  · split <;> rfl
  · rfl
  · rfl

@[simp] theorem boardSync_countdownShown (m : Bool) (old new : State) :
    (boardSync m old new).board.countdownShown = new.board.countdownShown := by
  unfold boardSync
  simp only
  split
  · rw [arbiterChoice_countdownShown, markChanged_countdownShown]
  · exact markChanged_countdownShown old new

/-- A taken request that its block accepts with the state `w`: `w` becomes `u` and posts `ns`, and the COUNTDOWN fields stay
as that work rendered them. -/
theorem takenRequest_accept_becomes {s : State} {l : LinkId} (h : s.takes l) {now : HillTime} (tag : Byte) {r : Request}
    (hp : r.permitted l = true) {w u : State} {ns : List Notice} {body : List Field}
    (hs : serve (s.setClock now) l r = accept w body) (hw : Becomes w u) (hn : Posts s w ns) :
    ∃ t, takenRequest now l tag r s = .next t ∧ Becomes t u ∧
      t.board.countdownShown = w.board.countdownShown ∧
      Answers s t ns l { type := r.code + 0x80#8, tag := tag, code := .ok, body := body } := by
  rw [takenRequest_of_takes h now tag hp, hs]
  refine ⟨_, rfl, (hw.boardSync _ _).place _ _, ?_, Answers.of_posts l _ (hn.boardSync _ _)⟩
  rw [State.place_board, boardSync_countdownShown]
  rfl

end Sys2Proof.Machine
end

