-- ==== Sys2Proof/Proofs/Hold.lean ====
section
/-! HOLD: the work of holding a running countdown, and the checks of R51 in their order. -/

namespace Sys2Proof.Machine

/-! The record a request names -/

theorem State.record_of_only {s : State} {j : Nat} {r : Record} (h : s.only j r) : s.record j = some r := h.1

theorem State.record_eq_none {s : State} {j : Nat} (h : ∀ r ∈ s.round.records, r.jump ≠ j) : s.record j = none :=
  List.find?_eq_none.mpr fun r hr => by simpa using h r hr

/-! A countdown held -/

section
variable (s : State) (r : Record) (cause : HoldCause) (ticks : Nat)

/-- The hold freezes the countdown, writes the record and shows HOLD; nothing else changes (R51, R52). -/
theorem holdWork_becomes :
    Becomes (holdWork s r cause ticks) { s with
      round := s.round.modify r.jump (fun x =>
        { x with remaining := some (msUp ticks), holdCause := cause, flags := { x.flags with held := true } })
      start := { s.start with countdown := .held r.jump ticks, light := .hold, cadence := none } } :=
  ⟨rfl, rfl, rfl, rfl, fun _ => rfl⟩

theorem holdWork_posts : Posts s (holdWork s r cause ticks) [.lamp .hold (some r.bib) (some (msUp ticks))] :=
  fun m => (State.post_link _ _ m).trans (by cases m <;> rfl)

/-- A COUNTDOWN field shows the held ticks in whole seconds rounded up (R156). -/
theorem holdWork_countdownShown {n : Nat} {d : FieldDesc} (hd : entry s.board.fields n = some d)
    (hi : d.item = .countdown) :
    entry (holdWork s r cause ticks).board.countdownShown n = some (secUp ticks) :=
  State.toLight_countdownShown _ .hold _ _ hd hi

end

/-! The checks of R51 -/

section
variable {s : State} {j : Nat} {r : Record}

theorem serveHold_of_no_record (hr : s.record j = none) :
    serveHold s j = refuse s .noSuchJump (holdBody none none) := by
  simp only [serveHold, hr]

theorem serveHold_of_running (hr : s.record j = some r) (hs : r.state = .released) {k : Nat} {expiry : HillTime}
    (hc : s.start.countdown = .running k expiry) :
    serveHold s j =
      accept (holdWork s r .jury (ticksLeft expiry s.clock))
        (holdBody (some r.jump) (some (msUp (ticksLeft expiry s.clock)))) := by
  simp only [serveHold, hr, hs, hc]

theorem serveHold_of_not_running (hr : s.record j = some r)
    (hn : r.state ≠ .released ∨ ∀ k e, s.start.countdown ≠ .running k e) :
    serveHold s j = refuse s .wrongState (holdBody none none) := by
  simp only [serveHold, hr]
  split
  case h_1 k expiry hs hc => exact (hn.elim (· hs) (· k expiry hc)).elim
  case h_2 => rfl

end

/-- Settles O35: a HOLD that passes the checks of R51 is the work of a held countdown, and what follows that work keeps the
seconds it rendered; the others are refusals. -/
theorem holdFreezesTheCountdown : Obligations.HoldFreezesTheCountdown := by
  refine ⟨?held, fun now tag j s h => ⟨fun hnone => ?noRecord, fun r hr hn => ?notRunning⟩⟩
  case held =>
    rintro now expiry tag r j ms s h hr hs hc rfl
    obtain ⟨t, ht, hbecomes, hshown, hanswers⟩ := takenRequest_accept_becomes h tag (r := .hold r.jump) rfl
      (serveHold_of_running (s := s.setClock now) (State.record_of_only hr) hs hc)
      (holdWork_becomes (s.setClock now) r .jury (ticksLeft expiry now))
      (holdWork_posts (s.setClock now) r .jury (ticksLeft expiry now))
    refine ⟨t, ht, hbecomes, fun n d hd hi => ?_, hanswers⟩
    rw [hshown]
    exact holdWork_countdownShown (s.setClock now) r .jury (ticksLeft expiry now) hd hi
  case noRecord =>
    exact takenRequest_refuse h tag rfl (fun _ => rfl)
      (serveHold_of_no_record (s := s.setClock now) (State.record_eq_none hnone))
  case notRunning =>
    exact takenRequest_refuse h tag rfl (fun _ => rfl)
      (serveHold_of_not_running (s := s.setClock now) (State.record_of_only hr) hn)

end Sys2Proof.Machine
end

