-- ==== Sys2Proof/Proofs/Results.lean ====
section
/-! The results of a distance: each of the five by its own rule of R136 to R142, and how a computation puts them together. -/

namespace Sys2Proof.Machine

/-! Jump wind and wind compensation -/

/-- A summary is included when its sector is defined, has a weight and starts before the distance (R136). -/
theorem includedSectors_eq (sectors : List Sector) (summaries : List Summary) (d : Nat) :
    includedSectors sectors summaries d = summaries.filterMap (fun e => (sectors[e.sector - 1]?).bind (fun sec =>
      if 1 ≤ e.sector ∧ 0 < sec.weight ∧ 2 * sec.start < d then some (sec.weight, e.mean) else none)) := by
  refine List.filterMap_congr fun e _ => ?_
  rcases Nat.eq_zero_or_pos e.sector with hzero | hpos
  · cases sectors[e.sector - 1]? <;> simp [hzero]
  · have hone : 1 ≤ e.sector := hpos
    cases sectors[e.sector - 1]? <;> simp [hpos.ne', hone]

theorem jumpWindOf_eq (inc : List (Nat × Int)) :
    jumpWindOf inc =
      if inc = [] then none
      else some (roundDiv (inc.map (fun x => (x.1 : Int) * x.2)).sum (inc.map (fun x => x.1)).sum) := by
  cases inc <;> rfl

/-- No wind gives no compensation, by either factor (R138). -/
theorem roundDiv_zero (b : Nat) : roundDiv 0 b = 0 := by
  rcases Nat.eq_zero_or_pos b with rfl | hb
  · rfl
  · have hquot : b / (2 * b) = 0 := Nat.div_eq_of_lt (by omega)
    simp [roundDiv, hquot]

theorem windCompOf_head (h : HillRecord) {w : Int} (hw : 0 ≤ w) :
    windCompOf h (some w) = roundDiv (-(w * h.headFactor)) 1000 := by
  rcases hw.eq_or_lt with rfl | hpos
  · simp [windCompOf, roundDiv_zero]
  · exact if_pos hpos

theorem windCompOf_tail (h : HillRecord) {w : Int} (hw : w ≤ 0) :
    windCompOf h (some w) = roundDiv (-(w * h.tailFactor)) 1000 := by
  rcases hw.eq_or_lt with rfl | hneg
  · simp [windCompOf, roundDiv_zero]
  · exact (if_neg hw.not_gt).trans (if_pos hneg)

/-! Points not below 0 -/

theorem toNat_max_zero (x : Int) : (max 0 x).toNat = x.toNat := by omega

theorem distPointsOf_eq (h : HillRecord) (d : Nat) :
    distPointsOf h d = (max 0 ((h.basePoints : Int) + roundDiv (((d : Int) - h.kPoint) * h.metreValue) 20)).toNat :=
  (toNat_max_zero _).symm

theorem totalOf_eq (dist : Nat) (gateComp windComp : Int) :
    totalOf dist gateComp windComp = (max 0 ((dist : Int) + gateComp + windComp)).toNat :=
  (toNat_max_zero _).symm

/-! The computation -/

theorem computeResults_jumpWind (sc : Scoring) (r : Record) (d : Nat) :
    (computeResults sc r d).jumpWind = jumpWindOf (includedSectors sc.sectors r.summaries d) := by
  unfold computeResults
  split <;> rfl

section
variable {sc : Scoring} {h : HillRecord} (hh : sc.hill = some h) (r : Record) (d : Nat)

include hh

theorem computeResults_windComp :
    (computeResults sc r d).windComp = some (windCompOf h (computeResults sc r d).jumpWind) := by
  simp only [computeResults, hh]

theorem computeResults_distPoints : (computeResults sc r d).distPoints = some (distPointsOf h d) := by
  simp only [computeResults, hh]

theorem computeResults_gateComp :
    (computeResults sc r d).gateComp = gateCompOf h sc.refGate (reckonedGate h r d) := by
  simp only [computeResults, hh]

/-- The total is that of the three parts, whichever they are (R142). -/
theorem computeResults_total {dp : Nat} {gc wc : Int} (hdp : (computeResults sc r d).distPoints = some dp)
    (hgc : (computeResults sc r d).gateComp = some gc) (hwc : (computeResults sc r d).windComp = some wc) :
    (computeResults sc r d).total = some (totalOf dp gc wc) := by
  simp only [computeResults, hh, Option.some.injEq] at hdp hgc hwc ⊢
  rw [hdp, hgc, hwc]
  rfl

end

/-- Settles O51: each result of a computation is the one its rule gives. -/
theorem resultsAreComputed : Obligations.ResultsAreComputed := by
  rintro sc h r d inc gate hh rfl rfl
  refine ⟨?jumpWind, fun hnone => ?noWind, fun w hw => ⟨fun hhead => ?head, fun htail => ?tail⟩, ?distPoints,
    fun hunset => ?refUnset, fun ref g href hgate => ?gateComp, fun dp gc wc hdp hgc hwc => ?total⟩
  case jumpWind => rw [computeResults_jumpWind, includedSectors_eq, jumpWindOf_eq]
  case noWind => rw [computeResults_windComp hh, hnone]; rfl
  case head => rw [computeResults_windComp hh, hw, windCompOf_head h hhead]
  case tail => rw [computeResults_windComp hh, hw, windCompOf_tail h htail]
  case distPoints => rw [computeResults_distPoints hh, distPointsOf_eq]
  case refUnset => rw [computeResults_gateComp hh, hunset]; rfl
  case gateComp =>
    have hreckoned : reckonedGate h r d = some g := hgate
    rw [computeResults_gateComp hh, href, hreckoned]
    rfl
  case total => rw [computeResults_total hh r d hdp hgc hwc, totalOf_eq]

end Sys2Proof.Machine
end

