-- ==== Sys2Proof/Proofs/Keeps.lean ====
section
/-! What every event of a block keeps: the waiting commands, the INIT phase, the sizes of the tables, and the links but for
notices posted. Said once per operation, and used for every invariant of a step. -/

namespace Sys2Proof.Machine

/-! Notices posted -/

theorem Posts.refl (s : State) : Posts s s [] := fun _ => rfl

theorem Posts.trans {s t u : State} {ms ns : List Notice} (h : Posts s t ms) (g : Posts t u ns) :
    Posts s u (ms ++ ns) := fun l => by
  rw [g l, h l, Link.posts, Link.posts, Link.posts, List.foldl_append]

theorem Posts.post {s t : State} {ns : List Notice} (h : Posts s t ns) (n : Notice) : Posts s (t.post n) (ns ++ [n]) :=
  h.trans (fun l => State.post_link t n l)

/-- A state whose links are those of `t`. -/
theorem Posts.of_links {s t u : State} {ns : List Notice} (h : Posts s t ns) (hc : u.control = t.control)
    (hk : u.console = t.console) : Posts s u ns := fun l => by
  rw [← h l]
  cases l
  · exact hc
  · exact hk

/-! The tables block by block -/

/-- The jump numbers of a round (R10). -/
def Round.Numbered (r : Round) : Prop :=
  (r.records.map (fun x => x.jump)).Nodup ∧ (∀ x ∈ r.records, 1 ≤ x.jump ∧ x.jump < r.counter) ∧
  1 ≤ r.counter ∧ r.counter ≤ 65535

/-- The sizes of a wind context (R83). -/
def Context.Sized (c : Context) : Prop := c.sums.length = 12 ∧ c.settling.length ≤ 128 ∧ c.trace.length ≤ 512

/-- The sizes of the Wind Station Receiver's tables (R65, R69, R83). -/
def WindRx.Sized (w : WindRx) : Prop :=
  w.stations.length = 12 ∧ w.scanList.length ≤ 16 ∧ w.ctxA.Sized ∧ w.ctxB.Sized

/-- The sizes of the Flight Timing Unit's tables (R109, R117). -/
def Flight.Sized (f : Flight) : Prop := f.units.length = 10 ∧ ∀ w, f.watch = some w → w.kept.length ≤ 8

/-- Every configured panel is sized (R145, R150). -/
def AllSized (panels : List (Option Panel)) : Prop := ∀ p, some p ∈ panels → p.Sized

theorem tablesSized_iff (s : State) :
    TablesSized s ↔ (s.round.table.length = 8 ∧ s.round.startList.length ≤ 96) ∧ s.scoring.sectors.length ≤ 6 ∧
      s.wind.Sized ∧ s.flight.Sized ∧ s.board.panels.length = 8 ∧ s.board.fields.length = 48 := by
  have hctx : (∀ c, (s.wind.ctx c).Sized) ↔ s.wind.ctxA.Sized ∧ s.wind.ctxB.Sized :=
    ⟨fun h => ⟨h .a, h .b⟩, fun h c => by cases c; exacts [h.1, h.2]⟩
  simp only [Context.Sized] at hctx
  simp only [TablesSized, WindRx.Sized, Flight.Sized, hctx, Context.Sized]
  tauto

/-- Nothing that the tables of a step must keep is lost between `s` and `t`. -/
structure KeepsTables (s t : State) : Prop where
  pending : t.pending = s.pending
  table : s.round.table.length = 8 → t.round.table.length = 8
  startList : s.round.startList.length ≤ 96 → t.round.startList.length ≤ 96
  numbered : s.round.Numbered → t.round.Numbered
  sectors : s.scoring.sectors.length ≤ 6 → t.scoring.sectors.length ≤ 6
  wind : s.wind.Sized → t.wind.Sized
  flight : s.flight.Sized → t.flight.Sized
  panels : s.board.panels.length = 8 → t.board.panels.length = 8
  fields : s.board.fields.length = 48 → t.board.fields.length = 48
  shown : s.board.fields.length = 48 → s.board.countdownShown.length = 48 → t.board.countdownShown.length = 48
  allSized : AllSized s.board.panels → AllSized t.board.panels

theorem KeepsTables.refl (s : State) : KeepsTables s s :=
  ⟨rfl, id, id, id, id, id, id, id, id, fun _ => id, id⟩

theorem KeepsTables.trans {s t u : State} (h : KeepsTables s t) (g : KeepsTables t u) : KeepsTables s u where
  pending := g.pending.trans h.pending
  table := g.table ∘ h.table
  startList := g.startList ∘ h.startList
  numbered := g.numbered ∘ h.numbered
  sectors := g.sectors ∘ h.sectors
  wind := g.wind ∘ h.wind
  flight := g.flight ∘ h.flight
  panels := g.panels ∘ h.panels
  fields := g.fields ∘ h.fields
  shown := fun hf hs => g.shown (h.fields hf) (h.shown hf hs)
  allSized := g.allSized ∘ h.allSized

theorem KeepsTables.setLink {s t : State} (h : KeepsTables s t) (l : LinkId) (v : Link) :
    KeepsTables s (t.setLink l v) := by
  cases l
  exacts [h.trans { KeepsTables.refl t with }, h.trans { KeepsTables.refl t with }]

theorem KeepsTables.setInitPhase {s t : State} (h : KeepsTables s t) (v : InitPhase) :
    KeepsTables s (t.setInitPhase v) := h.trans { KeepsTables.refl t with }

/-- A row frame being sent goes on, as it was or with its abort mark (R165). -/
def Board.FrameGoesOn (b b' : Board) : Prop :=
  ∀ f, b.line = .sending f → ∃ aborted, b'.line = .sending { f with aborted := aborted }

theorem Board.FrameGoesOn.of_line {b b' : Board} (h : b'.line = b.line) : b.FrameGoesOn b' :=
  fun f hf => ⟨f.aborted, h.trans hf⟩

theorem Board.FrameGoesOn.of_not_sending {b b' : Board} (h : ∀ f, b.line ≠ .sending f) : b.FrameGoesOn b' :=
  fun f hf => (h f hf).elim

theorem Board.FrameGoesOn.trans {a b c : Board} (h : a.FrameGoesOn b) (g : b.FrameGoesOn c) : a.FrameGoesOn c :=
  fun f hf => by
    obtain ⟨_, hb⟩ := h f hf
    obtain ⟨aborted, hc⟩ := g _ hb
    exact ⟨aborted, hc⟩

/-- `t` is reached from `s` by an event of a block: the tables kept, notices posted, and no INIT taken. -/
structure Works (s t : State) : Prop extends KeepsTables s t where
  initPhase : t.initPhase = s.initPhase
  posts : ∃ ns, Posts s t ns

/-- The work also leaves the frame on the Board Line to be sent to its end. -/
structure Keeps (s t : State) : Prop extends Works s t where
  frame : s.board.FrameGoesOn t.board

theorem Works.refl (s : State) : Works s s := ⟨KeepsTables.refl s, rfl, [], Posts.refl s⟩

theorem Works.trans {s t u : State} (h : Works s t) (g : Works t u) : Works s u where
  toKeepsTables := h.toKeepsTables.trans g.toKeepsTables
  initPhase := g.initPhase.trans h.initPhase
  posts := let ⟨_, hp⟩ := h.posts; let ⟨_, gp⟩ := g.posts; ⟨_, hp.trans gp⟩

theorem Keeps.refl (s : State) : Keeps s s := ⟨Works.refl s, .of_line rfl⟩

theorem Keeps.trans {s t u : State} (h : Keeps s t) (g : Keeps t u) : Keeps s u :=
  ⟨h.toWorks.trans g.toWorks, h.frame.trans g.frame⟩

/-! One builder for each update of the state -/

section
variable {s t : State} (h : Keeps s t)
include h

theorem Keeps.post (n : Notice) : Keeps s (t.post n) :=
  h.trans { Keeps.refl t with posts := ⟨_, (Posts.refl t).post n⟩ }

theorem Keeps.setStart (v : StartLight) : Keeps s (t.setStart v) := h.trans { Keeps.refl t with }

theorem Keeps.setCorridor (v : Corridor) : Keeps s (t.setCorridor v) := h.trans { Keeps.refl t with }

theorem Keeps.setScoring (v : Scoring)
    (hv : t.scoring.sectors.length ≤ 6 → v.sectors.length ≤ 6 := by exact id) : Keeps s (t.setScoring v) :=
  h.trans { Keeps.refl t with sectors := hv }

theorem Keeps.setWind (v : WindRx) (hv : t.wind.Sized → v.Sized := by exact id) : Keeps s (t.setWind v) :=
  h.trans { Keeps.refl t with wind := hv }

theorem Keeps.setFlight (v : Flight) (hv : t.flight.Sized → v.Sized := by exact id) : Keeps s (t.setFlight v) :=
  h.trans { Keeps.refl t with flight := hv }

/-- A round whose table, start list and counter are as they were. -/
theorem Keeps.setRound (v : Round) (ht : v.table = t.round.table := by rfl)
    (hl : v.startList = t.round.startList := by rfl) (hc : v.counter = t.round.counter := by rfl) : Keeps s (t.setRound v) :=
  h.trans { Keeps.refl t with
    table := fun h => (congrArg List.length ht).trans h
    startList := fun h => (congrArg List.length hl).trans_le h
    numbered := fun h => by
      show v.Numbered
      rw [Round.Numbered, Round.records, ht, hc]
      exact h }

theorem Keeps.setStartList {l : List Nat} (hl : t.round.startList.length ≤ 96 → l.length ≤ 96) :
    Keeps s (t.setRound { t.round with startList := l }) :=
  h.trans { Keeps.refl t with startList := hl }

theorem Keeps.modifyRecord (j : Nat) (f : Record → Record)
    (hf : ∀ x, x.jump = j → (f x).jump = j := by exact fun _ hx => hx) :
    Keeps s (t.modifyRecord j f) := by
  have hjump : ∀ x : Record, (if x.jump = j then f x else x).jump = x.jump := fun x => by
    split
    · next hx => rw [hf x hx, hx]
    · rfl
  refine h.trans { Keeps.refl t with table := fun h => ?_, numbered := fun ⟨hnd, hlt, hc⟩ => ?_ }
  · exact (List.length_map _).trans h
  · refine ⟨?_, ?_, hc⟩
    · rw [State.modifyRecord, State.setRound_round, Round.records_modify, List.map_map]
      exact (List.map_congr_left fun x _ => hjump x) ▸ hnd
    · intro x hx
      rw [State.modifyRecord, State.setRound_round, Round.records_modify] at hx
      obtain ⟨y, hy, rfl⟩ := List.mem_map.mp hx
      rw [hjump y]
      exact hlt y hy

theorem Keeps.setBoard {v : Board} (hp : t.board.panels.length = 8 → v.panels.length = 8)
    (hf : t.board.fields.length = 48 → v.fields.length = 48)
    (hs : t.board.fields.length = 48 → t.board.countdownShown.length = 48 → v.countdownShown.length = 48)
    (ha : AllSized t.board.panels → AllSized v.panels)
    (hl : t.board.FrameGoesOn v := by exact .of_line rfl) : Keeps s (t.setBoard v) :=
  h.trans { Keeps.refl t with panels := hp, fields := hf, shown := hs, allSized := ha, frame := hl }

/-- A change of the board that leaves the field map alone. -/
theorem Keeps.setPanels {v : Board} (hf : v.fields = t.board.fields) (hs : v.countdownShown = t.board.countdownShown)
    (hp : v.panels.length = t.board.panels.length) (ha : AllSized t.board.panels → AllSized v.panels)
    (hl : t.board.FrameGoesOn v := by exact .of_line rfl) : Keeps s (t.setBoard v) :=
  h.setBoard (fun g => hp.trans g) (fun g => hf ▸ g) (fun _ g => hs ▸ g) ha hl

theorem Keeps.ite {c : Prop} [Decidable c] {u : State} (h' : Keeps s u) : Keeps s (if c then t else u) := by
  split
  exacts [h, h']

/-! Answers: a refusal changes nothing (R176) -/

theorem Keeps.accept {body : List Field} : Keeps s (accept t body).state := h

theorem Keeps.refuseIf {c : Prop} [Decidable c] {code : ResultCode} {body : List Field} {a : Answer}
    (ha : ¬c → Keeps s a.state) : Keeps s (if c then refuse t code body else a).state := by
  split
  · exact h
  · next hc => exact ha hc

theorem Keeps.elseRefuse {c : Prop} [Decidable c] {code : ResultCode} {body : List Field} {a : Answer}
    (ha : c → Keeps s a.state) : Keeps s (if c then a else refuse t code body).state := by
  split
  · next hc => exact ha hc
  · exact h

end

/-! Panels -/

theorem length_setEntry {α : Type} (l : List (Option α)) (i : Nat) (v : Option α) :
    (setEntry l i v).length = l.length := by
  unfold setEntry
  split
  · rfl
  · exact List.length_set

theorem mem_of_entry {α : Type} {l : List (Option α)} {i : Nat} {a : α} (h : entry l i = some a) : some a ∈ l := by
  unfold entry at h
  split at h
  · cases h
  · exact List.mem_of_getElem? (Option.join_eq_some_iff.mp h)

theorem AllSized.entry {l : List (Option Panel)} (h : AllSized l) {i : Nat} {p : Panel} (hp : entry l i = some p) :
    p.Sized := h p (mem_of_entry hp)

theorem AllSized.setEntry {l : List (Option Panel)} (h : AllSized l) (i : Nat) {v : Option Panel}
    (hv : ∀ p, v = some p → p.Sized) : AllSized (setEntry l i v) := fun p hp => by
  unfold Machine.setEntry at hp
  split at hp
  · exact h p hp
  · rcases List.mem_or_eq_of_mem_set hp with hmem | heq
    exacts [h p hmem, hv p heq.symm]

/-- An entry changed in a way that keeps the size of a panel. -/
theorem AllSized.mapEntry {l : List (Option Panel)} (h : AllSized l) (i : Nat) {f : Panel → Panel}
    (hf : ∀ p : Panel, p.Sized → (f p).Sized) : AllSized (Machine.setEntry l i ((Machine.entry l i).map f)) :=
  h.setEntry i fun p hp => by
    obtain ⟨q, hq, rfl⟩ := Option.map_eq_some_iff.mp hp
    exact hf q (h.entry hq)

theorem Panel.Sized.markRows {p : Panel} (h : p.Sized) (f : Nat → Bool) : (p.markRows f).Sized :=
  ⟨h.1, (markFrom_length f 1 p.marks).trans h.2.1, h.2.2⟩

theorem Panel.Sized.onRow {p : Panel} (h : p.Sized) (row : Nat) (f : RowMarks → RowMarks) : (p.onRow row f).Sized :=
  ⟨h.1, (List.length_modify _ _ _).trans h.2.1, h.2.2⟩

theorem Board.dirty_panels_length (b : Board) (i : Nat) (rows : List Nat) :
    (b.dirty i rows).panels.length = b.panels.length := by
  cases rows
  · rfl
  · exact length_setEntry _ _ _

theorem Board.dirty_allSized {b : Board} (i : Nat) (rows : List Nat) (h : AllSized b.panels) :
    AllSized (b.dirty i rows).panels := by
  cases rows
  · exact h
  · exact h.mapEntry i fun p hp => hp.markRows _

theorem Board.dirty_frameGoesOn (b : Board) (i : Nat) (rows : List Nat) : b.FrameGoesOn (b.dirty i rows) := by
  cases rows with
  | nil => exact .of_line rfl
  | cons row rows =>
    intro f hf
    by_cases hrow : f.panel = i ∧ f.row ∈ row :: rows
    · exact ⟨true, by simp only [Board.dirty, abortRows, hf, hrow, and_self, if_true]⟩
    · exact ⟨f.aborted, by simp only [Board.dirty, abortRows, hf, hrow, if_false]⟩

/-! Bringing the board up to date -/

theorem Keeps.markChanged {s t : State} (h : Keeps s t) (old : State) : Keeps s (markChanged old t) := by
  refine h.setPanels (markChanged_kept old t).1 (markChanged_countdownShown old t) ?length ?sized ?line
  case length =>
    exact List.foldlRecOn (motive := fun b : Board => b.panels.length = t.board.panels.length) panelIndices _ rfl
      fun b hb i _ => (b.dirty_panels_length i _).trans hb
  case sized =>
    exact fun ha => List.foldlRecOn (motive := fun b : Board => AllSized b.panels) panelIndices _ ha
      fun b hb i _ => Board.dirty_allSized i _ hb
  case line =>
    exact List.foldlRecOn (motive := fun b : Board => t.board.FrameGoesOn b) panelIndices _ (.of_line rfl)
      fun b hb i _ => hb.trans (b.dirty_frameGoesOn i _)

theorem Keeps.startFrame {s t : State} (h : Keeps s t) {i : Nat} {pn : Panel}
    (hp : entry t.board.panels i = some pn) (hfree : t.board.line = .free) : Keeps s (startFrame t i pn) :=
  h.setPanels rfl rfl (length_setEntry _ _ _)
    (fun ha => ha.setEntry i fun _ hq => Option.some.inj hq ▸ (ha.entry hp).onRow _ _)
    (.of_not_sending fun f hf => by rw [hfree] at hf; cases hf)

theorem Keeps.arbiterChoice {s t : State} (h : Keeps s t) : Keeps s (arbiterChoice t) := by
  unfold Machine.arbiterChoice
  split
  · next hfree =>
      split
      · next hi => exact h.startFrame (firstEligible_entry hi) hfree
      · exact h
  · exact h
  · exact h

theorem Keeps.boardSync {s t : State} (h : Keeps s t) (m : Bool) (old : State) : Keeps s (boardSync m old t) := by
  unfold Machine.boardSync
  simp only
  exact (h.markChanged old).arbiterChoice.ite (h.markChanged old)

/-! The shared operations -/

theorem Context.empty_sized (m : OpenMark) : (Context.empty m).Sized := ⟨rfl, Nat.zero_le _, Nat.zero_le _⟩

theorem WindRx.Sized.setCtx {w : WindRx} (hw : w.Sized) (c : Ctx) {v : Context} (hv : v.Sized) :
    (w.setCtx c v).Sized := by
  obtain ⟨hst, hsc, ha, hb⟩ := hw
  cases c
  exacts [⟨hst, hsc, hv, hb⟩, ⟨hst, hsc, ha, hv⟩]

theorem WindRx.Sized.ctx {w : WindRx} (hw : w.Sized) (c : Ctx) : (w.ctx c).Sized := by
  obtain ⟨-, -, ha, hb⟩ := hw
  cases c
  exacts [ha, hb]

section
variable {s t : State} (h : Keeps s t)
include h

theorem Keeps.showCountdown : Keeps s t.showCountdown :=
  h.setBoard id id (fun hf _ => (List.length_map _).trans hf) id

theorem Keeps.toLight (light : Light) (bib remaining : Option Nat) : Keeps s (t.toLight light bib remaining) :=
  ((h.setStart _).showCountdown).post _

theorem Keeps.toGate (g : Nat) (staged : Option (Nat × Nat)) : Keeps s (t.toGate g staged) :=
  (h.setStart _).ite (h.setStart _).showCountdown

theorem Keeps.toCountdown (c : Countdown) : Keeps s (t.toCountdown c) := (h.setStart _).showCountdown

theorem Keeps.applyStaged (j : Nat) : Keeps s (t.applyStaged j) := by
  unfold State.applyStaged
  split
  · exact ((h.toGate _ _).post _).ite h
  · exact h

theorem Keeps.setBinding (c : Ctx) (v : Option Nat) : Keeps s (t.setRound (t.round.setBinding c v)) := by
  cases c <;> exact h.setRound _

theorem Keeps.bindCtx (c : Ctx) (j : Nat) : Keeps s (t.bindCtx c j) :=
  ((h.setBinding c _).modifyRecord j _).setWind _ fun hw => hw.setCtx c (Context.empty_sized _)

theorem Keeps.freeCtxOf (j : Nat) : Keeps s (t.freeCtxOf j) := by
  unfold State.freeCtxOf
  split
  · next c _ =>
      exact ((h.setBinding c _).modifyRecord j _).setWind _ fun hw => hw.setCtx c (Context.empty_sized _)
  · exact h

theorem Keeps.startClearance (expiry : HillTime) : Keeps s (t.startClearance expiry) := h.setRound _

theorem Keeps.publish (r : Record) : Keeps s (t.publish r) :=
  (((h.modifyRecord r.jump _).freeCtxOf r.jump).markChanged t).post _

end

theorem Keeps.publishLoop {s t : State} (h : Keeps s t) (n : Nat) : Keeps s (publishLoop n t) := by
  induction n generalizing t with
  | zero => exact h
  | succ n ih =>
    unfold Machine.publishLoop
    split
    · exact ih (h.publish _)
    · exact h

theorem Keeps.publicationCheck {s t : State} (h : Keeps s t) : Keeps s t.publicationCheck := h.publishLoop _

section
variable {s t : State} (h : Keeps s t)
include h

theorem Keeps.stopTimersOf (st : RecState) : Keeps s (t.stopTimersOf st) := by
  cases st
  case released => exact h.toCountdown _
  case inrun => exact h.setFlight _
  case airborne => exact h.setFlight _ fun hf => ⟨hf.1, nofun⟩
  all_goals exact h

theorem Keeps.voidLights (r : Record) (remaining : Option Nat) : Keeps s (t.voidLights r remaining) := by
  unfold State.voidLights
  split
  iterate 2 exact h.toLight _ _ _
  all_goals exact h

theorem Keeps.voidRecord (r : Record) (reason : VoidReason) (requeued lights : Bool) :
    Keeps s (t.voidRecord r reason requeued lights) := by
  have h2 := (((h.stopTimersOf r.state).modifyRecord r.jump (fun x =>
    { x with state := .voided, voidReason := some reason, remaining := t.voidRemaining r })).freeCtxOf r.jump).markChanged t
    |>.post (.voided r.jump r.bib r.state reason requeued)
  have h3 := (h2.voidLights r (t.voidRemaining r)).ite (c := lights = true) h2
  have h4 := (h3.applyStaged r.jump).ite (c := r.state.stages = true) h3
  exact ((h4.startClearance _).ite (c := r.state.onHill = true) h4).publicationCheck

end

/-! What a step must keep -/

/-- What a command other than the resets by supply or pin does once taken: it keeps the tables and the links. -/
structure SafeEvent (f : State → State) : Prop where
  tables : ∀ s, KeepsTables s (f s)
  links : ∀ s, LinksSound s → LinksSound (f s)

end Sys2Proof.Machine
end

