-- ==== Sys2Proof/Proofs/KeepsRequests.lean ====
section
/-! What the owning block of a request keeps, request by request. -/

namespace Sys2Proof.Machine

/-! What a void leaves of the start list -/

@[simp] theorem State.freeCtxOf_startList (s : State) (j : Nat) :
    (s.freeCtxOf j).round.startList = s.round.startList := by
  unfold State.freeCtxOf
  split
  · next c _ => cases c <;> rfl
  · rfl

@[simp] theorem State.applyStaged_round (s : State) (j : Nat) : (s.applyStaged j).round = s.round := by
  unfold State.applyStaged
  split
  · split
    · rw [State.post_round, State.toGate_eq]
    · rfl
  · rfl

@[simp] theorem State.stopTimersOf_round (s : State) (st : RecState) : (s.stopTimersOf st).round = s.round := by
  cases st <;> rfl

@[simp] theorem State.voidLights_round (s : State) (r : Record) (v : Option Nat) :
    (s.voidLights r v).round = s.round := by
  unfold State.voidLights
  split <;> rfl

theorem State.publicationCheck_startList (s : State) : s.publicationCheck.round.startList = s.round.startList := by
  have hloop : ∀ n (t : State), (publishLoop n t).round.startList = t.round.startList := by
    intro n
    induction n with
    | zero => exact fun _ => rfl
    | succ n ih =>
      intro t
      unfold publishLoop
      split
      · rw [ih, State.publish, State.post_round, markChanged_round, State.freeCtxOf_startList]
        rfl
      · rfl
  exact hloop _ s

theorem State.voidRecord_startList (s : State) (r : Record) (reason : VoidReason) (requeued lights : Bool) :
    (s.voidRecord r reason requeued lights).round.startList = s.round.startList := by
  have hif : ∀ (c : Bool) (a b : State), (if c then a else b).round.startList =
      if c then a.round.startList else b.round.startList := fun c a b => by cases c <;> rfl
  simp only [State.voidRecord, State.publicationCheck_startList, hif, State.startClearance, State.applyStaged_round,
    State.voidLights_round, State.post_round, markChanged_round, State.freeCtxOf_startList, State.setRound_round,
    State.modifyRecord, Round.modify_startList, State.stopTimersOf_round, ite_self]

/-! Jump numbers of a table with a new record -/

/-- A record with the counter as its number, put into any slot, is numbered (R10, R14). -/
theorem Round.Numbered.call {r : Round} (h : r.Numbered) (hc : r.counter ≤ 65534) {n : Record}
    (hn : n.jump = r.counter) (slot : Option Nat) (l : List Nat) :
    Round.Numbered { r with
      startList := l, counter := r.counter + 1
      table := match slot with | some i => r.table.set i (some n) | none => r.table } := by
  obtain ⟨hnd, hlt, h1, -⟩ := h
  have hlow : ∀ x ∈ r.records, 1 ≤ x.jump ∧ x.jump < r.counter + 1 :=
    fun x hx => ⟨(hlt x hx).1, Nat.lt_succ_of_lt (hlt x hx).2⟩
  cases slot with
  | none => exact ⟨hnd, hlow, Nat.le_add_left 1 _, Nat.succ_le_succ hc⟩
  | some i =>
    by_cases hi : i < r.table.length
    · have hset : (r.table.set i (some n)).filterMap id =
          (r.table.take i).filterMap id ++ n :: (r.table.drop (i + 1)).filterMap id := by
        rw [List.set_eq_take_append_cons_drop, if_pos hi, List.filterMap_append]
        rfl
      have hsub : ((r.table.take i).filterMap id ++ (r.table.drop (i + 1)).filterMap id).Sublist r.records := by
        rw [← List.filterMap_append, ← List.eraseIdx_eq_take_drop_succ]
        exact (List.eraseIdx_sublist _ _).filterMap id
      refine ⟨?_, ?_, Nat.le_add_left 1 _, Nat.succ_le_succ hc⟩
      · simp only [Round.records, hset, List.map_append, List.map_cons]
        rw [List.nodup_middle, List.nodup_cons, ← List.map_append]
        refine ⟨fun hmem => ?_, (hsub.map _).nodup hnd⟩
        obtain ⟨x, hx, hxj⟩ := List.mem_map.mp hmem
        exact absurd (hlt x (hsub.subset hx)).2 (by omega)
      · intro x hx
        simp only [Round.records, hset] at hx
        rcases List.mem_append.mp hx with hx | hx
        · exact hlow x (hsub.subset (List.mem_append_left _ hx))
        · rcases List.mem_cons.mp hx with rfl | hx
          · exact ⟨by omega, by simp [hn]⟩
          · exact hlow x (hsub.subset (List.mem_append_right _ hx))
    · have hset : r.table.set i (some n) = r.table := List.set_eq_of_length_le (by omega)
      simp only [hset]
      exact ⟨hnd, hlow, Nat.le_add_left 1 _, Nat.succ_le_succ hc⟩

/-- An empty table with the counter at 1 (R3, R25). -/
theorem Round.numbered_of_empty {r : Round} (ht : r.table = List.replicate 8 none) (hc : r.counter = 1) :
    r.Numbered := by
  have hr : r.records = [] := by rw [Round.records, ht]; rfl
  exact ⟨by simp [hr], by simp [hr], by omega, by omega⟩

/-! What each edit keeps of the size of its table -/

theorem sectFault_none_count {count : Nat} {es : List (Nat × Nat)} (h : sectFault count es = none) : count ≤ 6 := by
  unfold sectFault at h
  split at h
  · cases h
  · omega

/-- An entry of the station table replaced. -/
theorem WindRx.Sized.setStation {w : WindRx} (hw : w.Sized) (i : Nat) (v : Option Station) :
    WindRx.Sized { w with stations := setEntry w.stations i v } :=
  ⟨(length_setEntry _ _ _).trans hw.1, hw.2⟩

theorem Flight.Sized.setUnit {f : Flight} (hf : f.Sized) (i : Nat) (v : Option StripUnit) :
    Flight.Sized { f with units := setEntry f.units i v } := ⟨(length_setEntry _ _ _).trans hf.1, hf.2⟩

theorem Board.disturb_fields (b : Board) (i : Nat) :
    (b.disturb i).fields = b.fields ∧ (b.disturb i).countdownShown = b.countdownShown ∧
    (b.disturb i).panels.length = b.panels.length ∧ (AllSized b.panels → AllSized (b.disturb i).panels) ∧
    b.FrameGoesOn (b.disturb i) := by
  cases hl : b.line with
  | free =>
    simp only [Board.disturb, hl]
    exact ⟨trivial, trivial, trivial, id, .of_line rfl⟩
  | sending f =>
    by_cases hf : f.panel = i
    · subst hf
      simp only [Board.disturb, hl, if_true]
      exact ⟨trivial, trivial, trivial, id, fun g hg => ⟨true, by rw [← BoardLine.sending.inj (hl.symm.trans hg)]⟩⟩
    · simp only [Board.disturb, hl, hf, if_false]
      exact ⟨trivial, trivial, trivial, id, .of_line rfl⟩
  | window f stop =>
    have hno : b.FrameGoesOn (b.disturb i) := .of_not_sending fun g hg => by rw [hl] at hg; cases hg
    by_cases hf : f.panel = i
    · refine ⟨?_, ?_, ?_, ?_, hno⟩ <;> simp only [Board.disturb, hl, hf, if_true, length_setEntry]
      exact fun ha => ha.mapEntry i fun p hp => hp.onRow _ _
    · refine ⟨?_, ?_, ?_, ?_, hno⟩ <;> simp only [Board.disturb, hl, hf, if_false, imp_self]

theorem configuredPanel_sized (f : PanlFields) (rights : Rights) (enabled : Bool) :
    (configuredPanel f rights enabled).Sized :=
  ⟨List.length_replicate, List.length_replicate, fun b hb => by rw [(List.mem_replicate.mp hb).2]; decide⟩

theorem updatedPanel_sized {p : Panel} (hp : p.Sized) (rights : Rights) (enabled : Bool) :
    (updatedPanel p rights enabled).Sized := by
  unfold updatedPanel
  split_ifs
  · exact hp
  · exact Panel.Sized.markRows hp _
  · exact hp

theorem pageChar_printable (b : Byte) : 0x20 ≤ (pageChar b).toNat ∧ (pageChar b).toNat ≤ 0x7E := by
  unfold pageChar
  split
  · assumption
  · decide

/-- A write that ends within the page keeps its size and its characters printable (R150, R151). -/
theorem writePage_sized {p : Panel} (hp : p.Sized) {row column : Nat} (hr : 1 ≤ row ∧ row ≤ p.rows)
    (hc : 1 ≤ column ∧ column ≤ p.columns) (chars : List Byte) :
    Panel.Sized { p with
      page := writePage p.page (cellPos p row column) (storedChars p (cellPos p row column) chars) } := by
  obtain ⟨hpage, hmarks, hchars⟩ := hp
  have hpos : cellPos p row column < p.rows * p.columns := by
    have hmul : (row - 1 + 1) * p.columns ≤ p.rows * p.columns := Nat.mul_le_mul_right _ (by omega)
    rw [Nat.add_mul] at hmul
    unfold cellPos
    omega
  refine ⟨?_, hmarks, ?_⟩
  · simp only [writePage, storedChars, List.length_append, List.length_take, List.length_drop, List.length_map]
    omega
  · intro b hb
    simp only [writePage, storedChars, List.mem_append] at hb
    rcases hb with (hb | hb) | hb
    · exact hchars b (List.mem_of_mem_take hb)
    · obtain ⟨c, -, rfl⟩ := List.mem_map.mp hb
      exact pageChar_printable c
    · exact hchars b (List.mem_of_mem_drop hb)

theorem refGateAfterRelease_sectors (sc : Scoring) (g : Nat) : (refGateAfterRelease sc g).sectors = sc.sectors := by
  unfold refGateAfterRelease
  split
  · split <;> rfl
  · rfl

section
variable {s t : State} (h : Keeps s t)
include h

/-! The hill, the sectors, the READY evaluation -/

theorem Keeps.evaluateReady : Keeps s t.evaluateReady := by
  have hflight : t.flight.Sized → (resumeStrip t.flight t.clock).Sized := by
    unfold resumeStrip beginStripSlot
    split
    · exact id
    · split <;> exact id
  have hwind : t.wind.Sized → (stopPolling t.wind).Sized := by
    unfold stopPolling
    split <;> exact id
  unfold State.evaluateReady
  split
  · exact h
  all_goals
    split
    exacts [(h.setRound _).setFlight _ hflight, (h.setRound _).setWind _ hwind]

theorem Keeps.followRange (lowest highest : Nat) : Keeps s (t.followRange lowest highest) :=
  h.ite ((h.toGate _ _).post _)

theorem Keeps.serveHill (f : HillFields) : Keeps s (serveHill t f).state := by
  unfold Machine.serveHill
  split
  · exact h
  · split
    · exact h
    · exact (h.setScoring _).evaluateReady.followRange _ _

theorem Keeps.serveSect (count : Nat) (es : List (Nat × Nat)) : Keeps s (serveSect t count es).state := by
  unfold Machine.serveSect
  split
  · exact h
  · split
    · exact h
    · next hf =>
        refine (h.setScoring _ fun _ => ?_).evaluateReady
        have hc := sectFault_none_count hf
        simp
        omega

/-! The stations and the scan list -/

theorem Keeps.noteStation (i a : Nat) (b c : Option StationState) (cause : StnaCause) (fl : StationFlags) :
    Keeps s (t.noteStation i a b c cause fl) := h.ite (h.post _)

theorem Keeps.stnConfigure (i : Nat) (f : StnFields) : Keeps s (stnConfigure t i f).state := by
  refine h.refuseIf fun _ => h.refuseIf fun _ => h.refuseIf fun _ => h.refuseIf fun _ => ?_
  exact ((h.setWind _ fun hw => by exact hw.setStation i _).noteStation _ _ _ _ _ _).evaluateReady

theorem Keeps.stnUpdate (i : Nat) (f : StnFields) : Keeps s (stnUpdate t i f).state := by
  refine h.refuseIf fun _ => ?_
  split
  · exact h
  · refine h.refuseIf fun _ => ((h.setWind _ fun hw => ?_).noteStation _ _ _ _ _ _).evaluateReady
    split_ifs <;> exact hw.setStation i _

theorem Keeps.stnRemove (i : Nat) : Keeps s (stnRemove t i).state := by
  refine h.refuseIf fun _ => h.refuseIf fun _ => ?_
  split
  · exact h
  · refine ((h.setWind _ fun hw => ?_).noteStation _ _ _ _ _ _).evaluateReady
    exact ⟨(length_setEntry _ _ _).trans hw.1, (List.length_filter_le _ _).trans hw.2.1, hw.2.2⟩

theorem Keeps.serveStn (i action : Nat) (f : StnFields) : Keeps s (serveStn t i action f).state := by
  unfold Machine.serveStn
  split
  exacts [h.stnConfigure i f, h.stnUpdate i f, h.stnRemove i, h]

theorem Keeps.scanWork (f : ScanFields) {l : List Nat} (hl : t.wind.scanList.length ≤ 16 → l.length ≤ 16) :
    Keeps s (scanWork t f l).state :=
  h.setWind _ fun ⟨hst, hsc, hctx⟩ => ⟨hst, hl hsc, hctx⟩

theorem Keeps.serveScan (mode : Nat) (f : ScanFields) : Keeps s (serveScan t mode f).state := by
  unfold Machine.serveScan
  split
  · exact h.elseRefuse fun hfit => h.scanWork f fun _ => hfit.2.1.2
  · exact h.elseRefuse fun _ => h.elseRefuse fun hlen => h.scanWork f fun _ => by simpa using hlen
  · exact h.elseRefuse fun _ => h.scanWork f id
  · exact h

/-! Settings -/

theorem Keeps.serveCorr (f : CorrFields) : Keeps s (serveCorr t f).state := by
  unfold Machine.serveCorr
  split
  exacts [h, h.setCorridor _]

theorem Keeps.serveTims (f : TimsFields) : Keeps s (serveTims t f).state := by
  unfold Machine.serveTims
  split
  exacts [h, h.setStart _]

theorem Keeps.serveBase (v : Nat) : Keeps s (serveBase t v).state := by
  exact h.refuseIf fun _ => h.elseRefuse fun _ => h.setFlight _

theorem Keeps.serveTrap (v : Nat) : Keeps s (serveTrap t v).state := by
  exact h.refuseIf fun _ => h.elseRefuse fun _ => h.setFlight _

/-! The strip units -/

theorem Keeps.noteUnit (i a : Nat) (b c : Option UnitState) (cause : UntaCause) :
    Keeps s (t.noteUnit i a b c cause) := h.ite (h.post _)

theorem Keeps.unitConfigure (i : Nat) (f : UnitFields) : Keeps s (unitConfigure t i f).state := by
  refine h.refuseIf fun _ => h.refuseIf fun _ => ?_
  split
  · exact h
  · refine h.refuseIf fun _ => h.refuseIf fun _ => h.refuseIf fun _ => ?_
    exact ((h.setFlight _ fun hf => by exact hf.setUnit i _).noteUnit _ _ _ _ _).evaluateReady

theorem Keeps.unitRemove (i : Nat) : Keeps s (unitRemove t i).state := by
  refine h.refuseIf fun _ => h.refuseIf fun _ => ?_
  split
  · exact h
  · exact ((h.setFlight _ fun hf => by exact hf.setUnit i _).noteUnit _ _ _ _ _).evaluateReady

theorem Keeps.serveUnit (i action : Nat) (f : UnitFields) : Keeps s (serveUnit t i action f).state := by
  unfold Machine.serveUnit
  split
  exacts [h.unitConfigure i f, h.unitRemove i, h.refuseIf fun _ => h]

/-! The panels and the field map -/

theorem Keeps.notePanel (i a : Nat) (b c : Option PanelState) (cause : PanaCause) (m k : Nat) :
    Keeps s (t.notePanel i a b c cause m k) := h.ite (h.post _)

/-- The board disturbed by a PANL, one of its entries replaced. -/
theorem Keeps.disturbed (i : Nat) {v : Option Panel}
    (hv : AllSized t.board.panels → AllSized (t.board.disturb i).panels → ∀ p, v = some p → p.Sized) :
    Keeps s (t.setBoard { t.board.disturb i with panels := setEntry (t.board.disturb i).panels i v }) := by
  obtain ⟨hf, hs, hp, ha, hl⟩ := t.board.disturb_fields i
  exact h.setPanels hf hs ((length_setEntry _ _ _).trans hp) (fun hall => (ha hall).setEntry i (hv hall (ha hall))) hl

theorem Keeps.panlConfigure (i : Nat) (f : PanlFields) : Keeps s (panlConfigure t i f).state := by
  refine h.refuseIf fun _ => ?_
  split
  · refine h.refuseIf fun _ => h.refuseIf fun _ => h.refuseIf fun _ => ?_
    refine Keeps.notePanel (h.disturbed i fun _ _ p hp => ?_) _ _ _ _ _ _ _
    exact Option.some.inj hp ▸ configuredPanel_sized f _ _
  · exact h

theorem Keeps.panlUpdate (i : Nat) (f : PanlFields) : Keeps s (panlUpdate t i f).state := by
  refine h.refuseIf fun _ => ?_
  split
  · next rights enabled _ _ =>
      split
      · exact h
      · next pn hpn =>
          have hupdated : ∀ l : List (Option Panel), AllSized t.board.panels → AllSized l →
              ∀ p, some (updatedPanel ((entry l i).getD pn) rights enabled) = some p → p.Sized := by
            intro l ha hl p hp
            obtain rfl := Option.some.inj hp
            apply updatedPanel_sized
            cases hq : entry l i with
            | none => exact ha.entry hpn
            | some q => exact hl.entry hq
          have hboard : Keeps s (t.setBoard (
              let b := if pn.enabled = true ∧ enabled = false then t.board.disturb i else t.board
              { b with panels := setEntry b.panels i (some (updatedPanel ((entry b.panels i).getD pn) rights enabled)) })) := by
            split
            · exact h.disturbed i (hupdated _)
            · exact h.setPanels rfl rfl (length_setEntry _ _ _) fun ha => ha.setEntry i (hupdated _ ha ha)
          exact hboard.ite (hboard.notePanel _ _ _ _ _ _ _)
  · exact h

theorem Keeps.panlRemove (i : Nat) : Keeps s (panlRemove t i).state := by
  refine h.refuseIf fun _ => ?_
  split
  · exact h
  · have hnone : ∀ p : Panel, (none : Option Panel) = some p → p.Sized := nofun
    exact h.refuseIf fun _ => Keeps.accept ((h.disturbed i fun _ _ => hnone).notePanel _ _ _ _ _ _ _)

theorem Keeps.panlPeriod (period : Nat) : Keeps s (panlPeriod t period).state :=
  h.elseRefuse fun _ => h.setPanels rfl rfl rfl id

theorem Keeps.servePanl (i action : Nat) (f : PanlFields) : Keeps s (servePanl t i action f).state := by
  unfold Machine.servePanl
  split
  exacts [h.panlConfigure i f, h.panlUpdate i f, h.panlRemove i, h.panlPeriod _, h]

theorem Keeps.fldSet (i : Nat) (f : FldFields) : Keeps s (fldSet t i f).state := by
  refine h.refuseIf fun _ => ?_
  split
  · exact h
  · refine h.refuseIf fun _ => ?_
    split
    · exact h
    · exact h.refuseIf fun _ =>
        h.setBoard id (length_setEntry _ _ _).trans (fun _ => (length_setEntry _ _ _).trans) id

theorem Keeps.fldClear (i : Nat) : Keeps s (fldClear t i).state := by
  refine h.elseRefuse fun _ => ?_
  rcases hd : entry t.board.fields i with _ | d
  · rw [Board.clearField_of_none hd]
    exact h.setPanels rfl rfl rfl id
  · rw [Board.clearField_of_some hd]
    exact h.setBoard id (length_setEntry _ _ _).trans (fun _ => (length_setEntry _ _ _).trans) id

theorem Keeps.serveFld (i action : Nat) (f : FldFields) : Keeps s (serveFld t i action f).state := by
  unfold Machine.serveFld
  split
  exacts [h.fldSet i f, h.fldClear i, h]

theorem Keeps.servePage (l : LinkId) (i row column : Nat) (chars : List Byte) :
    Keeps s (servePage t l i row column chars).state := by
  refine h.refuseIf fun _ => ?_
  split
  · exact h
  · next pn hpn =>
      refine h.elseRefuse fun _ => h.elseRefuse fun hfit => ?_
      exact h.setPanels rfl rfl (length_setEntry _ _ _) fun ha => ha.setEntry i fun p hp =>
        Option.some.inj hp ▸ writePage_sized (ha.entry hpn) hfit.1 hfit.2.1 chars

/-! The start -/

theorem Keeps.releaseWork (r : Record) (o : Bool) (c : Ctx) : Keeps s (releaseWork t r o c).state := by
  refine Keeps.toLight (Keeps.toCountdown (Keeps.setScoring ((h.bindCtx c r.jump).modifyRecord _ _) _ ?_) _) _ _ _
  exact fun hn => (congrArg List.length (refGateAfterRelease_sectors _ _)).trans_le hn

theorem Keeps.serveRels (j : Nat) (o : Bool) : Keeps s (serveRels t j o).state := by
  refine h.elseRefuse fun _ => ?_
  split
  · exact h
  · split
    · refine h.elseRefuse fun _ => ?_
      split
      · exact h.elseRefuse fun _ => h.releaseWork _ o _
      · exact h
    · exact h.elseRefuse fun _ => ((h.modifyRecord _ _).toCountdown _).toLight _ _ _
    · exact h

theorem Keeps.holdWork (r : Record) (cause : HoldCause) (ticks : Nat) : Keeps s (holdWork t r cause ticks) :=
  ((h.toCountdown _).modifyRecord _ _).toLight _ _ _

theorem Keeps.serveHold (j : Nat) : Keeps s (serveHold t j).state := by
  unfold Machine.serveHold
  split
  · exact h
  · split
    exacts [h.holdWork _ _ _, h]

theorem Keeps.serveGate (g : Nat) : Keeps s (serveGate t g).state := by
  refine h.elseRefuse fun _ => ?_
  split
  exacts [(h.toGate _ _).post _, h.setStart _]

theorem Keeps.serveRduc (j g : Nat) : Keeps s (serveRduc t j g).state := by
  unfold Machine.serveRduc
  split
  · exact h
  · exact h.elseRefuse fun _ => h.elseRefuse fun _ => h.modifyRecord _ _

/-! The round -/

theorem Keeps.serveOpen : Keeps s (serveOpen t).state := by
  unfold Machine.serveOpen
  split
  · exact h
  · exact h
  · have hround : Keeps s (t.setRound { t.round with part := .round, table := List.replicate 8 none, counter := 1 }) :=
      h.trans { Keeps.refl t with
        table := fun _ => rfl, numbered := fun _ => Round.numbered_of_empty rfl rfl }
    exact (hround.setScoring _).toLight _ _ _

theorem Keeps.shutTake (j : Nat) : Keeps s (shutTake t j) := by
  unfold Machine.shutTake
  split
  · exact (h.voidRecord _ _ _ _).ite h
  · exact h

theorem Keeps.serveShut : Keeps s (serveShut t).state := by
  refine h.elseRefuse fun _ => h.refuseIf fun _ => ?_
  have htaken : Keeps s (((sortByJump t.round.records).map (fun r => r.jump)).foldl Machine.shutTake t) :=
    List.foldlRecOn (motive := fun u : State => Keeps s u) _ _ h fun u hu j _ => hu.shutTake j
  exact (htaken.setRound _).toLight _ _ _

theorem Keeps.serveList (clear : Bool) (bibs : List Nat) : Keeps s (serveList t clear bibs).state := by
  refine h.elseRefuse fun _ => h.refuseIf fun _ => h.refuseIf fun hlen => h.setStartList fun _ => ?_
  rw [List.length_append]
  omega

theorem Keeps.serveDrop (bib : Nat) : Keeps s (serveDrop t bib).state :=
  h.elseRefuse fun _ => h.elseRefuse fun _ => h.setStartList fun hl => List.length_erase_le.trans hl

theorem Keeps.callWork (bib : Nat) (hc : t.round.counter ≤ 65534) : Keeps s (callWork t bib).state := by
  have hround : Keeps s (t.setRound { t.round with
      startList := t.round.startList.erase bib, counter := t.round.counter + 1
      table := match callSlot t.round.table with
        | some i => t.round.table.set i (some (newRecord t.round.counter bib t.clock))
        | none => t.round.table }) := by
    refine h.trans { Keeps.refl t with
      table := fun ht => ?table
      startList := fun hl => List.length_erase_le.trans hl
      numbered := fun hn => Round.Numbered.call (n := newRecord t.round.counter bib t.clock) hn hc rfl _ _ }
    cases hslot : callSlot t.round.table <;> simpa [hslot] using ht
  exact hround.toLight _ _ _

theorem Keeps.serveCall (bib : Option Nat) : Keeps s (serveCall t bib).state := by
  refine h.elseRefuse fun _ => h.elseRefuse fun _ => h.refuseIf fun _ => ?_
  split
  · exact h
  · exact h.elseRefuse fun hc => h.callWork _ hc

theorem Keeps.serveVoid (j : Nat) (requeue : Bool) : Keeps s (serveVoid t j requeue).state := by
  unfold Machine.serveVoid
  split
  · exact h
  · refine h.refuseIf fun _ => h.refuseIf fun hfull => ?_
    cases requeue
    · exact h.voidRecord _ _ _ _
    · refine (h.voidRecord _ _ _ _).setStartList fun _ => ?_
      rw [State.voidRecord_startList, List.length_cons]
      exact Nat.succ_le_of_lt (by simpa using hfull)

/-! Results and queries -/

theorem Keeps.confWork (r : Record) (d : Nat) : Keeps s (confWork t r d).state :=
  ((h.modifyRecord _ _).markChanged t).publicationCheck

theorem Keeps.serveConf (j : Nat) (d : Option Nat) : Keeps s (serveConf t j d).state := by
  unfold Machine.serveConf
  split
  · exact h
  · refine h.elseRefuse fun _ => ?_
    split
    · exact h.elseRefuse fun _ => h.confWork _ _
    · split
      exacts [h.confWork _ _, h]

theorem Keeps.serveRevw (j : Nat) : Keeps s (serveRevw t j).state := by
  unfold Machine.serveRevw
  split
  · exact h
  · split
    · exact h.modifyRecord _ _
    all_goals exact h

theorem Keeps.serveAmnd (j d : Nat) : Keeps s (serveAmnd t j d).state := by
  unfold Machine.serveAmnd
  split
  · exact h
  · exact h.elseRefuse fun _ => h.elseRefuse fun _ => (h.modifyRecord _ _).post _

end

theorem serveJump_state (s : State) (j : Nat) : (serveJump s j).state = s := by
  unfold serveJump
  split <;> rfl

theorem serveTrce_state (s : State) (j start : Nat) : (serveTrce s j start).state = s := by
  unfold serveTrce
  split
  · rfl
  · split <;> rfl

theorem serveCell_state (s : State) (i row column count : Nat) : (serveCell s i row column count).state = s := by
  unfold serveCell
  split
  · rfl
  · split
    · rfl
    · split <;> rfl

end Sys2Proof.Machine
end

