-- ==== Sys2Proof/Proofs/KeepsEvents.lean ====
section
/-! What the events of the blocks keep: timers, contacts and the frames of the device lines. -/

namespace Sys2Proof.Machine

/-! The kinds of events -/

/-- What a command that is taken does: the work of a block with the board brought up to date behind it, or one of the
events of the links. -/
inductive EventKind : (State → State) → Prop where
  | block (m : State → Bool) {w : State → State} (h : ∀ s, Keeps s (w s)) : EventKind (fun s => boardSync (m s) s (w s))
  | rowFrameEnd : EventKind (withBoard rowFrameEndEvent)
  | request (l : LinkId) (tag : Byte) (r : Request) : EventKind (fun s => requestEvent s l tag r)
  | unknownType (l : LinkId) (type tag : Byte) (body : List Byte) :
      EventKind (fun s => unknownTypeEvent s l type tag body)
  | byte (l : LinkId) (b : Byte) : EventKind (receiveByte l · b)
  | gap (l : LinkId) : EventKind (linkGapEvent · l)
  | sent (l : LinkId) : EventKind (frameSentEvent · l)
  | initReset : EventKind initResetEvent

theorem EventKind.withBoard {w : State → State} (h : ∀ s, Keeps s (w s)) : EventKind (withBoard w) :=
  .block (fun _ => false) h

/-! What each edit keeps of the size of its table -/

theorem AllSized.clearInFlight {l : List (Option Panel)} (h : AllSized l) (f : RowFrame) :
    AllSized (clearInFlight l f) := h.mapEntry f.panel fun _ hp => hp.onRow _ _

theorem judgePanel_sized {p : Panel} (hp : p.Sized) (now : HillTime) : (judgePanel p now).Sized := by
  unfold judgePanel
  split
  · split <;> exact hp
  · split
    · exact Panel.Sized.markRows hp _
    · exact hp

theorem goOnScan_sized {w : WindRx} (hw : w.Sized) (left : List Nat) (start : HillTime) :
    (goOnScan w left start).Sized := by
  unfold goOnScan
  split <;> exact hw

theorem afterSlot_sized {w : WindRx} (hw : w.Sized) (stop : HillTime) : (afterSlot w stop).Sized := by
  unfold afterSlot
  split
  · exact hw
  · split
    · split
      · exact hw
      · unfold goOnSnapshot
        split <;> exact hw
    · exact goOnScan_sized hw _ _
    · exact hw

theorem startSnapshot_sized {w : WindRx} (hw : w.Sized) (now : HillTime) : (startSnapshot w now).Sized := by
  unfold startSnapshot
  split
  · exact hw
  · split <;> exact hw

/-- A sample offered to a context leaves it sized (R84, R85). -/
theorem Context.Sized.offer {c : Context} (hc : c.Sized) (u : UsedSample) : (c.offer u).Sized := by
  obtain ⟨hsums, hset, htr⟩ := hc
  have htrace : (pushTrace c.trace u).length ≤ 512 := by
    unfold pushTrace
    split
    · rw [List.length_append, List.length_singleton]
      omega
    · exact htr
  unfold Context.offer
  split
  · exact ⟨hsums, hset, htr⟩
  · exact ⟨hsums, hset, htrace⟩
  · split
    · refine ⟨(List.length_modify _ _ _).trans hsums, ?_, htrace⟩
      unfold pushSettled
      split
      · rw [List.length_append, List.length_singleton]
        omega
      · rw [List.length_append, List.length_drop, List.length_singleton]
        omega
    · exact ⟨hsums, hset, htrace⟩
  · exact ⟨hsums, hset, htrace⟩

theorem Context.Sized.close {c : Context} (hc : c.Sized) (stop : HillTime) : (c.close stop).Sized := by
  obtain ⟨hsums, -, htr⟩ := hc
  refine ⟨?_, Nat.zero_le _, htr⟩
  exact List.foldlRecOn (motive := fun l : List (Int × Nat) => l.length = 12) _ _ hsums
    fun l hl e _ => (List.length_modify _ _ _).trans hl

theorem withSpeed_jump (v : Option Nat) (r : Record) : (withSpeed v r).jump = r.jump := by
  cases v <;> rfl

/-- The end of a row frame is the one event that ends a frame on the Board Line. -/
theorem rowFrameEndEvent_works (s : State) : Works s (rowFrameEndEvent s) := by
  unfold Machine.rowFrameEndEvent
  split
  · split
    · exact { Works.refl s with
        panels := (length_setEntry _ _ _).trans, allSized := fun ha => AllSized.clearInFlight ha _ }
    · exact { Works.refl s with }
  · exact Works.refl s
  · exact Works.refl s

section
variable {s t : State} (h : Keeps s t)
include h

/-! The board -/

theorem Keeps.refreshExpiryEvent : Keeps s (refreshExpiryEvent t) := by
  unfold Machine.refreshExpiryEvent
  split
  · split
    · refine h.setPanels rfl rfl (List.length_map _) fun ha p hp => ?_
      obtain ⟨e, he, hpe⟩ := List.mem_map.mp hp
      obtain ⟨q, rfl, rfl⟩ := Option.map_eq_some_iff.mp hpe
      exact Panel.Sized.markRows (ha q he) _
    · exact h
  · exact h

theorem Keeps.applyFrameOutcome (hline : ∀ f, t.board.line ≠ .sending f) (f : RowFrame) (before : Panel) {pn : Panel}
    (hp : AllSized t.board.panels → pn.Sized) (cause : PanaCause) :
    Keeps s (applyFrameOutcome t f before pn cause) := by
  have hjudged : Keeps s (t.setBoard { t.board with
      line := .free, panels := setEntry t.board.panels f.panel (some (judgePanel pn t.clock)) }) :=
    h.setPanels rfl rfl (length_setEntry _ _ _)
      (fun ha => ha.setEntry f.panel fun q hq => Option.some.inj hq ▸ judgePanel_sized (hp ha) _) (.of_not_sending hline)
  exact hjudged.notePanel _ _ _ _ _ _ _

theorem Keeps.acknowledgementEvent (frame : LineFrame) : Keeps s (acknowledgementEvent t frame) := by
  unfold Machine.acknowledgementEvent
  split
  · next f stop hwindow =>
      have hline : ∀ g, t.board.line ≠ .sending g := fun g hg => by rw [hwindow] at hg; cases hg
      split
      · split
        · next hp => exact h.applyFrameOutcome hline _ _ (fun ha => by exact Panel.Sized.onRow (ha.entry hp) _ _) _
        · exact h.setPanels rfl rfl rfl id (.of_not_sending hline)
      · exact h
  · exact h
  · exact h

theorem Keeps.ackWindowEndEvent : Keeps s (ackWindowEndEvent t) := by
  unfold Machine.ackWindowEndEvent
  split
  · next f stop hwindow =>
      have hline : ∀ g, t.board.line ≠ .sending g := fun g hg => by rw [hwindow] at hg; cases hg
      split
      · split
        · next hp => exact h.applyFrameOutcome hline _ _ (fun ha => by exact Panel.Sized.onRow (ha.entry hp) _ _) _
        · exact h.setPanels rfl rfl rfl id (.of_not_sending hline)
      · exact h
  · exact h
  · exact h

/-! The start -/

theorem Keeps.corridorHold : Keeps s (corridorHold t) := by
  unfold Machine.corridorHold
  split
  · exact h.ite (h.holdWork _ _ _)
  · exact h

theorem Keeps.flashBoundaryEvent : Keeps s (flashBoundaryEvent t) := by
  unfold Machine.flashBoundaryEvent
  split
  · exact (h.toLight _ _ _).ite h
  · exact h
  · exact h

theorem Keeps.flashCadenceEvent : Keeps s (flashCadenceEvent t) := by
  unfold Machine.flashCadenceEvent
  split
  · exact (h.setStart _).ite h
  · exact h

theorem Keeps.countdownExpiryEvent : Keeps s (countdownExpiryEvent t) := by
  unfold Machine.countdownExpiryEvent
  split
  · split
    · split
      exacts [h.voidRecord _ _ _ _, h]
    · exact h
  · exact h
  · exact h

theorem Keeps.secondStepEvent : Keeps s (secondStepEvent t) := by
  unfold Machine.secondStepEvent
  split
  exacts [h.showCountdown, h, h]

theorem Keeps.departReleased (r : Record) (departed : HillTime) : Keeps s (departReleased t r departed) :=
  ((((h.modifyRecord _ _).toCountdown _).setFlight _).post _).toLight _ _ _

theorem Keeps.departureEvent : Keeps s (departureEvent t) := by
  unfold Machine.departureEvent takeDeparture
  split
  · split
    · split
      · exact (h.setStart _).departReleased _ _
      · exact Keeps.voidRecord ((h.setStart _).modifyRecord _ _) _ _ _ _
    · exact (h.setStart _).post _
  · exact h

/-! The corridor -/

theorem Keeps.corridorChanged (before : CorridorStatus) (time : HillTime) (mean : Option Int) :
    Keeps s (t.corridorChanged before time mean) :=
  (h.post _).corridorHold.ite (h.post _)

theorem Keeps.windowEndEvent : Keeps s (windowEndEvent t) := by
  unfold Machine.windowEndEvent
  split
  · exact (h.setCorridor _).ite h
  · exact ((h.setCorridor _).ite ((h.setCorridor _).corridorChanged _ _ _)).ite h

theorem Keeps.clearanceExpiryEvent : Keeps s (clearanceExpiryEvent t) := by
  unfold Machine.clearanceExpiryEvent
  split
  · exact (h.setRound _).ite h
  · exact h

/-! The wind stations -/

theorem Keeps.scanTickEvent : Keeps s (scanTickEvent t) := by
  unfold Machine.scanTickEvent
  simp only
  split
  · have htick := h.setWind { t.wind with nextTick := plusTicks t.wind.nextTick (msTicks t.wind.scanPeriod) }
    split
    · exact htick
    all_goals
      split
      exacts [htick, htick.post _, htick.setWind _ fun hw => goOnScan_sized hw _ _]
  · exact h

theorem Keeps.applyOutcome (i : Nat) (st : Station) (o : Outcome3) : Keeps s (applyOutcome t i st o) :=
  Keeps.noteStation (h.setWind _ fun hw => by exact hw.setStation i _) _ _ _ _ _ _

theorem Keeps.offerTo (c : Ctx) (u : UsedSample) : Keeps s (offerTo t c u) := by
  unfold Machine.offerTo
  split
  · exact h
  · have hoffer := h.setWind (t.wind.setCtx c ((t.wind.ctx c).offer u)) fun hw => hw.setCtx c ((hw.ctx c).offer u)
    exact (hoffer.modifyRecord _ _).ite hoffer

theorem Keeps.useSample (u : UsedSample) : Keeps s (useSample t u) := by
  unfold Machine.useSample
  split
  · exact h
  · refine Keeps.offerTo (Keeps.offerTo ?_ .a u) .b u
    exact Keeps.ite (Keeps.setCorridor (h.setWind _ fun hw => by exact hw.setStation u.station _) _)
      (h.setWind _ fun hw => by exact hw.setStation u.station _)

theorem Keeps.judgeAnswer (i : Nat) (st : Station) (frame : Option StationAnswer) (polled : Nat) (snap : Bool) :
    Keeps s (judgeAnswer t i st frame polled snap) := by
  unfold Machine.judgeAnswer
  split
  · exact h.applyOutcome _ _ _
  · refine (h.applyOutcome _ _ _).ite ((h.applyOutcome _ _ _).ite ((h.applyOutcome _ _ _).ite ?_))
    exact ((h.applyOutcome _ _ _).useSample _).ite (h.applyOutcome _ _ _)

theorem Keeps.stationAnswerEvent (frame : LineFrame) : Keeps s (stationAnswerEvent t frame) := by
  unfold Machine.stationAnswerEvent
  split
  · exact h
  · refine h.ite ((h.setWind _).ite ?_)
    split
    exacts [h.setWind _, (h.setWind _).judgeAnswer _ _ _ _ _]

theorem Keeps.slotMiss (sl : StationSlot) : Keeps s (slotMiss t sl) := by
  refine h.ite ?_
  split
  exacts [h, h.applyOutcome _ _ _]

theorem Keeps.stationSlotEndEvent : Keeps s (stationSlotEndEvent t) := by
  unfold Machine.stationSlotEndEvent
  split
  · exact h
  · exact Keeps.ite ((h.slotMiss _).setWind _ fun hw => afterSlot_sized hw _) h

theorem Keeps.setCtx (c : Ctx) {v : Context} (hv : (t.wind.ctx c).Sized → v.Sized) :
    Keeps s (t.setWind (t.wind.setCtx c v)) := h.setWind _ fun hw => hw.setCtx c (hv (hw.ctx c))

theorem Keeps.openContext (j : Nat) (takeoff : HillTime) : Keeps s (openContext t j takeoff) := by
  unfold Machine.openContext
  split
  exacts [h.setCtx _ id, h]

theorem Keeps.closeContext (j : Nat) (stop : HillTime) : Keeps s (closeContext t j stop) := by
  unfold Machine.closeContext
  split
  exacts [h.setCtx _ fun hc => hc.close stop, h]

/-! The in-run and the flight -/

theorem Keeps.barrierInputEdgeEvent (which : Barrier) (interrupts : Bool) :
    Keeps s (barrierInputEdgeEvent t which interrupts) := by
  cases which <;> exact h.setFlight _

theorem Keeps.trapEdgeA (e : HillTime) : Keeps s (trapEdgeA t e) := by
  unfold Machine.trapEdgeA
  split
  exacts [h.post _, (h.setFlight _).ite h]

theorem Keeps.trapEdgeB (e : HillTime) : Keeps s (trapEdgeB t e) := by
  unfold Machine.trapEdgeB
  split
  · exact h.post _
  · split
    · exact h
    · exact ((h.setFlight _).modifyRecord _ _ fun x hx => (withSpeed_jump _ x).trans hx).ite h

theorem Keeps.speedTrapEdgeEvent (which : TrapBarrier) : Keeps s (speedTrapEdgeEvent t which) := by
  unfold Machine.speedTrapEdgeEvent
  split
  · split
    exacts [(h.setFlight _).trapEdgeA _, h]
  · split
    exacts [(h.setFlight _).trapEdgeB _, h]

theorem Keeps.takeoffEvent : Keeps s (takeoffEvent t) := by
  unfold Machine.takeoffEvent
  split
  · exact h
  · simp only
    split
    · refine Keeps.applyStaged (Keeps.post (Keeps.setWind (Keeps.openContext ?_ _ _) _ ?_) _) _
      · exact ((h.setFlight _).modifyRecord _ _).setFlight _
      · exact fun hw => startSnapshot_sized hw _
    · exact (h.setFlight _).post _

theorem Keeps.inrunLimitExpiryEvent : Keeps s (inrunLimitExpiryEvent t) := by
  unfold Machine.inrunLimitExpiryEvent
  split
  · exact h
  · split
    · simp only
      split
      exacts [(h.setFlight _).voidRecord _ _ _ _, h.setFlight _]
    · exact h

theorem Keeps.enterAwaiting (r : Record) (stop : HillTime) (kept counted : Nat) :
    Keeps s (enterAwaiting t r stop kept counted) := by
  have hclosed := h.closeContext r.jump stop
  unfold Machine.enterAwaiting
  generalize Machine.closeContext t r.jump stop = u at hclosed ⊢
  exact Keeps.post (Keeps.startClearance (hclosed.modifyRecord _ _ (by exact fun _ _ => rfl)) _) _

theorem Keeps.landingLimitExpiryEvent : Keeps s (landingLimitExpiryEvent t) := by
  unfold Machine.landingLimitExpiryEvent
  split
  · exact h
  · split
    · simp only
      split
      exacts [(h.setFlight _).enterAwaiting _ _ _ _, h.setFlight _]
    · exact h

theorem Keeps.applyUnitOutcome (i : Nat) (u : StripUnit) (ok : Bool) : Keeps s (applyUnitOutcome t i u ok) :=
  Keeps.noteUnit (h.setFlight _ fun hf => by exact hf.setUnit i _) _ _ _ _ _

theorem Keeps.keepContact (r : Record) (c : Contact) : Keeps s (keepContact t r c) := by
  unfold Machine.keepContact
  split
  · refine h.setFlight _ fun hf => ⟨hf.1, fun w hw => ?_⟩
    obtain rfl := Option.some.inj hw
    exact Nat.le_add_left 1 7
  · split
    · next hlt =>
        refine h.setFlight _ fun hf => ⟨hf.1, fun w hw => ?_⟩
        obtain rfl := Option.some.inj hw
        exact (List.length_append).trans_le hlt
    · exact h.modifyRecord _ _

theorem Keeps.takeContact (unit : Nat) (c : Contact) : Keeps s (takeContact unit t c) := by
  unfold Machine.takeContact
  split
  · exact h.post _
  · exact (h.keepContact _ _).ite (h.post _)

theorem Keeps.stripAnswerEvent (frame : LineFrame) : Keeps s (stripAnswerEvent t frame) := by
  unfold Machine.stripAnswerEvent
  split
  · exact h
  · refine h.ite ((h.setFlight _).ite ?_)
    split
    · exact h.setFlight _
    · split
      · exact (h.setFlight _).applyUnitOutcome _ _ _
      · exact List.foldlRecOn (motive := fun u : State => Keeps s u) _ _ ((h.setFlight _).applyUnitOutcome _ _ _)
          fun u hu c _ => hu.takeContact _ c

theorem Keeps.stripSlotEndEvent : Keeps s (stripSlotEndEvent t) := by
  unfold Machine.stripSlotEndEvent
  split
  · exact h
  · next sl _ =>
      split
      · have hmiss : Keeps s (if sl.answered = true ∨ sl.void = true then t
            else match entry t.flight.units sl.unit with
              | none => t
              | some u => Machine.applyUnitOutcome t sl.unit u false) := by
          refine h.ite ?_
          split
          exacts [h, h.applyUnitOutcome _ _ _]
        have hbegin : ∀ f : Flight, f.Sized → (beginStripSlot f sl.ends).Sized := fun f hf => by
          unfold beginStripSlot
          split <;> exact hf
        simp only
        split
        exacts [hmiss.setFlight _, hmiss.setFlight _ (hbegin _), hmiss.setFlight _ (hbegin _)]
      · exact h

theorem Keeps.judgeLanding (r : Record) (first : Contact) (rest : List Contact) :
    Keeps s (judgeLanding t r first rest) := by
  unfold Machine.judgeLanding
  simp only
  split
  exacts [h, h.enterAwaiting _ _ _ _]

theorem Keeps.proposalMomentEvent : Keeps s (proposalMomentEvent t) := by
  unfold Machine.proposalMomentEvent
  split
  · exact h
  · split
    · have hwatch : Keeps s (t.setFlight { t.flight with watch := none }) :=
        h.setFlight _ fun hf => ⟨hf.1, nofun⟩
      simp only
      split
      exacts [hwatch.judgeLanding _ _ _, hwatch]
    · exact h

end

end Sys2Proof.Machine
end

