-- ==== Sys2Proof/Proofs/Steps.lean ====
section
/-! A step and what it keeps: the links sound, the tables at their sizes, the panels whole, the jump numbers distinct. -/

namespace Sys2Proof.Machine

/-! The links -/

theorem Link.Sound.beginNext {x : Link} (h : x.Sound) : x.beginNext.Sound := by
  obtain ⟨hq, hb, hn, hr⟩ := h
  unfold Link.beginNext
  split
  · exact ⟨hq, hb, hn, hr⟩
  · split
    · next hbusy =>
        rw [hbusy] at hb
        exact ⟨hq, Nat.le_of_succ_le hb, hn, nofun⟩
    · split
      · next r q hqueue =>
          refine ⟨hq, hb, hn, fun r' hr' => ⟨q, ?_⟩⟩
          obtain rfl : r = r' := by simpa using hr'
          exact hqueue
      · split
        · next hnotices =>
            rw [hnotices] at hn
            exact ⟨hq, hb, Nat.le_of_succ_le hn, nofun⟩
        · exact ⟨hq, hb, hn, hr⟩

/-- Behind its choice a transmitter is free only with nothing to send (R177). -/
theorem Link.beginNext_rested (x : Link) : x.beginNext.Rested := by
  unfold Link.beginNext
  split
  · next hs => exact fun hn => absurd (hs.symm.trans hn) nofun
  · split
    · exact nofun
    · next hb =>
        split
        · exact nofun
        · next hq =>
            split
            · exact nofun
            · next hn => exact fun _ => ⟨hb, hn, fun r q => hq r q⟩

theorem Link.Sound.post {x : Link} (h : x.Sound) (n : Notice) : (x.post n).Sound := by
  obtain ⟨hq, hb, hn, hr⟩ := h
  unfold Link.post
  split
  · next hlt => exact Link.Sound.beginNext ⟨hq, hb, (List.length_append).trans_le hlt, hr⟩
  · exact ⟨hq, hb, hn, hr⟩

theorem Link.Rested.post {x : Link} (h : x.Rested) (n : Notice) : (x.post n).Rested := by
  unfold Link.post
  split
  · exact Link.beginNext_rested _
  · exact h

theorem Link.posts_queue (x : Link) (ns : List Notice) : (x.posts ns).queue = x.queue :=
  List.foldlRecOn (motive := fun y : Link => y.queue = x.queue) ns _ rfl
    fun y hy n _ => (y.post_queue n).trans hy

theorem Link.Sound.posts {x : Link} (h : x.Sound) (ns : List Notice) : (x.posts ns).Sound :=
  List.foldlRecOn (motive := Link.Sound) ns _ h fun _ hy n _ => hy.post n

theorem Link.Rested.posts {x : Link} (h : x.Rested) (ns : List Notice) : (x.posts ns).Rested :=
  List.foldlRecOn (motive := Link.Rested) ns _ h fun _ hy n _ => hy.post n

/-- Both links sound, and at rest but for the Control Link of a due reset, said link by link. -/
theorem linksSound_iff (s : State) :
    LinksSound s ↔ ∀ l, (s.link l).Sound ∧ ((l = .control → s.initPhase ≠ .due) → (s.link l).Rested) := by
  refine ⟨fun ⟨hcs, hks, hkr, hcr⟩ l => ?_, fun h => ⟨(h .control).1, (h .console).1, ?_, ?_⟩⟩
  · cases l
    exacts [⟨hcs, fun hd => hcr (hd rfl)⟩, ⟨hks, fun _ => hkr⟩]
  · exact (h .console).2 nofun
  · exact fun hd => (h .control).2 fun _ => hd

theorem LinksSound.setLink {s : State} (h : LinksSound s) (l : LinkId) {v : Link} (hs : v.Sound)
    (hr : (s.link l).Rested → v.Rested) : LinksSound (s.setLink l v) := by
  rw [linksSound_iff] at h ⊢
  intro m
  rw [State.setLink_initPhase]
  by_cases hm : m = l
  · subst hm
    rw [State.setLink_link_self]
    exact ⟨hs, fun hd => hr ((h m).2 hd)⟩
  · rw [State.setLink_link_of_ne s v hm]
    exact h m

/-- A link whose transmitter has just made its choice. -/
theorem LinksSound.setLink_beginNext {s : State} (h : LinksSound s) (l : LinkId) {v : Link} (hs : v.Sound) :
    LinksSound (s.setLink l v.beginNext) := h.setLink l hs.beginNext fun _ => v.beginNext_rested

theorem LinksSound.setInitPhase {s : State} (h : LinksSound s) (hd : s.initPhase ≠ .due) (v : InitPhase) :
    LinksSound (s.setInitPhase v) :=
  ⟨h.1, h.2.1, h.2.2.1, fun _ => h.2.2.2 hd⟩

theorem LinksSound.setClock {s : State} (h : LinksSound s) (now : HillTime) : LinksSound (s.setClock now) := h

/-- The work of a block keeps the links sound. -/
theorem LinksSound.works {s t : State} (h : LinksSound s) (hk : Works s t) : LinksSound t := by
  obtain ⟨ns, hns⟩ := hk.posts
  rw [linksSound_iff] at h ⊢
  intro l
  rw [hns l, hk.initPhase]
  exact ⟨(h l).1.posts ns, fun hd => ((h l).2 hd).posts ns⟩

theorem Keeps.queue {s t : State} (h : Keeps s t) (l : LinkId) : (t.link l).queue = (s.link l).queue := by
  obtain ⟨ns, hns⟩ := h.posts
  rw [hns l, Link.posts_queue]

/-! A request taken -/

/-- The block's work of every request but INIT and STAT, which write the links or the INIT phase themselves. -/
theorem serve_keeps (s : State) (l : LinkId) (r : Request) (hi : r ≠ .init) (hst : r ≠ .stat) :
    Keeps s (serve s l r).state := by
  have h := Keeps.refl s
  cases r with
  | hill f => exact h.serveHill f
  | sect c es => exact h.serveSect c es
  | stn i a f => exact h.serveStn i a f
  | scan m f => exact h.serveScan m f
  | corr f => exact h.serveCorr f
  | tims f => exact h.serveTims f
  | unit i a f => exact h.serveUnit i a f
  | base v => exact h.serveBase v
  | trap v => exact h.serveTrap v
  | panl i a f => exact h.servePanl i a f
  | fld i a f => exact h.serveFld i a f
  | openRound => exact h.serveOpen
  | shutRound => exact h.serveShut
  | list c bibs => exact h.serveList c bibs
  | drop b => exact h.serveDrop b
  | init => exact absurd rfl hi
  | rels j o => exact h.serveRels j o
  | hold j => exact h.serveHold j
  | gate g => exact h.serveGate g
  | rduc j g => exact h.serveRduc j g
  | call b => exact h.serveCall b
  | void j q => exact h.serveVoid j q
  | conf j d => exact h.serveConf j d
  | revw j => exact h.serveRevw j
  | amnd j d => exact h.serveAmnd j d
  | page i r c cs => exact h.servePage l i r c cs
  | cell i r c n => exact (serveCell_state s i r c n).symm ▸ h
  | jump j => exact (serveJump_state s j).symm ▸ h
  | wind => exact h
  | trce j n => exact (serveTrce_state s j n).symm ▸ h
  | stat => exact absurd rfl hst

theorem serve_keepsTables (s : State) (l : LinkId) (r : Request) : KeepsTables s (serve s l r).state := by
  by_cases hi : r = .init
  · subst hi
    exact (KeepsTables.refl s).setInitPhase _
  · by_cases hst : r = .stat
    · subst hst
      exact (KeepsTables.refl s).setLink l _
    · exact (serve_keeps s l r hi hst).toKeepsTables

theorem serve_queue (s : State) (l : LinkId) (r : Request) (m : LinkId) :
    ((serve s l r).state.link m).queue = (s.link m).queue := by
  by_cases hi : r = .init
  · subst hi
    cases m <;> rfl
  · by_cases hst : r = .stat
    · subst hst
      cases l <;> cases m <;> rfl
    · exact (serve_keeps s l r hi hst).queue m

/-- The work of a request taken with no INIT before it keeps the links sound. -/
theorem LinksSound.serve {s : State} (h : LinksSound s) (hi : s.initPhase = .none) (l : LinkId) (r : Request) :
    LinksSound (serve s l r).state := by
  by_cases hinit : r = .init
  · subst hinit
    exact h.setInitPhase (by rw [hi]; nofun) _
  · by_cases hst : r = .stat
    · subst hst
      exact h.setLink l ((linksSound_iff s).mp h l).1 id
    · exact h.works (serve_keeps s l r hinit hst).toWorks

/-- An answer's state: what a refusal before dispatch leaves, or the block's work and the board behind it. -/
theorem answerTo_state (s : State) (l : LinkId) (d : Judged) :
    (answerTo s l d).state = s ∨ ∃ r m, (answerTo s l d).state = boardSync m s (serve s l r).state := by
  cases d with
  | unknownType => exact .inl rfl
  | badLength => exact .inl rfl
  | request r =>
    unfold answerTo
    simp only
    split
    · exact .inr ⟨r, _, rfl⟩
    · exact .inl rfl

theorem KeepsTables.boardSync {s t : State} (h : KeepsTables s t) (m : Bool) (old : State) :
    KeepsTables s (boardSync m old t) := h.trans ((Keeps.refl t).boardSync m old).toKeepsTables

theorem KeepsTables.arrive {s t : State} (h : KeepsTables s t) (l : LinkId) (f : LinkFrame) (d : Judged) :
    KeepsTables s (t.arrive l f d) := by
  unfold State.arrive State.busyFrame
  split
  · split
    exacts [h.setLink l _, h]
  · split
    · refine KeepsTables.setLink ?_ l _
      rcases answerTo_state t l d with hs | ⟨r, m, hs⟩
      · rw [hs]
        exact h
      · rw [hs]
        exact (h.trans (serve_keepsTables t l r)).boardSync m t
    all_goals exact h.setLink l _

theorem LinksSound.place {s : State} (h : LinksSound s) {l : LinkId} (hq : (s.link l).queue.length < 4) (p : Place) :
    LinksSound (s.place l p) := by
  obtain ⟨-, hb, hn, hr⟩ := ((linksSound_iff s).mp h l).1
  refine h.setLink_beginNext l ⟨(List.length_append).trans_le hq, hb, hn, fun r hs => ?_⟩
  obtain ⟨q, hqueue⟩ := hr r hs
  exact ⟨q ++ [p], by rw [hqueue]; rfl⟩

theorem LinksSound.arrive {s : State} (h : LinksSound s) (l : LinkId) (f : LinkFrame) (d : Judged) :
    LinksSound (s.arrive l f d) := by
  unfold State.arrive State.busyFrame
  split
  · split
    · next hlt =>
        obtain ⟨hq, -, hn, hr⟩ := ((linksSound_iff s).mp h l).1
        exact h.setLink_beginNext l ⟨hq, (List.length_append).trans_le hlt, hn, hr⟩
    · exact h
  · next hlt =>
      replace hlt := Nat.lt_of_not_le hlt
      split
      · next hi =>
          rcases answerTo_state s l d with hs | ⟨r, m, hs⟩
          · exact LinksSound.place (hs.symm ▸ h) (hs.symm ▸ hlt) _
          · refine LinksSound.place (hs.symm ▸ (h.serve hi l r).works ((Keeps.refl _).boardSync m s).toWorks) ?_ _
            rw [hs, boardSync_link, serve_queue]
            exact hlt
      all_goals exact h.place hlt _

/-! The bytes of a frame -/

theorem KeepsTables.receiveByte {s t : State} (h : KeepsTables s t) (l : LinkId) (b : Byte) :
    KeepsTables s (receiveByte l t b) := by
  unfold Machine.receiveByte
  simp only
  split
  · exact (h.setLink l _).arrive l _ _
  · exact h.setLink l _

theorem LinksSound.receiveByte {s : State} (h : LinksSound s) (l : LinkId) (b : Byte) :
    LinksSound (receiveByte l s b) := by
  have hreceiver := h.setLink l (v := { s.link l with receiver := ((s.link l).receiver.take s.clock b).1 })
    ((linksSound_iff s).mp h l).1 id
  unfold Machine.receiveByte
  simp only
  split
  · exact hreceiver.arrive l _ _
  · exact hreceiver

/-! The transmitter -/

theorem Link.Sound.sent {x : Link} (h : x.Sound) : x.sent.Sound := by
  obtain ⟨hq, hb, hn, hr⟩ := h
  unfold Link.sent
  split
  · exact ⟨(List.length_drop).trans_le ((Nat.sub_le _ _).trans hq), hb, hn, nofun⟩
  · exact ⟨hq, hb, hn, nofun⟩
  · exact ⟨hq, hb, hn, nofun⟩
  · exact ⟨hq, hb, hn, hr⟩

theorem LinksSound.frameSentEvent {s : State} (h : LinksSound s) (l : LinkId) : LinksSound (frameSentEvent s l) := by
  have hsent : ∀ l, (s.link l).sent.Sound := fun l => ((linksSound_iff s).mp h l).1.sent
  cases l with
  | control =>
    unfold Machine.frameSentEvent
    simp only
    split
    · exact ⟨hsent .control, h.2.1, h.2.2.1, fun hd => absurd rfl hd⟩
    · split
      · exact h
      · exact h.setLink_beginNext .control (hsent .control)
  | console => exact h.setLink_beginNext .console (hsent .console)

theorem KeepsTables.frameSentEvent {s t : State} (h : KeepsTables s t) (l : LinkId) :
    KeepsTables s (frameSentEvent t l) := by
  cases l with
  | control =>
    unfold Machine.frameSentEvent
    simp only
    split
    · exact (h.setLink .control _).setInitPhase _
    · split
      exacts [h, h.setLink .control _]
  | console => exact h.setLink .console _

/-! Resets -/

theorem resetState_resetValues (pending : List Instr) (cause : ResetCause) (clock : HillTime) (lv : InputLevels)
    (w : Window) : ResetValues (resetState pending cause clock lv w) cause clock lv := by
  refine ⟨rfl, rfl, rfl, fun l => ?_, rfl, rfl, rfl, ⟨rfl, rfl, rfl, rfl, rfl, rfl, rfl, rfl, rfl, rfl, fun c => ?_⟩,
    ⟨rfl, rfl, rfl, rfl, rfl, rfl, rfl, rfl, rfl, rfl⟩, rfl, rfl⟩
  · cases l <;> rfl
  · cases c <;> rfl

/-- A link with nothing waiting that sends no reply. -/
theorem Link.sound_of_empty {x : Link} (hq : x.queue = []) (hb : x.busy = []) (hn : x.notices = [])
    (hs : ∀ r, x.sending ≠ some (.reply r)) : x.Sound ∧ x.Rested :=
  ⟨⟨by simp [hq], by simp [hb], by simp [hn], fun r hr => absurd hr (hs r)⟩,
    fun _ => ⟨hb, hn, fun r q => by simp [hq]⟩⟩

theorem Link.atReset_sound (cause : ResetCause) (clock : HillTime) :
    (Link.atReset cause clock).Sound ∧ (Link.atReset cause clock).Rested :=
  Link.sound_of_empty rfl rfl rfl nofun

theorem Link.idle_sound : Link.idle.Sound ∧ Link.idle.Rested := Link.sound_of_empty rfl rfl rfl nofun

theorem linksSound_of_both {s : State} {x : Link} (hx : x.Sound ∧ x.Rested) (hc : s.control = x)
    (hk : s.console = x) : LinksSound s :=
  ⟨hc ▸ hx.1, hk ▸ hx.1, hk ▸ hx.2, fun _ => hc ▸ hx.2⟩

/-- The blocks at their reset values, whatever the state before. -/
theorem keepsTables_of_reset {s t : State} (hp : t.pending = s.pending)
    (hr : t.round = Round.atReset) (hsc : t.scoring = Scoring.atReset) {c c' : HillTime} (hw : t.wind = WindRx.atReset c)
    {a b d : Bool} (hf : t.flight = Flight.atReset a b d) (hb : t.board = Board.atReset c') : KeepsTables s t where
  pending := hp
  table _ := by rw [hr]; rfl
  startList _ := by rw [hr]; exact Nat.zero_le _
  numbered _ := by rw [hr]; exact Round.numbered_of_empty rfl rfl
  sectors _ := by rw [hsc]; exact Nat.zero_le _
  wind _ := by rw [hw]; exact ⟨rfl, Nat.zero_le _, Context.empty_sized _, Context.empty_sized _⟩
  flight _ := by rw [hf]; exact ⟨rfl, nofun⟩
  panels _ := by rw [hb]; rfl
  fields _ := by rw [hb]; rfl
  shown _ _ := by rw [hb]; rfl
  allSized _ := by
    rw [hb]
    exact fun p hp => nomatch (List.mem_replicate.mp hp).2

theorem initResetEvent_keepsTables (s : State) : KeepsTables s (initResetEvent s) := by
  unfold initResetEvent
  split
  · exact keepsTables_of_reset rfl rfl rfl rfl rfl rfl
  · exact KeepsTables.refl s

theorem LinksSound.initResetEvent {s : State} (h : LinksSound s) : LinksSound (initResetEvent s) := by
  unfold Machine.initResetEvent
  split
  · exact linksSound_of_both (Link.atReset_sound _ _) rfl rfl
  · exact h

/-! Commands -/

/-- The meaning of a request row is the taking of its request. -/
theorem exec_of_requestOf {i : Instr} {now : HillTime} {l : LinkId} {tag : Byte} {r : Request}
    (h : requestOf i = some (now, l, tag, r)) (s : State) : exec i s = takenRequest now l tag r s := by
  cases i <;> cases h <;> rfl

theorem SafeEvent.boardSync {f : State → State} (m : State → Bool) (h : ∀ s, Works s (f s)) :
    SafeEvent (fun s => boardSync (m s) s (f s)) where
  tables s := (h s).toKeepsTables.boardSync _ _
  links s hs := (hs.works (h s)).works ((Keeps.refl (f s)).boardSync _ _).toWorks

theorem SafeEvent.frameArrival (l : LinkId) (bytes : List Byte) : SafeEvent (fun s => frameArrivalEvent s l bytes) where
  tables s := List.foldlRecOn (motive := fun u : State => KeepsTables s u) bytes _ (KeepsTables.refl s)
    fun _ hu b _ => hu.receiveByte l b
  links _ hs := List.foldlRecOn (motive := LinksSound) bytes _ hs fun _ hu b _ => hu.receiveByte l b

theorem SafeEvent.linkGap (l : LinkId) : SafeEvent (fun s => linkGapEvent s l) where
  tables s := by
    unfold linkGapEvent
    split
    · exact KeepsTables.refl s
    · split
      exacts [(KeepsTables.refl s).setLink l _, KeepsTables.refl s]
  links s hs := by
    unfold linkGapEvent
    split
    · exact hs
    · split
      exacts [hs.setLink l ((linksSound_iff s).mp hs l).1 id, hs]

theorem SafeEvent.unknownType (l : LinkId) (type tag : Byte) (body : List Byte) :
    SafeEvent (fun s => unknownTypeEvent s l type tag body) where
  tables s := by
    unfold unknownTypeEvent
    split
    exacts [KeepsTables.refl s, (KeepsTables.refl s).arrive l _ _]
  links s hs := by
    unfold unknownTypeEvent
    split
    exacts [hs, hs.arrive l _ _]

theorem EventKind.safe {f : State → State} (h : EventKind f) : SafeEvent f := by
  cases h with
  | block m h => exact .boardSync m fun s => (h s).toWorks
  | rowFrameEnd => exact .boardSync _ rowFrameEndEvent_works
  | request l tag r => exact ⟨fun s => (KeepsTables.refl s).arrive l _ _, fun _ hs => hs.arrive l _ _⟩
  | unknownType l type tag body => exact .unknownType l type tag body
  | byte l b => exact ⟨fun s => (KeepsTables.refl s).receiveByte l b, fun _ hs => hs.receiveByte l b⟩
  | gap l => exact .linkGap l
  | sent l => exact ⟨fun s => (KeepsTables.refl s).frameSentEvent l, fun _ hs => hs.frameSentEvent l⟩
  | initReset => exact ⟨initResetEvent_keepsTables, fun _ hs => hs.initResetEvent⟩

/-- Every command but FRAME_ARRIVAL and the resets by supply or pin is taken at its hill time, and is of a kind. -/
theorem exec_kind (c : Instr) (hon : ∀ lv, c ≠ .powerOnReset lv) (hpin : ∀ lv, c ≠ .resetPin lv) (hhold : c ≠ .resetHold)
    (hframe : ∀ now l bytes, c ≠ .frameArrival now l bytes) :
    ∃ now f, EventKind f ∧ ∀ s, exec c s = taken now s f := by
  rcases hr : requestOf c with _ | ⟨now, l, tag, r⟩
  case some => exact ⟨now, _, .request l tag r, exec_of_requestOf hr⟩
  cases c
  case powerOnReset lv => exact absurd rfl (hon lv)
  case resetPin lv => exact absurd rfl (hpin lv)
  case resetHold => exact absurd rfl hhold
  case frameArrival now l bytes => exact absurd rfl (hframe now l bytes)
  case linkGapTimeout now l => exact ⟨now, _, .gap l, fun _ => rfl⟩
  case requestUnknownType now l ty tag body => exact ⟨now, _, .unknownType l ty tag body, fun _ => rfl⟩
  case frameSent now l => exact ⟨now, _, .sent l, fun _ => rfl⟩
  case linkByteReceived now l b => exact ⟨now, _, .byte l b, fun _ => rfl⟩
  case initReset now => exact ⟨now, _, .initReset, fun _ => rfl⟩
  case rowFrameEnd now => exact ⟨now, _, .rowFrameEnd, fun _ => rfl⟩
  case clearanceExpiry now => exact ⟨now, _, .withBoard fun s => (Keeps.refl s).clearanceExpiryEvent, fun _ => rfl⟩
  case flashBoundary now => exact ⟨now, _, .withBoard fun s => (Keeps.refl s).flashBoundaryEvent, fun _ => rfl⟩
  case flashCadence now => exact ⟨now, _, .withBoard fun s => (Keeps.refl s).flashCadenceEvent, fun _ => rfl⟩
  case countdownExpiry now => exact ⟨now, _, .withBoard fun s => (Keeps.refl s).countdownExpiryEvent, fun _ => rfl⟩
  case startBarEdge now _ => exact ⟨now, _, .withBoard fun s => (Keeps.refl s).setStart _, fun _ => rfl⟩
  case departure now => exact ⟨now, _, .withBoard fun s => (Keeps.refl s).departureEvent, fun _ => rfl⟩
  case barrierInputEdge now w i =>
    exact ⟨now, _, .withBoard fun s => (Keeps.refl s).barrierInputEdgeEvent w i, fun _ => rfl⟩
  case speedTrapEdge now w => exact ⟨now, _, .withBoard fun s => (Keeps.refl s).speedTrapEdgeEvent w, fun _ => rfl⟩
  case takeoff now => exact ⟨now, _, .withBoard fun s => (Keeps.refl s).takeoffEvent, fun _ => rfl⟩
  case inrunLimitExpiry now => exact ⟨now, _, .withBoard fun s => (Keeps.refl s).inrunLimitExpiryEvent, fun _ => rfl⟩
  case landingLimitExpiry now =>
    exact ⟨now, _, .withBoard fun s => (Keeps.refl s).landingLimitExpiryEvent, fun _ => rfl⟩
  case stripSlotEnd now => exact ⟨now, _, .withBoard fun s => (Keeps.refl s).stripSlotEndEvent, fun _ => rfl⟩
  case stripAnswer now frame => exact ⟨now, _, .withBoard fun s => (Keeps.refl s).stripAnswerEvent frame, fun _ => rfl⟩
  case proposalMoment now => exact ⟨now, _, .withBoard fun s => (Keeps.refl s).proposalMomentEvent, fun _ => rfl⟩
  case scanTick now => exact ⟨now, _, .withBoard fun s => (Keeps.refl s).scanTickEvent, fun _ => rfl⟩
  case stationSlotEnd now => exact ⟨now, _, .withBoard fun s => (Keeps.refl s).stationSlotEndEvent, fun _ => rfl⟩
  case stationAnswer now frame =>
    exact ⟨now, _, .withBoard fun s => (Keeps.refl s).stationAnswerEvent frame, fun _ => rfl⟩
  case windowEnd now => exact ⟨now, _, .withBoard fun s => (Keeps.refl s).windowEndEvent, fun _ => rfl⟩
  case countdownSecondStep now => exact ⟨now, _, .withBoard fun s => (Keeps.refl s).secondStepEvent, fun _ => rfl⟩
  case refreshExpiry now =>
    exact ⟨now, _, .block refreshIsDue fun s => (Keeps.refl s).refreshExpiryEvent, fun _ => rfl⟩
  case probeDue now => exact ⟨now, _, .block probeIsDue fun s => Keeps.refl s, fun _ => rfl⟩
  case acknowledgement now frame =>
    exact ⟨now, _, .withBoard fun s => (Keeps.refl s).acknowledgementEvent frame, fun _ => rfl⟩
  case ackWindowEnd now => exact ⟨now, _, .withBoard fun s => (Keeps.refl s).ackWindowEndEvent, fun _ => rfl⟩
  all_goals cases hr

/-- Every command but the resets by supply or pin is taken at its hill time, and what it then does is safe. -/
theorem exec_taken (c : Instr) (hon : ∀ lv, c ≠ .powerOnReset lv) (hpin : ∀ lv, c ≠ .resetPin lv)
    (hhold : c ≠ .resetHold) : ∃ now f, SafeEvent f ∧ ∀ s, exec c s = taken now s f := by
  by_cases hframe : ∃ now l bytes, c = .frameArrival now l bytes
  · obtain ⟨now, l, bytes, rfl⟩ := hframe
    exact ⟨now, _, .frameArrival l bytes, fun _ => rfl⟩
  · push Not at hframe
    obtain ⟨now, f, hf, hexec⟩ := exec_kind c hon hpin hhold hframe
    exact ⟨now, f, hf.safe, hexec⟩

theorem keepsTables_setClock (s : State) (now : HillTime) : KeepsTables s (s.setClock now) :=
  { KeepsTables.refl s with }

/-- Every command completes, with the tables kept and sound links left sound. -/
theorem exec_safe (c : Instr) (s : State) :
    ∃ t, exec c s = .next t ∧ KeepsTables s t ∧ (LinksSound s → LinksSound t) := by
  by_cases hreset : (∃ lv, c = .powerOnReset lv) ∨ (∃ lv, c = .resetPin lv) ∨ c = .resetHold
  · rcases hreset with ⟨lv, rfl⟩ | ⟨lv, rfl⟩ | rfl
    · exact ⟨_, rfl, keepsTables_of_reset rfl rfl rfl rfl rfl rfl,
        fun _ => linksSound_of_both (Link.atReset_sound _ _) rfl rfl⟩
    · exact ⟨_, rfl, keepsTables_of_reset rfl rfl rfl rfl rfl rfl,
        fun _ => linksSound_of_both (Link.atReset_sound _ _) rfl rfl⟩
    · exact ⟨_, rfl, keepsTables_of_reset rfl rfl rfl rfl rfl rfl,
        fun _ => linksSound_of_both Link.idle_sound rfl rfl⟩
  · push Not at hreset
    obtain ⟨now, f, hf, hexec⟩ := exec_taken c hreset.1 hreset.2.1 hreset.2.2
    rw [hexec, taken]
    split
    · exact ⟨s, rfl, KeepsTables.refl s, id⟩
    · exact ⟨_, rfl, (keepsTables_setClock s now).trans (hf.tables _), fun hs => hf.links _ hs⟩

/-- A step keeps the tables, and leaves sound links sound. -/
theorem step_safe {s t : State} (h : step s = .next t) :
    (∃ u, KeepsTables u t ∧ u = s.setPending u.pending) ∧ (LinksSound s → LinksSound t) := by
  unfold step at h
  split at h
  · obtain rfl : s = t := by simpa using h
    exact ⟨⟨s, KeepsTables.refl s, rfl⟩, id⟩
  · next c rest _ =>
      obtain ⟨u, hu, htables, hlinks⟩ := exec_safe c (s.setPending rest)
      obtain rfl : u = t := by simpa using hu.symm.trans h
      exact ⟨⟨_, htables, rfl⟩, hlinks⟩

/-! The statements -/

/-- Settles O1: by the definition of a step. -/
theorem stepTakesFrontCommand : Obligations.StepTakesFrontCommand :=
  ⟨fun c rest s h => by rw [step, h], fun s h => by rw [step, h]⟩

/-- Settles O2: each command is a reset or is taken, and what it does keeps the waiting commands. -/
theorem everyCommandCompletes : Obligations.EveryCommandCompletes := fun c s => by
  obtain ⟨t, ht, htables, -⟩ := exec_safe c s
  exact ⟨t, ht, htables.pending⟩

/-- Settles O3: a command that is taken does nothing during the hold. -/
theorem heldPartTakesOnlyResets : Obligations.HeldPartTakesOnlyResets := fun c s hheld hon hpin hhold => by
  obtain ⟨now, f, -, hexec⟩ := exec_taken c hon hpin hhold
  rw [hexec, taken, if_pos hheld]

/-- Settles O4: the reset state is that of a power-on reset, whose tables are empty and whose links send PWRUP. -/
theorem resetStateHasResetValues : Obligations.ResetStateHasResetValues := by
  have htables := keepsTables_of_reset (s := State.reset) (t := State.reset) rfl rfl rfl rfl rfl rfl
  refine ⟨resetState_resetValues [] .power 0#32 levelsAtReset firstWindow, rfl, rfl,
    linksSound_of_both (Link.atReset_sound _ _) rfl rfl, ?tables, ?panels, htables.numbered ?numbered⟩
  case tables =>
    exact (tablesSized_iff _).mpr ⟨⟨rfl, Nat.zero_le _⟩, Nat.zero_le _,
      ⟨rfl, Nat.zero_le _, Context.empty_sized _, Context.empty_sized _⟩, ⟨rfl, nofun⟩, rfl, rfl⟩
  case panels => exact fun p hp => nomatch (List.mem_replicate.mp hp).2
  case numbered => exact Round.numbered_of_empty rfl rfl

/-- Settles O6: the hold puts every block at its reset values and the links idle. -/
theorem resetHoldStopsThePart : Obligations.ResetHoldStopsThePart := fun s =>
  ⟨s.hold0, rfl, rfl, rfl, rfl, fun l => by cases l <;> rfl, rfl, rfl, rfl, rfl, rfl, rfl, rfl, rfl⟩

/-- Settles O17: the work of a block only posts notices, an arrival fills a place or the busy list within their bounds, and
every transmitter makes its choice behind what it finds. -/
theorem everyStepKeepsLinksSound : Obligations.EveryStepKeepsLinksSound := fun _ _ hs h => (step_safe h).2 hs

/-- Settles O18: each part is what the tables of the blocks keep through a step. -/
theorem everyStepKeepsTablesSized : Obligations.EveryStepKeepsTablesSized := by
  refine ⟨fun s t hs h => ?tables, fun s t hs h => ?panels, fun s t hs hshown h => ?shown, fun s t hs h => ?jumps⟩
  all_goals
    obtain ⟨⟨u, hu, hus⟩, -⟩ := step_safe h
    rw [hus] at hu
  case tables =>
    obtain ⟨⟨htable, hlist⟩, hsectors, hwind, hflight, hpanels, hfields⟩ := (tablesSized_iff s).mp hs
    exact (tablesSized_iff t).mpr ⟨⟨hu.table htable, hu.startList hlist⟩, hu.sectors hsectors, hu.wind hwind,
      hu.flight hflight, hu.panels hpanels, hu.fields hfields⟩
  case panels => exact hu.allSized hs
  case shown =>
    obtain ⟨-, -, -, -, -, hfields⟩ := (tablesSized_iff s).mp hs
    exact hu.shown hfields hshown
  case jumps => exact hu.numbered hs

end Sys2Proof.Machine
end

