-- ==== Sys2Proof/Proofs/Rows.lean ====
section
/-! The meaning of each row that is no request: what is taken, and at which hill time. -/

namespace Sys2Proof.Machine

variable (s : State) (now : HillTime)

theorem exec_frameArrival (l : LinkId) (bytes : List Byte) :
    exec (.frameArrival now l bytes) s = taken now s (fun s => frameArrivalEvent s l bytes) := rfl

theorem exec_linkGapTimeout (l : LinkId) :
    exec (.linkGapTimeout now l) s = taken now s (fun s => linkGapEvent s l) := rfl

theorem exec_requestUnknownType (l : LinkId) (type tag : Byte) (body : List Byte) :
    exec (.requestUnknownType now l type tag body) s = taken now s (fun s => unknownTypeEvent s l type tag body) := rfl

theorem exec_frameSent (l : LinkId) : exec (.frameSent now l) s = taken now s (fun s => frameSentEvent s l) := rfl

theorem exec_linkByteReceived (l : LinkId) (b : Byte) :
    exec (.linkByteReceived now l b) s = taken now s (fun s => receiveByte l s b) := rfl

theorem exec_initReset : exec (.initReset now) s = taken now s initResetEvent := rfl

theorem exec_clearanceExpiry : exec (.clearanceExpiry now) s = taken now s (withBoard clearanceExpiryEvent) := rfl

theorem exec_flashBoundary : exec (.flashBoundary now) s = taken now s (withBoard flashBoundaryEvent) := rfl

theorem exec_flashCadence : exec (.flashCadence now) s = taken now s (withBoard flashCadenceEvent) := rfl

theorem exec_countdownExpiry : exec (.countdownExpiry now) s = taken now s (withBoard countdownExpiryEvent) := rfl

theorem exec_departure : exec (.departure now) s = taken now s (withBoard departureEvent) := rfl

theorem exec_takeoff : exec (.takeoff now) s = taken now s (withBoard takeoffEvent) := rfl

theorem exec_inrunLimitExpiry : exec (.inrunLimitExpiry now) s = taken now s (withBoard inrunLimitExpiryEvent) := rfl

theorem exec_landingLimitExpiry : exec (.landingLimitExpiry now) s = taken now s (withBoard landingLimitExpiryEvent) := rfl

theorem exec_stripSlotEnd : exec (.stripSlotEnd now) s = taken now s (withBoard stripSlotEndEvent) := rfl

theorem exec_proposalMoment : exec (.proposalMoment now) s = taken now s (withBoard proposalMomentEvent) := rfl

theorem exec_scanTick : exec (.scanTick now) s = taken now s (withBoard scanTickEvent) := rfl

theorem exec_stationSlotEnd : exec (.stationSlotEnd now) s = taken now s (withBoard stationSlotEndEvent) := rfl

theorem exec_windowEnd : exec (.windowEnd now) s = taken now s (withBoard windowEndEvent) := rfl

theorem exec_countdownSecondStep : exec (.countdownSecondStep now) s = taken now s (withBoard secondStepEvent) := rfl

theorem exec_rowFrameEnd : exec (.rowFrameEnd now) s = taken now s (withBoard rowFrameEndEvent) := rfl

theorem exec_ackWindowEnd : exec (.ackWindowEnd now) s = taken now s (withBoard ackWindowEndEvent) := rfl

theorem exec_stripAnswer (frame : LineFrame) :
    exec (.stripAnswer now frame) s = taken now s (withBoard (fun s => stripAnswerEvent s frame)) := rfl

theorem exec_stationAnswer (frame : LineFrame) :
    exec (.stationAnswer now frame) s = taken now s (withBoard (fun s => stationAnswerEvent s frame)) := rfl

theorem exec_acknowledgement (frame : LineFrame) :
    exec (.acknowledgement now frame) s = taken now s (withBoard (fun s => acknowledgementEvent s frame)) := rfl

theorem exec_startBarEdge (opens : Bool) :
    exec (.startBarEdge now opens) s = taken now s (withBoard (fun s => startBarEdgeEvent s opens)) := rfl

theorem exec_barrierInputEdge (w : Barrier) (interrupts : Bool) :
    exec (.barrierInputEdge now w interrupts) s =
      taken now s (withBoard (fun s => barrierInputEdgeEvent s w interrupts)) := rfl

theorem exec_speedTrapEdge (w : TrapBarrier) :
    exec (.speedTrapEdge now w) s = taken now s (withBoard (fun s => speedTrapEdgeEvent s w)) := rfl

theorem exec_refreshExpiry :
    exec (.refreshExpiry now) s =
      taken now s (fun s => boardSync (refreshIsDue s) s (refreshExpiryEvent s)) := rfl

theorem exec_probeDue : exec (.probeDue now) s = taken now s (fun s => boardSync (probeIsDue s) s s) := rfl

end Sys2Proof.Machine
end

