-- ==== Sys2Proof/Proofs/Bodies.lean ====
section
/-! Request bodies: what a field, a list and a whole body written read back as (R186 to R188). -/

namespace Sys2Proof.Machine

/-! Fields -/

theorem byteOf_toNat {n : Nat} (h : n < 256) : (byteOf n).toNat = n := by
  rw [byteOf, BitVec.toNat_ofNat]
  exact Nat.mod_eq_of_lt h

theorem of16_byteOf {n : Nat} (h : n < 65536) : of16 (byteOf n) (byteOf (n / 256)) = n := by
  simp only [of16, byteOf, BitVec.toNat_ofNat]
  omega

theorem unbias_byteOf {x : Int} (h : -32768 ≤ x ∧ x ≤ 32767) :
    unbias (byteOf (x + 32768).toNat) (byteOf ((x + 32768).toNat / 256)) = x := by
  rw [unbias, of16_byteOf (by omega)]
  omega

theorem readSentinel_byteOf {v : Option Nat} (h : fitsSentinel v = true) :
    readSentinel (byteOf (v.getD 65535)) (byteOf (v.getD 65535 / 256)) = v := by
  cases v with
  | none => decide
  | some n =>
    have hn : n < 65535 := of_decide_eq_true h
    rw [Option.getD_some, readSentinel, of16_byteOf (by omega), if_neg (by omega)]

theorem readMark_markByte (b : Bool) : readMark (markByte b) = b := by
  cases b <;> rfl

theorem readYesNo_byteOf (b : Bool) : readYesNo (byteOf (yesNoCode b)) = b := by
  cases b <;> rfl

/-! Lists -/

theorem map_byteOf_toNat {l : List Nat} (h : ∀ n ∈ l, n < 256) : (l.map byteOf).map BitVec.toNat = l := by
  rw [List.map_map]
  exact (List.map_congr_left fun n hn => byteOf_toNat (h n hn)).trans (List.map_id l)

theorem readPairs_flatMap {l : List Nat} (h : ∀ n ∈ l, n < 65536) : readPairs (l.flatMap le16) = some l := by
  induction l with
  | nil => rfl
  | cons n l ih =>
    rw [List.forall_mem_cons] at h
    simp [le16, readPairs, ih h.2, of16_byteOf h.1]

theorem length_flatMap_le16 (l : List Nat) : (l.flatMap le16).length = 2 * l.length := by
  simp [List.length_flatMap, le16, Nat.mul_comm]

theorem readSectors_flatMap {l : List (Nat × Nat)} (h : ∀ e ∈ l, e.1 < 65536 ∧ e.2 < 256) :
    readSectors (l.flatMap (fun e => le16 e.1 ++ [byteOf e.2])) = some l := by
  induction l with
  | nil => rfl
  | cons e l ih =>
    rw [List.forall_mem_cons] at h
    rw [List.flatMap_cons]
    change (readSectors (l.flatMap fun e => le16 e.1 ++ [byteOf e.2])).map _ = _
    rw [ih h.2, Option.map_some, of16_byteOf h.1.1, byteOf_toNat h.1.2]

/-! Bodies -/

theorem judge_of_reader {r : Request} {read : List Byte → Option Request} (hc : bodyReader r.code = some read)
    (hr : read r.body = some r) : judge r.code r.body = .request r := by
  simp only [judge, hc, hr]

/-- A request's body reads back as the request. -/
theorem judge_body {r : Request} (h : r.fits = true) : judge r.code r.body = .request r := by
  cases r with
  | hill f =>
    simp only [Request.fits, HillFields.fits, fits1, fits2, Bool.and_eq_true, decide_eq_true_eq] at h
    exact judge_of_reader (read := readHill) rfl (by simp [Request.body, le16, readHill, of16_byteOf, byteOf_toNat, h])
  | sect count entries =>
    simp only [Request.fits, fitsSectors, fits1, fits2, Bool.and_eq_true, decide_eq_true_eq, beq_iff_eq,
      List.all_eq_true] at h
    obtain ⟨hcount, hlen, hentries⟩ := h
    have hbody : (entries.flatMap (fun e => le16 e.1 ++ [byteOf e.2])).length = 18 := by
      simp [List.length_flatMap, le16, hlen]
    exact judge_of_reader (read := readSect) rfl
      (by simp [Request.body, readSect, hbody, readSectors_flatMap hentries, byteOf_toNat hcount])
  | stn index action f =>
    simp only [Request.fits, StnFields.fits, fits1, fits2, Bool.and_eq_true, decide_eq_true_eq] at h
    exact judge_of_reader (read := readStn) rfl
      (by simp [Request.body, le16, readStn, of16_byteOf, byteOf_toNat, readYesNo_byteOf, h])
  | scan mode f =>
    simp only [Request.fits, ScanFields.fits, fits1, fits2, Bool.and_eq_true, decide_eq_true_eq, List.all_eq_true] at h
    obtain ⟨hmode, ⟨⟨⟨hperiod, hsilent⟩, hclear⟩, hlen⟩, hentries⟩ := h
    have hcount : (byteOf f.entries.length).toNat = f.entries.length := byteOf_toNat (by omega)
    have hlist := map_byteOf_toNat hentries
    rw [List.map_map] at hlist
    exact judge_of_reader (read := readScan) rfl
      (by simp [Request.body, le16, readScan, of16_byteOf, byteOf_toNat, hmode, hperiod, hsilent, hclear, hcount, hlist])
  | corr f =>
    simp only [Request.fits, CorrFields.fits, fits1, fits2, fitsBiased, Bool.and_eq_true, decide_eq_true_eq] at h
    obtain ⟨⟨⟨⟨hlower, hupper⟩, hlength⟩, hdeclare⟩, hclear⟩ := h
    exact judge_of_reader (read := readCorr) rfl
      (by simp [Request.body, biased, le16, readCorr, unbias_byteOf hlower, unbias_byteOf hupper, of16_byteOf hlength,
        byteOf_toNat hdeclare, byteOf_toNat hclear])
  | tims f =>
    simp only [Request.fits, TimsFields.fits, fits1, Bool.and_eq_true, decide_eq_true_eq] at h
    exact judge_of_reader (read := readTims) rfl (by simp [Request.body, readTims, byteOf_toNat, h])
  | unit index action f =>
    simp only [Request.fits, UnitFields.fits, fits1, Bool.and_eq_true, decide_eq_true_eq] at h
    exact judge_of_reader (read := readUnit) rfl (by simp [Request.body, readUnit, byteOf_toNat, h])
  | base v =>
    simp only [Request.fits, fits2, decide_eq_true_eq] at h
    exact judge_of_reader (read := readWord .base) rfl (by simp [Request.body, le16, readWord, of16_byteOf h])
  | trap v =>
    simp only [Request.fits, fits2, decide_eq_true_eq] at h
    exact judge_of_reader (read := readWord .trap) rfl (by simp [Request.body, le16, readWord, of16_byteOf h])
  | panl index action f =>
    simp only [Request.fits, PanlFields.fits, fits1, Bool.and_eq_true, decide_eq_true_eq] at h
    exact judge_of_reader (read := readPanl) rfl (by simp [Request.body, readPanl, byteOf_toNat, h])
  | fld index action f =>
    simp only [Request.fits, FldFields.fits, fits1, Bool.and_eq_true, decide_eq_true_eq] at h
    exact judge_of_reader (read := readFld) rfl (by simp [Request.body, readFld, byteOf_toNat, h])
  | openRound => rfl
  | shutRound => rfl
  | list clear bibs =>
    simp only [Request.fits, fits2, Bool.and_eq_true, decide_eq_true_eq, List.all_eq_true] at h
    have hcount : (byteOf bibs.length).toNat = bibs.length := byteOf_toNat (by omega)
    refine judge_of_reader (read := readList) rfl ?_
    rw [Request.body, readList, hcount, if_pos (length_flatMap_le16 bibs), readPairs_flatMap h.2, Option.map_some,
      readMark_markByte]
  | drop bib =>
    simp only [Request.fits, fits2, decide_eq_true_eq] at h
    exact judge_of_reader (read := readWord .drop) rfl (by simp [Request.body, le16, readWord, of16_byteOf h])
  | init => rfl
  | rels j o =>
    simp only [Request.fits, fits2, decide_eq_true_eq] at h
    exact judge_of_reader (read := readWordByte (fun j b => .rels j (readMark b))) rfl
      (by simp [Request.body, le16, readWordByte, of16_byteOf h, readMark_markByte])
  | hold j =>
    simp only [Request.fits, fits2, decide_eq_true_eq] at h
    exact judge_of_reader (read := readWord .hold) rfl (by simp [Request.body, le16, readWord, of16_byteOf h])
  | gate g =>
    simp only [Request.fits, fits1, decide_eq_true_eq] at h
    exact judge_of_reader (read := readGate) rfl (by simp [Request.body, readGate, byteOf_toNat h])
  | rduc j g =>
    simp only [Request.fits, fits1, fits2, Bool.and_eq_true, decide_eq_true_eq] at h
    exact judge_of_reader (read := readWordByte (fun j b => .rduc j b.toNat)) rfl
      (by simp [Request.body, le16, readWordByte, of16_byteOf h.1, byteOf_toNat h.2])
  | call bib => exact judge_of_reader (read := readCall) rfl (by simp [Request.body, le16, readCall, readSentinel_byteOf h])
  | void j q =>
    simp only [Request.fits, fits2, decide_eq_true_eq] at h
    exact judge_of_reader (read := readWordByte (fun j b => .void j (readMark b))) rfl
      (by simp [Request.body, le16, readWordByte, of16_byteOf h, readMark_markByte])
  | conf j d =>
    simp only [Request.fits, fits2, Bool.and_eq_true, decide_eq_true_eq] at h
    exact judge_of_reader (read := readConf) rfl
      (by simp [Request.body, le16, readConf, of16_byteOf h.1, readSentinel_byteOf h.2])
  | revw j =>
    simp only [Request.fits, fits2, decide_eq_true_eq] at h
    exact judge_of_reader (read := readWord .revw) rfl (by simp [Request.body, le16, readWord, of16_byteOf h])
  | amnd j d =>
    simp only [Request.fits, fits2, Bool.and_eq_true, decide_eq_true_eq] at h
    exact judge_of_reader (read := readWords .amnd) rfl
      (by simp [Request.body, le16, readWords, of16_byteOf h.1, of16_byteOf h.2])
  | page panel row column chars =>
    simp only [Request.fits, fits1, Bool.and_eq_true, decide_eq_true_eq] at h
    obtain ⟨⟨⟨hpanel, hrow⟩, hcolumn⟩, hlen⟩ := h
    exact judge_of_reader (read := readPage) rfl
      (by simp [Request.body, readPage, byteOf_toNat hpanel, byteOf_toNat hrow, byteOf_toNat hcolumn,
        byteOf_toNat (show chars.length < 256 by omega)])
  | cell panel row column count =>
    simp only [Request.fits, fits1, Bool.and_eq_true, decide_eq_true_eq] at h
    exact judge_of_reader (read := readCell) rfl (by simp [Request.body, readCell, byteOf_toNat, h])
  | jump j =>
    simp only [Request.fits, fits2, decide_eq_true_eq] at h
    exact judge_of_reader (read := readWord .jump) rfl (by simp [Request.body, le16, readWord, of16_byteOf h])
  | wind => rfl
  | trce j n =>
    simp only [Request.fits, fits2, Bool.and_eq_true, decide_eq_true_eq] at h
    exact judge_of_reader (read := readWords .trce) rfl
      (by simp [Request.body, le16, readWords, of16_byteOf h.1, of16_byteOf h.2])
  | stat => rfl

/-- The body of a request fits a frame. -/
theorem body_length {r : Request} (h : r.fits = true) : r.body.length ≤ 248 := by
  cases r with
  | sect count entries =>
    simp only [Request.fits, fitsSectors, Bool.and_eq_true, beq_iff_eq] at h
    simp [Request.body, List.length_flatMap, le16, h.2.1]
  | scan mode f =>
    simp only [Request.fits, ScanFields.fits, Bool.and_eq_true, decide_eq_true_eq] at h
    obtain ⟨-, ⟨-, hlen⟩, -⟩ := h
    simp [Request.body, le16]
    omega
  | list clear bibs =>
    simp only [Request.fits, Bool.and_eq_true, decide_eq_true_eq] at h
    obtain ⟨hlen, -⟩ := h
    simp only [Request.body, List.length_cons, length_flatMap_le16]
    omega
  | page panel row column chars =>
    simp only [Request.fits, Bool.and_eq_true, decide_eq_true_eq] at h
    obtain ⟨-, hlen⟩ := h
    simp only [Request.body, List.length_append, List.length_cons, List.length_nil]
    omega
  | _ => simp [Request.body, le16, biased]

/-- Settles O7: field by field, each request's own reader undoes its body. -/
theorem requestBodiesRoundTrip : Obligations.RequestBodiesRoundTrip := fun _ h => judge_body h

end Sys2Proof.Machine
end

