-- ==== Sys2Proof/Proofs/Frames.lean ====
section
/-! The bytes of a frame in the receiver: collected one by one, judged by the check, and for a good frame its arrival
(R170 to R172, R185, R186). -/

namespace Sys2Proof.Machine

/-! The receiver -/

/-- The state with the receiver of one link replaced. -/
def State.withReceiver (s : State) (l : LinkId) (r : Receiver) : State := s.setLink l { s.link l with receiver := r }

@[simp] theorem State.withReceiver_clock (s : State) (l : LinkId) (r : Receiver) :
    (s.withReceiver l r).clock = s.clock := s.setLink_clock l _

@[simp] theorem State.withReceiver_receiver (s : State) (l : LinkId) (r : Receiver) :
    ((s.withReceiver l r).link l).receiver = r := by
  rw [State.withReceiver, State.setLink_link_self]

@[simp] theorem State.withReceiver_withReceiver (s : State) (l : LinkId) (r r' : Receiver) :
    (s.withReceiver l r).withReceiver l r' = s.withReceiver l r' := by
  cases l <;> rfl

theorem State.withReceiver_of_eq {s : State} {l : LinkId} {r : Receiver} (h : (s.link l).receiver = r) :
    s.withReceiver l r = s := by
  subst h
  cases l <;> rfl

/-- A byte that completes no frame changes the receiver alone. -/
theorem receiveByte_of_none {l : LinkId} {s : State} {b : Byte} {r : Receiver}
    (h : (s.link l).receiver.take s.clock b = (r, none)) : receiveByte l s b = s.withReceiver l r := by
  simp only [receiveByte, h, State.withReceiver]

theorem receiveByte_of_some {l : LinkId} {s : State} {b : Byte} {r : Receiver} {f : LinkFrame}
    (h : (s.link l).receiver.take s.clock b = (r, some f)) :
    receiveByte l s b = (s.withReceiver l r).arrive l f (judge f.type f.body) := by
  simp only [receiveByte, h, State.withReceiver]

theorem Receiver.take_of_gap {got : List Byte} {last now : HillTime} (h : laterThan now (plusTicks last 5000) = true)
    (b : Byte) : (Receiver.collecting got last).take now b = (hunt now b, none) := by
  simp only [Receiver.take, h, if_true]

theorem Receiver.take_of_no_gap {got : List Byte} {last now : HillTime}
    (h : laterThan now (plusTicks last 5000) = false) (b : Byte) :
    (Receiver.collecting got last).take now b = collect got now b := by
  simp [Receiver.take, h]

/-- No gap lies between two bytes of one hill time. -/
theorem laterThan_plusTicks_self (now : HillTime) : laterThan now (plusTicks now 5000) = false := by
  have helapsed : elapsed now (plusTicks now 5000) = 4294962296 := by
    have hsub : now - (now + 5000#32) = 4294962296#32 := by bv_omega
    exact congrArg BitVec.toNat hsub
  simp [laterThan, reached, helapsed]

/-! Collecting -/

theorem collect_of_short {len : Byte} {got : List Byte} (h : got.length + 1 < len.toNat + 2) (now : HillTime)
    (b : Byte) : collect (len :: got) now b = (.collecting (len :: got ++ [b]) now, none) :=
  if_neg (by rw [List.length_cons]; omega)

theorem collect_of_last {len : Byte} {got : List Byte} (h : got.length + 1 = len.toNat + 2) (now : HillTime)
    (b : Byte) : collect (len :: got) now b = (.hunting, judgeFrame (len :: got ++ [b])) :=
  if_pos (by rw [List.length_cons]; omega)

/-- The content and the two check bytes behind a lead, judged (R171, R186). -/
theorem judgeFrame_eq (len type tag high low : Byte) (body : List Byte) :
    judgeFrame (len :: type :: tag :: body ++ [high, low]) =
      if [high, low] = checkBytes (len :: type :: tag :: body) then some { type := type, tag := tag, body := body }
      else none := by
  have hlen : (len :: type :: tag :: body ++ [high, low]).length - 2 = (len :: type :: tag :: body).length := by simp
  rw [judgeFrame, hlen, List.take_left, List.drop_left]

/-- Bytes short of the last check byte are collected behind those that stand. -/
theorem foldl_receiveByte_collecting {l : LinkId} {len : Byte} (bs got : List Byte) {s : State}
    (hr : (s.link l).receiver = .collecting (len :: got) s.clock) (hlen : got.length + bs.length < len.toNat + 2) :
    bs.foldl (receiveByte l) s = s.withReceiver l (.collecting (len :: got ++ bs) s.clock) := by
  induction bs generalizing got s with
  | nil => rw [List.append_nil, List.foldl_nil, State.withReceiver_of_eq hr]
  | cons b bs ih =>
    rw [List.length_cons] at hlen
    have hbyte : receiveByte l s b = s.withReceiver l (.collecting (len :: (got ++ [b])) s.clock) := by
      apply receiveByte_of_none
      rw [hr, Receiver.take_of_no_gap (laterThan_plusTicks_self _), collect_of_short (by omega)]
      rfl
    rw [List.foldl_cons, hbyte, ih (got ++ [b]) (by simp) (by simp; omega)]
    simp

/-- The last check byte of a frame whose other bytes have been collected (R171). -/
theorem receiveByte_of_last {l : LinkId} {s : State} {len type tag high low : Byte} {body : List Byte}
    {last : HillTime} (hr : (s.link l).receiver = .collecting (len :: type :: tag :: body ++ [high]) last)
    (hgap : laterThan s.clock (plusTicks last 5000) = false) (hlen : len.toNat = body.length + 2) :
    receiveByte l s low =
      if [high, low] = checkBytes (len :: type :: tag :: body) then
        (s.withReceiver l .hunting).arrive l { type := type, tag := tag, body := body } (judge type body)
      else s.withReceiver l .hunting := by
  have htake : (s.link l).receiver.take s.clock low =
      (.hunting, judgeFrame (len :: type :: tag :: body ++ [high, low])) := by
    rw [hr, Receiver.take_of_no_gap hgap, List.cons_append, collect_of_last (by simp; omega)]
    simp
  rw [judgeFrame_eq] at htake
  split at htake
  · next hcheck => rw [receiveByte_of_some htake, if_pos hcheck]
  · next hcheck => rw [receiveByte_of_none htake, if_neg hcheck]

/-- The bytes of a good frame, received by a hunting receiver. -/
theorem frameArrivalEvent_eq {l : LinkId} {s : State} (hr : (s.link l).receiver = .hunting) (type tag : Byte)
    {body : List Byte} (hlen : body.length ≤ 248) :
    frameArrivalEvent s l (linkFrameBytes type tag body) =
      s.arrive l { type := type, tag := tag, body := body } (judge type body) := by
  have hlenByte : (byteOf (body.length + 2)).toNat = body.length + 2 := byteOf_toNat (by omega)
  unfold frameArrivalEvent linkFrameBytes
  generalize byteOf (body.length + 2) = len at hlenByte ⊢
  obtain ⟨high, low, hcheck⟩ : ∃ high low, checkBytes (len :: type :: tag :: body) = [high, low] := ⟨_, _, rfl⟩
  have hlead : receiveByte l s 0xA5#8 = s.withReceiver l (.collecting [] s.clock) :=
    receiveByte_of_none (by rw [hr]; rfl)
  have hlength : receiveByte l (s.withReceiver l (.collecting [] s.clock)) len =
      s.withReceiver l (.collecting [len] s.clock) := by
    have hrange : 2 ≤ len.toNat ∧ len.toNat ≤ 250 := by omega
    rw [receiveByte_of_none (r := .collecting [len] s.clock), State.withReceiver_withReceiver]
    rw [State.withReceiver_receiver, State.withReceiver_clock, Receiver.take_of_no_gap (laterThan_plusTicks_self _),
      collect, if_pos hrange]
  have hcontent := foldl_receiveByte_collecting (l := l) (len := len) (type :: tag :: body ++ [high]) []
    (s := s.withReceiver l (.collecting [len] s.clock)) (by simp) (by simp; omega)
  rw [hcheck, show 0xA5#8 :: (len :: type :: tag :: body) ++ [high, low] =
    0xA5#8 :: len :: ((type :: tag :: body ++ [high]) ++ [low]) by simp]
  rw [List.foldl_cons, hlead, List.foldl_cons, hlength, List.foldl_append, hcontent, State.withReceiver_withReceiver,
    List.foldl_cons, List.foldl_nil, State.withReceiver_clock]
  have hlast : laterThan (s.withReceiver l (.collecting (len :: type :: tag :: body ++ [high]) s.clock)).clock
      (plusTicks s.clock 5000) = false := by
    rw [State.withReceiver_clock]
    exact laterThan_plusTicks_self _
  refine (receiveByte_of_last (State.withReceiver_receiver s l _) hlast hlenByte).trans ?_
  rw [hcheck, if_pos rfl,
    State.withReceiver_withReceiver, State.withReceiver_of_eq hr]

theorem exec_frameArrival_eq {s : State} (hh : s.held = false) {l : LinkId} (hr : (s.link l).receiver = .hunting)
    (now : HillTime) (type tag : Byte) {body : List Byte} (hlen : body.length ≤ 248) :
    exec (.frameArrival now l (linkFrameBytes type tag body)) s =
      .next ((s.setClock now).arrive l { type := type, tag := tag, body := body } (judge type body)) := by
  rw [exec_frameArrival, taken_of_not_held hh, frameArrivalEvent_eq ((congrArg Link.receiver (s.setClock_link now l)).trans hr) _ _ hlen]

/-! The type codes -/

/-- A type code has a body layout if it names a request (R187). -/
theorem bodyReader_isSome (type : Byte) : (bodyReader type).isSome = isRequestType type := by
  revert type
  decide

theorem judge_of_not_request {type : Byte} (h : isRequestType type = false) (body : List Byte) :
    judge type body = .unknownType := by
  rw [← bodyReader_isSome, Option.isSome_eq_false_iff, Option.isNone_iff_eq_none] at h
  rw [judge, h]

theorem isRequestType_of_badLength {type : Byte} {body : List Byte} (h : judge type body = .badLength) :
    isRequestType type = true := by
  cases hr : isRequestType type with
  | true => rfl
  | false =>
    rw [judge_of_not_request hr] at h
    cases h

/-- Settles O8: the receiver collects the frame byte by byte and its check is the one that was formed. -/
theorem goodFrameArrives : Obligations.GoodFrameArrives :=
  fun now _ type tag _ _ hh hr hlen => exec_frameArrival_eq hh hr now type tag hlen

/-- Settles O9: the frame's bytes bring about its arrival, and its body reads back as the row's request. -/
theorem requestRowsAreTheirFrames : Obligations.RequestRowsAreTheirFrames := by
  refine ⟨fun i now l tag r s hreq hfits hh hr => ?request, fun now l type tag body s htype hh hr hlen => ?unknown⟩
  case request =>
    rw [exec_frameArrival_eq hh hr now _ _ (body_length hfits), judge_body hfits, exec_of_requestOf hreq]
    rw [takenRequest, taken_of_not_held hh, requestEvent]
  case unknown =>
    rw [exec_frameArrival_eq hh hr now _ _ hlen, judge_of_not_request htype]
    rw [exec_requestUnknownType, taken_of_not_held hh, unknownTypeEvent, if_neg (by rw [htype]; nofun)]

/-- Settles O13: each byte is one turn of the receiver, and the last check byte judges the frame. -/
theorem linkBytesCollectAFrame : Obligations.LinkBytesCollectAFrame := by
  have hbyte : ∀ {now l s} (b : Byte), s.held = false →
      exec (.linkByteReceived now l b) s = .next (receiveByte l (s.setClock now) b) := fun b hh => by
    rw [exec_linkByteReceived, taken_of_not_held hh]
  have hreceiver : ∀ {now : HillTime} {l : LinkId} {s : State} {r}, (s.link l).receiver = r →
      ((s.setClock now).link l).receiver = r := fun h => (congrArg Link.receiver (State.setClock_link _ _ _)).trans h
  have hwith : ∀ (now : HillTime) (l : LinkId) (s : State) (r : Receiver),
      (s.setClock now).withReceiver l r = (s.setClock now).setLink l { s.link l with receiver := r } :=
    fun now l s r => by rw [State.withReceiver, State.setClock_link]
  refine ⟨?hunting, ?gap, ?length, ?content, ?last, ?timeout⟩
  case hunting =>
    intro now l b s hh hr
    rw [hbyte b hh, receiveByte_of_none (by rw [hreceiver hr]; rfl), hwith]
    rfl
  case gap =>
    intro now l b got last s hh hr hgap
    rw [hbyte b hh, receiveByte_of_none (by rw [hreceiver hr]; exact Receiver.take_of_gap hgap b), hwith, hunt]
  case length =>
    intro now l b last s hh hr hgap
    rw [hbyte b hh, receiveByte_of_none (by rw [hreceiver hr]; exact Receiver.take_of_no_gap hgap b), hwith]
  case content =>
    intro now l b len got last s hh hr hgap hlen
    rw [hbyte b hh, receiveByte_of_none ?_, hwith]
    rw [hreceiver hr]
    exact (Receiver.take_of_no_gap hgap b).trans (collect_of_short hlen _ b)
  case last =>
    intro now l len type tag high low body last s hh hr hgap hlen
    rw [hbyte low hh, receiveByte_of_last (hreceiver hr) hgap hlen, hwith]
  case timeout =>
    intro now l got last s hh hr hdue
    have hgap : linkGapEvent (s.setClock now) l = (s.setClock now).withReceiver l .hunting := by
      simp only [linkGapEvent, hreceiver hr]
      exact if_pos hdue
    rw [exec_linkGapTimeout, taken_of_not_held hh, hgap, hwith]

end Sys2Proof.Machine
end

