-- ==== Sys2Proof/Proofs/Links.lean ====
section
/-! The links: the checks before dispatch, LINK_BUSY, INIT and the resets, the transmitter, notices, STAT and refusals
(chapter 9). -/

namespace Sys2Proof.Machine

/-! Frames that arrive -/

section
variable {s : State} {l : LinkId}

theorem State.takes.setClock (h : s.takes l) (now : HillTime) : (s.setClock now).takes l := by
  obtain ⟨hh, hi, hq⟩ := h
  exact ⟨hh, hi, by rw [State.setClock_link]; exact hq⟩

/-- A frame that is taken at its arrival (R173). -/
theorem arrive_of_takes (h : s.takes l) (f : LinkFrame) (d : Judged) : s.arrive l f d = s.takeFrame l f.type f.tag d := by
  obtain ⟨-, hi, hq⟩ := h
  simp only [State.arrive, if_neg (Nat.not_le.mpr hq), hi]

theorem arrive_of_full (h : 4 ≤ (s.link l).queue.length) (f : LinkFrame) (d : Judged) :
    s.arrive l f d = s.busyFrame l f.type f.tag := if_pos h

/-- Once an INIT has been taken a frame holds a place and is not taken (R181). -/
theorem arrive_of_init (hi : s.initPhase ≠ .none) (hq : (s.link l).queue.length < 4) (f : LinkFrame) (d : Judged) :
    s.arrive l f d = s.place l (.waiting f) := by
  rw [State.arrive, if_neg (Nat.not_le.mpr hq)]
  split
  · next hn => exact absurd hn hi
  · rfl
  · rfl

end

/-- A request row while the part is not held: its frame arrives. -/
theorem exec_request {i : Instr} {now : HillTime} {l : LinkId} {tag : Byte} {r : Request}
    (hreq : requestOf i = some (now, l, tag, r)) {s : State} (hh : s.held = false) :
    exec i s =
      .next ((s.setClock now).arrive l { type := r.code, tag := tag, body := r.body } (.request r)) := by
  rw [exec_of_requestOf hreq, takenRequest, taken_of_not_held hh, requestEvent]

/-- Settles O10: the three checks, each on a frame that is taken. -/
theorem checksBeforeDispatch : Obligations.ChecksBeforeDispatch := by
  refine ⟨?unknown, ?length, ?link⟩
  case unknown =>
    intro now l type tag body s h htype
    have hreply : replyType type = 0xFF#8 := if_neg (by rw [htype]; nofun)
    rw [exec_requestUnknownType, taken_of_not_held h.1, unknownTypeEvent, if_neg (by rw [htype]; nofun),
      arrive_of_takes (h.setClock now), State.takeFrame, hreply]
    rfl
  case length =>
    intro now l type tag body s h hr hlen hjudge
    have hreply : replyType type = type + 0x80#8 := if_pos (isRequestType_of_badLength hjudge)
    rw [exec_frameArrival_eq h.1 hr now _ _ hlen, arrive_of_takes (h.setClock now), hjudge, State.takeFrame, hreply]
    rfl
  case link =>
    intro i now l tag r s h hreq hperm
    rw [exec_of_requestOf hreq, takenRequest_not_permitted h now tag hperm]

/-- Settles O11: with all places held a frame fills the busy list, or nothing. -/
theorem busyWhenPlacesHeld : Obligations.BusyWhenPlacesHeld := by
  intro i now l tag r s hreq hh hq
  rw [exec_request hreq hh, arrive_of_full (by rw [State.setClock_link]; exact hq), State.busyFrame, State.setClock_link]

/-- No composed text reads the INIT phase (R159). -/
theorem boardSync_setInitPhase (s : State) (v : InitPhase) :
    boardSync false s (s.setInitPhase v) = s.setInitPhase v :=
  boardSync_quiet rfl rfl (composed_congr rfl rfl rfl rfl rfl rfl rfl)

/-- Settles O12: INIT is taken as any request, and behind it the phase keeps every frame waiting. -/
theorem initStopsTheTaking : Obligations.InitStopsTheTaking := by
  refine ⟨fun now tag s h => ?taken, fun i now l tag r s hreq hh hi hq => ?waiting⟩
  case taken =>
    show takenRequest now .control tag .init s = _
    rw [takenRequest_of_takes h now tag rfl]
    exact congrArg (fun u : State => Host.Outcome.next (u.place .control _)) (boardSync_setInitPhase (s.setClock now) _)
  case waiting =>
    rw [exec_request hreq hh, arrive_of_init (s := s.setClock now) hi (by rw [State.setClock_link]; exact hq)]

/-! The transmitter -/

theorem Link.sent_of_sending {x : Link} {f : OutFrame} :
    x.sending = some f → x.sent = { x with
      sending := none
      queue := match f with
        | .reply _ => x.queue.drop 1
        | .busy _ => x.queue
        | .notice _ => x.queue } := by
  intro h
  cases f <;> simp only [Link.sent, h]

theorem State.sendsInitReply_iff (s : State) :
    s.sendsInitReply = true ↔ ∃ r, s.control.sending = some (.reply r) ∧ r.type = 0x90#8 ∧ r.code = .ok := by
  unfold State.sendsInitReply
  split
  · next r hs => simp [hs, Reply.isInitOk]
  · next hs => simp [hs]
  · next hs => simp [hs]
  · next hs => simp [hs]

theorem frameSentEvent_control {s : State} (hr : s.sendsInitReply = false) (hd : s.initPhase ≠ .due) :
    frameSentEvent s .control = s.setControl s.control.sent.beginNext := by
  simp [frameSentEvent, hr, hd]

/-- Settles O14: the order of the choice, and the end of each kind of frame. -/
theorem frameSentBeginsTheNext : Obligations.FrameSentBeginsTheNext := by
  refine ⟨fun x hx => ⟨?busy, ?reply, ?notice, ?nothing⟩, ?sent, ?initReply, ?due⟩
  case busy =>
    intro e es hb
    simp only [Link.beginNext, hx, hb]
  case reply =>
    intro r q hb hq
    simp only [Link.beginNext, hx, hb, hq]
  case notice =>
    intro n ns hb hq hn
    simp only [Link.beginNext, hx, hb, hn]
  case nothing =>
    intro hb hq hn
    simp only [Link.beginNext, hx, hb, hn]
  case sent =>
    intro now l f s hh hs hcontrol
    have hsent := congrArg Link.beginNext (Link.sent_of_sending hs)
    rw [exec_frameSent, taken_of_not_held hh]
    cases l with
    | control =>
      obtain ⟨hd, hreply⟩ := hcontrol rfl
      have hinit : (s.setClock now).sendsInitReply = false := by
        rw [← Bool.not_eq_true, State.sendsInitReply_iff]
        rintro ⟨r, hr, hok⟩
        exact hreply r (Option.some.inj (hs.symm.trans hr)) hok
      rw [frameSentEvent_control hinit hd]
      exact congrArg (fun x => Host.Outcome.next ((s.setClock now).setControl x)) hsent
    | console => exact congrArg (fun x => Host.Outcome.next ((s.setClock now).setConsole x)) hsent
  case initReply =>
    intro now r s hh _ hs ht hc
    have hinit : (s.setClock now).sendsInitReply = true := (State.sendsInitReply_iff _).mpr ⟨r, hs, ht, hc⟩
    rw [exec_frameSent, taken_of_not_held hh, frameSentEvent, if_pos hinit]
    exact congrArg (fun x => Host.Outcome.next (((s.setClock now).setControl x).setInitPhase .due))
      (Link.sent_of_sending hs)
  case due =>
    intro now s hh hd hreply
    have hinit : ¬ (s.setClock now).sendsInitReply = true := by
      rw [State.sendsInitReply_iff]
      rintro ⟨r, hr, hok⟩
      exact hreply r hr hok
    rw [exec_frameSent, taken_of_not_held hh, frameSentEvent, if_neg hinit]
    exact congrArg Host.Outcome.next (if_pos hd)

/-- Settles O15: a posting by the number of notices that wait. -/
theorem noticesArePostedOrLost : Obligations.NoticesArePostedOrLost := fun s n =>
  ⟨fun l h => (s.post_link n l).trans (if_neg (Nat.not_lt.mpr h)), fun l h => (s.post_link n l).trans (if_pos h), rfl⟩

/-! The resets -/

/-- The boundary after a hill time is the next whole multiple of the length, or the wrap of the clock (R90). -/
theorem boundaryAfter_cases (t : HillTime) {len : Nat} (hlen : 0 < len) :
    ((boundaryAfter t len).toNat % len = 0 ∧ t.toNat < (boundaryAfter t len).toNat ∧
      (boundaryAfter t len).toNat ≤ t.toNat + len) ∨
    (boundaryAfter t len = 0#32 ∧ 4294967296 ≤ (t.toNat / len + 1) * len) := by
  unfold boundaryAfter
  simp only
  split
  · next hk =>
      refine .inl ?_
      rw [BitVec.toNat_ofNat, Nat.mod_eq_of_lt hk, Nat.add_mul, Nat.one_mul, Nat.mul_comm]
      exact ⟨by simp, Nat.lt_mul_div_succ t.toNat hlen, Nat.add_le_add_right (Nat.mul_div_le _ _) _⟩
  · next hk => exact .inr ⟨rfl, Nat.not_lt.mp hk⟩

/-- Settles O5: every reset is the same reset state, with its own cause, clock and first window. -/
theorem resetsLeaveResetValues : Obligations.ResetsLeaveResetValues := by
  refine ⟨fun lv s => ⟨_, rfl, resetState_resetValues _ _ _ lv _, rfl, rfl⟩,
    fun lv s => ⟨_, rfl, resetState_resetValues _ _ _ lv _, rfl, rfl⟩, fun now s hh hd => ?_⟩
  have hreset : initResetEvent (s.setClock now) = (s.setClock now).initReset := if_pos (.inl hd)
  refine ⟨(s.setClock now).initReset, ?_, resetState_resetValues _ _ _ _ _, rfl, _, rfl, ?_⟩
  · rw [exec_initReset, taken_of_not_held hh, hreset]
  · exact boundaryAfter_cases now (by decide)

/-! STAT -/

theorem insertByJump_perm (r : Record) (l : List Record) : (insertByJump r l).Perm (r :: l) := by
  induction l with
  | nil => exact .refl _
  | cons x l ih =>
    unfold insertByJump
    split
    · exact .refl _
    · exact (ih.cons x).trans (.swap r x l)

/-- Sorting by jump number keeps the records. -/
theorem sortByJump_perm (l : List Record) : (sortByJump l).Perm l := by
  induction l with
  | nil => exact .refl _
  | cons x l ih => exact (insertByJump_perm x _).trans (ih.cons x)

/-- No composed text reads the links (R159). -/
theorem boardSync_setLink (s : State) (l : LinkId) (v : Link) : boardSync false s (s.setLink l v) = s.setLink l v := by
  cases l <;> exact boardSync_quiet rfl rfl (composed_congr rfl rfl rfl rfl rfl rfl rfl)

theorem statBody_eq (s : State) (lost : Bool) :
    statBody s lost =
      [.u8 (some (match s.round.part with | .unconfigured => 0 | .ready => 1 | .round => 2)),
       .u8 (some (match s.start.light with
         | .dark => 0 | .red => 1 | .yellow => 2 | .green => 3 | .greenFlash => 4 | .hold => 5)),
       .u8 (some (match s.start.countdown with | .idle => 0 | .running _ _ => 1 | .held _ _ => 2)),
       .u16 (match s.start.countdown with | .idle => none | .running j _ => some j | .held j _ => some j),
       .u32 (match s.start.countdown with
         | .idle => none
         | .running _ expiry => some ((ticksLeft expiry s.clock + 99) / 100)
         | .held _ ticks => some ((ticks + 99) / 100)),
       byteField s.start.juryGate, .u8 (s.start.staged.map Prod.fst), .u16 (s.start.staged.map Prod.snd),
       .u8 s.scoring.refGate, .u16 (s.scoring.hill.map (fun h => h.kPoint)),
       .u16 (s.scoring.hill.map (fun h => h.hillSize)),
       .u8 (some (match s.corridor.status with | .inside => 0 | .out => 1 | .noData => 2)),
       .u16 s.round.bindA, .u16 s.round.bindB, byteField s.round.startList.length, .u16 s.round.startList.head?,
       .u32 (some s.clock.toNat), byteField (if lost then 1 else 0), byteField s.round.records.length]
      ++ (sortByJump s.round.records).flatMap (fun r => [.u16 (some r.jump), .u8 (some (match r.state with
         | .called => 1 | .released => 2 | .inrun => 3 | .airborne => 4 | .awaiting => 5 | .review => 6
         | .confirmed => 7 | .published => 8 | .voided => 9))]) := by
  have hlen : (sortByJump s.round.records).length = s.round.records.length := (sortByJump_perm _).length_eq
  have hleft : s.countdownLeft.map msUp = match s.start.countdown with
      | .idle => none
      | .running _ expiry => some ((ticksLeft expiry s.clock + 99) / 100)
      | .held _ ticks => some ((ticks + 99) / 100) := by
    unfold State.countdownLeft
    cases s.start.countdown <;> rfl
  simp only [statBody, statRecords, hlen, hleft]
  rfl

/-- Settles O16: STAT answers the state as it stands, and clears one flag that no text reads. -/
theorem statReportsAndClearsItsFlag : Obligations.StatReportsAndClearsItsFlag := by
  intro now l tag s h
  show takenRequest now l tag .stat s = _
  have hboard : ∀ a, requestMarks (s.setClock now) .stat a = false := fun _ => rfl
  rw [takenRequest_of_takes h now tag rfl, hboard]
  simp only [serve, serveStat, accept, boardSync_setLink, statBody_eq, State.setClock_link]
  rfl

/-! Refusals -/

theorem releaseWork_code (s : State) (r : Record) (o : Bool) (c : Ctx) : (releaseWork s r o c).code = .ok := rfl

/-- A request whose block answers another code than OK is refused: nothing has changed (R176). -/
theorem serve_of_not_ok {s : State} {l : LinkId} {r : Request} (h : (serve s l r).code ≠ .ok) :
    (serve s l r).state = s := by
  cases r with
  | hill f => grind [serve, serveHill, refuse, accept]
  | sect c es => grind [serve, serveSect, refuse, accept]
  | stn i a f =>
    simp only [serve, serveStn] at h ⊢
    revert h
    split <;> grind [stnConfigure, stnUpdate, stnRemove, refuse, accept]
  | scan m f =>
    simp only [serve, serveScan] at h ⊢
    revert h
    split <;> grind [scanReplace, scanAdd, scanKeep, scanWork, refuse, accept]
  | corr f => grind [serve, serveCorr, refuse, accept]
  | tims f => grind [serve, serveTims, refuse, accept]
  | unit i a f =>
    simp only [serve, serveUnit] at h ⊢
    revert h
    split <;> grind [unitConfigure, unitRemove, refuse, accept]
  | base v => grind [serve, serveBase, refuse, accept]
  | trap v => grind [serve, serveTrap, refuse, accept]
  | panl i a f =>
    simp only [serve, servePanl] at h ⊢
    revert h
    split <;> grind [panlConfigure, panlUpdate, panlRemove, panlPeriod, refuse, accept]
  | fld i a f =>
    simp only [serve, serveFld] at h ⊢
    revert h
    split <;> grind [fldSet, fldClear, refuse, accept]
  | openRound => grind [serve, serveOpen, refuse, accept]
  | shutRound => grind [serve, serveShut, refuse, accept]
  | list c bibs => grind [serve, serveList, refuse, accept]
  | drop b => grind [serve, serveDrop, refuse, accept]
  | init => exact absurd rfl h
  | rels j o =>
    have hcalled : ∀ r, (releaseCalled s r o).code ≠ .ok → (releaseCalled s r o).state = s := fun r => by
      grind [releaseCalled, releaseWork_code, refuse]
    grind [serve, serveRels, resumeHeld, refuse, accept]
  | hold j => grind [serve, serveHold, refuse, accept]
  | gate g => grind [serve, serveGate, refuse, accept]
  | rduc j g => grind [serve, serveRduc, refuse, accept]
  | call b => cases b <;> grind [serve, serveCall, callWork, refuse, accept]
  | void j q => grind [serve, serveVoid, refuse, accept]
  | conf j d =>
    have hwork : ∀ r d, (confWork s r d).code = .ok := fun _ _ => rfl
    cases d <;> grind [serve, serveConf, refuse]
  | revw j => grind [serve, serveRevw, refuse, accept]
  | amnd j d => grind [serve, serveAmnd, refuse, accept]
  | page i r c cs => grind [serve, servePage, refuse, accept]
  | cell i r c n => exact serveCell_state s i r c n
  | jump j => exact serveJump_state s j
  | wind => rfl
  | trce j n => exact serveTrce_state s j n
  | stat => exact absurd rfl h

/-- A refused PANL marks no row. -/
theorem requestMarks_of_not_ok (s : State) (r : Request) {a : Answer} (h : a.code ≠ .ok) :
    requestMarks s r a = false := by
  cases r with
  | panl i action f =>
    show panlMarks s i action a = false
    unfold panlMarks
    split
    · next hc => exact absurd hc h
    · next hc => exact absurd hc h
    · rfl
  | _ => rfl

theorem State.place_queue (s : State) (l : LinkId) (p : Place) :
    ((s.place l p).link l).queue = (s.link l).queue ++ [p] := by
  rw [State.place, State.setLink_link_self, Link.beginNext_queue]

/-- Settles O20: the reply of a taken request is the block's; where its code is not OK the block changed nothing, and
bringing the board up to date behind nothing changes nothing. -/
theorem refusedRequestsChangeNothing : Obligations.RefusedRequestsChangeNothing := by
  intro i now l tag r s t a h hreq hexec hqueue hcode
  rw [exec_of_requestOf hreq] at hexec
  cases hperm : r.permitted l with
  | false =>
    rw [takenRequest_not_permitted h now tag hperm] at hexec
    obtain rfl := Host.Outcome.next.inj hexec
    rw [State.place_queue, State.setClock_link] at hqueue
    obtain rfl : _ = a := by simpa using hqueue
    exact ⟨rfl, rfl, rfl⟩
  | true =>
    rw [takenRequest_of_takes h now tag hperm] at hexec
    obtain rfl := Host.Outcome.next.inj hexec
    rw [State.place_queue, boardSync_link, serve_queue, State.setClock_link] at hqueue
    obtain rfl : _ = a := by simpa using hqueue
    refine ⟨?_, rfl, rfl⟩
    rw [requestMarks_of_not_ok _ r hcode, serve_of_not_ok hcode, boardSync_self]

/-! Edges -/

theorem boardSync_setStart_edge (s : State) (o : Bool) (d : List HillTime) :
    boardSync false s (s.setStart { s.start with barOpen := o, barDebounce := d }) =
      s.setStart { s.start with barOpen := o, barDebounce := d } :=
  boardSync_quiet rfl rfl (composed_congr rfl rfl rfl rfl rfl rfl rfl)

/-- No composed text reads the flight state (R159). -/
theorem boardSync_setFlight (s : State) (v : Flight) : boardSync false s (s.setFlight v) = s.setFlight v :=
  boardSync_quiet rfl rfl (composed_congr rfl rfl rfl rfl rfl rfl rfl)

theorem afterEdge_leaves (l : List HillTime) (t now : HillTime) (len : Nat) :
    afterEdge true false (l ++ [t]) now len = if reached now (plusTicks t len) then l ++ [t] else l := by
  simp [afterEdge]

theorem afterEdge_same (held : Bool) (edges : List HillTime) (now : HillTime) (len : Nat) :
    afterEdge held held edges now len = edges := by
  cases held <;> rfl

theorem exec_startBarEdge_eq {s : State} (hh : s.held = false) (now : HillTime) (opens : Bool) :
    exec (.startBarEdge now opens) s =
      .next ((s.setClock now).setStart { s.start with
        barOpen := opens, barDebounce := afterEdge s.start.barOpen opens s.start.barDebounce now 200 }) := by
  rw [exec_startBarEdge, taken_of_not_held hh]
  exact congrArg Host.Outcome.next (boardSync_setStart_edge (s.setClock now) _ _)

theorem exec_barrierInputEdge_eq {s : State} (hh : s.held = false) (now : HillTime) (w : Barrier) (interrupts : Bool) :
    exec (.barrierInputEdge now w interrupts) s =
      .next ((s.setClock now).setFlight (s.flight.setBarrier w ((s.flight.barrier w).edge interrupts now))) := by
  rw [exec_barrierInputEdge, taken_of_not_held hh]
  cases w <;> exact congrArg Host.Outcome.next (boardSync_setFlight (s.setClock now) _)

/-- Settles O37: an edge is what it makes of the list of debounces, and no text of the board reads that. -/
theorem edgesBeginAndDropDebounces : Obligations.EdgesBeginAndDropDebounces := by
  refine ⟨?opens, ?closes, ?interrupts, ?clears, ?same⟩
  case opens =>
    intro now s hh ho
    rw [exec_startBarEdge_eq hh, ho]
    rfl
  case closes =>
    intro now t l s hh ho
    refine ⟨fun hd => ?_, fun hd => ?_⟩
    · rw [exec_startBarEdge_eq hh, ho, hd, afterEdge_leaves]
      rfl
    · have hnone : afterEdge true false s.start.barDebounce now 200 = s.start.barDebounce := by rw [hd]; rfl
      rw [exec_startBarEdge_eq hh, ho, hnone]
  case interrupts =>
    intro now w s hh hb
    rw [exec_barrierInputEdge_eq hh, BarrierInput.edge, hb]
    rfl
  case clears =>
    intro now t l w s hh hb
    refine ⟨fun hd => ?_, fun hd => ?_⟩
    · rw [exec_barrierInputEdge_eq hh, BarrierInput.edge, hb, hd, afterEdge_leaves]
      rfl
    · rw [exec_barrierInputEdge_eq hh, BarrierInput.edge, hb, hd]
      rfl
  case same =>
    intro now b w s hh
    refine ⟨fun ho => ?_, fun hb => ?_⟩
    · subst ho
      rw [exec_startBarEdge_eq hh, afterEdge_same]
      rfl
    · subst hb
      rw [exec_barrierInputEdge_eq hh, BarrierInput.edge, afterEdge_same]
      cases w <;> rfl

end Sys2Proof.Machine
end

