-- ==== Sys2Proof/Proofs/Queries.lean ====
section
/-! The queries JUMP, WIND, TRCE and CELL: their bodies field by field, and their checks in order (R24, R87, R88, R161,
R188). -/

namespace Sys2Proof.Machine

/-! Bodies field by field -/

theorem cellBody_eq (p : Panel) {chars : List Byte} (pos : Nat) :
    cellBody p chars pos =
      [.bytes chars, .u8 (some chars.length), .u8 (some (match p.state with | .online => 1 | .offline => 2)),
       .u8 (some (if p.enabled then 0 else 1)), .u8 (some p.miss), .u8 (some p.ack)]
      ++ ((p.marks.take ((pos + chars.length - 1) / p.columns + 1)).drop (pos / p.columns)).flatMap (fun m =>
          [.u8 (some (if m.dirty then 1 else 0)), .u8 (some (if m.inFlight then 1 else 0))]) := by
  rw [List.drop_take]
  cases hst : p.state <;> simp only [cellBody, hst] <;> rfl

theorem markCode_eq (b : Bool) (n : Nat) : n * markCode b = if b then n else 0 := by
  cases b <;> simp [markCode]

theorem recFlags_code_eq (f : RecFlags) : f.code =
    (if f.override then 1 else 0) + (if f.held then 2 else 0) + (if f.heldStart then 4 else 0)
    + (if f.reduction then 8 else 0) + (if f.speedInvalid then 16 else 0) + (if f.noContact then 32 else 0)
    + (if f.ambiguous then 64 else 0) + (if f.crowded then 128 else 0) + (if f.corrected then 256 else 0)
    + (if f.manual then 512 else 0) + (if f.noWind then 1024 else 0) + (if f.traceFull then 2048 else 0)
    + (if f.amended then 4096 else 0) := by
  simp only [RecFlags.code, markCode_eq]
  rfl

theorem windStationFields_eq (st : Station) : windStationFields (some st) =
    [.u8 (some (match st.state with | .active => 1 | .silent => 2 | .fault => 3 | .disabled => 4)),
     .u8 (some st.address), .u8 (some st.sector), .u16 (some st.axis), .u8 (some (if st.member then 0 else 1)),
     .u8 (some (if st.enabled then 0 else 1)), .u8 (some st.miss), .u8 (some st.good),
     .u16 (st.latest.map (fun x => x.speed)), .u16 (st.latest.map (fun x => x.direction)),
     .s16 (st.latest.map (fun x => x.tangential)), .u32 (st.latest.map (fun x => x.time.toNat)),
     .u8 (some ((if st.flags.clamped then 1 else 0) + (if st.flags.mismatch then 2 else 0)))] := by
  have hflags : st.flags.code = (if st.flags.clamped then 1 else 0) + (if st.flags.mismatch then 2 else 0) := by
    rw [StationFlags.code, markCode_eq]
    rfl
  have htime : timeField (st.latest.map (fun x => x.time)) = .u32 (st.latest.map (fun x => x.time.toNat)) := by
    rw [timeField, Option.map_map]
    rfl
  simp only [windStationFields, hflags, htime]
  cases st.state <;> rfl

theorem recordBody_eq (r : Record) : recordBody (some r) =
    [.u16 (some r.jump), .u16 (some r.bib),
     .u8 (some (match r.state with
       | .called => 1 | .released => 2 | .inrun => 3 | .airborne => 4 | .awaiting => 5 | .review => 6
       | .confirmed => 7 | .published => 8 | .voided => 9)),
     .u8 (some (match r.context with | none => 0 | some .a => 1 | some .b => 2)),
     .u8 r.reductionGate, .u8 r.juryGate, .u8 r.usedGate,
     .u8 (some (match r.holdCause with | .none => 0 | .corridor => 1 | .jury => 2)),
     .u8 (r.voidReason.map (fun v => match v with
       | .startTime => 0 | .earlyStart => 1 | .inrunTimeout => 2 | .juryRestart => 3 | .juryCancel => 4
       | .roundClosed => 5)),
     .u16 (some r.flags.code), .u32 (some r.callTime.toNat), .u32 (r.releaseTime.map (fun t => t.toNat)),
     .u32 (r.departureTime.map (fun t => t.toNat)), .u32 (r.takeoffTime.map (fun t => t.toNat)),
     .u32 (r.landingTime.map (fun t => t.toNat)), .u32 r.remaining, .u16 r.speed, .u32 r.flightTime,
     .u8 r.landingMark, .u8 r.spread, .u16 r.proposed, .u16 r.confirmed, .s16 r.jumpWind, .u16 r.distPoints,
     .s16 r.gateComp, .s16 r.windComp, .u16 r.total, .u8 (some r.summaries.length)]
    ++ r.summaries.flatMap (fun m => [.u8 (some m.sector), .s16 (some m.mean), .u8 (some m.stations)]) := by
  have hcontext : ctxCode r.context = match r.context with | none => 0 | some .a => 1 | some .b => 2 := by
    rcases r.context with _ | _ | _ <;> rfl
  simp only [recordBody, hcontext]
  rfl

/-! The checks of each query -/

section
variable {s : State} {l : LinkId} {j : Nat} {r : Record}

theorem serveTrce_of_no_record (h : s.record j = none) (start : Nat) :
    serveTrce s j start = refuse s .noSuchJump trceRefused := by
  simp only [serveTrce, h]

theorem serveTrce_of_no_context (h : s.record j = some r) (hc : r.context = none) (start : Nat) :
    serveTrce s j start = refuse s .noTrace trceRefused := by
  simp only [serveTrce, h, hc]

theorem serveTrce_of_context (h : s.record j = some r) {c : Ctx} (hc : r.context = some c) (start : Nat) :
    serveTrce s j start = accept s (trceBody c (s.wind.ctx c) r.flags.traceFull start) := by
  simp only [serveTrce, h, hc]

variable {i row column count : Nat}

theorem serveCell_of_index (h : i < 1 ∨ 8 < i) : serveCell s i row column count = refuse s .outOfRange cellRefused :=
  if_pos (by omega)

theorem serveCell_of_unconfigured (h1 : 1 ≤ i) (h8 : i ≤ 8) (hp : entry s.board.panels i = none) :
    serveCell s i row column count = refuse s .wrongState cellRefused := by
  rw [serveCell, if_neg (by omega), hp]

theorem serveCell_of_range {p : Panel} (h1 : 1 ≤ i) (h8 : i ≤ 8) (hp : entry s.board.panels i = some p)
    (h : row < 1 ∨ p.rows < row ∨ column < 1 ∨ p.columns < column ∨ count < 1 ∨ 32 < count) :
    serveCell s i row column count = refuse s .outOfRange cellRefused := by
  simp only [serveCell, if_neg (show ¬¬(1 ≤ i ∧ i ≤ 8) by omega), hp]
  exact if_neg (by omega)

theorem serveCell_of_fit {p : Panel} (h1 : 1 ≤ i) (h8 : i ≤ 8) (hp : entry s.board.panels i = some p)
    (h : (1 ≤ row ∧ row ≤ p.rows) ∧ (1 ≤ column ∧ column ≤ p.columns) ∧ (1 ≤ count ∧ count ≤ 32)) :
    serveCell s i row column count =
      accept s (cellBody p (((s.composedPanel i p).drop (cellPos p row column)).take count) (cellPos p row column)) := by
  simp only [serveCell, if_neg (show ¬¬(1 ≤ i ∧ i ≤ 8) by omega), hp]
  exact if_pos h

/-- A request other than PANL that leaves the state as it is answers its code and body alone. -/
theorem takenRequest_query {now : HillTime} (h : s.takes l) (tag : Byte) {q : Request} (hp : q.permitted l = true)
    (hm : ∀ a, requestMarks (s.setClock now) q a = false) {code : ResultCode} {body : List Field}
    (hs : serve (s.setClock now) l q = { state := s.setClock now, code := code, body := body }) :
    takenRequest now l tag q s = s.answering now l (q.code + 0x80#8) tag code body :=
  takenRequest_refuse h tag hp hm hs

end

/-- Settles O19: each query answers what its body's layout gives of the state, which it leaves as it is. -/
theorem queriesChangeNothing : Obligations.QueriesChangeNothing := by
  refine ⟨recordBody_eq, windStationFields_eq, rfl, fun p chars pos _ => cellBody_eq p pos, recFlags_code_eq, ?jump,
    ?wind, ?trce, ?cell, ?refused⟩
  case jump =>
    intro now l tag j s h
    cases hr : s.round.records.find? (fun r => r.jump == j) with
    | none =>
      have hrecord : (s.setClock now).record j = none := hr
      exact takenRequest_query (q := .jump j) h tag rfl (fun _ => rfl) (by simp only [serve, serveJump, hrecord]; rfl)
    | some r =>
      have hrecord : (s.setClock now).record j = some r := hr
      exact takenRequest_query (q := .jump j) h tag rfl (fun _ => rfl) (by simp only [serve, serveJump, hrecord]; rfl)
  case wind =>
    intro now l tag s h
    exact takenRequest_query (q := .wind) h tag rfl (fun _ => rfl) rfl
  case trce =>
    intro now l tag j start r c s h hr hc
    have hserve := serveTrce_of_context (s := s.setClock now) hr hc start
    refine (takenRequest_query (q := .trce j start) h tag rfl (fun _ => rfl) hserve).trans ?_
    have hlen : (((s.wind.ctx c).trace.drop start).take 20).length = min 20 ((s.wind.ctx c).trace.length - start) := by
      rw [List.length_take, List.length_drop]
    have hbody : trceBody c ((s.setClock now).wind.ctx c) r.flags.traceFull start = _ :=
      congrArg (fun n => [byteField (ctxCode (some c)), .u16 (some (s.wind.ctx c).trace.length),
        byteField (markCode r.flags.traceFull), byteField (s.wind.ctx c).mark.code]
        ++ (((s.wind.ctx c).trace.drop start).take 20).flatMap traceFields ++ [Field.u16 (some (start + n))]) hlen
    rw [hbody]
    cases c <;> rfl
  case cell =>
    intro now l tag i row column count p s h h1 h8 hp hr1 hr hc1 hc hn1 hn
    exact takenRequest_query (q := .cell i row column count) h tag rfl (fun _ => rfl)
      (serveCell_of_fit (s := s.setClock now) h1 h8 hp ⟨⟨hr1, hr⟩, ⟨hc1, hc⟩, hn1, hn⟩)
  case refused =>
    intro now l tag j start i row column count s h
    refine ⟨fun hnone => ?noRecord, fun r hr hc => ?noContext, fun hi => ?index, fun h1 h8 hp => ?unconfigured,
      fun p h1 h8 hp hrange => ?range⟩
    case noRecord =>
      exact takenRequest_query (q := .trce j start) h tag rfl (fun _ => rfl)
        (serveTrce_of_no_record (s := s.setClock now) (State.record_eq_none hnone) start)
    case noContext =>
      exact takenRequest_query (q := .trce j start) h tag rfl (fun _ => rfl)
        (serveTrce_of_no_context (s := s.setClock now) hr hc start)
    case index =>
      exact takenRequest_query (q := .cell i row column count) h tag rfl (fun _ => rfl) (serveCell_of_index hi)
    case unconfigured =>
      exact takenRequest_query (q := .cell i row column count) h tag rfl (fun _ => rfl)
        (serveCell_of_unconfigured (s := s.setClock now) h1 h8 hp)
    case range =>
      exact takenRequest_query (q := .cell i row column count) h tag rfl (fun _ => rfl)
        (serveCell_of_range (s := s.setClock now) h1 h8 hp hrange)

end Sys2Proof.Machine
end

