-- ==== Sys2Proof/Proofs/Becomes.lean ====
section
/-! What a block's work makes of the state, but for the links and what the board does of itself: one rule for each operation
the blocks share, and the rows whose work no composed text reads. -/

namespace Sys2Proof.Machine

/-! The state a work becomes -/

theorem Becomes.refl (s : State) : Becomes s s := ⟨rfl, BoardKept.refl s⟩

theorem Becomes.trans {t u v : State} (h : Becomes t u) (g : Becomes u v) : Becomes t v := by
  refine ⟨?_, g.2.trans h.2⟩
  rw [h.1, g.1]

/-- A work block by block. -/
theorem Becomes.of_fields {t u : State} (pending : t.pending = u.pending := by rfl) (clock : t.clock = u.clock := by rfl)
    (held : t.held = u.held := by rfl) (initPhase : t.initPhase = u.initPhase := by rfl)
    (round : t.round = u.round := by rfl) (scoring : t.scoring = u.scoring := by rfl)
    (start : t.start = u.start := by rfl) (wind : t.wind = u.wind := by rfl)
    (corridor : t.corridor = u.corridor := by rfl) (flight : t.flight = u.flight := by rfl)
    (board : BoardKept u t := by exact ⟨rfl, rfl, rfl, fun _ => rfl⟩) : Becomes t u := by
  refine ⟨?_, board⟩
  rw [← pending, ← clock, ← held, ← initPhase, ← round, ← scoring, ← start, ← wind, ← corridor, ← flight]

section
variable {t u : State} (h : Becomes t u)
include h

theorem Becomes.clock : t.clock = u.clock := by rw [h.1]
theorem Becomes.round : t.round = u.round := by rw [h.1]
theorem Becomes.scoring : t.scoring = u.scoring := by rw [h.1]
theorem Becomes.start : t.start = u.start := by rw [h.1]
theorem Becomes.wind : t.wind = u.wind := by rw [h.1]
theorem Becomes.corridor : t.corridor = u.corridor := by rw [h.1]
theorem Becomes.flight : t.flight = u.flight := by rw [h.1]
theorem Becomes.fields : t.board.fields = u.board.fields := h.2.1

/-- Notices change the links alone. -/
theorem Becomes.post (n : Notice) : Becomes (t.post n) u :=
  ⟨congrArg (fun x => State.post x n) h.1, h.2⟩

theorem Becomes.setRound (v : Round) : Becomes (t.setRound v) (u.setRound v) :=
  ⟨congrArg (fun x => State.setRound x v) h.1, h.2⟩

theorem Becomes.setScoring (v : Scoring) : Becomes (t.setScoring v) (u.setScoring v) :=
  ⟨congrArg (fun x => State.setScoring x v) h.1, h.2⟩

theorem Becomes.setStart (v : StartLight) : Becomes (t.setStart v) (u.setStart v) :=
  ⟨congrArg (fun x => State.setStart x v) h.1, h.2⟩

theorem Becomes.setWind (v : WindRx) : Becomes (t.setWind v) (u.setWind v) :=
  ⟨congrArg (fun x => State.setWind x v) h.1, h.2⟩

theorem Becomes.setCorridor (v : Corridor) : Becomes (t.setCorridor v) (u.setCorridor v) :=
  ⟨congrArg (fun x => State.setCorridor x v) h.1, h.2⟩

theorem Becomes.setFlight (v : Flight) : Becomes (t.setFlight v) (u.setFlight v) :=
  ⟨congrArg (fun x => State.setFlight x v) h.1, h.2⟩

theorem Becomes.modifyRecord (j : Nat) (f : Record → Record) : Becomes (t.modifyRecord j f) (u.modifyRecord j f) := by
  unfold State.modifyRecord
  rw [h.round]
  exact h.setRound _

/-- A rendering of the COUNTDOWN fields is the board's own. -/
theorem Becomes.showCountdown : Becomes t.showCountdown u :=
  ⟨congrArg (fun x => State.setBoard x t.showCountdown.board) h.1, h.2⟩

theorem Becomes.toLight (light : Light) (bib remaining : Option Nat) :
    Becomes (t.toLight light bib remaining) (u.setStart { u.start with
      light := light
      cadence := if light = .greenFlash then some (true, plusTicks u.clock 50000) else none }) := by
  unfold State.toLight
  rw [h.start, h.clock]
  exact ((h.setStart _).showCountdown).post _

theorem Becomes.toCountdown (c : Countdown) :
    Becomes (t.toCountdown c) (u.setStart { u.start with countdown := c }) := by
  unfold State.toCountdown
  rw [h.start]
  exact (h.setStart _).showCountdown

theorem Becomes.toGate (g : Nat) (staged : Option (Nat × Nat)) :
    Becomes (t.toGate g staged) (u.setStart { u.start with juryGate := g, staged := staged }) := by
  unfold State.toGate
  rw [h.start]
  split
  · exact h.setStart _
  · exact (h.setStart _).showCountdown

theorem Becomes.markChanged (old : State) : Becomes (markChanged old t) u :=
  Becomes.trans ⟨rfl, markChanged_kept old t⟩ h

end

/-- The state with its round given in other words. -/
theorem Becomes.congr_round {t u : State} (h : Becomes t u) {rd : Round} (hr : u.round = rd) :
    Becomes t { u with round := rd } := hr ▸ h

/-! The notices of a work -/

theorem Posts.toLight {s t : State} {ns : List Notice} (h : Posts s t ns) (light : Light) (bib remaining : Option Nat) :
    Posts s (t.toLight light bib remaining) (ns ++ [.lamp light bib remaining]) :=
  (h.of_links (u := (t.setStart _).showCountdown) rfl rfl).post _

/-- A work whose only notice is a LAMP at its end. -/
theorem Posts.of_toLight {s t : State} {light : Light} {bib remaining : Option Nat} (hc : t.control = s.control)
    (hk : t.console = s.console) : Posts s (t.toLight light bib remaining) [.lamp light bib remaining] :=
  ((Posts.refl s).of_links hc hk).toLight light bib remaining

section
variable {s t : State} {ns : List Notice} (h : Posts s t ns)
include h

theorem Posts.toCountdown (c : Countdown) : Posts s (t.toCountdown c) ns := h.of_links rfl rfl

theorem Posts.toGate (g : Nat) (staged : Option (Nat × Nat)) : Posts s (t.toGate g staged) ns := by
  rw [State.toGate_eq]
  exact h.of_links rfl rfl

end

/-! Rows whose work no composed text reads -/

/-- A work that leaves the board, the record table, the light, the jury gate and the corridor's wind and status alone
leaves every composed text (R159). -/
theorem boardSync_unread {a b : State} (hboard : b.board = a.board := by rfl)
    (htable : b.round.table = a.round.table := by rfl) (hlight : b.start.light = a.start.light := by rfl)
    (hgate : b.start.juryGate = a.start.juryGate := by rfl) (hstatus : b.corridor.status = a.corridor.status := by rfl)
    (hlive : b.corridor.live = a.corridor.live := by rfl) : boardSync false a b = b :=
  boardSync_quiet (by rw [hboard]) (by rw [hboard])
    (composed_congr htable hlight hgate hstatus hlive (by rw [hboard]) (by rw [hboard]))

section
variable {s : State} {l : LinkId} {now : HillTime} {r : Request} {body : List Field}

/-- A request other than PANL that its block accepts with a work that no composed text reads. -/
theorem takenRequest_quiet (h : s.takes l) (tag : Byte) (hp : r.permitted l = true)
    (hm : ∀ a, requestMarks (s.setClock now) r a = false) {u : State}
    (hs : serve (s.setClock now) l r = accept (u.setClock now) body)
    (hq : boardSync false (s.setClock now) (u.setClock now) = u.setClock now) :
    takenRequest now l tag r s = u.answering now l (r.code + 0x80#8) tag .ok body :=
  takenRequest_answers h now tag hp hs (by rw [hm]; exact hq)

/-- A request that its block accepts with the state `w`, which becomes `u` and posts `ns`. -/
theorem takenRequest_accept (h : s.takes l) (tag : Byte) (hp : r.permitted l = true) {w u : State} {ns : List Notice}
    (hs : serve (s.setClock now) l r = accept w body) (hw : Becomes w u) (hn : Posts (s.setClock now) w ns) :
    ∃ t, takenRequest now l tag r s = .next t ∧ Becomes t u ∧
      Answers s t ns l { type := r.code + 0x80#8, tag := tag, code := .ok, body := body } :=
  let ⟨t, ht, hbecomes, _, hanswers⟩ := takenRequest_accept_becomes h tag hp hs hw hn
  ⟨t, ht, hbecomes, hanswers⟩

end

section
variable {s : State} {now : HillTime} {f : State → State}

/-- An event whose work no composed text reads. -/
theorem taken_quiet (h : s.held = false) {u : State} (hf : f (s.setClock now) = u)
    (hq : boardSync false (s.setClock now) u = u) : taken now s (withBoard f) = .next u := by
  rw [taken_of_not_held h, withBoard, hf, hq]

/-- An event that does nothing. -/
theorem taken_idle (h : s.held = false) (hf : f (s.setClock now) = s.setClock now) :
    taken now s (withBoard f) = .next (s.setClock now) := taken_quiet h hf (boardSync_self _)

end

/-! The record in a state -/

theorem Round.inState_eq_none {rd : Round} {p : RecState → Bool} (h : ∀ r ∈ rd.records, p r.state = false) :
    rd.inState p = none := List.find?_eq_none.mpr fun r hr => by rw [h r hr]; exact Bool.false_ne_true

theorem Round.inState_isSome {rd : Round} {p : RecState → Bool} (h : ∃ r ∈ rd.records, p r.state = true) :
    (rd.inState p).isSome = true := by
  rw [Round.inState, List.find?_isSome]
  exact h

end Sys2Proof.Machine
end

