-- ==== Sys2Proof/Proofs/StartLights.lean ====
section
/-! The start lights: the settings of TIMS, GATE, RDUC and RELS, and the countdown's own events. -/

namespace Sys2Proof.Machine

/-! TIMS -/

/-- The first of a list of checks that fails, numbered from 1. -/
theorem findIdx?_decide_cons (p : Prop) [Decidable p] (l : List Bool) :
    (decide p :: l).findIdx? (fun b => !b) = if ¬p then some 0 else (l.findIdx? (fun b => !b)).map (· + 1) := by
  by_cases h : p <;> simp [h, List.findIdx?_cons]

theorem timsFault_eq (f : TimsFields) :
    timsFault f =
      ([decide (10 ≤ f.countdown ∧ f.countdown ≤ 120), decide (5 ≤ f.resumeMin ∧ f.resumeMin ≤ 60),
       decide (f.clearance ≤ 30), decide (5 ≤ f.inrun ∧ f.inrun ≤ 30), decide (2 ≤ f.landing ∧ f.landing ≤ 15),
       decide (10 ≤ f.pairing ∧ f.pairing ≤ 250), decide (1 ≤ f.spread ∧ f.spread ≤ 20)].findIdx?
        (fun b => !b)).map (· + 1) := by
  simp only [findIdx?_decide_cons, List.findIdx?_nil, apply_ite (Option.map _), Option.map_some,
    Option.map_none]
  rfl

/-- Settles O31: the settings are read by no composed text. -/
theorem timsReplacesTheSettings : Obligations.TimsReplacesTheSettings := by
  rintro now tag f checks s h hchecks
  have hfault : timsFault f = (checks.findIdx? (fun b => !b)).map (· + 1) := hchecks ▸ timsFault_eq f
  cases hfirst : checks.findIdx? (fun b => !b) with
  | some n =>
    have hf : timsFault f = some (n + 1) := by rw [hfault, hfirst]; rfl
    exact takenRequest_refuse h tag (r := .tims f) rfl (fun _ => rfl) (by simp only [serve, serveTims, hf])
  | none =>
    have hf : timsFault f = none := by rw [hfault, hfirst]; rfl
    exact takenRequest_quiet h tag (r := .tims f) rfl (fun _ => rfl) (by simp only [serve, serveTims, hf]; rfl)
      boardSync_unread

/-! GATE -/

theorem gateRange_eq (s : State) :
    s.gateRange = match s.scoring.hill with | some h => (h.lowest, h.highest) | none => (1, 1) := rfl

theorem RecState.stages_eq (x : RecState) : x.stages = (x == .released || x == .inrun) := by cases x <;> rfl

/-- Settles O32: out of range, applied at once, or staged. -/
theorem gateAppliesOrStages : Obligations.GateAppliesOrStages := by
  rintro now tag g range s h hrange
  replace hrange : range = s.gateRange := hrange
  subst hrange
  refine ⟨fun hout => ?outside, fun hlow hhigh hnone => ?atOnce, fun r hlow hhigh hr => ?staged⟩
  case outside =>
    exact takenRequest_refuse h tag (r := .gate g) rfl (fun _ => rfl)
      (if_neg (c := (s.setClock now).gateRange.1 ≤ g ∧ g ≤ (s.setClock now).gateRange.2) (by
        rintro ⟨hlow, hhigh⟩
        exact hout.elim hlow.not_gt hhigh.not_gt))
  case atOnce =>
    have hstages : (s.setClock now).round.inState RecState.stages = none :=
      Round.inState_eq_none fun r hr => by simp [RecState.stages_eq, hnone r hr]
    exact takenRequest_accept h tag (r := .gate g) rfl
      ((if_pos (c := (s.setClock now).gateRange.1 ≤ g ∧ g ≤ (s.setClock now).gateRange.2) ⟨hlow, hhigh⟩).trans
        (by rw [hstages]; rfl))
      (((Becomes.refl (s.setClock now)).toGate g none).post _) (((Posts.refl _).toGate g none).post _)
  case staged =>
    have hstages : (s.setClock now).round.inState RecState.stages = some r := by
      rw [← hr, Round.inState, State.setClock_round, funext RecState.stages_eq]
    exact takenRequest_quiet h tag (r := .gate g) rfl (fun _ => rfl)
      ((if_pos (c := (s.setClock now).gateRange.1 ≤ g ∧ g ≤ (s.setClock now).gateRange.2) ⟨hlow, hhigh⟩).trans
        (by rw [hstages]; rfl))
      boardSync_unread

/-! RDUC -/

theorem serveRduc_of_called {s : State} {j g : Nat} {r : Record} (hr : s.record j = some r) (hs : r.state = .called) :
    serveRduc s j g =
      if s.gateRange.1 ≤ g ∧ g < s.start.juryGate then
        accept (s.modifyRecord r.jump (fun x =>
            { x with reductionGate := some g, flags := { x.flags with reduction := true } }))
          (rducBody (some r.jump) (some g) (some s.start.juryGate))
      else refuse s .outOfRange (rducBody none none none) := by
  simp only [serveRduc, hr, if_pos hs]

theorem State.jump_of_only {s : State} {j : Nat} {r : Record} (h : s.only j r) : r.jump = j := by
  simpa using List.find?_some h.1

/-- Settles O33: the checks of R62 in their order, and the record written. -/
theorem rducWritesTheReductionGate : Obligations.RducWritesTheReductionGate := by
  rintro now tag j g lowest s h hlowest
  have hlow : (s.setClock now).gateRange.1 = lowest := by
    rw [hlowest, gateRange_eq, State.setClock_scoring]
    cases s.scoring.hill <;> rfl
  refine ⟨fun hnone => ?noRecord, fun r hr hs => ?wrongState, fun r hr hs hout => ?outside,
    fun r hr hs hge hlt => ?written⟩
  case noRecord =>
    have hnone : (s.setClock now).record j = none := State.record_eq_none (s := s.setClock now) hnone
    exact takenRequest_refuse h tag (r := .rduc j g) rfl (fun _ => rfl) (by simp only [serve, serveRduc, hnone]; rfl)
  case wrongState =>
    have hr : (s.setClock now).record j = some r := State.record_of_only hr
    exact takenRequest_refuse h tag (r := .rduc j g) rfl (fun _ => rfl)
      (by simp only [serve, serveRduc, hr, if_neg hs]; rfl)
  case outside =>
    exact takenRequest_refuse h tag (r := .rduc j g) rfl (fun _ => rfl)
      ((serveRduc_of_called (s := s.setClock now) (State.record_of_only hr) hs).trans (if_neg (by
        rw [hlow]
        exact fun ⟨hge, hlt⟩ => hout.elim hge.not_gt hlt.not_ge)))
  case written =>
    have hjump := State.jump_of_only hr
    subst hjump
    exact takenRequest_accept h tag (r := .rduc r.jump g) rfl
      ((serveRduc_of_called (s := s.setClock now) (State.record_of_only hr) hs).trans
        (if_pos ⟨by rw [hlow]; exact hge, hlt⟩))
      ((Becomes.refl (s.setClock now)).modifyRecord _ _) ((Posts.refl _).of_links rfl rfl)

/-! RELS -/

/-- Two changes of the record of a jump number are one. -/
theorem Round.modify_modify (rd : Round) (j : Nat) {f : Record → Record} (hf : ∀ x, (f x).jump = x.jump)
    (g : Record → Record) : (rd.modify j f).modify j g = rd.modify j (fun x => g (f x)) := by
  simp only [Round.modify, List.map_map]
  congr 1
  refine List.map_congr_left fun e _ => ?_
  cases e with
  | none => rfl
  | some x =>
    by_cases hx : x.jump = j
    · simp [hx, hf]
    · simp [hx]

theorem usedGateFor_eq (reduction : Option Nat) (jury : Nat) :
    usedGateFor reduction jury = match reduction with | some g => min g jury | none => jury := by
  cases reduction with
  | none => rfl
  | some g => simp only [usedGateFor]; split <;> omega

theorem refGateAfterRelease_eq (sc : Scoring) (jury : Nat) :
    refGateAfterRelease sc jury = { sc with
      refGate := if sc.refGate = none ∧ sc.hill.map (fun h => h.mode) = some .firstRelease then some jury
        else sc.refGate } := by
  unfold refGateAfterRelease
  cases hh : sc.hill with
  | none => cases sc; simp_all
  | some h =>
    cases hr : sc.refGate with
    | none => by_cases hm : h.mode = .firstRelease <;> cases sc <;> simp_all
    | some g => cases sc; simp_all

theorem msUp_secTicks (n : Nat) : msUp (secTicks n) = 1000 * n := by
  unfold msUp secTicks
  omega

/-- The cadence a countdown of the ticks starts with (R41). -/
theorem lightFor_cadence (ticks : Nat) (next : HillTime) :
    (if lightFor ticks = .greenFlash then some (true, next) else none) =
      if 1000000 < ticks then none else some (true, next) := by
  unfold lightFor
  split <;> simp_all

theorem relsBody_eq (j : Option Nat) (c : Option Ctx) (used remaining : Option Nat) :
    relsBody j c used remaining =
      [.u16 j, .u8 (c.map (fun c => match c with | .a => 1 | .b => 2)), .u8 used, .u32 remaining] := by
  rcases c with _ | _ | _ <;> rfl

section
variable {s : State} {j : Nat} {r : Record} {override : Bool}

theorem hillClear_of (hill : ∀ x ∈ s.round.records, x.state.onHill = false) (hc : s.round.clearance = none) :
    s.hillClear = true := by
  simp [State.hillClear, Round.inState_eq_none hill, hc]

theorem hillClear_of_not (hn : (∃ x ∈ s.round.records, x.state.onHill = true) ∨ s.round.clearance ≠ none) :
    s.hillClear = false := by
  rcases hn with hill | hc
  · have hsome := Round.inState_isSome hill
    simp [State.hillClear, ← Option.not_isSome, hsome]
  · obtain ⟨expiry, he⟩ := Option.ne_none_iff_exists'.mp hc
    simp [State.hillClear, he]

theorem Round.freeCtx_of {rd : Round} {c : Ctx}
    (h : (rd.bindA = none ∧ c = .a) ∨ (rd.bindA ≠ none ∧ rd.bindB = none ∧ c = .b)) : rd.freeCtx = some c := by
  rcases h with ⟨ha, rfl⟩ | ⟨ha, hb, rfl⟩ <;> simp [Round.freeCtx, *]

theorem serveRels_of_called (hp : s.round.part = .round) (hr : s.record j = some r) (hs : r.state = .called) :
    serveRels s j override = releaseCalled s r override := by
  simp [serveRels, State.inRound, hp, hr, hs]

theorem serveRels_of_held (hp : s.round.part = .round) (hr : s.record j = some r) (hs : r.state = .released) {k n : Nat}
    (hc : s.start.countdown = .held k n) : serveRels s j override = resumeHeld s r override n := by
  simp [serveRels, State.inRound, hp, hr, hs, hc]

theorem serveRels_of_wrongState (hp : s.round.part = .round) (hr : s.record j = some r) (hs : r.state ≠ .called)
    (hn : r.state ≠ .released ∨ ∀ k n, s.start.countdown ≠ .held k n) :
    serveRels s j override = refuse s .wrongState (relsBody none none none none) := by
  simp only [serveRels, State.inRound, hp, hr, beq_self_eq_true, if_true]
  split
  case h_1 h => exact (hs h).elim
  case h_2 k n h hc => exact (hn.elim (· h) (· k n hc)).elim
  case h_3 => rfl

/-- The release writes the record, the context, the reference gate and the countdown, and shows its light (R48). -/
theorem releaseWork_becomes (s : State) (r : Record) (override : Bool) (c : Ctx) :
    Becomes (releaseWork s r override c).state { s with
      round := (s.round.setBinding c (some r.jump)).modify r.jump (fun x =>
        { x with
          context := some c, releaseTime := some s.clock, juryGate := some s.start.juryGate
          usedGate := some (usedGateFor r.reductionGate s.start.juryGate), state := .released
          flags := { x.flags with override := x.flags.override || override } })
      scoring := refGateAfterRelease s.scoring s.start.juryGate
      start := { s.start with
        countdown := .running r.jump (plusTicks s.clock (secTicks s.start.timing.countdown))
        light := lightFor (secTicks s.start.timing.countdown)
        cadence := if lightFor (secTicks s.start.timing.countdown) = .greenFlash then
          some (true, plusTicks s.clock 50000) else none }
      wind := s.wind.setCtx c (Context.empty .waiting) } := by
  have hround := Round.modify_modify (s.round.setBinding c (some r.jump)) r.jump
    (f := fun x => { x with context := some c }) (fun _ => rfl) (fun x =>
      { x with
        releaseTime := some s.clock, juryGate := some s.start.juryGate
        usedGate := some (usedGateFor r.reductionGate s.start.juryGate), state := .released
        flags := { x.flags with override := x.flags.override || override } })
  cases s
  exact Becomes.of_fields (round := hround)

theorem releaseWork_posts (s : State) (r : Record) (override : Bool) (c : Ctx) :
    Posts s (releaseWork s r override c).state
      [.lamp (lightFor (secTicks s.start.timing.countdown)) (some r.bib)
        (some (msUp (secTicks s.start.timing.countdown)))] := by
  cases s
  exact Posts.of_toLight rfl rfl

theorem serveRels_of_released (hp : s.round.part = .round) (hr : s.record j = some r) (hs : r.state = .called)
    (hill : ∀ x ∈ s.round.records, x.state.onHill = false) (hc : s.round.clearance = none) {c : Ctx}
    (hfree : s.round.freeCtx = some c) (hin : s.corridor.status = .inside ∨ override = true) :
    serveRels s j override = releaseWork s r override c := by
  simp only [serveRels_of_called hp hr hs, releaseCalled, hillClear_of hill hc, hfree, if_pos hin, if_true]

end

/-- Settles O34: a release, a resumption, and the checks of R46 to R49 in their order. -/
theorem relsReleasesOrResumes : Obligations.RelsReleasesOrResumes := by
  refine ⟨?released, ?resumed, ?refused⟩
  case released =>
    rintro now tag r override c _ _ _ s h hp hr hs hill hc hfree hin rfl rfl rfl
    have hserve := serveRels_of_released (s := s.setClock now) (j := r.jump) (override := override) hp
      (State.record_of_only hr) hs hill hc (Round.freeCtx_of hfree) hin
    obtain ⟨t, ht, hbecomes, hanswers⟩ := takenRequest_accept h tag (r := .rels r.jump override) rfl hserve
      (releaseWork_becomes (s.setClock now) r override c) (releaseWork_posts (s.setClock now) r override c)
    refine ⟨t, ht, ?_, ?_⟩
    · rw [usedGateFor_eq, refGateAfterRelease_eq, lightFor_cadence] at hbecomes
      rw [secTicks, Nat.mul_comm] at hbecomes
      exact hbecomes
    · rw [msUp_secTicks, usedGateFor_eq, secTicks, Nat.mul_comm] at hanswers
      cases c <;> exact hanswers
  case resumed =>
    rintro now tag r override j heldTicks _ s h hp hr hs hc hin rfl
    have hserve : serveRels (s.setClock now) r.jump override = accept _ _ :=
      (serveRels_of_held (s := s.setClock now) hp (State.record_of_only hr) hs hc).trans (if_pos hin)
    obtain ⟨t, ht, hbecomes, hanswers⟩ := takenRequest_accept h tag (r := .rels r.jump override) rfl hserve
      ((((Becomes.refl (s.setClock now)).modifyRecord _ _).toCountdown _).toLight _ _ _)
      (Posts.of_toLight rfl rfl)
    refine ⟨t, ht, ?_, ?_⟩
    · rw [lightFor_cadence, secTicks, Nat.mul_comm] at hbecomes
      exact hbecomes
    · rw [relsBody_eq, secTicks, Nat.mul_comm] at hanswers
      exact hanswers
  case refused =>
    rintro now tag j override _ s h rfl
    have hrefuse {code : ResultCode} (hs : serveRels (s.setClock now) j override =
        refuse (s.setClock now) code (relsBody none none none none)) :
        exec (.rels now .console tag j override) s = s.answering now .console 0x91#8 tag code
          [.u16 none, .u8 none, .u8 none, .u32 none] :=
      takenRequest_refuse h tag (r := .rels j override) rfl (fun _ => rfl) hs
    refine ⟨fun hp => ?noRound, fun hp hnone => ?noRecord, fun r hp hr hs hn => ?wrongState,
      fun r hp hr hs => ⟨fun hn => ?notClear, fun hill hc => ⟨fun ha hb => ?busy, fun hfree hout hov => ?corridor⟩⟩,
      fun r k n hp hr hs hc hout hflag hov => ?held⟩
    case noRound => exact hrefuse (by simp [serveRels, State.inRound, hp])
    case noRecord =>
      have hnone : (s.setClock now).record j = none := State.record_eq_none (s := s.setClock now) hnone
      exact hrefuse (by simp [serveRels, State.inRound, hp, hnone])
    case wrongState =>
      exact hrefuse (serveRels_of_wrongState (s := s.setClock now) hp (State.record_of_only hr) hs hn)
    case held =>
      refine hrefuse ((serveRels_of_held (s := s.setClock now) hp (State.record_of_only hr) hs hc).trans (if_neg ?_))
      simp [hout, hflag, hov]
    all_goals
      refine hrefuse ((serveRels_of_called (s := s.setClock now) hp (State.record_of_only hr) hs).trans ?_)
    case notClear => simp [releaseCalled, hillClear_of_not (s := s.setClock now) hn]
    case busy =>
      have hfull : s.round.freeCtx = none := by simp [Round.freeCtx, ha, hb]
      simp [releaseCalled, hillClear_of (s := s.setClock now) hill hc, hfull]
    case corridor =>
      have hsome : ∃ c, s.round.freeCtx = some c := by
        by_cases ha : s.round.bindA = none
        · exact ⟨.a, by simp [Round.freeCtx, ha]⟩
        · exact ⟨.b, by simp [Round.freeCtx, ha, hfree.resolve_left ha]⟩
      obtain ⟨c, hfree⟩ := hsome
      simp [releaseCalled, hillClear_of (s := s.setClock now) hill hc, hfree, hout, hov]

/-! The countdown's own events -/

theorem flashBoundary_of_green {s : State} {j : Nat} {expiry : HillTime} (hc : s.start.countdown = .running j expiry)
    (hl : s.start.light = .green) :
    flashBoundaryEvent s =
      if reached s.clock (expiry - 1000000#32) then
        s.toLight .greenFlash ((s.record j).map (fun r => r.bib)) (some 10000) else s := by
  simp only [flashBoundaryEvent, hc, hl, true_and]

theorem lamps_eq (st : StartLight) :
    (st.light = .dark → lamps st = (false, false, false)) ∧ (st.light = .red → lamps st = (true, false, false)) ∧
    (st.light = .yellow → lamps st = (false, true, false)) ∧ (st.light = .green → lamps st = (false, false, true)) ∧
    (∀ lit next, st.light = .greenFlash → st.cadence = some (lit, next) → lamps st = (false, false, lit)) ∧
    (st.light = .hold → lamps st = (true, true, false)) := by
  unfold lamps
  refine ⟨fun h => ?_, fun h => ?_, fun h => ?_, fun h => ?_, fun lit next h hc => ?_, fun h => ?_⟩ <;> rw [h]
  rw [hc]

/-- Settles O36: the lamps, the flash boundary, the cadence and the second step. -/
theorem countdownEvents : Obligations.CountdownEvents := by
  refine ⟨lamps_eq, fun now expiry r s hh hc hr hl => ⟨fun hdue => ?boundary, fun hearly => ?early⟩,
    fun now next lit s hh hc => ?cadence, fun now expiry j s hh hc => ?secondStep,
    fun now s hh hc => ⟨?noBoundary, ?noStep⟩⟩
  case boundary =>
    have hevent : flashBoundaryEvent (s.setClock now) = (s.setClock now).toLight .greenFlash (some r.bib) (some 10000) :=
      (flashBoundary_of_green (s := s.setClock now) hc hl).trans ((if_pos hdue).trans
        (by rw [State.record_of_only (s := s.setClock now) hr]; rfl))
    exact taken_becomes (s := s) hh now (f := flashBoundaryEvent)
      (hevent ▸ (Becomes.refl (s.setClock now)).toLight _ _ _)
      (hevent ▸ (Posts.refl (s.setClock now)).toLight _ _ _)
  case early =>
    exact taken_idle hh ((flashBoundary_of_green (s := s.setClock now) hc hl).trans (if_neg (by simpa using hearly)))
  case cadence =>
    refine taken_quiet (f := flashCadenceEvent) hh ?_ ?_
    · simp only [flashCadenceEvent, State.setClock_start, hc, State.setClock_clock]
      rfl
    · split
      · exact boardSync_unread
      · exact boardSync_self _
  case secondStep =>
    have hevent : secondStepEvent (s.setClock now) = (s.setClock now).showCountdown := by
      simp only [secondStepEvent, State.setClock_start, hc]
    rw [exec_countdownSecondStep, taken_of_not_held hh, withBoard, hevent]
    have hbecomes : Becomes (s.setClock now).showCountdown (s.setClock now) := (Becomes.refl _).showCountdown
    have hposts : Posts s (s.setClock now).showCountdown [] := (Posts.refl s).of_links rfl rfl
    refine ⟨_, rfl, hbecomes.boardSync _ _, hposts.boardSync _ _, fun n d hd hi => ?_⟩
    rw [boardSync_countdownShown, State.showCountdown_eq]
    simp only [entry_map_bind, State.setClock_board, hd, Option.bind_some, FieldDesc.shown, if_pos hi,
      State.setClock_start, hc]
    rfl
  case noBoundary =>
    refine taken_idle hh ?_
    cases hrun : s.start.countdown with
    | running j e => exact (hc j e hrun).elim
    | idle | held => simp only [flashBoundaryEvent, State.setClock_start, hrun]
  case noStep =>
    refine taken_idle hh ?_
    cases hrun : s.start.countdown with
    | running j e => exact (hc j e hrun).elim
    | idle | held => simp only [secondStepEvent, State.setClock_start, hrun]

end Sys2Proof.Machine
end

