-- ==== Sys2Proof/Proofs/Corridor.lean ====
section
/-! The corridor: CORR restarts the windows, a window's end judges the window and may hold the countdown. -/

namespace Sys2Proof.Machine

/-! CORR -/

theorem corrFault_eq (f : CorrFields) :
    corrFault f =
      ([decide (-500 ≤ f.lower ∧ f.lower ≤ 500), decide (-500 ≤ f.upper ∧ f.upper ≤ 500 ∧ f.lower < f.upper),
       decide (500 ≤ f.lengthMs ∧ f.lengthMs ≤ 10000 ∧ f.lengthMs % 500 = 0),
       decide (1 ≤ f.declare ∧ f.declare ≤ 15), decide (1 ≤ f.clear ∧ f.clear ≤ 15)].findIdx?
        (fun b => !b)).map (· + 1) := by
  simp only [findIdx?_decide_cons, List.findIdx?_nil, apply_ite (Option.map _), Option.map_some,
    Option.map_none]
  rfl

theorem opensAtOnce_iff (c : Corridor) (now : HillTime) (len : Nat) :
    opensAtOnce c now len = true ↔ now.toNat % len = 0 ∧ c.lastEnd ≠ some now := by
  simp [opensAtOnce]

theorem firstOpening_eq (c : Corridor) (now : HillTime) (len : Nat) :
    firstOpening c now len =
      if now.toNat % len = 0 ∧ c.lastEnd ≠ some now then now else boundaryAfter now len := by
  simp only [firstOpening, opensAtOnce_iff]

/-- The window of the new settings, opened at once or at the next boundary (R97). -/
theorem reconfigure_window (c : Corridor) (f : CorrFields) (now : HillTime) :
    (c.reconfigure f now).window =
      if opensAtOnce c now (msTicks f.lengthMs) = true then
        if c.dueBoundary = now then
          .current now (boundaryAfter now (msTicks f.lengthMs)) c.waitSum c.waitCount
        else .current now (boundaryAfter now (msTicks f.lengthMs)) 0 0
      else .opensAt (boundaryAfter now (msTicks f.lengthMs)) := by
  simp only [Corridor.reconfigure]
  cases opensAtOnce c now (msTicks f.lengthMs) <;> by_cases hdue : c.dueBoundary = now <;> simp [hdue]

theorem dueBoundary_of {c : Corridor} {now : HillTime}
    (h : c.window = .opensAt now ∨ ∃ start sum count, c.window = .current start now sum count) : c.dueBoundary = now := by
  rcases h with h | ⟨_, _, _, h⟩ <;> simp only [Corridor.dueBoundary, h]

theorem dueBoundary_ne_of {c : Corridor} {now : HillTime} (ho : c.window ≠ .opensAt now)
    (hc : ∀ start sum count, c.window ≠ .current start now sum count) : c.dueBoundary ≠ now := by
  rintro rfl
  cases hw : c.window with
  | opensAt t => simp only [Corridor.dueBoundary, hw] at ho; exact ho rfl
  | current start stop sum count => simp only [Corridor.dueBoundary, hw] at hc; exact hc start sum count rfl

/-- Settles O45: the first field at fault, or the settings written and the windows restarted. -/
theorem corrRestartsTheWindows : Obligations.CorrRestartsTheWindows := by
  rintro now opens tag f checks len s h hchecks hlen hopens
  replace hlen : len = msTicks f.lengthMs := by rw [hlen, msTicks, Nat.mul_comm]
  subst hlen
  rw [← firstOpening_eq] at hopens
  subst hopens
  have hfault : corrFault f = (checks.findIdx? (fun b => !b)).map (· + 1) := hchecks ▸ corrFault_eq f
  refine ⟨fun n hn => ?refused, fun hnone => ⟨s.corridor.reconfigure f now, ?accepted, rfl, ?later, ?atOnce⟩⟩
  case refused =>
    rw [hn] at hfault
    exact takenRequest_refuse h tag (r := .corr f) rfl (fun _ => rfl)
      (by simp only [serve, serveCorr, hfault, Option.map_some])
  case accepted =>
    rw [hnone] at hfault
    exact takenRequest_quiet h tag (r := .corr f) rfl (fun _ => rfl)
      (by simp only [serve, serveCorr, hfault, Option.map_none]; rfl) boardSync_unread
  case later =>
    intro hne
    rw [firstOpening] at hne ⊢
    rw [reconfigure_window]
    split at hne
    · exact (hne rfl).elim
    · next hn => rw [if_neg hn, if_neg hn]
  case atOnce =>
    intro hmod hlast
    rw [reconfigure_window, if_pos ((opensAtOnce_iff _ _ _).mpr ⟨hmod, hlast⟩)]
    exact ⟨fun hdue => if_pos (dueBoundary_of hdue), fun ho hc => if_neg (dueBoundary_ne_of ho hc)⟩

/-! The end of a window -/

/-- The corridor after the end of a window of the mean: judged, its status updated, the next window open (R90, R92 to
R94). -/
def Corridor.ended (c : Corridor) (stop : HillTime) (mean : Option Int) : Corridor :=
  { ({ c.judge mean with status := (c.judge mean).nextStatus mean }).openWindow stop with lastEnd := some stop }

theorem endWindow_eq (s : State) (stop : HillTime) (sum : Int) (count : Nat) :
    endWindow s stop sum count =
      if (s.corridor.ended stop (windowMean sum count)).status = s.corridor.status then
        s.setCorridor (s.corridor.ended stop (windowMean sum count))
      else (s.setCorridor (s.corridor.ended stop (windowMean sum count))).corridorChanged s.corridor.status stop
        (windowMean sum count) := rfl

theorem windowMean_eq (sum : Int) (count : Nat) :
    windowMean sum count = if count < 2 then none else some (roundDiv sum count) := by
  unfold windowMean
  split <;> split <;> first | rfl | omega

/-- A status that is what it would become stays (R94). -/
theorem ite_ne_and (a b : CorridorStatus) (p : Prop) [Decidable p] :
    (if a ≠ b ∧ p then b else a) = if p then b else a := by
  by_cases h : a = b <;> simp [h]

theorem ended_eq (c : Corridor) (stop : HillTime) {mean : Option Int} {inside : Bool}
    (hin : inside = true ↔ ∃ m, mean = some m ∧ c.lower ≤ m ∧ m ≤ c.upper) :
    c.ended stop mean = { c with
      live := mean
      inRun := if mean ≠ none ∧ inside = true then min (c.inRun + 1) 15 else 0
      outRun := if mean ≠ none ∧ inside = false then min (c.outRun + 1) 15 else 0
      emptyRun := if mean = none then min (c.emptyRun + 1) 15 else 0
      status :=
        if mean = none then (if 3 ≤ min (c.emptyRun + 1) 15 then .noData else c.status)
        else if inside = true then (if c.clear ≤ min (c.inRun + 1) 15 then .inside else c.status)
        else (if c.declare ≤ min (c.outRun + 1) 15 then .out else c.status)
      window := .current stop (boundaryAfter stop (100 * c.lengthMs)) c.waitSum c.waitCount
      waitSum := 0, waitCount := 0, lastEnd := some stop } := by
  cases mean with
  | none =>
    simp [Corridor.ended, Corridor.judge, Corridor.nextStatus, Corridor.openWindow, Corridor.lengthTicks, msTicks,
      countUp, ite_ne_and, Nat.mul_comm]
  | some m =>
    have hinside : c.insideLimits m = inside := by
      rw [Bool.eq_iff_iff, hin]
      simp [Corridor.insideLimits]
    have hkept : ∀ i o e l, ({ c with inRun := i, outRun := o, emptyRun := e, live := l }).insideLimits m = inside :=
      fun _ _ _ _ => hinside
    cases inside <;>
    simp [Corridor.ended, Corridor.judge, Corridor.nextStatus, Corridor.openWindow, Corridor.lengthTicks, msTicks,
      countUp, ite_ne_and, hinside, hkept, Nat.mul_comm]

section
variable {s : State} {now : HillTime}

theorem corridorHold_idle
    (h : (∀ x ∈ s.round.records, x.state ≠ .released) ∨ (∀ j e, s.start.countdown ≠ .running j e)) :
    corridorHold s = s := by
  unfold corridorHold
  split
  · next r j e hr hc =>
    rcases h with h | h
    · have hnone : s.round.inState (fun x => x == .released) = none :=
        Round.inState_eq_none fun x hx => by simp [h x hx]
      rw [hnone] at hr
      cases hr
    · exact (h j e hc).elim
  · rfl

theorem corridorHold_running {r : Record} {j : Nat} {expiry : HillTime}
    (hr : s.round.records.find? (fun x => x.state == .released) = some r) (hc : s.start.countdown = .running j expiry) :
    corridorHold s = if r.flags.override then s else holdWork s r .corridor (ticksLeft expiry s.clock) := by
  have hr : s.round.inState (fun x => x == .released) = some r := hr
  simp only [corridorHold, hr, hc]

theorem State.corridorChanged_quiet {before : CorridorStatus} (time : HillTime) (mean : Option Int)
    (h : before ≠ .inside ∨ (∀ x ∈ s.round.records, x.state ≠ .released) ∨
      (∀ j e, s.start.countdown ≠ .running j e)) :
    s.corridorChanged before time mean =
      s.post (.corr before s.corridor.status time mean s.corridor.inRun s.corridor.outRun s.corridor.emptyRun) := by
  unfold State.corridorChanged
  simp only
  split
  · next hb => exact corridorHold_idle (h.resolve_left (· hb))
  · rfl

theorem State.corridorChanged_running (time : HillTime) (mean : Option Int) {r : Record} {j : Nat} {expiry : HillTime}
    (hr : s.round.records.find? (fun x => x.state == .released) = some r) (hc : s.start.countdown = .running j expiry) :
    s.corridorChanged .inside time mean =
      if r.flags.override then
        s.post (.corr .inside s.corridor.status time mean s.corridor.inRun s.corridor.outRun s.corridor.emptyRun)
      else
        holdWork
          (s.post (.corr .inside s.corridor.status time mean s.corridor.inRun s.corridor.outRun s.corridor.emptyRun)) r
          .corridor (ticksLeft expiry s.clock) :=
  corridorHold_running
    (s := s.post (.corr .inside s.corridor.status time mean s.corridor.inRun s.corridor.outRun s.corridor.emptyRun)) hr
    hc

/-- A hold of a countdown in a state that has become `u`. -/
theorem Becomes.holdWork {t u : State} (h : Becomes t u) (r : Record) (cause : HoldCause) (ticks : Nat) :
    Becomes (holdWork t r cause ticks) { u with
      round := u.round.modify r.jump (fun x =>
        { x with remaining := some (msUp ticks), holdCause := cause, flags := { x.flags with held := true } })
      start := { u.start with countdown := .held r.jump ticks, light := .hold, cadence := none } } :=
  ((h.toCountdown _).modifyRecord _ _).toLight _ _ _

theorem windowEnd_of_reached {start stop : HillTime} {sum : Int} {count : Nat}
    (hw : s.corridor.window = .current start stop sum count) (hdue : reached s.clock stop = true) :
    windowEndEvent s = endWindow s stop sum count := by
  simp only [windowEndEvent, hw, if_pos hdue]

/-- What an event becomes and posts, from the state it leaves. -/
theorem taken_of_eq {f : State → State} {w u : State} {ns : List Notice} (h : s.held = false) (hf : f (s.setClock now) = w)
    (hw : Becomes w u) (hn : Posts (s.setClock now) w ns) :
    ∃ t, taken now s (withBoard f) = .next t ∧ Becomes t u ∧ Posts s t ns :=
  taken_becomes h now (f := f) (hf ▸ hw) (hf ▸ hn)

end

/-- Settles O44: the window judged, the status and what its change brings, and the boundary not yet reached. -/
theorem windowEndJudgesTheWindow : Obligations.WindowEndJudgesTheWindow := by
  refine ⟨?ends, fun now time s hh hw => ?opens, fun now stop start sum count s hh hw hearly => ?early⟩
  case ends =>
    rintro now stop start sum count _ inside _ before after s hh hw hdue rfl rfl hin hafter rfl
    rw [← windowMean_eq] at hin hafter ⊢
    have hended := ended_eq s.corridor stop hin
    rw [← hafter] at hended
    rw [← hended]
    have hevent : windowEndEvent (s.setClock now) = _ :=
      (windowEnd_of_reached (s := s.setClock now) hw hdue).trans (endWindow_eq _ _ _ _)
    have hstatus : (s.corridor.ended stop (windowMean sum count)).status = after := by rw [hended]
    simp only [State.setClock_corridor, hstatus] at hevent
    generalize s.corridor.ended stop (windowMean sum count) = c at hevent hstatus ⊢
    generalize windowMean sum count = mean at hevent ⊢
    subst hstatus
    have hcorr {t : State} (hc : t.control = s.control) (hk : t.console = s.console) :
        Posts (s.setClock now) (t.post (.corr s.corridor.status c.status stop mean c.inRun c.outRun c.emptyRun))
          [.corr s.corridor.status c.status stop mean c.inRun c.outRun c.emptyRun] :=
      ((Posts.refl (s.setClock now)).of_links hc hk).post _
    have hset : Becomes ((s.setClock now).setCorridor c) { s with clock := now, corridor := c } := Becomes.refl _
    refine ⟨fun hsame => ?same, fun hne hidle => ?changed, fun r j expiry ms hne hinside hr hc hms => ?held⟩
    case same =>
      rw [if_pos hsame] at hevent
      exact taken_of_eq hh hevent hset ((Posts.refl _).of_links rfl rfl)
    case changed =>
      rw [if_neg hne, State.corridorChanged_quiet (s := (s.setClock now).setCorridor c) stop mean hidle] at hevent
      exact taken_of_eq hh hevent (hset.post _) (hcorr rfl rfl)
    case held =>
      rw [if_neg hne, hinside, State.corridorChanged_running (s := (s.setClock now).setCorridor c) stop mean hr hc] at hevent
      subst hms
      rw [hinside] at hcorr ⊢
      refine ⟨fun hov => ?_, fun hov => ?_⟩
      · rw [if_pos hov] at hevent
        exact taken_of_eq hh hevent (hset.post _) (hcorr rfl rfl)
      · rw [if_neg (by simp [hov])] at hevent
        exact taken_of_eq hh hevent ((hset.post _).holdWork r .corridor _)
          ((hcorr rfl rfl).trans (holdWork_posts _ r .corridor _))
  case opens =>
    rw [Nat.mul_comm 100]
    refine taken_quiet (f := windowEndEvent) hh
      (by simp only [windowEndEvent, State.setClock_corridor, hw, State.setClock_clock]; rfl) ?_
    split
    · exact boardSync_unread
    · exact boardSync_self _
  case early =>
    exact taken_idle hh (by
      simp only [windowEndEvent, State.setClock_corridor, hw, State.setClock_clock, hearly, Bool.false_eq_true, if_false])

end Sys2Proof.Machine
end

