-- ==== Sys2Proof/Proofs/SpeedTrap.lean ====
section
/-! The speed trap: the edges of the barriers A and B, the speed they give, and TRAP (R101, R104, R105). -/

namespace Sys2Proof.Machine

/-! A debounce taken -/

theorem debounced_cons {b : BarrierInput} {t : HillTime} {rest : List HillTime} (now : HillTime)
    (h : b.debounce = t :: rest) :
    debounced b now =
      if reached now (t + 100#32) then some (t, { broken := b.broken, debounce := rest }) else none := by
  simp only [debounced, completed, h]
  exact apply_ite (Option.map _) _ _ _

/-! The speed -/

theorem roundDiv_ofNat (a b : Nat) : (roundDiv (a : Int) b).toNat = (2 * a + b) / (2 * b) := by
  rw [roundDiv, if_neg (by omega)]
  rfl

/-- The record after the computation of the speed from the ticks between the barriers (R104). -/
theorem withSpeed_speedOf (spacing dt : Nat) (y : Record) :
    withSpeed (speedOf spacing dt) y =
      if 0 < dt ∧ 400 ≤ (2 * spacing * 3600 + dt) / (2 * dt) ∧ (2 * spacing * 3600 + dt) / (2 * dt) ≤ 1400 then
        { y with speed := some ((2 * spacing * 3600 + dt) / (2 * dt)) }
      else { y with flags := { y.flags with speedInvalid := true } } := by
  rw [speedOf, Nat.mul_assoc 2 spacing, ← roundDiv_ofNat]
  by_cases hdt : dt = 0
  · rw [if_pos hdt, if_neg (by omega)]
    rfl
  · have hpos : 0 < dt := Nat.pos_of_ne_zero hdt
    rw [if_neg hdt]
    simp only [hpos, true_and]
    split <;> rfl

/-! The edges -/

section
variable {s : State} {now t : HillTime} {rest : List HillTime}

theorem inrun_none (h : ∀ r ∈ s.round.records, r.state ≠ .inrun) : s.round.inState (fun x => x == .inrun) = none :=
  Round.inState_eq_none fun r hr => by simp [h r hr]

theorem trapEdgeA_stray (h : ∀ r ∈ s.round.records, r.state ≠ .inrun) :
    trapEdgeA s t = s.post (.stry .barrierA t none none) := by
  simp only [trapEdgeA, inrun_none h]

theorem trapEdgeB_stray (h : ∀ r ∈ s.round.records, r.state ≠ .inrun) :
    trapEdgeB s t = s.post (.stry .barrierB t none none) := by
  simp only [trapEdgeB, inrun_none h]

variable {r : Record} (hr : s.round.records.find? (fun x => x.state == .inrun) = some r)
include hr

theorem trapEdgeA_inrun :
    trapEdgeA s t =
      if s.flight.trapJump = some r.jump ∧ s.flight.trapTime = none ∧ s.flight.trapDone = false then
        s.setFlight { s.flight with trapTime := some t }
      else s := by
  have hr : s.round.inState (fun x => x == .inrun) = some r := hr
  simp only [trapEdgeA, hr]

theorem trapEdgeB_ignored
    (h : s.flight.trapTime = none ∨ s.flight.trapJump ≠ some r.jump ∨ s.flight.trapDone = true) : trapEdgeB s t = s := by
  have hr : s.round.inState (fun x => x == .inrun) = some r := hr
  simp only [trapEdgeB, hr]
  split
  · rfl
  · next a ha =>
    refine if_neg ?_
    rintro ⟨hj, hd⟩
    simp [ha, hj, hd] at h

theorem trapEdgeB_measured {a : HillTime} (ha : s.flight.trapTime = some a) (hj : s.flight.trapJump = some r.jump)
    (hd : s.flight.trapDone = false) :
    trapEdgeB s t =
      (s.setFlight { s.flight with trapDone := true }).modifyRecord r.jump
        (withSpeed (speedOf s.flight.spacing (elapsed t a))) := by
  have hr : s.round.inState (fun x => x == .inrun) = some r := hr
  simp only [trapEdgeB, hr, ha, hj, hd, and_self, if_true]

end

theorem speedTrapEdge_of_debounce {s : State} {t : HillTime} {rest : List HillTime} :
    (s.flight.barrierA.debounce = t :: rest →
      speedTrapEdgeEvent s .a =
        if reached s.clock (t + 100#32) then
          trapEdgeA (s.setFlight { s.flight with barrierA := { broken := s.flight.barrierA.broken, debounce := rest } }) t
        else s) ∧
    (s.flight.barrierB.debounce = t :: rest →
      speedTrapEdgeEvent s .b =
        if reached s.clock (t + 100#32) then
          trapEdgeB (s.setFlight { s.flight with barrierB := { broken := s.flight.barrierB.broken, debounce := rest } }) t
        else s) := by
  constructor
  all_goals
    intro h
    simp only [speedTrapEdgeEvent, debounced_cons s.clock h]
    cases reached s.clock (t + 100#32) <;> rfl

/-- Settles O46: the edges of either barrier, the speed measured, and TRAP. -/
theorem speedTrapMeasures : Obligations.SpeedTrapMeasures := by
  refine ⟨fun now t rest u s hh hd hu => ?barrierA, fun now t rest u s hh hd hu => ?barrierB,
    fun now tag v s h => ?trap⟩
  case barrierA =>
    have hevent : speedTrapEdgeEvent (s.setClock now) .a = if reached now (t + 100#32) then trapEdgeA u t else _ :=
      hu ▸ (speedTrapEdge_of_debounce (s := s.setClock now)).1 hd
    refine ⟨fun hearly => taken_idle (f := fun s => speedTrapEdgeEvent s .a) hh ?_, fun hdue hnone => ?_,
      fun r hdue hr => ?_⟩
    · simpa [hearly] using hevent
    · rw [if_pos hdue, trapEdgeA_stray (by rw [hu]; exact hnone)] at hevent
      exact taken_quiet (f := fun s => speedTrapEdgeEvent s .a) hh hevent (by rw [hu]; exact boardSync_unread)
    · rw [if_pos hdue, trapEdgeA_inrun (by rw [hu]; exact hr), hu] at hevent
      rw [hu]
      refine taken_quiet (f := fun s => speedTrapEdgeEvent s .a) hh hevent ?_
      split <;> exact boardSync_unread
  case barrierB =>
    have hevent : speedTrapEdgeEvent (s.setClock now) .b = if reached now (t + 100#32) then trapEdgeB u t else _ :=
      hu ▸ (speedTrapEdge_of_debounce (s := s.setClock now)).2 hd
    refine ⟨fun hearly => taken_idle (f := fun s => speedTrapEdgeEvent s .b) hh ?_, fun hdue hnone => ?_,
      fun r hdue hr hidle => ?_, fun r first dt v hdue hr hone htime hjump hdone hdt hv => ?_⟩
    · simpa [hearly] using hevent
    · rw [if_pos hdue, trapEdgeB_stray (by rw [hu]; exact hnone)] at hevent
      exact taken_quiet (f := fun s => speedTrapEdgeEvent s .b) hh hevent (by rw [hu]; exact boardSync_unread)
    · rw [if_pos hdue, trapEdgeB_ignored (by rw [hu]; exact hr) (by rw [hu]; exact hidle)] at hevent
      exact taken_quiet (f := fun s => speedTrapEdgeEvent s .b) hh hevent (by rw [hu]; exact boardSync_unread)
    · rw [if_pos hdue, trapEdgeB_measured (by rw [hu]; exact hr) (by rw [hu]; exact htime) (by rw [hu]; exact hjump)
        (by rw [hu]; exact hdone)] at hevent
      have hspacing : u.flight.spacing = s.flight.spacing := by rw [hu]; rfl
      rw [hspacing, show elapsed t first = dt from hdt.symm, funext (withSpeed_speedOf s.flight.spacing dt), ← hv]
        at hevent
      have hround : u.round = s.round := by rw [hu]; rfl
      refine taken_of_eq (f := fun s => speedTrapEdgeEvent s .b) hh hevent
        (((Becomes.refl u).setFlight _).modifyRecord _ _ |>.congr_round (by rw [← hround]; rfl)) ?_
      rw [hu]
      exact (Posts.refl _).of_links rfl rfl
  case trap =>
    have hserve : serve (s.setClock now) .control (.trap v) = serveTrap (s.setClock now) v := rfl
    simp only [serveTrap, State.inRound, State.setClock_round, beq_iff_eq] at hserve
    split_ifs with hround hrange
    · exact takenRequest_refuse h tag (r := .trap v) rfl (fun _ => rfl) (hserve.trans (if_pos hround))
    · exact takenRequest_quiet h tag (r := .trap v) rfl (fun _ => rfl)
        (hserve.trans ((if_neg hround).trans (if_pos hrange))) boardSync_unread
    · exact takenRequest_refuse h tag (r := .trap v) rfl (fun _ => rfl)
        (hserve.trans ((if_neg hround).trans (if_neg hrange)))

end Sys2Proof.Machine
end

