-- ==== Sys2Proof/Proofs/Rounds.lean ====
section
/-! The round and what opens it: the READY evaluation, HILL, OPEN and CALL; REVW and AMND of a record. -/

namespace Sys2Proof.Machine

/-! READY -/

theorem mem_indicesFrom {α : Type} {p : α → Bool} (l : List (Option α)) (k i : Nat) :
    i ∈ indicesFrom p k l ↔ ∃ a, k ≤ i ∧ l[i - k]? = some (some a) ∧ p a = true := by
  induction l generalizing k with
  | nil => simp [indicesFrom]
  | cons e l ih =>
    have htail : (∃ a, k + 1 ≤ i ∧ l[i - (k + 1)]? = some (some a) ∧ p a = true) ↔
        ∃ a, k < i ∧ (e :: l)[i - k]? = some (some a) ∧ p a = true := by
      refine exists_congr fun a => and_congr_right fun hk => ?_
      rw [show i - k = i - (k + 1) + 1 by omega, List.getElem?_cons_succ]
    have hsplit : (∃ a, k ≤ i ∧ (e :: l)[i - k]? = some (some a) ∧ p a = true) ↔
        (i = k ∧ ∃ a, e = some a ∧ p a = true) ∨ i ∈ indicesFrom p (k + 1) l := by
      rw [ih, htail]
      constructor
      · rintro ⟨a, hk, ha, hp⟩
        rcases hk.eq_or_lt with rfl | hlt
        · rw [Nat.sub_self, List.getElem?_cons_zero, Option.some.injEq] at ha
          exact Or.inl ⟨rfl, a, ha, hp⟩
        · exact Or.inr ⟨a, hlt, ha, hp⟩
      · rintro (⟨rfl, a, rfl, hp⟩ | ⟨a, hlt, ha, hp⟩)
        · exact ⟨a, le_rfl, by simp, hp⟩
        · exact ⟨a, hlt.le, ha, hp⟩
    rw [hsplit]
    cases e with
    | none => simp [indicesFrom]
    | some a => by_cases hp : p a = true <;> simp [indicesFrom, hp]

theorem entry_eq_some {α : Type} {l : List (Option α)} {i : Nat} {a : α} :
    entry l i = some a ↔ 1 ≤ i ∧ l[i - 1]? = some (some a) := by
  unfold entry
  split
  · next h => simp [h]
  · next h =>
    rw [Option.join_eq_some_iff]
    exact ⟨fun ha => ⟨Nat.pos_of_ne_zero h, ha⟩, fun ha => ha.2⟩

/-- The indices of a table are those of its entries that pass. -/
theorem mem_indicesWhere {α : Type} {p : α → Bool} {l : List (Option α)} {i : Nat} :
    i ∈ indicesWhere p l ↔ ∃ a, entry l i = some a ∧ p a = true := by
  rw [indicesWhere, mem_indicesFrom]
  exact exists_congr fun a => by rw [entry_eq_some, and_assoc]

theorem indicesWhere_isEmpty {α : Type} {p : α → Bool} {l : List (Option α)} :
    (indicesWhere p l).isEmpty = false ↔ ∃ i a, entry l i = some a ∧ p a = true := by
  rw [List.isEmpty_eq_false_iff_exists_mem]
  exact exists_congr fun i => mem_indicesWhere

theorem othersAny_iff {α : Type} {p : α → Bool} {l : List (Option α)} {k : Nat} :
    othersAny p k l = true ↔ ∃ i a, i ≠ k ∧ entry l i = some a ∧ p a = true := by
  simp only [othersAny, List.any_eq_true, mem_indicesWhere, bne_iff_ne]
  exact ⟨fun ⟨i, ⟨a, ha, hp⟩, hi⟩ => ⟨i, a, hi, ha, hp⟩, fun ⟨i, a, hi, ha, hp⟩ => ⟨i, ⟨a, ha, hp⟩, hi⟩⟩

theorem othersAny_eq_false {α : Type} {p : α → Bool} {l : List (Option α)} {k : Nat} :
    othersAny p k l = false ↔ ∀ i a, i ≠ k → entry l i = some a → p a = false := by
  rw [← Bool.not_eq_true, othersAny_iff]
  push Not
  simp only [Bool.not_eq_true]

theorem readyConditions_iff (s : State) :
    s.readyConditions = true ↔ s.scoring.hill ≠ none ∧
      (∃ i st, entry s.wind.stations i = some st ∧ st.enabled = true) ∧ (∃ i u, entry s.flight.units i = some u) ∧
      ∃ sec l, s.scoring.sectors = sec :: l ∧ sec.start = 0 := by
  have hunits : (indicesWhere (fun _ => true) s.flight.units).isEmpty = false ↔ ∃ i u, entry s.flight.units i = some u := by
    simp only [indicesWhere_isEmpty, and_true]
  have hsectors : (match s.scoring.sectors with | sec :: _ => sec.start == 0 | [] => false) = true ↔
      ∃ sec l, s.scoring.sectors = sec :: l ∧ sec.start = 0 := by
    cases s.scoring.sectors <;> simp
  have hdef : s.readyConditions = (s.scoring.hill.isSome
    && !(indicesWhere (fun st => st.enabled) s.wind.stations).isEmpty
    && !(indicesWhere (fun _ => true) s.flight.units).isEmpty
    && (match s.scoring.sectors with | sec :: _ => sec.start == 0 | [] => false)) := rfl
  rw [hdef, Bool.and_eq_true, Bool.and_eq_true, Bool.and_eq_true, Bool.not_eq_true', Bool.not_eq_true', hsectors, hunits,
    indicesWhere_isEmpty, Option.isSome_iff_ne_none, and_assoc, and_assoc]

theorem evaluateReady_of_conditions {s : State} (hp : s.round.part ≠ .round) (hr : s.readyConditions = true) :
    s.evaluateReady = (s.setRound { s.round with part := .ready }).setFlight (resumeStrip s.flight s.clock) := by
  unfold State.evaluateReady
  split
  · next h => exact (hp h).elim
  all_goals exact if_pos hr

theorem evaluateReady_of_not_conditions {s : State} (hp : s.round.part ≠ .round) (hr : s.readyConditions = false) :
    s.evaluateReady = (s.setRound { s.round with part := .unconfigured }).setWind (stopPolling s.wind) := by
  unfold State.evaluateReady
  split
  · next h => exact (hp h).elim
  all_goals exact if_neg (by simp [hr])

theorem stopPolling_eq (w : WindRx) :
    stopPolling w = { w with
      scan := if w.slot = none then none else w.scan
      snapshot := if w.slot = none then none else w.snapshot
      stopping := if w.slot = none then w.stopping else true } := by
  unfold stopPolling
  cases w.slot <;> simp

/-- Settles O28: the evaluation by its conditions. -/
theorem readyFollowsItsConditions : Obligations.ReadyFollowsItsConditions := by
  refine fun s => ⟨fun hp => ?round, fun hp hhill hstation hunit hsector => ?ready, fun hp hn => ?unconfigured⟩
  case round => simp only [State.evaluateReady, hp]
  case ready =>
    have hevaluate := evaluateReady_of_conditions hp
      ((readyConditions_iff s).mpr ⟨hhill, hstation, hunit, hsector⟩)
    refine ⟨fun sl hsl => ?_, fun hsl => ?_⟩
    all_goals simp only [hevaluate, resumeStrip, hsl]
    rfl
  case unconfigured =>
    have hfalse : s.readyConditions = false := by
      rw [← Bool.not_eq_true, readyConditions_iff]
      rintro ⟨hhill, ⟨i, st, hst, hen⟩, ⟨k, u, hu⟩, sec, l, hsec, hzero⟩
      rcases hn with h | h | h | h | ⟨sec', l', h, hne⟩
      · exact hhill h
      · simp [h i st hst] at hen
      · simp [h k] at hu
      · simp [h] at hsec
      · rw [h] at hsec
        cases hsec
        exact hne hzero
    rw [evaluateReady_of_not_conditions hp hfalse, stopPolling_eq]
    rfl

section
variable (s : State)

@[simp] theorem State.evaluateReady_start : s.evaluateReady.start = s.start := by
  obtain ⟨_, _, _, h⟩ := s.evaluateReady_eq
  rw [h]
  rfl

@[simp] theorem State.evaluateReady_board : s.evaluateReady.board = s.board := by
  obtain ⟨_, _, _, h⟩ := s.evaluateReady_eq
  rw [h]
  rfl

@[simp] theorem State.evaluateReady_corridor : s.evaluateReady.corridor = s.corridor := by
  obtain ⟨_, _, _, h⟩ := s.evaluateReady_eq
  rw [h]
  rfl

@[simp] theorem State.evaluateReady_table : s.evaluateReady.round.table = s.round.table := by
  obtain ⟨_, _, _, h⟩ := s.evaluateReady_eq
  rw [h]
  rfl

@[simp] theorem State.evaluateReady_link (l : LinkId) : s.evaluateReady.link l = s.link l := by
  obtain ⟨_, _, _, h⟩ := s.evaluateReady_eq
  rw [h]
  cases l <;> rfl

end

/-! HILL -/

theorem hillFault_eq (f : HillFields) :
    hillFault f =
      ([decide (1 ≤ f.kPoint ∧ f.kPoint ≤ 600), decide (f.kPoint ≤ f.hillSize ∧ f.hillSize ≤ 600),
       decide (f.basePoints ≤ 2000), decide (100 ≤ f.metreValue ∧ f.metreValue ≤ 400), decide (f.gateFactor ≤ 1000),
       decide (f.headFactor ≤ 5000), decide (f.tailFactor ≤ 5000), decide (f.threshold ≤ 600),
       decide (1 ≤ f.lowest ∧ f.lowest ≤ 40), decide (f.lowest ≤ f.highest ∧ f.highest ≤ 40), decide (f.mode ≤ 1),
       decide (f.mode = 1 → f.lowest ≤ f.fixedGate ∧ f.fixedGate ≤ f.highest)].findIdx? (fun b => !b)).map (· + 1) := by
  simp only [findIdx?_decide_cons, List.findIdx?_nil, apply_ite (Option.map _), Option.map_some,
    Option.map_none, hillFault, Classical.not_imp]

theorem clampGate_eq {lowest highest : Nat} (g : Nat) (h : lowest ≤ highest) :
    clampGate g lowest highest = min (max g lowest) highest := by
  unfold clampGate
  split_ifs <;> omega

/-- The jury gate in the new range, with its notice where it changes (R28). -/
theorem followRange_becomes (s : State) {lowest highest : Nat} (h : lowest ≤ highest) :
    Becomes (s.followRange lowest highest)
      (s.setStart { s.start with juryGate := min (max s.start.juryGate lowest) highest }) := by
  rw [← clampGate_eq _ h, State.followRange]
  split
  · next hsame => rw [hsame]; exact Becomes.refl s
  · exact ((Becomes.refl s).toGate _ _).post _

theorem followRange_posts (s : State) {lowest highest : Nat} (h : lowest ≤ highest) :
    Posts s (s.followRange lowest highest)
      (if min (max s.start.juryGate lowest) highest = s.start.juryGate then []
       else [.gate (min (max s.start.juryGate lowest) highest) .range none]) := by
  rw [← clampGate_eq _ h, State.followRange]
  split
  · exact Posts.refl s
  · exact ((Posts.refl s).toGate _ _).post _

theorem serveHill_of_fault {s : State} (hp : s.round.part ≠ .round) {f : HillFields} {n : Nat}
    (hf : hillFault f = some n) : serveHill s f = refuse s .outOfRange [byteField n] := by
  simp [serveHill, State.inRound, hp, hf]

theorem serveHill_of_no_fault {s : State} (hp : s.round.part ≠ .round) {f : HillFields} (hf : hillFault f = none) :
    serveHill s f =
      accept ((s.setScoring { s.scoring with hill := some (hillRecordOf f) }).evaluateReady.followRange f.lowest f.highest)
        [byteField 0] := by
  simp [serveHill, State.inRound, hp, hf]

/-- Settles O29: the first field at fault, or the record replaced, the evaluation and the gate range. -/
theorem hillReplacesTheRecord : Obligations.HillReplacesTheRecord := by
  refine ⟨fun now tag f checks u g s h hp hchecks => ?outside, fun now tag f s h hp => ?inRound⟩
  case inRound =>
    exact takenRequest_refuse h tag (r := .hill f) rfl (fun _ => rfl) (by simp [serve, serveHill, State.inRound, hp])
  case outside =>
    have hfault : hillFault f = (checks.findIdx? (fun b => !b)).map (· + 1) := hchecks ▸ hillFault_eq f
    refine ⟨fun n hn => ?refused, fun hnone hu hg => ?accepted⟩
    case refused =>
      rw [hn] at hfault
      exact takenRequest_refuse h tag rfl (fun _ => rfl) (serveHill_of_fault (s := s.setClock now) hp hfault)
    case accepted =>
      have hrange : f.lowest ≤ f.highest := by
        rw [hchecks, List.findIdx?_eq_none_iff] at hnone
        have hten := hnone (decide (f.lowest ≤ f.highest ∧ f.highest ≤ 40)) (by simp)
        simp only [Bool.not_eq_eq_eq_not, Bool.not_false, decide_eq_true_eq] at hten
        exact hten.1
      rw [hnone] at hfault
      have hgate : u.start.juryGate = s.start.juryGate := by rw [hu, State.evaluateReady_start]; rfl
      have hlink : Posts (s.setClock now) u [] := fun m => by
        rw [hu, State.evaluateReady_link]
        cases m <;> rfl
      have hwork : serve (s.setClock now) .control (.hill f) = accept (u.followRange f.lowest f.highest) [byteField 0] :=
        hu ▸ serveHill_of_no_fault (s := s.setClock now) hp hfault
      have hposts := hlink.trans (followRange_posts u hrange)
      rw [hgate, ← hg] at hposts
      have hbecomes := followRange_becomes u hrange
      rw [hgate, ← hg] at hbecomes
      exact takenRequest_accept h tag rfl hwork hbecomes hposts

end Sys2Proof.Machine
end

