-- ==== Sys2Proof/Proofs/Records.lean ====
section
/-! The record table: its jump order, the slot a CALL fills, and the rows that write one record: OPEN, CALL, REVW and
AMND. -/

namespace Sys2Proof.Machine

/-! Jump order -/

theorem mem_sortByJump {l : List Record} {r : Record} : r ∈ sortByJump l ↔ r ∈ l := (sortByJump_perm l).mem_iff

theorem insertByJump_sorted (r : Record) {l : List Record} (h : l.Pairwise (fun x y => x.jump ≤ y.jump)) :
    (insertByJump r l).Pairwise (fun x y => x.jump ≤ y.jump) := by
  induction l with
  | nil => exact List.pairwise_singleton _ _
  | cons x l ih =>
    obtain ⟨hx, hl⟩ := List.pairwise_cons.mp h
    unfold insertByJump
    split
    · next hle => exact List.pairwise_cons.mpr ⟨fun y hy => (List.mem_cons.mp hy).elim (· ▸ hle) (hle.trans <| hx y ·), h⟩
    · next hgt =>
      refine List.pairwise_cons.mpr ⟨fun y hy => ?_, ih hl⟩
      rcases List.mem_cons.mp ((insertByJump_perm r l).mem_iff.mp hy) with rfl | hy
      · exact (Nat.lt_of_not_le hgt).le
      · exact hx y hy

theorem sortByJump_sorted (l : List Record) : (sortByJump l).Pairwise (fun x y => x.jump ≤ y.jump) := by
  induction l with
  | nil => exact List.Pairwise.nil
  | cons x l ih => exact insertByJump_sorted x ih

/-! One record changed -/

/-- A record of the table with the number is the one of the number (R12). -/
theorem State.eq_of_only {s : State} {j : Nat} {r x : Record} (h : s.only j r) (hx : x ∈ s.round.records)
    (hj : x.jump = j) : x = r := by
  obtain ⟨hfind, hnodup⟩ := h
  have hr : r ∈ s.round.records := List.mem_of_find?_eq_some hfind
  have hrj : r.jump = j := by simpa using List.find?_some hfind
  exact List.inj_on_of_nodup_map hnodup hx hr (hj.trans hrj.symm)

theorem State.mem_of_only {s : State} {j : Nat} {r : Record} (h : s.only j r) : r ∈ s.round.records :=
  List.mem_of_find?_eq_some h.1

theorem Round.mem_records {rd : Round} {x : Record} : x ∈ rd.records ↔ some x ∈ rd.table := by
  simp [Round.records]

theorem Round.modify_congr {rd : Round} {j : Nat} {f g : Record → Record}
    (h : ∀ x ∈ rd.records, x.jump = j → f x = g x) : rd.modify j f = rd.modify j g := by
  unfold Round.modify
  congr 1
  refine List.map_congr_left fun e he => ?_
  cases e with
  | none => rfl
  | some x =>
    rw [Option.map_some, Option.map_some]
    split
    · next hj => rw [h x (Round.mem_records.mpr he) hj]
    · rfl

theorem Round.modify_id {rd : Round} {j : Nat} {f : Record → Record} (h : ∀ x ∈ rd.records, x.jump = j → f x = x) :
    rd.modify j f = rd := by
  rw [Round.modify_congr h]
  unfold Round.modify
  simp

/-- The change of the one record of a number by what it becomes. -/
theorem Round.modify_of_only {s : State} {j : Nat} {r : Record} (h : s.only j r) (f : Record → Record) :
    s.round.modify j f = s.round.modify j (fun _ => f r) :=
  Round.modify_congr fun _ hx hj => by rw [State.eq_of_only h hx hj]

/-! OPEN -/

theorem refGateAtOpen_eq (sc : Scoring) :
    refGateAtOpen sc = match sc.hill.map (fun h => h.mode) with
      | some (RefMode.fixed g) => some g
      | some .firstRelease | none => none := by
  unfold refGateAtOpen
  cases sc.hill with
  | none => rfl
  | some h => cases hm : h.mode <;> simp [hm]

theorem serveOpen_of_ready {s : State} (hp : s.round.part = .ready) :
    serveOpen s =
      accept (((s.setRound { s.round with part := .round, table := List.replicate 8 none, counter := 1 }).setScoring
        { s.scoring with refGate := refGateAtOpen s.scoring }).toLight .red none none) [] := by
  simp only [serveOpen, hp]
  rfl

/-- Settles O21: a round opened from READY, or the refusal by the part state. -/
theorem openStartsARound : Obligations.OpenStartsARound := by
  refine ⟨fun now tag s h hp => ?opened, fun now tag s h hp => ?refused⟩
  case opened =>
    obtain ⟨t, ht, hbecomes, hanswers⟩ := takenRequest_accept h tag (r := .openRound) rfl
      (serveOpen_of_ready (s := s.setClock now) hp)
      ((((Becomes.refl (s.setClock now)).setRound _).setScoring _).toLight _ _ _) (Posts.of_toLight rfl rfl)
    refine ⟨t, ht, ?_, hanswers⟩
    rw [refGateAtOpen_eq] at hbecomes
    exact hbecomes
  case refused =>
    cases hpart : s.round.part with
    | ready => exact (hp hpart).elim
    | round | unconfigured =>
      exact takenRequest_refuse h tag (r := .openRound) rfl (fun _ => rfl)
        (by simp only [serve, serveOpen, State.setClock_round, hpart]; rfl)

/-! CALL -/

theorem firstSlot_eq_some {p : Option Record → Bool} {l : List (Option Record)} {i : Nat} (k : Nat) {x : Option Record}
    (hx : l[i]? = some x) (hp : p x = true) (hbefore : ∀ m y, m < i → l[m]? = some y → p y = false) :
    firstSlot p l k = some (i + k) := by
  induction l generalizing i k with
  | nil => cases hx
  | cons e l ih =>
    unfold firstSlot
    cases i with
    | zero =>
      cases hx
      rw [if_pos hp, Nat.zero_add]
    | succ i =>
      rw [if_neg (by simp [hbefore 0 e (Nat.zero_lt_succ i) rfl]),
        ih (k + 1) hx fun m y hm hy => hbefore (m + 1) y (Nat.succ_lt_succ hm) hy]
      congr 1
      omega

theorem firstSlot_eq_none {p : Option Record → Bool} {l : List (Option Record)} (k : Nat) (h : ∀ x ∈ l, p x = false) :
    firstSlot p l k = none := by
  induction l generalizing k with
  | nil => rfl
  | cons e l ih =>
    unfold firstSlot
    rw [if_neg (by simp [h e List.mem_cons_self]), ih _ fun x hx => h x (List.mem_cons_of_mem _ hx)]

theorem callSlot_of_free {table : List (Option Record)} {i : Nat} (hi : table[i]? = some none)
    (hbefore : ∀ k, k < i → table[k]? ≠ some none) : callSlot table = some i := by
  have hfirst : firstSlot (fun x => x.isNone) table 0 = some i :=
    firstSlot_eq_some 0 hi rfl fun m y hm hy => by
      cases y with
      | none => exact (hbefore m hm hy).elim
      | some y => rfl
  simp only [callSlot, hfirst]

/-- Records of different numbers stand once in the table. -/
theorem getElem?_inj_of_nodup {table : List (Option Record)} (h : ((table.filterMap id).map (fun r => r.jump)).Nodup)
    {i k : Nat} {x y : Record} (hx : table[i]? = some (some x)) (hy : table[k]? = some (some y)) (hj : x.jump = y.jump) :
    i = k := by
  have hpair : table.Pairwise (fun a b => ∀ x, a = some x → ∀ y, b = some y → x.jump ≠ y.jump) := by
    rw [List.Nodup, List.pairwise_map, List.pairwise_filterMap] at h
    simpa using h
  rw [List.pairwise_iff_getElem] at hpair
  obtain ⟨hi, hx⟩ := List.getElem?_eq_some_iff.mp hx
  obtain ⟨hk, hy⟩ := List.getElem?_eq_some_iff.mp hy
  rcases lt_trichotomy i k with hlt | heq | hgt
  · exact (hpair i k hi hk hlt x hx y hy hj).elim
  · exact heq
  · exact (hpair k i hk hi hgt y hy x hx hj.symm).elim

theorem callSlot_of_full {table : List (Option Record)} {i : Nat} {old : Record} (hfull : none ∉ table)
    (hnodup : ((table.filterMap id).map (fun r => r.jump)).Nodup) (hold : table[i]? = some (some old))
    (hterm : old.state.terminal = true)
    (hleast : ∀ r ∈ table.filterMap id, r.state.terminal = true → old.jump ≤ r.jump) : callSlot table = some i := by
  have hnone : firstSlot (fun x => x.isNone) table 0 = none :=
    firstSlot_eq_none 0 fun x hx => by
      cases x with
      | none => exact (hfull hx).elim
      | some x => rfl
  have hmem : old ∈ table.filterMap id := List.mem_filterMap.mpr ⟨some old, List.mem_of_getElem? hold, rfl⟩
  cases hsort : sortByJump ((table.filterMap id).filter (fun x => x.state.terminal)) with
  | nil =>
    have : old ∈ sortByJump ((table.filterMap id).filter (fun x => x.state.terminal)) :=
      mem_sortByJump.mpr (List.mem_filter.mpr ⟨hmem, hterm⟩)
    rw [hsort] at this
    cases this
  | cons r l =>
    have hr : r ∈ (table.filterMap id).filter (fun x => x.state.terminal) :=
      mem_sortByJump.mp (hsort ▸ List.mem_cons_self)
    obtain ⟨hrmem, hrterm⟩ := List.mem_filter.mp hr
    have hle : r.jump ≤ old.jump := by
      have hin : old ∈ r :: l := hsort ▸ mem_sortByJump.mpr (List.mem_filter.mpr ⟨hmem, hterm⟩)
      rcases List.mem_cons.mp hin with rfl | hin
      · exact le_rfl
      · exact (List.pairwise_cons.mp (hsort ▸ sortByJump_sorted _)).1 old hin
    have hjump : r.jump = old.jump := hle.antisymm (hleast r hrmem hrterm)
    have hfirst : firstSlot (fun x => match x with | some y => y.jump == r.jump | none => false) table 0 = some i :=
      firstSlot_eq_some 0 hold (by simp [hjump]) fun m y hm hy => by
        cases y with
        | none => rfl
        | some y =>
          refine beq_eq_false_iff_ne.mpr fun hj => hm.ne ?_
          exact getElem?_inj_of_nodup hnodup hy hold (hj.trans hjump)
    simp only [callSlot, hnone, hsort]
    exact hfirst

theorem callRange {bib : Option Nat} :
    (∀ b, bib = some b → 1 ≤ b ∧ b ≤ 999) →
      (match bib with | some b => decide (1 ≤ b ∧ b ≤ 999) | none => true) = true := by
  intro hb
  cases bib with
  | none => rfl
  | some b => exact decide_eq_true (hb b rfl)

section
variable {s : State} {bib : Option Nat}

theorem serveCall_of_atBar (hp : s.round.part = .round) (hb : ∀ b, bib = some b → 1 ≤ b ∧ b ≤ 999) :
    serveCall s bib =
      if (s.round.inState RecState.atBar).isSome then refuse s .barOccupied (callBody none none)
      else
        match callBib s.round.startList bib with
        | .error code => refuse s code (callBody none none)
        | .ok b => if s.round.counter ≤ 65534 then callWork s b else refuse s .outOfRange (callBody none none) := by
  simp only [serveCall, State.inRound, hp, beq_self_eq_true, if_true]
  exact if_pos (callRange hb)

theorem callBib_of_listed {l : List Nat} {b : Nat}
    (h : (bib = none ∧ l.head? = some b) ∨ (bib = some b ∧ b ∈ l)) : callBib l bib = .ok b := by
  rcases h with ⟨rfl, h⟩ | ⟨rfl, h⟩
  · cases l with
    | nil => cases h
    | cons a l => cases h; rfl
  · exact if_pos h

end

/-- Settles O24: the record created in its slot, and the checks of R13 in their order. -/
theorem callCreatesARecord : Obligations.CallCreatesARecord := by
  refine ⟨?created, ?refused⟩
  case created =>
    rintro now l tag bib b i s h hp hbar hbib hcount hslot
    have hbibs : ∀ c, bib = some c → 1 ≤ c ∧ c ≤ 999 := by
      rcases hbib with ⟨rfl, _⟩ | ⟨rfl, h1, h9, _⟩
      · exact fun c hc => by cases hc
      · exact fun c hc => by cases hc; exact ⟨h1, h9⟩
    have hlisted : callBib s.round.startList bib = .ok b :=
      callBib_of_listed (hbib.imp_right fun ⟨hb, _, _, hin⟩ => ⟨hb, hin⟩)
    have hcall : callSlot s.round.table = some i := by
      rcases hslot with ⟨hi, hbefore⟩ | ⟨hfull, hnodup, old, hold, hterm, hleast⟩
      · exact callSlot_of_free hi hbefore
      · exact callSlot_of_full hfull hnodup hold hterm hleast
    have hserve : serve (s.setClock now) l (.call bib) = callWork (s.setClock now) b := by
      refine (serveCall_of_atBar (s := s.setClock now) hp hbibs).trans ?_
      rw [Round.inState_eq_none (rd := (s.setClock now).round) hbar]
      simp only [State.setClock_round, hlisted]
      exact if_pos hcount
    simp only [callWork, State.setClock_round, hcall] at hserve
    exact takenRequest_accept h tag (r := .call bib) rfl hserve
      (((Becomes.refl (s.setClock now)).setRound _).toLight _ _ _) (Posts.of_toLight rfl rfl)
  case refused =>
    rintro now l tag bib s h
    have hrefuse {code : ResultCode} (hs : serveCall (s.setClock now) bib =
        refuse (s.setClock now) code (callBody none none)) :
        exec (.call now l tag bib) s = s.answering now l 0x95#8 tag code [.u16 none, .u16 none] :=
      takenRequest_refuse h tag (r := .call bib) rfl (fun _ => rfl) hs
    have hchecked (hp : s.round.part = .round) (hb : ∀ b, bib = some b → 1 ≤ b ∧ b ≤ 999)
        (hbar : ∀ r ∈ s.round.records, r.state.atBar = false) :=
      (serveCall_of_atBar (s := s.setClock now) hp hb).trans
        (if_neg (by rw [Round.inState_eq_none (rd := (s.setClock now).round) hbar]; simp))
    refine ⟨fun hp => ?noRound, fun hp hout => ?range, fun hp hb hbar => ?bar,
      fun hp hb hbar => ⟨fun hn hempty => ?empty, fun b hbib hin => ?notInList, fun hbib hcount => ?counter⟩⟩
    case noRound => exact hrefuse (by simp [serveCall, State.inRound, hp])
    case range =>
      obtain ⟨b, rfl, hb⟩ := hout
      refine hrefuse ?_
      have hrange : ¬(1 ≤ b ∧ b ≤ 999) := by omega
      simp [serveCall, State.inRound, hp, hrange]
    case bar =>
      exact hrefuse ((serveCall_of_atBar (s := s.setClock now) hp hb).trans (if_pos (Round.inState_isSome hbar)))
    case empty =>
      subst hn
      refine hrefuse ((hchecked hp hb hbar).trans ?_)
      simp only [State.setClock_round, callBib, hempty]
    case notInList =>
      subst hbib
      refine hrefuse ((hchecked hp hb hbar).trans ?_)
      have herror : callBib s.round.startList (some b) = .error .notInList := if_neg hin
      simp only [State.setClock_round, herror]
    case counter =>
      have hlisted : ∃ b, callBib s.round.startList bib = .ok b := by
        rcases hbib with ⟨rfl, hne⟩ | ⟨b, rfl, hin⟩
        · obtain ⟨b, l, hl⟩ := List.exists_cons_of_ne_nil hne
          exact ⟨b, callBib_of_listed (Or.inl ⟨rfl, by rw [hl]; rfl⟩)⟩
        · exact ⟨b, callBib_of_listed (Or.inr ⟨rfl, hin⟩)⟩
      obtain ⟨b, hlisted⟩ := hlisted
      refine hrefuse ((hchecked hp hb hbar).trans ?_)
      simp only [State.setClock_round, hlisted]
      exact if_neg hcount.not_ge

/-! REVW and AMND -/

theorem withResults_eq (sc : Scoring) (d : Nat) (r : Record) :
    withResults sc d r = { r with
      confirmed := some d, jumpWind := (computeResults sc r d).jumpWind, windComp := (computeResults sc r d).windComp
      distPoints := (computeResults sc r d).distPoints, gateComp := (computeResults sc r d).gateComp
      total := (computeResults sc r d).total
      flags := { r.flags with
        corrected := r.flags.corrected || decide (r.proposed ≠ none ∧ r.proposed ≠ some d)
        manual := r.flags.manual || decide (r.proposed = none)
        noWind := r.flags.noWind || decide ((computeResults sc r d).jumpWind = none) } } := by
  have hnone {α : Type} (x : Option α) [Decidable (x = none)] : x.isNone = decide (x = none) := by
    cases x <;> simp
  have hcorrected (p : Nat) : (p != d) = decide (p ≠ d) := by
    by_cases hp : p = d <;> simp [hp]
  cases hp : r.proposed <;> simp [withResults, hnone, hp, hcorrected]

theorem amendedRecord_eq (sc : Scoring) (d : Nat) (r : Record) :
    amendedRecord sc d r = { r with
      confirmed := some d, jumpWind := (computeResults sc r d).jumpWind, windComp := (computeResults sc r d).windComp
      distPoints := (computeResults sc r d).distPoints, gateComp := (computeResults sc r d).gateComp
      total := (computeResults sc r d).total
      flags := { r.flags with
        corrected := r.flags.corrected || decide (r.proposed ≠ none ∧ r.proposed ≠ some d)
        manual := r.flags.manual || decide (r.proposed = none)
        noWind := r.flags.noWind || decide ((computeResults sc r d).jumpWind = none), amended := true } } := by
  rw [amendedRecord, withResults_eq]

theorem serveAmnd_of_published {s : State} {j d : Nat} {r : Record} (hr : s.record j = some r)
    (hs : r.state = .published) (hd : d ≤ 600) :
    serveAmnd s j d =
      accept ((s.modifyRecord r.jump (amendedRecord s.scoring d)).post
        (.rslt (resultNotice (amendedRecord s.scoring d r) true))) (confBody (some (amendedRecord s.scoring d r))) := by
  simp only [serveAmnd, hr, if_pos hs, if_pos hd]

/-- Settles O53: a record put into review, and a published result amended. -/
theorem revwAndAmnd : Obligations.RevwAndAmnd := by
  refine ⟨fun now l tag r s h hr hs => ?review, fun now l tag j s h => ⟨fun hnone => ?noReview, fun r hr ha hv => ?refused⟩,
    fun now l tag d r new res s h hr hs hd hres hnew => ?amend, fun now l tag j d absent s h habsent => ?notAmended⟩
  case review =>
    have hrec : (s.setClock now).record r.jump = some r := State.record_of_only (s := s.setClock now) hr
    rcases hs with hs | hs
    · exact takenRequest_accept h tag (r := .revw r.jump) (by cases l <;> rfl)
        (by simp only [serve, serveRevw, hrec, hs]; rfl)
        ((Becomes.refl (s.setClock now)).modifyRecord _ _) ((Posts.refl _).of_links rfl rfl)
    · have hsame : s.round.modify r.jump (fun x => { x with state := .review }) = s.round :=
        Round.modify_id fun x hx hj => by
          rw [State.eq_of_only hr hx hj, ← hs]
      rw [hsame]
      exact takenRequest_accept h tag (r := .revw r.jump) (by cases l <;> rfl)
        (by simp only [serve, serveRevw, hrec, hs]; rfl) (Becomes.refl (s.setClock now)) (Posts.refl _)
  case noReview =>
    have hnone : (s.setClock now).record j = none := State.record_eq_none (s := s.setClock now) hnone
    exact takenRequest_refuse h tag (r := .revw j) (by cases l <;> rfl) (fun _ => rfl)
      (by simp only [serve, serveRevw, hnone]; rfl)
  case refused =>
    have hrec : (s.setClock now).record j = some r := State.record_of_only (s := s.setClock now) hr
    refine takenRequest_refuse h tag (r := .revw j) (by cases l <;> rfl) (fun _ => rfl) ?_
    simp only [serve, serveRevw, hrec]
    cases hst : r.state with
    | awaiting => exact (ha hst).elim
    | review => exact (hv hst).elim
    | called | released | inrun | airborne | confirmed | published | voided => rfl
  case amend =>
    have hrec : (s.setClock now).record r.jump = some r := State.record_of_only (s := s.setClock now) hr
    have hamended : amendedRecord s.scoring d r = new := by rw [amendedRecord_eq, hnew, hres]
    have hstate : new.state = .published := by rw [hnew]; exact hs
    have hround : ((s.setClock now).modifyRecord r.jump (amendedRecord s.scoring d)).round =
        s.round.modify r.jump (fun _ => new) := hamended ▸ Round.modify_of_only hr _
    obtain ⟨t, ht, hbecomes, hanswers⟩ := takenRequest_accept h tag (r := .amnd r.jump d) (by cases l <;> rfl)
      (serveAmnd_of_published (s := s.setClock now) hrec hs hd)
      ((((Becomes.refl (s.setClock now)).modifyRecord r.jump (amendedRecord s.scoring d)).post
        (.rslt (resultNotice (amendedRecord s.scoring d r) true))).congr_round hround)
      (((Posts.refl _).of_links rfl rfl).post _)
    refine ⟨t, ht, hbecomes, ?_⟩
    rw [State.setClock_scoring, hamended] at hanswers
    simp only [confBody, hstate] at hanswers
    exact hanswers
  case notAmended =>
    have hrefuse {code : ResultCode} (hs : serveAmnd (s.setClock now) j d =
        refuse (s.setClock now) code (confBody none)) :
        exec (.amnd now l tag j d) s = s.answering now l 0x99#8 tag code absent :=
      habsent ▸ takenRequest_refuse h tag (r := .amnd j d) (by cases l <;> rfl) (fun _ => rfl) hs
    refine ⟨fun hnone => hrefuse ?_, fun r hr hs => hrefuse ?_, fun r hr hs hd => hrefuse ?_⟩
    · simp only [serveAmnd, State.record_eq_none (s := s.setClock now) hnone]
    all_goals simp only [serveAmnd, State.record_of_only (s := s.setClock now) hr]
    · exact if_neg hs
    · rw [if_pos hs, if_neg hd.not_ge]

end Sys2Proof.Machine
end

