-- ==== Sys2Proof/Proofs/Tables.lean ====
section
/-! The tables of the device lines: STN and SCAN for the wind stations, UNIT and BASE for the strip. -/

namespace Sys2Proof.Machine

/-! An edit followed by the READY evaluation -/

/-- A request that its block accepts with an edit no composed text reads and the READY evaluation behind it. -/
theorem takenRequest_ready {s : State} {l : LinkId} (h : s.takes l) {now : HillTime} (tag : Byte) {r : Request}
    (hp : r.permitted l = true) (hm : ∀ a, requestMarks (s.setClock now) r a = false) {u : State} {body : List Field}
    (hs : serve (s.setClock now) l r = accept u.evaluateReady body) (hclock : u.clock = now := by rfl)
    (hboard : u.board = s.board := by rfl) (htable : u.round.table = s.round.table := by rfl)
    (hstart : u.start = s.start := by rfl) (hcorridor : u.corridor = s.corridor := by rfl) :
    takenRequest now l tag r s = u.evaluateReady.answering now l (r.code + 0x80#8) tag .ok body := by
  have hset : u.evaluateReady.setClock now = u.evaluateReady := hclock ▸ u.evaluateReady_setClock
  refine takenRequest_quiet h tag hp hm (hs.trans (by rw [hset])) ?_
  rw [hset]
  exact boardSync_unread (by simp [hboard]) (by simp [htable]) (by simp [hstart]) (by simp [hstart]) (by simp [hcorridor])
    (by simp [hcorridor])

/-! STN -/

section
variable {s : State} {i : Nat} {f : StnFields}

theorem stnConfigure_of_inRound (hp : s.round.part = .round) : stnConfigure s i f = refuse s .roundOpen stnRefused := by
  simp [stnConfigure, State.inRound, hp]

theorem stnRemove_of_inRound (hp : s.round.part = .round) : stnRemove s i = refuse s .roundOpen stnRefused := by
  simp [stnRemove, State.inRound, hp]

theorem stnConfigure_of_index (hp : s.round.part ≠ .round) (hi : ¬(1 ≤ i ∧ i ≤ 12)) :
    stnConfigure s i f = refuse s .outOfRange stnRefused := by
  simp only [stnConfigure, State.inRound, beq_iff_eq, if_neg hp, if_pos hi]

theorem stnRemove_of_index (hp : s.round.part ≠ .round) (hi : ¬(1 ≤ i ∧ i ≤ 12)) :
    stnRemove s i = refuse s .outOfRange stnRefused := by
  simp only [stnRemove, State.inRound, beq_iff_eq, if_neg hp, if_pos hi]

section
variable (hp : s.round.part ≠ .round) (hi : 1 ≤ i ∧ i ≤ 12)
include hp hi

theorem stnConfigure_of_fields (hf : ¬((1 ≤ f.address ∧ f.address ≤ 62) ∧ (1 ≤ f.sector ∧ f.sector ≤ 6) ∧ f.axis ≤ 359)) :
    stnConfigure s i f = refuse s .outOfRange stnRefused := by
  simp only [stnConfigure, State.inRound, beq_iff_eq, if_neg hp, if_neg (not_not.mpr hi), if_pos hf]

theorem stnConfigure_of_fit (hf : (1 ≤ f.address ∧ f.address ≤ 62) ∧ (1 ≤ f.sector ∧ f.sector ≤ 6) ∧ f.axis ≤ 359) :
    stnConfigure s i f =
      if othersAny (fun st => st.address == f.address) i s.wind.stations then refuse s .addressInUse stnRefused
      else
        accept ((s.setWind { voidStationSlot s.wind i with
          stations := setEntry s.wind.stations i (some (configuredStation f)) }).noteStation i f.address
            (stationStateOf s.wind i) (some (configuredStation f).state) .configured {}).evaluateReady
          (stnBody i (some (configuredStation f).state)) := by
  simp only [stnConfigure, State.inRound, beq_iff_eq, if_neg hp, if_neg (not_not.mpr hi), if_neg (not_not.mpr hf)]
  rfl

theorem stnRemove_of_none (hst : entry s.wind.stations i = none) : stnRemove s i = refuse s .wrongState stnRefused := by
  simp only [stnRemove, State.inRound, beq_iff_eq, if_neg hp, if_neg (not_not.mpr hi), hst]

theorem stnRemove_of_some {st : Station} (hst : entry s.wind.stations i = some st) :
    stnRemove s i =
      accept ((s.setWind { voidStationSlot s.wind i with
        stations := setEntry s.wind.stations i none, scanList := s.wind.scanList.filter (· != i) }).post
          (.stna i st.address (some st.state) none .removed {} s.clock)).evaluateReady (stnBody i none) := by
  simp only [stnRemove, State.inRound, beq_iff_eq, if_neg hp, if_neg (not_not.mpr hi), hst]
  rfl

end

section
variable (hi : 1 ≤ i ∧ i ≤ 12)
include hi

theorem stnUpdate_of_none (hst : entry s.wind.stations i = none) :
    stnUpdate s i f = refuse s .wrongState stnRefused := by
  simp only [stnUpdate, if_neg (not_not.mpr hi), hst]

variable {st : Station} (hst : entry s.wind.stations i = some st)
include hst

theorem stnUpdate_of_last (hp : s.round.part = .round) (hf : f.enabled = false)
    (hn : ∀ k x, k ≠ i → entry s.wind.stations k = some x → x.enabled = false) :
    stnUpdate s i f = refuse s .roundOpen stnRefused := by
  have hothers : othersAny (fun x => x.enabled) i s.wind.stations = false := othersAny_eq_false.mpr hn
  simp [stnUpdate, hi, hst, State.inRound, hp, hf, hothers]

theorem stnUpdate_of_some
    (ho : s.round.part = .round → f.enabled = false →
      ∃ k x, k ≠ i ∧ entry s.wind.stations k = some x ∧ x.enabled = true) :
    stnUpdate s i f =
      accept ((s.setWind { (if st.enabled = true ∧ f.enabled = false then voidStationSlot s.wind i else s.wind) with
        stations := setEntry s.wind.stations i (some (updatedStation st f)) }).noteStation i st.address (some st.state)
          (some (updatedStation st f).state) (if f.enabled then .enabled else .disabled)
          (updatedStation st f).flags).evaluateReady (stnBody i (some (updatedStation st f).state)) := by
  have hallowed : ¬(s.inRound = true ∧ f.enabled = false ∧ othersAny (fun x => x.enabled) i s.wind.stations = false) := by
    rintro ⟨hp, hf, hothers⟩
    obtain ⟨k, x, hk, hx, hen⟩ := ho (by simpa [State.inRound] using hp) hf
    simp [othersAny_eq_false.mp hothers k x hk hx] at hen
  simp only [stnUpdate, if_neg (not_not.mpr hi), hst, if_neg hallowed]
  split <;> rfl

end

end

theorem State.noteStation_same {s : State} (i address : Nat) (x : Option StationState) (cause : StnaCause)
    (flags : StationFlags) : s.noteStation i address x x cause flags = s := if_pos rfl

theorem State.noteStation_of_ne {s : State} (i address : Nat) {x y : Option StationState} (cause : StnaCause)
    (flags : StationFlags) (h : x ≠ y) :
    s.noteStation i address x y cause flags = s.post (.stna i address x y cause flags s.clock) := if_neg h

section
variable {s : State} {now : HillTime} {i : Nat} {f : StnFields}

theorem exec_stn_refused (h : s.takes .control) (tag : Byte) {action : Nat} {code : ResultCode}
    (hs : serveStn (s.setClock now) i action f = refuse (s.setClock now) code stnRefused) :
    takenRequest now .control tag (.stn i action f) s =
      s.answering now .control 0x83#8 tag code [.u8 none, .u8 none] :=
  takenRequest_refuse h tag rfl (fun _ => rfl) hs

theorem exec_stn_accepted (h : s.takes .control) (tag : Byte) {action : Nat} {u : State} {body : List Field}
    (hs : serveStn (s.setClock now) i action f = accept u.evaluateReady body) (hclock : u.clock = now := by rfl)
    (hboard : u.board = s.board := by rfl) (htable : u.round.table = s.round.table := by rfl)
    (hstart : u.start = s.start := by rfl) (hcorridor : u.corridor = s.corridor := by rfl) :
    takenRequest now .control tag (.stn i action f) s =
      u.evaluateReady.answering now .control 0x83#8 tag .ok body :=
  takenRequest_ready h tag (r := .stn i action f) rfl (fun _ => rfl) hs hclock hboard htable hstart hcorridor

end

/-- Settles O39: the three edits of the station table, and the checks of R66 in their order. -/
theorem stnEditsTheStationTable : Obligations.StnEditsTheStationTable := by
  refine ⟨?configure, ?update, fun now tag i f st s h hp hlow hhigh hst => ?remove, fun now tag i f s h => ?refused⟩
  case configure =>
    rintro now tag i f new u s h hp hlow hhigh ha1 ha2 hs1 hs2 hax hfree hnew hu
    have hconf : configuredStation f = new := hnew ▸ rfl
    have hserve : serveStn (s.setClock now) i 0 f = _ :=
      stnConfigure_of_fit (s := s.setClock now) hp ⟨hlow, hhigh⟩ ⟨⟨ha1, ha2⟩, ⟨hs1, hs2⟩, hax⟩
    have hothers : othersAny (fun st => st.address == f.address) i (s.setClock now).wind.stations = false :=
      othersAny_eq_false.mpr fun k st hk hst => beq_eq_false_iff_ne.mpr (hfree k st hk hst)
    rw [hothers, if_neg Bool.false_ne_true, hconf] at hserve
    have hbody : byteField (if f.enabled then 1 else 4) = byteField (stationStateCode (some new.state)) := by
      rw [hnew]
      cases f.enabled <;> rfl
    rw [hbody]
    by_cases hsame : (entry s.wind.stations i).map (fun st => st.state) = some new.state
    · rw [if_pos hsame, hu]
      exact exec_stn_accepted h tag (hserve.trans (congrArg (fun x : State => accept x.evaluateReady _) (if_pos hsame)))
    · rw [if_neg hsame, hu]
      exact exec_stn_accepted h tag (hserve.trans (congrArg (fun x : State => accept x.evaluateReady _) (if_neg hsame)))
  case update =>
    rintro now tag i f st s h hlow hhigh hst hothers
    have hserve : serveStn (s.setClock now) i 1 f = _ :=
      stnUpdate_of_some (s := s.setClock now) ⟨hlow, hhigh⟩ hst hothers
    refine ⟨fun hsame => ?same, fun hen hf hstate => ?disabled, fun hen hf hstate => ?enabled⟩
    case same =>
      have hup : updatedStation st f = { st with member := f.member } := if_pos hsame
      have hslot : ¬(st.enabled = true ∧ f.enabled = false) := by
        rw [hsame]
        cases f.enabled <;> simp
      rw [if_neg hslot, hup, State.noteStation_same] at hserve
      refine (exec_stn_accepted h tag hserve).trans ?_
      cases st.state <;> rfl
    case disabled =>
      have hup : updatedStation st f =
          { st with
            member := f.member, enabled := false, state := .disabled, miss := 0, good := 0, latest := none
            flags := { clamped := false, mismatch := false } } := by
        simp [updatedStation, hen, hf]
      rw [if_pos ⟨hen, hf⟩, hup, hf, State.noteStation_of_ne _ _ _ _ (by simpa using hstate)] at hserve
      exact exec_stn_accepted h tag hserve
    case enabled =>
      have hup : updatedStation st f =
          { st with member := f.member, enabled := true, state := .active, miss := 0, good := 0, latest := none } := by
        simp [updatedStation, hen, hf]
      rw [if_neg (by simp [hen]), hup, hf, hstate, State.noteStation_of_ne _ _ _ _ (by simp)] at hserve
      exact exec_stn_accepted h tag hserve
  case remove =>
    exact exec_stn_accepted h tag (action := 2) (stnRemove_of_some (s := s.setClock now) hp ⟨hlow, hhigh⟩ hst)
  case refused =>
    refine ⟨fun hp => ⟨?_, ?_⟩, fun hp hi => ⟨?_, ?_⟩, fun hi => ?_, fun hlow hhigh hst => ?_,
      fun st hp hlow hhigh hst hf hn => ?_, fun hp hlow hhigh hst => ?_, fun hp hlow hhigh hf => ?_,
      fun k st hp hlow hhigh ha1 ha2 hs1 hs2 hax hk hst haddr => ?_⟩
    · exact exec_stn_refused h tag (action := 0) (stnConfigure_of_inRound (s := s.setClock now) hp)
    · exact exec_stn_refused h tag (action := 2) (stnRemove_of_inRound (s := s.setClock now) hp)
    · exact exec_stn_refused h tag (action := 0) (stnConfigure_of_index (s := s.setClock now) hp (by omega))
    · exact exec_stn_refused h tag (action := 2) (stnRemove_of_index (s := s.setClock now) hp (by omega))
    · exact exec_stn_refused h tag (action := 1) (if_pos (c := ¬(1 ≤ i ∧ i ≤ 12)) (by omega))
    · exact exec_stn_refused h tag (action := 1) (stnUpdate_of_none (s := s.setClock now) ⟨hlow, hhigh⟩ hst)
    · exact exec_stn_refused h tag (action := 1) (stnUpdate_of_last (s := s.setClock now) ⟨hlow, hhigh⟩ hst hp hf hn)
    · exact exec_stn_refused h tag (action := 2) (stnRemove_of_none (s := s.setClock now) hp ⟨hlow, hhigh⟩ hst)
    · exact exec_stn_refused h tag (action := 0)
        (stnConfigure_of_fields (s := s.setClock now) hp ⟨hlow, hhigh⟩ (by omega))
    · have hothers : othersAny (fun st => st.address == f.address) i (s.setClock now).wind.stations = true :=
        othersAny_iff.mpr ⟨k, st, hk, hst, beq_iff_eq.mpr haddr⟩
      exact exec_stn_refused h tag (action := 0)
        ((stnConfigure_of_fit (s := s.setClock now) hp ⟨hlow, hhigh⟩ ⟨⟨ha1, ha2⟩, ⟨hs1, hs2⟩, hax⟩).trans
          (if_pos hothers))

/-! SCAN -/

theorem scanSettingsFit_iff (f : ScanFields) :
    scanSettingsFit f = true ↔ (100 ≤ f.period ∧ f.period ≤ 2000 ∧ f.period % 10 = 0) ∧ (1 ≤ f.silent ∧ f.silent ≤ 15) ∧
      (1 ≤ f.clear ∧ f.clear ≤ 15) := decide_eq_true_iff

theorem scanEntriesFit_iff (w : WindRx) (l : List Nat) :
    scanEntriesFit w l = true ↔ ∀ i ∈ l, 1 ≤ i ∧ i ≤ 12 ∧ entry w.stations i ≠ none := by
  simp only [scanEntriesFit, List.all_eq_true, Bool.and_eq_true, decide_eq_true_eq, Option.isSome_iff_ne_none, and_assoc]

section
variable (s : State) (f : ScanFields)

/-- The checks of REPLACE and ADD before the length of the list (R70). -/
abbrev scanFits : Prop :=
  scanSettingsFit f = true ∧ (1 ≤ f.entries.length ∧ f.entries.length ≤ 16) ∧ scanEntriesFit s.wind f.entries = true

theorem scanReplace_eq :
    scanReplace s f = if scanFits s f then scanWork s f f.entries else refuse s .outOfRange (scanBody 0 none) := rfl

theorem scanAdd_eq :
    scanAdd s f =
      if scanFits s f then
        if s.wind.scanList.length + f.entries.length ≤ 16 then scanWork s f (s.wind.scanList ++ f.entries)
        else refuse s .listFull (scanBody 0 none)
      else refuse s .outOfRange (scanBody 0 none) := rfl

theorem scanKeep_eq :
    scanKeep s f =
      if scanSettingsFit f = true ∧ f.entries = [] then scanWork s f s.wind.scanList
      else refuse s .outOfRange (scanBody 0 none) := rfl

end

section
variable {s : State} {now : HillTime} {f : ScanFields} {mode : Nat}

theorem exec_scan_refused (h : s.takes .control) (tag : Byte) {code : ResultCode}
    (hs : serveScan (s.setClock now) mode f = refuse (s.setClock now) code (scanBody 0 none)) :
    takenRequest now .control tag (.scan mode f) s =
      s.answering now .control 0x84#8 tag code [byteField 0, .u16 none] :=
  takenRequest_refuse h tag rfl (fun _ => rfl) hs

theorem exec_scan_accepted (h : s.takes .control) (tag : Byte) {l : List Nat}
    (hs : serveScan (s.setClock now) mode f = scanWork (s.setClock now) f l) :
    takenRequest now .control tag (.scan mode f) s =
      (s.setWind { s.wind with
        scanPeriod := f.period, silentCount := f.silent, clearCount := f.clear, scanList := l }).answering now .control
          0x84#8 tag .ok [byteField l.length, .u16 (some f.period)] :=
  takenRequest_quiet h tag (r := .scan mode f) rfl (fun _ => rfl) hs boardSync_unread

end

/-- Settles O40: the checks of R70 and the list each mode leaves. -/
theorem scanWritesTheScanSettings : Obligations.ScanWritesTheScanSettings := by
  rintro now tag f settings entries u s h hsettings hentries hu
  have hfits : settings ∧ entries ↔ scanFits (s.setClock now) f := by
    rw [hsettings, hentries, scanFits, scanSettingsFit_iff, scanEntriesFit_iff]
    rfl
  have hkeeps : settings ∧ f.entries = [] ↔ scanSettingsFit f = true ∧ f.entries = [] := by
    rw [hsettings, scanSettingsFit_iff]
  have hreplace : serveScan (s.setClock now) 0 f = _ := scanReplace_eq (s.setClock now) f
  have hadd : serveScan (s.setClock now) 1 f = _ := scanAdd_eq (s.setClock now) f
  have hkeep : serveScan (s.setClock now) 2 f = _ := scanKeep_eq (s.setClock now) f
  rw [hu]
  refine ⟨fun hs he => ?replace, fun hs he hlen => ?add, fun hs he hlen => ?full, fun hs he => ?keep,
    fun hn => ?refused, fun hn => ?notKept⟩
  case replace => exact exec_scan_accepted h tag (hreplace.trans (if_pos (hfits.mp ⟨hs, he⟩)))
  case add =>
    rw [← List.length_append]
    exact exec_scan_accepted h tag (hadd.trans ((if_pos (hfits.mp ⟨hs, he⟩)).trans (if_pos hlen)))
  case full => exact exec_scan_refused h tag (hadd.trans ((if_pos (hfits.mp ⟨hs, he⟩)).trans (if_neg hlen.not_ge)))
  case keep => exact exec_scan_accepted h tag (hkeep.trans (if_pos (hkeeps.mp ⟨hs, he⟩)))
  case refused =>
    have hnot : ¬scanFits (s.setClock now) f := fun hf => not_and_or.mpr hn (hfits.mpr hf)
    exact ⟨exec_scan_refused h tag (hreplace.trans (if_neg hnot)),
      exec_scan_refused h tag (hadd.trans (if_neg hnot))⟩
  case notKept =>
    exact exec_scan_refused h tag (hkeep.trans (if_neg fun hf => not_and_or.mpr hn (hkeeps.mpr hf)))

/-! UNIT and BASE -/

section
variable {s : State} {i : Nat} {f : UnitFields}

theorem unitConfigure_of_inRound (hp : s.round.part = .round) :
    unitConfigure s i f = refuse s .roundOpen unitRefused := by
  simp [unitConfigure, State.inRound, hp]

theorem unitRemove_of_inRound (hp : s.round.part = .round) : unitRemove s i = refuse s .roundOpen unitRefused := by
  simp [unitRemove, State.inRound, hp]

variable (hp : s.round.part ≠ .round)
include hp

theorem unitConfigure_of_index (hi : ¬(1 ≤ i ∧ i ≤ 10)) :
    unitConfigure s i f = refuse s .outOfRange unitRefused := by
  simp only [unitConfigure, State.inRound, beq_iff_eq, if_neg hp, if_pos hi]

theorem unitRemove_of_index (hi : ¬(1 ≤ i ∧ i ≤ 10)) : unitRemove s i = refuse s .outOfRange unitRefused := by
  simp only [unitRemove, State.inRound, beq_iff_eq, if_neg hp, if_pos hi]

variable (hi : 1 ≤ i ∧ i ≤ 10)
include hi

theorem unitRemove_of_none (hu : entry s.flight.units i = none) : unitRemove s i = refuse s .wrongState unitRefused := by
  simp only [unitRemove, State.inRound, beq_iff_eq, if_neg hp, if_neg (not_not.mpr hi), hu]

theorem unitRemove_of_some {u : StripUnit} (hu : entry s.flight.units i = some u) :
    unitRemove s i =
      accept ((s.setFlight { voidStripSlot s.flight i with units := setEntry s.flight.units i none }).post
        (.unta i u.address (some u.state) none .removed s.clock)).evaluateReady (unitBody i none) := by
  simp only [unitRemove, State.inRound, beq_iff_eq, if_neg hp, if_neg (not_not.mpr hi), hu]
  rfl

theorem unitConfigure_of_fields
    (hf : orientationOf f.orientation = none ∨ ¬((1 ≤ f.address ∧ f.address ≤ 31) ∧ f.firstMark ≤ 216)) :
    unitConfigure s i f = refuse s .outOfRange unitRefused := by
  simp only [unitConfigure, State.inRound, beq_iff_eq, if_neg hp, if_neg (not_not.mpr hi)]
  split
  · rfl
  · next o ho => exact if_pos (hf.resolve_left (by simp [ho]))

theorem unitConfigure_of_fit {o : Orientation} (ho : orientationOf f.orientation = some o)
    (hf : (1 ≤ f.address ∧ f.address ≤ 31) ∧ f.firstMark ≤ 216) :
    unitConfigure s i f =
      if othersAny (fun u => u.address == f.address) i s.flight.units then refuse s .addressInUse unitRefused
      else if othersAny (fun u => rangesMeet u.firstMark f.firstMark) i s.flight.units then
        refuse s .overlap unitRefused
      else
        accept ((s.setFlight { voidStripSlot s.flight i with
          units := setEntry s.flight.units i (some
            { address := f.address, firstMark := f.firstMark, orientation := o, state := .online, miss := 0,
              good := 0 }) }).noteUnit i f.address (unitStateOf s.flight i) (some .online) .configured).evaluateReady
          (unitBody i (some .online)) := by
  simp only [unitConfigure, State.inRound, beq_iff_eq, if_neg hp, if_neg (not_not.mpr hi), ho,
    if_neg (not_not.mpr hf)]
  rfl

end

theorem orientationOf_eq_some {n : Nat} {o : Orientation} :
    orientationOf n = some o ↔ (n = 0 ∧ o = .ascending) ∨ (n = 1 ∧ o = .descending) := by
  match n with
  | 0 => simp [orientationOf, eq_comm]
  | 1 => simp [orientationOf, eq_comm]
  | n + 2 => simp [orientationOf]

theorem orientationOf_eq_none {n : Nat} : orientationOf n = none ↔ 1 < n := by
  match n with
  | 0 => simp [orientationOf]
  | 1 => simp [orientationOf]
  | n + 2 => simp [orientationOf]

theorem orientationOf_isSome {n : Nat} (h : n ≤ 1) : ∃ o, orientationOf n = some o :=
  Option.ne_none_iff_exists'.mp fun hn => (orientationOf_eq_none.mp hn).not_ge h

theorem rangesMeet_iff (a b : Nat) : rangesMeet a b = true ↔ a ≤ b + 23 ∧ b ≤ a + 23 := decide_eq_true_iff

section
variable {s : State} {now : HillTime} {i : Nat} {f : UnitFields} {action : Nat}

theorem exec_unit_refused (h : s.takes .control) (tag : Byte) {code : ResultCode}
    (hs : serveUnit (s.setClock now) i action f = refuse (s.setClock now) code unitRefused) :
    takenRequest now .control tag (.unit i action f) s =
      s.answering now .control 0x87#8 tag code [.u8 none, .u8 none] :=
  takenRequest_refuse h tag rfl (fun _ => rfl) hs

theorem exec_unit_accepted (h : s.takes .control) (tag : Byte) {u : State} {body : List Field}
    (hs : serveUnit (s.setClock now) i action f = accept u.evaluateReady body) (hclock : u.clock = now := by rfl)
    (hboard : u.board = s.board := by rfl) (htable : u.round.table = s.round.table := by rfl)
    (hstart : u.start = s.start := by rfl) (hcorridor : u.corridor = s.corridor := by rfl) :
    takenRequest now .control tag (.unit i action f) s =
      u.evaluateReady.answering now .control 0x87#8 tag .ok body :=
  takenRequest_ready h tag (r := .unit i action f) rfl (fun _ => rfl) hs hclock hboard htable hstart hcorridor

end

/-- Settles O50: the edits of the strip unit table and of the base distance, and the checks of R110 in their order. -/
theorem unitAndBaseEditTheStrip : Obligations.UnitAndBaseEditTheStrip := by
  refine ⟨?configure, fun now tag i f x s h hp hlow hhigh hx => ?remove, fun now tag i f s h => ?refused,
    fun now tag v s h => ?base⟩
  case configure =>
    rintro now tag i f new o u s h hp hlow hhigh ho ha1 ha2 hm haddr hmarks hnew hu
    have hserve : serveUnit (s.setClock now) i 0 f = _ :=
      unitConfigure_of_fit (s := s.setClock now) hp ⟨hlow, hhigh⟩ (orientationOf_eq_some.mpr ho) ⟨⟨ha1, ha2⟩, hm⟩
    have hfree : othersAny (fun x => x.address == f.address) i (s.setClock now).flight.units = false :=
      othersAny_eq_false.mpr fun k x hk hx => beq_eq_false_iff_ne.mpr (haddr k x hk hx)
    have hapart : othersAny (fun x => rangesMeet x.firstMark f.firstMark) i (s.setClock now).flight.units = false :=
      othersAny_eq_false.mpr fun k x hk hx => by
        have := hmarks k x hk hx
        rw [← Bool.not_eq_true, rangesMeet_iff]
        omega
    rw [hfree, if_neg Bool.false_ne_true, hapart, if_neg Bool.false_ne_true, ← hnew] at hserve
    rw [hu]
    by_cases hsame : (entry s.flight.units i).map (fun x => x.state) = some .online
    · rw [if_pos hsame]
      exact exec_unit_accepted h tag (hserve.trans (congrArg (fun x : State => accept x.evaluateReady _) (if_pos hsame)))
    · rw [if_neg hsame]
      exact exec_unit_accepted h tag (hserve.trans (congrArg (fun x : State => accept x.evaluateReady _) (if_neg hsame)))
  case remove =>
    exact exec_unit_accepted h tag (action := 1) (unitRemove_of_some (s := s.setClock now) hp ⟨hlow, hhigh⟩ hx)
  case refused =>
    refine ⟨fun hp => ⟨?_, ?_⟩, fun hp hi => ⟨?_, ?_⟩, fun hp hlow hhigh => ⟨fun hf => ?_, fun ho ha1 ha2 hm =>
      ⟨fun k x hk hx haddr => ?_, fun k x hk hfree hx h1 h2 => ?_⟩⟩, fun hp hlow hhigh hx => ?_⟩
    · exact exec_unit_refused h tag (action := 0) (unitConfigure_of_inRound (s := s.setClock now) hp)
    · exact exec_unit_refused h tag (action := 1) (unitRemove_of_inRound (s := s.setClock now) hp)
    · exact exec_unit_refused h tag (action := 0) (unitConfigure_of_index (s := s.setClock now) hp (by omega))
    · exact exec_unit_refused h tag (action := 1) (unitRemove_of_index (s := s.setClock now) hp (by omega))
    · refine exec_unit_refused h tag (action := 0)
        (unitConfigure_of_fields (s := s.setClock now) hp ⟨hlow, hhigh⟩ ?_)
      rw [orientationOf_eq_none]
      omega
    · obtain ⟨o, ho⟩ := orientationOf_isSome ho
      refine exec_unit_refused h tag (action := 0)
        ((unitConfigure_of_fit (s := s.setClock now) hp ⟨hlow, hhigh⟩ ho ⟨⟨ha1, ha2⟩, hm⟩).trans ?_)
      exact if_pos (othersAny_iff.mpr ⟨k, x, hk, hx, by rw [haddr]; exact beq_self_eq_true _⟩)
    · obtain ⟨o, ho⟩ := orientationOf_isSome ho
      refine exec_unit_refused h tag (action := 0)
        ((unitConfigure_of_fit (s := s.setClock now) hp ⟨hlow, hhigh⟩ ho ⟨⟨ha1, ha2⟩, hm⟩).trans ?_)
      rw [State.setClock_flight,
        othersAny_eq_false.mpr fun m y hm hy => beq_eq_false_iff_ne.mpr (hfree m y hm hy), if_neg Bool.false_ne_true]
      exact if_pos (othersAny_iff.mpr ⟨k, x, hk, hx, (rangesMeet_iff _ _).mpr ⟨h1, h2⟩⟩)
    · exact exec_unit_refused h tag (action := 1) (unitRemove_of_none (s := s.setClock now) hp ⟨hlow, hhigh⟩ hx)
  case base =>
    have hserve : serve (s.setClock now) .control (.base v) = serveBase (s.setClock now) v := rfl
    simp only [serveBase, State.inRound, State.setClock_round, beq_iff_eq] at hserve
    split_ifs with hround hrange
    · exact takenRequest_refuse h tag (r := .base v) rfl (fun _ => rfl) (hserve.trans (if_pos hround))
    · exact takenRequest_quiet h tag (r := .base v) rfl (fun _ => rfl)
        (hserve.trans ((if_neg hround).trans (if_pos hrange))) boardSync_unread
    · exact takenRequest_refuse h tag (r := .base v) rfl (fun _ => rfl)
        (hserve.trans ((if_neg hround).trans (if_neg hrange)))

end Sys2Proof.Machine
end

