-- ==== Sys2Proof/Proofs/Publication.lean ====
section
/-! The publication check: which records it publishes, in which order, and what it leaves of the state (R16, R21, R22). -/

namespace Sys2Proof.Machine

/-! Records changed throughout a table -/

theorem Round.records_of_table {rd rd' : Round} {f : Record → Record}
    (h : rd'.table = rd.table.map (Option.map f)) : rd'.records = rd.records.map f := by
  unfold Round.records
  rw [h, List.filterMap_map, List.map_filterMap]
  exact List.filterMap_congr fun e _ => by cases e <;> rfl

theorem Round.table_congr {rd : Round} {f g : Record → Record} (h : ∀ x ∈ rd.records, f x = g x) :
    rd.table.map (Option.map f) = rd.table.map (Option.map g) := by
  refine List.map_congr_left fun e he => ?_
  cases e with
  | none => rfl
  | some x => rw [Option.map_some, Option.map_some, h x (Round.mem_records.mpr he)]

/-! The context of a record freed -/

/-- The round with the context of the jump number freed (R16). -/
def Round.freed (rd : Round) (j : Nat) : Round :=
  { rd with
    table := rd.table.map (Option.map (fun x =>
      if x.jump = j then
        { x with context := if rd.bindA = some j ∨ rd.bindB = some j then none else x.context }
      else x))
    bindA := if rd.bindA = some j then none else rd.bindA
    bindB := if rd.bindA ≠ some j ∧ rd.bindB = some j then none else rd.bindB }

/-- The wind contexts with that of the jump number emptied (R83). -/
def WindRx.freed (w : WindRx) (rd : Round) (j : Nat) : WindRx :=
  if rd.bindA = some j then { w with ctxA := Context.empty .closed }
  else if rd.bindB = some j then { w with ctxB := Context.empty .closed }
  else w

theorem State.freeCtxOf_eq (s : State) (j : Nat) :
    s.freeCtxOf j = (s.setRound (s.round.freed j)).setWind (s.wind.freed s.round j) := by
  unfold State.freeCtxOf Round.ctxOf Round.freed WindRx.freed
  by_cases ha : s.round.bindA = some j
  · simp only [ha, if_true, true_or, ne_eq, not_true_eq_false, false_and, if_false]
    rfl
  · by_cases hb : s.round.bindB = some j
    · simp only [ha, hb, if_true, if_false, or_true, ne_eq, not_false_eq_true, true_and]
      rfl
    · have htable : s.round.table.map (Option.map (fun x => if x.jump = j then { x with context := x.context } else x)) =
          s.round.table := by
        simp
      simp only [ha, hb, if_false, or_self, and_false, htable]
      rfl

theorem Becomes.freeCtxOf {t u : State} (h : Becomes t u) (j : Nat) : Becomes (t.freeCtxOf j) (u.freeCtxOf j) := by
  rw [State.freeCtxOf_eq, State.freeCtxOf_eq, h.round, h.wind]
  exact (h.setRound _).setWind _

theorem State.freeCtxOf_link (s : State) (j : Nat) (l : LinkId) : (s.freeCtxOf j).link l = s.link l := by
  rw [State.freeCtxOf_eq]
  cases l <;> rfl

/-! What a publication leaves -/

/-- The round after the publication of the records (R16, R21). -/
def Round.published (rd : Round) (rs : List Record) : Round :=
  { rd with
    table := rd.table.map (Option.map (fun x =>
      if x ∈ rs then
        { x with
          state := .published
          context := if rd.bindA = some x.jump ∨ rd.bindB = some x.jump then none else x.context }
      else x))
    bindA := if rd.bindsOneOf rs .a then none else rd.bindA
    bindB := if rd.bindsOneOf rs .b then none else rd.bindB }

/-- The wind contexts after the publication of the records (R16, R83). -/
def WindRx.published (w : WindRx) (rd : Round) (rs : List Record) : WindRx :=
  { w with
    ctxA := if rd.bindsOneOf rs .a then freedContext else w.ctxA
    ctxB := if rd.bindsOneOf rs .b then freedContext else w.ctxB }

theorem publishState_eq (s : State) (rs : List Record) :
    publishState s rs = { s with round := s.round.published rs, wind := s.wind.published s.round rs } := rfl

/-- The records of a table whose jump numbers are all different (R12). -/
abbrev Round.Distinct (rd : Round) : Prop := (rd.records.map (fun r => r.jump)).Nodup

theorem Round.eq_of_jump {rd : Round} (h : rd.Distinct) {x y : Record} (hx : x ∈ rd.records) (hy : y ∈ rd.records)
    (hj : x.jump = y.jump) : x = y := List.inj_on_of_nodup_map h hx hy hj

/-- One record published, by its number, is that record published. -/
theorem Round.published_one {rd : Round} (h : rd.Distinct) {r : Record} (hr : r ∈ rd.records) :
    (rd.modify r.jump (fun x => { x with state := .published })).freed r.jump = rd.published [r] := by
  have htable : ((rd.modify r.jump (fun x => { x with state := .published })).freed r.jump).table =
      (rd.published [r]).table := by
    simp only [Round.freed, Round.modify, List.map_map, Round.published]
    rw [← List.map_map, List.map_map]
    refine (List.map_congr_left fun e _ => ?_).trans (Round.table_congr (rd := rd)
      (f := fun x => if x.jump = r.jump then
        { x with
          state := .published
          context := if rd.bindA = some r.jump ∨ rd.bindB = some r.jump then none else x.context } else x)
      fun x hx => ?_)
    · cases e with
      | none => rfl
      | some x => by_cases hj : x.jump = r.jump <;> simp [hj]
    · by_cases hj : x.jump = r.jump
      · have hxr : x = r := Round.eq_of_jump h hx hr hj
        simp [hxr]
      · have hxr : x ≠ r := fun he => hj (he ▸ rfl)
        simp [hj, hxr]
  have hA : rd.bindsOneOf [r] .a = decide (rd.bindA = some r.jump) := by
    by_cases ha : rd.bindA = some r.jump <;> simp [Round.bindsOneOf, ha]
  have hB : rd.bindsOneOf [r] .b = decide (rd.bindA ≠ some r.jump ∧ rd.bindB = some r.jump) := by
    by_cases ha : rd.bindA = some r.jump <;> by_cases hb : rd.bindB = some r.jump <;> simp [Round.bindsOneOf, ha, hb]
  have hall : ((rd.modify r.jump (fun x => { x with state := .published })).freed r.jump) =
      { rd.published [r] with
        table := ((rd.modify r.jump (fun x => { x with state := .published })).freed r.jump).table } := by
    simp only [Round.published, hA, hB, decide_eq_true_eq]
    rfl
  rw [hall, htable]

theorem WindRx.published_one (w : WindRx) (rd : Round) (r : Record) :
    w.freed (rd.modify r.jump (fun x => { x with state := .published })) r.jump = w.published rd [r] := by
  by_cases ha : rd.bindA = some r.jump <;> by_cases hb : rd.bindB = some r.jump <;>
    simp [WindRx.freed, WindRx.published, Round.bindsOneOf, ha, hb] <;> rfl

theorem State.publish_becomes {s : State} (h : s.round.Distinct) {r : Record} (hr : r ∈ s.round.records) :
    Becomes (s.publish r) (publishState s [r]) := by
  have hwork : (s.modifyRecord r.jump (fun x => { x with state := .published })).freeCtxOf r.jump =
      publishState s [r] := by
    rw [State.freeCtxOf_eq, publishState_eq, ← Round.published_one h hr, ← WindRx.published_one]
    rfl
  unfold State.publish
  rw [hwork]
  exact ((Becomes.refl _).markChanged s).post _

theorem State.publish_posts (s : State) (r : Record) : Posts s (s.publish r) (publishNotices [r]) := fun l => by
  unfold State.publish
  rw [State.post_link, markChanged_link, State.freeCtxOf_link, State.modifyRecord, State.setRound_link]
  rfl

/-! The records a check publishes -/

/-- A CONFIRMED record waits for a lower-numbered one that is not terminal (R21). -/
def Round.waits (rd : Round) (x : Record) : Prop := ∃ y ∈ rd.records, y.jump < x.jump ∧ y.state.terminal = false

theorem Round.publishable_eq_none {rd : Round} (h : rd.publishable = none) {x : Record} (hx : x ∈ rd.records)
    (hs : x.state = .confirmed) : rd.waits x := by
  have hmem : x ∈ sortByJump (rd.records.filter (fun x => x.state == .confirmed)) :=
    mem_sortByJump.mpr (List.mem_filter.mpr ⟨hx, by simp [hs]⟩)
  have hsorted := sortByJump_sorted (rd.records.filter (fun x => x.state == .confirmed))
  unfold Round.publishable at h
  revert h hmem hsorted
  cases sortByJump (rd.records.filter (fun x => x.state == .confirmed)) with
  | nil => exact fun _ hmem _ => by cases hmem
  | cons z l =>
    intro h hmem hsorted
    have hnot : ¬ ∀ y ∈ rd.records, z.jump ≤ y.jump ∨ y.state.terminal = true := by
      intro hall
      simp only [List.all_eq_true, Bool.or_eq_true, decide_eq_true_eq, if_pos hall] at h
      cases h
    push Not at hnot
    obtain ⟨y, hy, hlt, hterm⟩ := hnot
    refine ⟨y, hy, hlt.trans_le ?_, by simpa using hterm⟩
    rcases List.mem_cons.mp hmem with rfl | hin
    · exact le_rfl
    · exact (List.pairwise_cons.mp hsorted).1 x hin

theorem Round.publishable_eq_some {rd : Round} {r : Record} (h : rd.publishable = some r) :
    r ∈ rd.records ∧ r.state = .confirmed ∧ ∀ y ∈ rd.records, r.jump ≤ y.jump ∨ y.state.terminal = true := by
  unfold Round.publishable at h
  cases hsort : sortByJump (rd.records.filter (fun x => x.state == .confirmed)) with
  | nil => rw [hsort] at h; cases h
  | cons z l =>
    rw [hsort] at h
    simp only [Option.ite_none_right_eq_some, List.all_eq_true, Bool.or_eq_true, decide_eq_true_eq, Option.some.injEq] at h
    obtain ⟨hall, rfl⟩ := h
    have hz := List.mem_filter.mp (mem_sortByJump.mp (hsort ▸ List.mem_cons_self))
    exact ⟨hz.1, by simpa using hz.2, hall⟩

/-! The records behind a publication -/

section
variable {rd : Round} {r : Record}

theorem Round.records_published (rd : Round) (rs : List Record) :
    (rd.published rs).records = rd.records.map (fun x =>
      if x ∈ rs then
        { x with
          state := .published
          context := if rd.bindA = some x.jump ∨ rd.bindB = some x.jump then none else x.context }
      else x) := Round.records_of_table rfl

theorem Round.published_distinct (h : rd.Distinct) (rs : List Record) : (rd.published rs).Distinct := by
  rw [Round.Distinct, Round.records_published, List.map_map]
  refine (congrArg List.Nodup (List.map_congr_left fun x _ => ?_)).mpr h
  simp only [Function.comp_apply]
  split <;> rfl

/-- A record behind a publication is the one published or another left as it was. -/
theorem Round.mem_published_one {x : Record} :
    x ∈ (rd.published [r]).records ↔
      (x ∈ rd.records ∧ x ≠ r) ∨ (r ∈ rd.records ∧ x = { r with
        state := .published
        context := if rd.bindA = some r.jump ∨ rd.bindB = some r.jump then none else r.context }) := by
  rw [Round.records_published, List.mem_map]
  simp only [List.mem_singleton]
  constructor
  · rintro ⟨y, hy, rfl⟩
    split
    · next he => exact Or.inr ⟨he ▸ hy, by rw [he]⟩
    · next hne => exact Or.inl ⟨hy, hne⟩
  · rintro (⟨hx, hne⟩ | ⟨hr, rfl⟩)
    · exact ⟨x, hx, if_neg hne⟩
    · exact ⟨r, hr, if_pos rfl⟩

/-- A publication of a record leaves one CONFIRMED record less. -/
theorem Round.confirmed_published_one (hr : r ∈ rd.records) (hs : r.state = .confirmed) :
    ((rd.published [r]).records.filter (fun x => x.state == .confirmed)).length <
      (rd.records.filter (fun x => x.state == .confirmed)).length := by
  have hfilter : rd.records.filter ((fun x => x.state == .confirmed) ∘ (fun x =>
      if x ∈ [r] then
        { x with
          state := .published
          context := if rd.bindA = some x.jump ∨ rd.bindB = some x.jump then none else x.context }
      else x)) = (rd.records.filter (fun x => x.state == .confirmed)).filter (fun x => x != r) := by
    rw [List.filter_filter]
    refine List.filter_congr fun x _ => ?_
    by_cases he : x = r <;> simp [he]
  rw [Round.records_published, List.filter_map, List.length_map, hfilter, List.length_filter_lt_length_iff_exists]
  exact ⟨r, List.mem_filter.mpr ⟨hr, by simp [hs]⟩, by simp⟩

end

/-! The check, record by record -/

/-- The records published behind the first, and the first. -/
theorem PublishedBy.cons {rd : Round} {r : Record} {rs : List Record} (hd : rd.Distinct) (hr : r ∈ rd.records)
    (hs : r.state = .confirmed) (hfirst : ∀ y ∈ rd.records, r.jump ≤ y.jump ∨ y.state.terminal = true)
    (h : PublishedBy (rd.published [r]) rs) : PublishedBy rd (r :: rs) := by
  obtain ⟨hpair, hmem, hiff⟩ := h
  have hbehind : ∀ x ∈ rs, x ∈ rd.records ∧ x ≠ r ∧ x.state = .confirmed := fun x hx => by
    obtain ⟨hrec, hconf⟩ := hmem x hx
    rcases Round.mem_published_one.mp hrec with ⟨hin, hne⟩ | ⟨_, rfl⟩
    · exact ⟨hin, hne, hconf⟩
    · cases hconf
  refine ⟨List.pairwise_cons.mpr ⟨fun x hx => ?_, hpair⟩, fun x hx => ?_, fun x hx hconf => ?_⟩
  · obtain ⟨hin, hne, hconf⟩ := hbehind x hx
    have hle : r.jump ≤ x.jump := (hfirst x hin).resolve_right (by simp [hconf, RecState.terminal])
    exact hle.lt_of_ne fun hj => hne (Round.eq_of_jump hd hin hr hj.symm)
  · rcases List.mem_cons.mp hx with rfl | hx
    · exact ⟨hr, hs⟩
    · exact ⟨(hbehind x hx).1, (hbehind x hx).2.2⟩
  · by_cases hxr : x = r
    · subst hxr
      refine iff_of_true List.mem_cons_self fun y hy hlt => Or.inl ((hfirst y hy).resolve_left hlt.not_ge)
    · rw [List.mem_cons, or_iff_right hxr, hiff x (Round.mem_published_one.mpr (Or.inl ⟨hx, hxr⟩)) hconf]
      constructor
      · intro h y hy hlt
        by_cases hyr : y = r
        · exact Or.inr (hyr ▸ List.mem_cons_self)
        · exact (h y (Round.mem_published_one.mpr (Or.inl ⟨hy, hyr⟩)) hlt).imp_right (List.mem_cons_of_mem _)
      · intro h y hy hlt
        rcases Round.mem_published_one.mp hy with ⟨hin, hne⟩ | ⟨_, rfl⟩
        · exact (h y hin hlt).imp_right fun hy => (List.mem_cons.mp hy).resolve_left hne
        · exact Or.inl rfl

theorem ite_none_eq_some {o : Option Nat} {p : Prop} [Decidable p] {j k : Nat} (hp : p → o = some j) (hk : k ≠ j) :
    (if p then none else o) = some k ↔ o = some k := by
  split
  · next h => simp [hp h, hk.symm]
  · rfl

section
variable {rd : Round} {r : Record} {rs : List Record} (hne : ∀ x ∈ rs, x.jump ≠ r.jump)

theorem Round.published_bindA {k : Nat} (hk : k ≠ r.jump) :
    (rd.published [r]).bindA = some k ↔ rd.bindA = some k :=
  ite_none_eq_some (p := rd.bindsOneOf [r] .a = true) (by simp [Round.bindsOneOf]) hk

theorem Round.published_bindB {k : Nat} (hk : k ≠ r.jump) :
    (rd.published [r]).bindB = some k ↔ rd.bindB = some k :=
  ite_none_eq_some (p := rd.bindsOneOf [r] .b = true) (by simp [Round.bindsOneOf]) hk

include hne

theorem Round.bindsOneOf_cons (c : Ctx) :
    rd.bindsOneOf (r :: rs) c = (rd.bindsOneOf [r] c || (rd.published [r]).bindsOneOf rs c) := by
  cases c with
  | a =>
    have htail : rs.any (fun x => rd.bindA == some x.jump) = rs.any (fun x => (rd.published [r]).bindA == some x.jump) := by
      rw [Bool.eq_iff_iff, List.any_eq_true, List.any_eq_true]
      refine exists_congr fun x => and_congr_right fun hx => ?_
      rw [beq_iff_eq, beq_iff_eq, Round.published_bindA (hne x hx)]
    simp only [Round.bindsOneOf, List.any_cons, List.any_nil, Bool.or_false]
    rw [htail]
  | b =>
    have htail : rs.any (fun x => rd.bindA != some x.jump && rd.bindB == some x.jump) =
        rs.any (fun x => (rd.published [r]).bindA != some x.jump && (rd.published [r]).bindB == some x.jump) := by
      rw [Bool.eq_iff_iff, List.any_eq_true, List.any_eq_true]
      refine exists_congr fun x => and_congr_right fun hx => ?_
      rw [Bool.and_eq_true, Bool.and_eq_true, bne_iff_ne, bne_iff_ne, beq_iff_eq, beq_iff_eq, ne_eq, ne_eq,
        Round.published_bindA (hne x hx), Round.published_bindB (hne x hx)]
    simp only [Round.bindsOneOf, List.any_cons, List.any_nil, Bool.or_false]
    rw [htail]

theorem Round.published_cons (hconf : ∀ x ∈ rs, x.state = .confirmed) :
    (rd.published [r]).published rs = rd.published (r :: rs) := by
  have htable : ((rd.published [r]).published rs).table = (rd.published (r :: rs)).table := by
    simp only [Round.published, List.map_map]
    refine List.map_congr_left fun e _ => ?_
    cases e with
    | none => rfl
    | some x =>
      simp only [Function.comp_apply, Option.map_some, Option.some.injEq, List.mem_cons, List.not_mem_nil, or_false]
      by_cases hxr : x = r
      · subst hxr
        rw [if_neg]
        · simp
        · intro hin
          simpa using hconf _ hin
      · simp only [hxr, if_false, false_or]
        split
        · next hin =>
          have hA := Round.published_bindA (rd := rd) (hne x hin)
          have hB := Round.published_bindB (rd := rd) (hne x hin)
          simp only [Round.published] at hA hB
          simp only [hA, hB]
        · rfl
  have hbind (c : Ctx) (o : Option Nat) :
      (if (rd.published [r]).bindsOneOf rs c then none else if rd.bindsOneOf [r] c then none else o) =
        if rd.bindsOneOf (r :: rs) c then none else o := by
    rw [Round.bindsOneOf_cons hne]
    cases rd.bindsOneOf [r] c <;> cases (rd.published [r]).bindsOneOf rs c <;> rfl
  have hA : ((rd.published [r]).published rs).bindA = (rd.published (r :: rs)).bindA := hbind .a rd.bindA
  have hB : ((rd.published [r]).published rs).bindB = (rd.published (r :: rs)).bindB := hbind .b rd.bindB
  have hall : (rd.published [r]).published rs = { rd.published (r :: rs) with
      table := ((rd.published [r]).published rs).table, bindA := ((rd.published [r]).published rs).bindA
      bindB := ((rd.published [r]).published rs).bindB } := rfl
  rw [hall, htable, hA, hB]

theorem WindRx.published_cons (w : WindRx) :
    (w.published rd [r]).published (rd.published [r]) rs = w.published rd (r :: rs) := by
  have hctx (c : Ctx) (x : Context) :
      (if (rd.published [r]).bindsOneOf rs c then freedContext else if rd.bindsOneOf [r] c then freedContext else x) =
        if rd.bindsOneOf (r :: rs) c then freedContext else x := by
    rw [Round.bindsOneOf_cons hne]
    cases rd.bindsOneOf [r] c <;> cases (rd.published [r]).bindsOneOf rs c <;> rfl
  unfold WindRx.published
  rw [hctx, hctx]

end

/-- The publication of the records, given in a state that has become `u`. -/
theorem Becomes.publishState {t u : State} (h : Becomes t u) (rs : List Record) :
    Becomes (publishState t rs) (publishState u rs) := by
  rw [publishState_eq, publishState_eq, h.round, h.wind]
  exact (h.setRound (u.round.published rs)).setWind (u.wind.published u.round rs)

theorem publishState_nil (s : State) : publishState s [] = s := by
  have htable : s.round.table.map (Option.map (fun x => if x ∈ ([] : List Record) then
        { x with
          state := .published
          context := if s.round.bindA = some x.jump ∨ s.round.bindB = some x.jump then none else x.context }
      else x)) = s.round.table := by
    simp
  unfold publishState
  rw [htable]
  rfl

theorem PublishedBy.nil {rd : Round} (hnone : rd.publishable = none) : PublishedBy rd [] := by
  refine ⟨List.Pairwise.nil, fun _ hx => absurd hx List.not_mem_nil, fun x hx hs => ?_⟩
  obtain ⟨y, hy, hlt, hterm⟩ := Round.publishable_eq_none hnone hx hs
  exact iff_of_false List.not_mem_nil fun h => by simpa [hterm] using h y hy hlt

/-- As many passes as there are CONFIRMED records publish all that wait for nothing. -/
theorem publishLoop_spec (n : Nat) (s : State) (hd : s.round.Distinct)
    (hn : (s.round.records.filter (fun x => x.state == .confirmed)).length ≤ n) :
    ∃ rs, PublishedBy s.round rs ∧ Becomes (publishLoop n s) (publishState s rs) ∧
      Posts s (publishLoop n s) (publishNotices rs) ∧ (publishLoop n s).round.publishable = none := by
  induction n generalizing s with
  | zero =>
    have hnone : s.round.publishable = none := by
      cases hp : s.round.publishable with
      | none => rfl
      | some r =>
        obtain ⟨hr, hs, _⟩ := Round.publishable_eq_some hp
        have := List.length_pos_of_mem (List.mem_filter.mpr ⟨hr, by simp [hs]⟩ :
          r ∈ s.round.records.filter (fun x => x.state == .confirmed))
        omega
    exact ⟨[], PublishedBy.nil hnone, (publishState_nil s).symm ▸ Becomes.refl s, Posts.refl s, hnone⟩
  | succ n ih =>
    unfold publishLoop
    split
    · next r hp =>
      obtain ⟨hr, hs, hfirst⟩ := Round.publishable_eq_some hp
      have hone := State.publish_becomes hd hr
      have hround : (s.publish r).round = s.round.published [r] := hone.round
      obtain ⟨rs, hby, hbecomes, hposts, hnone⟩ := ih (s.publish r)
        (by rw [hround]; exact Round.published_distinct hd [r])
        (by rw [hround]; exact Nat.le_of_lt_succ ((Round.confirmed_published_one hr hs).trans_le hn))
      rw [hround] at hby
      have hall := PublishedBy.cons hd hr hs hfirst hby
      have hne : ∀ x ∈ rs, x.jump ≠ r.jump := fun x hx => ((List.pairwise_cons.mp hall.1).1 x hx).ne'
      refine ⟨r :: rs, hall, ?_, (State.publish_posts s r).trans hposts, hnone⟩
      have heq : publishState (publishState s [r]) rs = publishState s (r :: rs) := by
        rw [publishState_eq s (r :: rs), ← Round.published_cons hne fun x hx => (hby.2.1 x hx).2,
          ← WindRx.published_cons hne]
        rfl
      exact heq ▸ hbecomes.trans (hone.publishState rs)
    · next hnone => exact ⟨[], PublishedBy.nil hnone, (publishState_nil s).symm ▸ Becomes.refl s, Posts.refl s, hnone⟩

/-- Settles O26: the slots of the table bound the passes. -/
theorem publicationRunsInJumpOrder : Obligations.PublicationRunsInJumpOrder := fun s hd =>
  publishLoop_spec s.round.table.length s hd
    ((List.length_filter_le _ _).trans (List.length_filterMap_le _ _))

end Sys2Proof.Machine
end

