-- ==== Sys2Proof/Proofs/Voids.lean ====
section
/-! The void procedure: the record, the timers, the lights and the staged gate it leaves, the notices it sends, and the
publications it allows (R19 to R22); VOID, the timers that void, and the departure. -/

namespace Sys2Proof.Machine

/-! The work of a void before the publication check -/

/-- The record voided, its timers stopped and its context freed (R20). -/
def State.voidWork (s : State) (r : Record) (reason : VoidReason) : State :=
  ((s.stopTimersOf r.state).modifyRecord r.jump
    (fun x => { x with state := .voided, voidReason := some reason, remaining := s.voidRemaining r })).freeCtxOf r.jump

/-- The light change of a void, where it is asked for (R4, R20). -/
def State.voidLit (t : State) (r : Record) (remaining : Option Nat) (lights : Bool) : State :=
  if lights then t.voidLights r remaining else t

/-- The staged gate of a void applied, where the record is one a gate is staged on (R60). -/
def State.voidGated (t : State) (r : Record) : State := if r.state.stages then t.applyStaged r.jump else t

/-- The clearance timer of a void started, where the record was on the hill (R18). -/
def State.voidCleared (t : State) (r : Record) : State :=
  if r.state.onHill then t.startClearance (plusTicks t.clock (secTicks t.start.timing.clearance)) else t

/-- A void as far as its notices and timers, before the publication check (R20). -/
def State.voidUnpublished (s : State) (r : Record) (reason : VoidReason) (requeued lights : Bool) : State :=
  ((((markChanged s (s.voidWork r reason)).post (.voided r.jump r.bib r.state reason requeued)).voidLit r
    (s.voidRemaining r) lights).voidGated r).voidCleared r

theorem State.voidRecord_eq (s : State) (r : Record) (reason : VoidReason) (requeued lights : Bool) :
    s.voidRecord r reason requeued lights = (s.voidUnpublished r reason requeued lights).publicationCheck := rfl

/-- The lights and gates after a void, which changes the light state where it is asked to (R4, R20). -/
def voidStartBy (lights : Bool) (st : StartLight) (r : Record) : StartLight :=
  { voidStart st r with
    light := if lights then (voidStart st r).light else st.light
    cadence := if lights then (voidStart st r).cadence else st.cadence }

theorem voidStartBy_true (st : StartLight) (r : Record) : voidStartBy true st r = voidStart st r := rfl

/-- The state after a void before the publication check, the light state changed where asked (R4, R20). -/
def voidStateBy (lights : Bool) (s : State) (r : Record) (reason : VoidReason) : State :=
  { s with
    round := voidRound s s.clock r reason false, start := voidStartBy lights s.start r, wind := voidWind s r
    flight := voidFlight s.flight r }

theorem State.voidRemaining_eq (s : State) (r : Record) :
    s.voidRemaining r = if r.state = .released then s.start.countdown.msLeft s.clock else r.remaining := by
  unfold State.voidRemaining State.countdownLeft Countdown.msLeft
  cases s.start.countdown <;> rfl

section
variable {t u : State} (h : Becomes t u) (r : Record)
include h

theorem Becomes.stopTimersOf :
    Becomes (t.stopTimersOf r.state) { u with
      start := { u.start with countdown := if r.state = .released then .idle else u.start.countdown }
      flight := voidFlight u.flight r } := by
  unfold State.stopTimersOf voidFlight
  cases r.state
  case released => exact h.toCountdown .idle
  case inrun => rw [h.flight]; exact h.setFlight _
  case airborne => rw [h.flight]; exact h.setFlight _
  all_goals exact h

theorem Becomes.voidLights (remaining : Option Nat) :
    Becomes (t.voidLights r remaining) (u.setStart { u.start with
      light := if r.state.atBar then .red else u.start.light
      cadence := if r.state.atBar then none else u.start.cadence }) := by
  unfold State.voidLights
  cases r.state
  case called => exact h.toLight .red _ _
  case released => exact h.toLight .red _ _
  all_goals exact h

theorem Becomes.applyStaged (j : Nat) :
    Becomes (t.applyStaged j) (u.setStart { u.start with
      juryGate := (u.start.stagedFor j).getD u.start.juryGate
      staged := if (u.start.stagedFor j).isSome = true then none else u.start.staged }) := by
  unfold State.applyStaged StartLight.stagedFor
  rw [h.start]
  cases hst : u.start.staged with
  | none =>
    have hsame : u.setStart { u.start with juryGate := u.start.juryGate, staged := none } = u := by
      rw [← hst]
      rfl
    simpa [hsame] using h
  | some e =>
    obtain ⟨g, waits⟩ := e
    by_cases hw : waits = j
    · simpa [hw] using (h.toGate g none).post (.gate g .staged (some j))
    · have hsame : u.setStart { u.start with juryGate := u.start.juryGate, staged := some (g, waits) } = u := by
        rw [← hst]
        rfl
      simpa [hw, hsame] using h

end

section
variable {t u : State} (h : Becomes t u) (r : Record)
include h

theorem Becomes.voidLit (remaining : Option Nat) (lights : Bool) :
    Becomes (t.voidLit r remaining lights) (u.setStart { u.start with
      light := if lights then (if r.state.atBar then .red else u.start.light) else u.start.light
      cadence := if lights then (if r.state.atBar then none else u.start.cadence) else u.start.cadence }) := by
  cases lights with
  | false => exact h
  | true => exact h.voidLights r remaining

theorem Becomes.voidGated :
    Becomes (t.voidGated r) (u.setStart { u.start with
      juryGate := if r.state.stages then (u.start.stagedFor r.jump).getD u.start.juryGate else u.start.juryGate
      staged := if r.state.stages = true ∧ (u.start.stagedFor r.jump).isSome = true then none else u.start.staged }) := by
  unfold State.voidGated
  cases r.state.stages with
  | false =>
    simp only [Bool.false_eq_true, if_false, false_and]
    exact h
  | true =>
    simp only [true_and, if_true]
    exact h.applyStaged r.jump

theorem Becomes.voidCleared :
    Becomes (t.voidCleared r) (u.setRound { u.round with
      clearance := if r.state.onHill then clearanceFrom u.clock (plusTicks u.clock (secTicks u.start.timing.clearance))
        else u.round.clearance }) := by
  unfold State.voidCleared State.startClearance
  rw [h.round, h.clock, h.start]
  cases r.state.onHill with
  | false => exact h
  | true => exact h.setRound _

end

theorem Round.modify_freed (rd : Round) (j : Nat) {f : Record → Record} (hf : ∀ x, (f x).jump = x.jump) :
    (rd.modify j f).freed j =
      { rd with
        table := rd.table.map (Option.map (fun x =>
          if x.jump = j then
            { f x with context := if rd.bindA = some j ∨ rd.bindB = some j then none else (f x).context }
          else x))
        bindA := if rd.bindA = some j then none else rd.bindA
        bindB := if rd.bindA ≠ some j ∧ rd.bindB = some j then none else rd.bindB } := by
  unfold Round.freed Round.modify
  simp only [List.map_map]
  congr 1
  refine List.map_congr_left fun e _ => ?_
  cases e with
  | none => rfl
  | some x => by_cases hj : x.jump = j <;> simp [hj, hf]

/-- The work of a void becomes the state with the record voided (R20). -/
theorem State.voidWork_becomes (s : State) (r : Record) (reason : VoidReason) :
    Becomes (s.voidWork r reason) { s with
      round := { voidRound s s.clock r reason false with clearance := s.round.clearance }
      start := { s.start with countdown := if r.state = .released then .idle else s.start.countdown }
      wind := voidWind s r, flight := voidFlight s.flight r } := by
  have ht := (Becomes.refl s).stopTimersOf r
  have hround : (s.round.modify r.jump
      (fun x => { x with state := .voided, voidReason := some reason, remaining := s.voidRemaining r })).freed r.jump =
      { voidRound s s.clock r reason false with clearance := s.round.clearance } := by
    refine (Round.modify_freed s.round r.jump ?_).trans ?_
    · exact fun _ => rfl
    · rw [State.voidRemaining_eq]
      rfl
  unfold State.voidWork
  rw [State.freeCtxOf_eq, ← hround]
  simp only [State.modifyRecord, State.setRound_round, State.setRound_wind, ht.round, ht.wind]
  exact ((ht.setRound _).setRound _).setWind _

/-- A void before the publication check becomes the state its rules give (R4, R20). -/
theorem State.voidUnpublished_becomes (s : State) (r : Record) (reason : VoidReason) (requeued lights : Bool) :
    Becomes (s.voidUnpublished r reason requeued lights) (voidStateBy lights s r reason) := by
  have h2 := ((s.voidWork_becomes r reason).markChanged s).post (.voided r.jump r.bib r.state reason requeued)
  have h3 : Becomes (State.voidLit _ r (s.voidRemaining r) lights) { s with
      round := { voidRound s s.clock r reason false with clearance := s.round.clearance }
      start := { voidStartBy lights s.start r with juryGate := s.start.juryGate, staged := s.start.staged }
      wind := voidWind s r, flight := voidFlight s.flight r } := h2.voidLit r _ lights
  have h4 : Becomes (State.voidGated _ r) { s with
      round := { voidRound s s.clock r reason false with clearance := s.round.clearance }
      start := voidStartBy lights s.start r, wind := voidWind s r, flight := voidFlight s.flight r } := h3.voidGated r
  exact h4.voidCleared r

/-! The notices of a void -/

/-- The LAMP of a void from the bar (R20, R42). -/
def lampNotices (s : State) (now : HillTime) (r : Record) : List Notice :=
  if r.state = .called then [.lamp .red (some r.bib) none]
  else if r.state = .released then [.lamp .red (some r.bib) (s.start.countdown.msLeft now)] else []

/-- The GATE of a void that applies a staged gate (R60, R61). -/
def stagedNotices (st : StartLight) (r : Record) : List Notice :=
  if r.state.stages then
    (match st.stagedFor r.jump with | some g => [.gate g .staged (some r.jump)] | none => [])
  else []

theorem voidNotices_eq (s : State) (now : HillTime) (r : Record) (reason : VoidReason) (requeued : Bool) :
    voidNotices s now r reason requeued =
      [.voided r.jump r.bib r.state reason requeued] ++ lampNotices s now r ++ stagedNotices s.start r := rfl

theorem Posts.applyStaged {s t : State} {ns : List Notice} (h : Posts s t ns) (j : Nat) :
    Posts s (t.applyStaged j)
      (ns ++ match t.start.stagedFor j with | some g => [.gate g .staged (some j)] | none => []) := by
  unfold State.applyStaged StartLight.stagedFor
  cases t.start.staged with
  | none => simpa using h
  | some e =>
    obtain ⟨g, waits⟩ := e
    by_cases hw : waits = j
    · simpa [hw] using (h.toGate g none).post (.gate g .staged (some j))
    · simpa [hw] using h

/-- The LAMP of a void with the remaining time (R42). -/
def lampOf (r : Record) (remaining : Option Nat) : List Notice :=
  if r.state = .called then [.lamp .red (some r.bib) none]
  else if r.state = .released then [.lamp .red (some r.bib) remaining] else []

theorem lampOf_voidRemaining (s : State) (r : Record) :
    lampOf r (s.voidRemaining r) = lampNotices s s.clock r := by
  rw [State.voidRemaining_eq]
  unfold lampOf lampNotices
  by_cases hr : r.state = .released <;> simp [hr]

theorem Posts.voidLit {s t : State} {ns : List Notice} (h : Posts s t ns) (r : Record) (remaining : Option Nat)
    (lights : Bool) : Posts s (t.voidLit r remaining lights) (ns ++ if lights then lampOf r remaining else []) := by
  cases lights with
  | false =>
    rw [if_neg Bool.false_ne_true, List.append_nil]
    exact h
  | true =>
    unfold State.voidLit State.voidLights lampOf
    cases r.state
    case called => exact h.toLight .red _ _
    case released => exact h.toLight .red _ _
    all_goals simpa using h

theorem Posts.voidGated {s t : State} {ns : List Notice} (h : Posts s t ns) (r : Record) :
    Posts s (t.voidGated r) (ns ++ stagedNotices t.start r) := by
  unfold State.voidGated stagedNotices
  cases r.state.stages with
  | false => simpa using h
  | true => exact h.applyStaged r.jump

theorem Posts.voidCleared {s t : State} {ns : List Notice} (h : Posts s t ns) (r : Record) :
    Posts s (t.voidCleared r) ns := by
  unfold State.voidCleared
  split
  · exact h.of_links rfl rfl
  · exact h

theorem State.stopTimersOf_links (s : State) (x : RecState) :
    (s.stopTimersOf x).control = s.control ∧ (s.stopTimersOf x).console = s.console := by
  cases x <;> exact ⟨rfl, rfl⟩

theorem State.voidUnpublished_posts (s : State) (r : Record) (reason : VoidReason) (requeued lights : Bool) :
    Posts s (s.voidUnpublished r reason requeued lights)
      ([.voided r.jump r.bib r.state reason requeued] ++ (if lights then lampNotices s s.clock r else [])
        ++ stagedNotices s.start r) := by
  have hb := ((s.voidWork_becomes r reason).markChanged s).post (.voided r.jump r.bib r.state reason requeued)
  have hb := hb.voidLit r (s.voidRemaining r) lights
  have h2 : Posts s ((markChanged s (s.voidWork r reason)).post (.voided r.jump r.bib r.state reason requeued))
      [.voided r.jump r.bib r.state reason requeued] := fun l => by
    rw [State.post_link, markChanged_link, State.voidWork, State.freeCtxOf_link, State.modifyRecord,
      State.setRound_link]
    obtain ⟨hc, hk⟩ := s.stopTimersOf_links r.state
    cases l
    · exact congrArg (fun x : Link => x.post _) hc
    · exact congrArg (fun x : Link => x.post _) hk
  have h3 := h2.voidLit r (s.voidRemaining r) lights
  rw [lampOf_voidRemaining] at h3
  have h4 := h3.voidGated r
  have hstaged := congrArg (fun st : StartLight => stagedNotices st r) hb.start
  rw [hstaged] at h4
  exact h4.voidCleared r

/-! The whole void -/

theorem voidRound_distinct {s : State} (h : s.round.Distinct) (now : HillTime) (r : Record) (reason : VoidReason)
    (requeued : Bool) : (voidRound s now r reason requeued).Distinct := by
  rw [Round.Distinct, Round.records_of_table (rd' := voidRound s now r reason requeued) rfl, List.map_map]
  refine (congrArg List.Nodup (List.map_congr_left fun x _ => ?_)).mpr h
  simp only [Function.comp_apply]
  split <;> rfl

/-- The void procedure with its publications, the light state changed where asked (R4, R20, R21). -/
theorem State.voidRecord_spec {s : State} (h : s.round.Distinct) (r : Record) (reason : VoidReason)
    (requeued lights : Bool) :
    ∃ rs, PublishedBy (voidStateBy lights s r reason).round rs ∧
      Becomes (s.voidRecord r reason requeued lights) (publishState (voidStateBy lights s r reason) rs) ∧
      Posts s (s.voidRecord r reason requeued lights)
        ([.voided r.jump r.bib r.state reason requeued] ++ (if lights then lampNotices s s.clock r else [])
          ++ stagedNotices s.start r ++ publishNotices rs) ∧
      (s.voidRecord r reason requeued lights).round.publishable = none := by
  have hb := s.voidUnpublished_becomes r reason requeued lights
  have hround : (s.voidUnpublished r reason requeued lights).round = voidRound s s.clock r reason false := hb.round
  obtain ⟨rs, hby, hbecomes, hposts, hnone⟩ := publicationRunsInJumpOrder (s.voidUnpublished r reason requeued lights)
    (by rw [hround]; exact voidRound_distinct h _ _ _ _)
  rw [State.voidRecord_eq]
  refine ⟨rs, ?_, hbecomes.trans (hb.publishState rs), (s.voidUnpublished_posts r reason requeued lights).trans hposts,
    hnone⟩
  rw [hround] at hby
  exact hby

theorem voidStateBy_lights (s : State) (r : Record) (reason : VoidReason) :
    voidStateBy true s r reason = voidState s s.clock r reason false := rfl

/-- The void procedure of a state at the hill time, with its light change (R20, R21). -/
theorem State.voidRecord_lit {s : State} (h : s.round.Distinct) (r : Record) (reason : VoidReason) (requeued : Bool) :
    ∃ rs, PublishedBy (voidState s s.clock r reason false).round rs ∧
      Becomes (s.voidRecord r reason requeued true) (publishState (voidState s s.clock r reason false) rs) ∧
      Posts s (s.voidRecord r reason requeued true) (voidNotices s s.clock r reason requeued ++ publishNotices rs) := by
  obtain ⟨rs, hby, hbecomes, hposts, _⟩ := State.voidRecord_spec h r reason requeued true
  rw [voidStateBy_lights] at hby hbecomes
  exact ⟨rs, hby, hbecomes, hposts⟩

/-! VOID -/

section
variable {s : State} {j : Nat} {requeue : Bool} {r : Record}

theorem serveVoid_of_no_record (hr : s.record j = none) :
    serveVoid s j requeue = refuse s .noSuchJump (voidBody none none) := by
  simp only [serveVoid, hr]

variable (hr : s.record j = some r)
include hr

theorem serveVoid_of_terminal (ht : r.state.terminal = true) :
    serveVoid s j requeue = refuse s .wrongState (voidBody none none) := by
  simp only [serveVoid, hr, if_pos ht]

theorem serveVoid_of_full (ht : r.state.terminal = false) (hq : requeue = true) (hl : 96 ≤ s.round.startList.length) :
    serveVoid s j requeue = refuse s .listFull (voidBody none none) := by
  simp only [serveVoid, hr, ht, Bool.false_eq_true, if_false]
  exact if_pos ⟨hq, Nat.not_lt.mpr hl⟩

theorem serveVoid_of_open (ht : r.state.terminal = false) (hq : requeue = true → s.round.startList.length < 96) :
    serveVoid s j requeue =
      accept
        (if requeue then
          (s.voidRecord r .juryRestart true true).setRound { (s.voidRecord r .juryRestart true true).round with
            startList := r.bib :: (s.voidRecord r .juryRestart true true).round.startList }
        else s.voidRecord r .juryCancel false true)
        (voidBody (some r.jump) (some (if requeue then .juryRestart else .juryCancel))) := by
  cases requeue with
  | false => simp only [serveVoid, hr, ht, Bool.false_eq_true, false_and, if_false]
  | true =>
    have hroom := hq rfl
    simp only [serveVoid, hr, ht, hroom, not_true, and_false, Bool.false_eq_true, if_false, if_true]

end

/-- Settles O25: the void procedure, the requeued bib, and the checks of R19 in their order. -/
theorem voidEndsARecord : Obligations.VoidEndsARecord := by
  refine ⟨fun now l tag requeue r s h hr ht hq => ?voided, fun now l tag requeue j s h => ⟨fun hnone => ?noRecord,
    fun r hr ht => ?terminal, fun r hr ht hq hl => ?full⟩⟩
  case voided =>
    have hp : (Request.void r.jump requeue).permitted l = true := by cases l <;> rfl
    have hserve := serveVoid_of_open (s := s.setClock now) (State.record_of_only hr) ht hq
    have hd : (s.setClock now).round.Distinct := hr.2
    cases requeue with
    | false =>
      obtain ⟨rs, hby, hbecomes, hposts⟩ := State.voidRecord_lit hd r .juryCancel false
      obtain ⟨t, hexec, htb, hta⟩ := takenRequest_accept h tag hp hserve hbecomes hposts
      exact ⟨t, _, rs, hexec, rfl, hby, htb, hta⟩
    | true =>
      obtain ⟨rs, hby, hbecomes, hposts⟩ := State.voidRecord_lit hd r .juryRestart true
      have hround := hbecomes.round
      have hlist := hbecomes.setRound { ((s.setClock now).voidRecord r .juryRestart true true).round with
        startList := r.bib :: ((s.setClock now).voidRecord r .juryRestart true true).round.startList }
      have heq : (publishState (voidState (s.setClock now) now r .juryRestart false) rs).setRound
          { ((s.setClock now).voidRecord r .juryRestart true true).round with
            startList := r.bib :: ((s.setClock now).voidRecord r .juryRestart true true).round.startList } =
          publishState (voidState s now r .juryRestart true) rs := by
        rw [hround]
        rfl
      obtain ⟨t, hexec, htb, hta⟩ := takenRequest_accept h tag hp hserve (heq ▸ hlist) (hposts.of_links rfl rfl)
      exact ⟨t, _, rs, hexec, rfl, hby, htb, hta⟩
  case noRecord =>
    exact takenRequest_refuse h tag (r := .void j requeue) (by cases l <;> rfl) (fun _ => rfl)
      (serveVoid_of_no_record (s := s.setClock now) (State.record_eq_none hnone))
  case terminal =>
    exact takenRequest_refuse h tag (r := .void j requeue) (by cases l <;> rfl) (fun _ => rfl)
      (serveVoid_of_terminal (s := s.setClock now) (State.record_of_only hr) ht)
  case full =>
    exact takenRequest_refuse h tag (r := .void j requeue) (by cases l <;> rfl) (fun _ => rfl)
      (serveVoid_of_full (s := s.setClock now) (State.record_of_only hr) ht hq hl)

/-! The timers that void -/

theorem State.expect_of_only {s : State} {r : Record} (h : s.only r.jump r) {x : RecState} (hs : r.state = x) :
    s.expect r.jump x = some r := by
  simp only [State.expect, State.record_of_only h, hs, if_true]

theorem countdownExpiry_eq {s : State} {r : Record} {expiry : HillTime}
    (hc : s.start.countdown = .running r.jump expiry) (hr : s.only r.jump r) (hs : r.state = .released) :
    countdownExpiryEvent s = if reached s.clock expiry then s.voidRecord r .startTime false true else s := by
  simp only [countdownExpiryEvent, hc, State.expect_of_only hr hs]

theorem inrunLimitExpiry_eq {s : State} {r : Record} {expiry : HillTime}
    (hl : s.flight.inrunLimit = some { jump := r.jump, expiry := expiry }) (hr : s.only r.jump r)
    (hs : r.state = .inrun) :
    inrunLimitExpiryEvent s =
      if reached s.clock expiry then
        (s.setFlight { s.flight with inrunLimit := none }).voidRecord r .inrunTimeout false true
      else s := by
  have hexpect := State.expect_of_only (s := s.setFlight { s.flight with inrunLimit := none }) hr hs
  simp only [inrunLimitExpiryEvent, hl, hexpect]

/-- Settles O27: each timer at its expiry, and before it. -/
theorem timersRunOut : Obligations.TimersRunOut := by
  refine ⟨fun now expiry s hh hc => ?clearance, fun now expiry r s hh hc hr hs => ?countdown,
    fun now expiry r s hh hl hr hs => ?inrun⟩
  case clearance =>
    refine taken_quiet (f := clearanceExpiryEvent) hh ?_ ?_
    · simp only [clearanceExpiryEvent, State.setClock_round, hc, State.setClock_clock]
      rfl
    · split
      · exact boardSync_unread
      · exact boardSync_self _
  case countdown =>
    have hevent := countdownExpiry_eq (s := s.setClock now) hc hr hs
    refine ⟨fun hdue => ?_, fun hearly => taken_idle hh (hevent.trans (if_neg (by simpa using hearly)))⟩
    obtain ⟨rs, hby, hbecomes, hposts⟩ := State.voidRecord_lit (s := s.setClock now) hr.2 r .startTime false
    obtain ⟨t, hexec, htb, htp⟩ := taken_of_eq hh (hevent.trans (if_pos hdue)) hbecomes hposts
    exact ⟨t, _, rs, hexec, rfl, hby, htb, htp⟩
  case inrun =>
    have hevent := inrunLimitExpiry_eq (s := s.setClock now) hl hr hs
    refine ⟨fun hdue => ?_, fun hearly => taken_idle hh (hevent.trans (if_neg (by simpa using hearly)))⟩
    obtain ⟨rs, hby, hbecomes, hposts⟩ := State.voidRecord_lit
      (s := (s.setClock now).setFlight { s.flight with inrunLimit := none }) hr.2 r .inrunTimeout false
    have hflight : voidFlight { s.flight with inrunLimit := none } r = voidFlight s.flight r := by
      simp [voidFlight, hs]
    have hstate : voidState ((s.setClock now).setFlight { s.flight with inrunLimit := none }) now r .inrunTimeout false =
        voidState s now r .inrunTimeout false := congrArg (fun f => (voidState s now r .inrunTimeout false).setFlight f) hflight
    obtain ⟨t, hexec, htb, htp⟩ := taken_of_eq hh (hevent.trans (if_pos hdue)) (hstate ▸ hbecomes)
      ((Posts.of_links (Posts.refl (s.setClock now)) rfl rfl).trans hposts)
    exact ⟨t, _, rs, hexec, rfl, hby, htb, htp⟩

/-! The departure -/

theorem departure_of_debounce {s : State} {departed : HillTime} {rest : List HillTime}
    (hd : s.start.barDebounce = departed :: rest) :
    departureEvent s =
      if reached s.clock (departed + 200#32) then takeDeparture (s.setStart { s.start with barDebounce := rest }) departed
      else s := by
  simp only [departureEvent, completed, hd]
  cases hdue : reached s.clock (departed + 200#32) <;> simp [plusTicks, hdue]

theorem takeDeparture_eq {s : State} (departed : HillTime) :
    takeDeparture s departed =
      match s.round.records.find? (fun x => x.state.atBar) with
      | some r => if r.state = .released then departReleased s r departed else departCalled s r departed
      | none => s.post (.stry .startBar departed none none) := rfl

theorem leftAtDeparture_msUp (c : Countdown) (departed : HillTime) :
    msUp (leftAtDeparture c departed) = (c.msLeft departed).getD 0 := by
  cases c
  case idle => simp [leftAtDeparture, Countdown.msLeft, msUp]
  all_goals rfl

theorem Countdown.isHeld_iff (c : Countdown) : c.isHeld = true ↔ ∃ j n, c = .held j n := by
  cases c <;> simp [Countdown.isHeld]

/-- The departure of a RELEASED record writes it, ends the countdown, sets its limit and its trap, and shows RED (R55). -/
theorem departReleased_becomes (s : State) (r : Record) (departed : HillTime) :
    Becomes (departReleased s r departed) { s with
      round := s.round.modify r.jump (fun x =>
        { x with
          departureTime := some departed, remaining := some (msUp (leftAtDeparture s.start.countdown departed))
          state := .inrun
          flags := { x.flags with heldStart := r.flags.heldStart || s.start.countdown.isHeld } })
      start := { s.start with countdown := .idle, light := .red, cadence := none }
      flight := { s.flight with
        inrunLimit := some { jump := r.jump, expiry := plusTicks departed (secTicks s.start.timing.inrun) }
        trapJump := some r.jump, trapTime := none, trapDone := false } } := by
  cases s
  exact Becomes.of_fields

theorem departReleased_posts (s : State) (r : Record) (departed : HillTime) :
    Posts s (departReleased s r departed)
      [.dept r.jump r.bib departed (msUp (leftAtDeparture s.start.countdown departed))
        (r.flags.heldStart || s.start.countdown.isHeld),
       .lamp .red (some r.bib) (some (msUp (leftAtDeparture s.start.countdown departed)))] := by
  have h : Posts s (((s.modifyRecord r.jump (fun x =>
      { x with
        departureTime := some departed, remaining := some (msUp (leftAtDeparture s.start.countdown departed))
        state := .inrun
        flags := { x.flags with heldStart := r.flags.heldStart || s.start.countdown.isHeld } })).toCountdown
      .idle).setFlight { s.flight with
        inrunLimit := some { jump := r.jump, expiry := plusTicks departed (secTicks s.start.timing.inrun) }
        trapJump := some r.jump, trapTime := none, trapDone := false }) [] := by
    cases s
    exact (Posts.refl _).of_links rfl rfl
  exact (h.post _).toLight .red _ _

/-- Settles O38: the RELEASED record, the CALLED record, no record at the bar, and no departure yet. -/
theorem departureIsTaken : Obligations.DepartureIsTaken := by
  refine ⟨?released, ?called, fun now departed rest s hh hd hdue hnone => ?stray, fun now departed rest s hh hn => ?idle⟩
  case released =>
    rintro now departed rest r ms heldStart s hh hd hdue hbar hr hs hms hheld
    have hevent := (departure_of_debounce (s := s.setClock now) hd).trans (if_pos hdue)
    rw [takeDeparture_eq] at hevent
    have hbar' : ((s.setClock now).setStart { s.start with barDebounce := rest }).round.records.find?
        (fun x => x.state.atBar) = some r := hbar
    have hflag : (r.flags.heldStart || s.start.countdown.isHeld) = heldStart := by
      rw [Bool.eq_iff_iff, hheld, Bool.or_eq_true, Countdown.isHeld_iff]
    have hleft : msUp (leftAtDeparture s.start.countdown departed) = ms := by rw [leftAtDeparture_msUp, hms]
    have hbecomes := departReleased_becomes ((s.setClock now).setStart { s.start with barDebounce := rest }) r departed
    have hposts := departReleased_posts ((s.setClock now).setStart { s.start with barDebounce := rest }) r departed
    simp only [State.setStart_start, hflag, hleft] at hbecomes hposts
    obtain ⟨t, hexec, htb, htp⟩ := taken_of_eq (f := departureEvent) hh
      (hevent.trans (by simp only [State.setClock_start, hbar', if_pos hs])) hbecomes
      ((Posts.of_links (Posts.refl (s.setClock now)) rfl rfl).trans hposts)
    refine ⟨t, hexec, ?_, htp⟩
    rw [secTicks, Nat.mul_comm] at htb
    exact htb
  case called =>
    rintro now departed rest r u s hh hd hdue hbar hr hs hu
    have hevent := (departure_of_debounce (s := s.setClock now) hd).trans (if_pos hdue)
    rw [takeDeparture_eq] at hevent
    have hbar' : ((s.setClock now).setStart { s.start with barDebounce := rest }).round.records.find?
        (fun x => x.state.atBar) = some r := hbar
    have hdistinct : (s.round.modify r.jump (fun x => { x with departureTime := some departed })).Distinct := by
      rw [Round.Distinct, Round.records_modify, List.map_map]
      refine (congrArg List.Nodup (List.map_congr_left fun x _ => ?_)).mpr hr.2
      simp only [Function.comp_apply]
      split <;> rfl
    obtain ⟨rs, hby, hbecomes, hposts⟩ := State.voidRecord_lit
      (s := (u.setClock now)) (by rw [hu]; exact hdistinct) { r with departureTime := some departed } .earlyStart false
    have hnotices : voidNotices (u.setClock now) now { r with departureTime := some departed } .earlyStart false =
        [.voided r.jump r.bib .called .earlyStart false, .lamp .red (some r.bib) none] := by
      simp [voidNotices, hs, RecState.stages]
    have hvoid : departureEvent (s.setClock now) =
        (u.setClock now).voidRecord { r with departureTime := some departed } .earlyStart false true := by
      rw [hevent, hu]
      simp only [State.setClock_start, hbar']
      rw [if_neg (by simp [hs])]
      rfl
    obtain ⟨t, hexec, htb, htp⟩ := taken_of_eq (f := departureEvent) hh hvoid hbecomes
      ((Posts.of_links (Posts.refl (s.setClock now)) (by rw [hu]; rfl) (by rw [hu]; rfl)).trans hposts)
    refine ⟨t, _, rs, hexec, rfl, hby, htb, ?_⟩
    rw [← hnotices]
    exact htp
  case stray =>
    have hevent := (departure_of_debounce (s := s.setClock now) hd).trans (if_pos hdue)
    have hbar : ((s.setClock now).setStart { s.start with barDebounce := rest }).round.records.find?
        (fun x => x.state.atBar) = none := Round.inState_eq_none (rd := s.round) hnone
    rw [takeDeparture_eq] at hevent
    exact taken_of_eq (f := departureEvent) hh (hevent.trans (by simp only [State.setClock_start, hbar]))
      (((Becomes.refl (s.setClock now)).setStart _).post _)
      ((Posts.of_links (Posts.refl (s.setClock now)) rfl rfl).post _)
  case idle =>
    refine taken_idle hh ?_
    rcases hn with hd | ⟨hd, hearly⟩
    · simp only [departureEvent, completed, State.setClock_start, hd]
    · exact (departure_of_debounce (s := s.setClock now) hd).trans (if_neg (by simpa using hearly))

end Sys2Proof.Machine
end

