-- ==== Sys2Proof/Proofs/Confirmation.lean ====
section
/-! CONF: the results written, and the publications that follow them (section 7.2). -/

namespace Sys2Proof.Machine

/-- The record of a number after the publication of the records. -/
theorem Round.find_published (rd : Round) (rs : List Record) (j : Nat) :
    (rd.published rs).find j = (rd.find j).map (fun x =>
      if x ∈ rs then
        { x with
          state := .published
          context := if rd.bindA = some x.jump ∨ rd.bindB = some x.jump then none else x.context }
      else x) := by
  have hjump : ((fun x : Record => x.jump == j) ∘ fun x => if x ∈ rs then
      { x with
        state := .published
        context := if rd.bindA = some x.jump ∨ rd.bindB = some x.jump then none else x.context }
      else x) = fun x => x.jump == j := by
    funext x
    simp only [Function.comp_apply]
    split <;> rfl
  rw [Round.find, Round.records_published, List.find?_map, hjump]
  rfl

/-- A changed record that keeps its number waits on the same records. -/
theorem Round.mem_modify_const_of_lt {rd : Round} {r new y : Record} (hj : new.jump = r.jump) (hlt : y.jump < r.jump) :
    y ∈ (rd.modify r.jump (fun _ => new)).records ↔ y ∈ rd.records := by
  rw [Round.records_modify, List.mem_map]
  constructor
  · rintro ⟨x, hx, rfl⟩
    split at hlt
    · exact absurd hlt (by rw [hj]; exact Nat.lt_irrefl _)
    · next hne => rwa [if_neg hne]
  · exact fun hy => ⟨y, hy, if_neg hlt.ne⟩

theorem Round.modify_const_distinct {rd : Round} (h : rd.Distinct) {j : Nat} {new : Record} (hj : new.jump = j) :
    (rd.modify j (fun _ => new)).Distinct := by
  rw [Round.Distinct, Round.records_modify, List.map_map]
  refine (congrArg List.Nodup (List.map_congr_left fun x _ => ?_)).mpr h
  simp only [Function.comp_apply]
  split
  · next hx => exact hj.trans hx.symm
  · rfl

theorem Round.find_modify_const {s : State} {r new : Record} (h : s.only r.jump r) (hj : new.jump = r.jump) :
    (s.round.modify r.jump (fun _ => new)).find r.jump = some new := by
  have hmodify : s.round.modify r.jump (fun _ => new) =
      s.round.modify r.jump (fun x => { new with jump := x.jump }) :=
    Round.modify_congr fun x _ hx => by rw [hx, ← hj]
  have hfind : s.round.find r.jump = some r := h.1
  have hself := Round.find_modify_self s.round r.jump (fun x => { new with jump := x.jump }) fun _ => rfl
  rw [hmodify, hself, hfind, Option.map_some, ← hj]

/-! CONF -/

/-- The distance a CONF asks for: its own, else the proposed one (R127). -/
theorem serveConf_of_distance {s : State} {j d : Nat} {distance : Option Nat} {r : Record} (hr : s.record j = some r)
    (hs : r.state = .awaiting ∨ r.state = .review ∨ r.state = .confirmed)
    (hd : (distance = some d ∧ d ≤ 600) ∨ (distance = none ∧ r.proposed = some d)) :
    serveConf s j distance = confWork s r d := by
  have hconf : r.state.confirmable = true := by rcases hs with hs | hs | hs <;> rw [hs] <;> rfl
  rcases hd with ⟨rfl, hd⟩ | ⟨rfl, hd⟩
  · simp only [serveConf, hr, if_pos hconf, if_pos hd]
  · simp only [serveConf, hr, if_pos hconf, hd]

/-- CONF writes the record, then the publication check runs; the reply shows the record as it then stands (R128). -/
theorem confWork_spec {s u : State} {r new : Record} {d : Nat} (hr : s.only r.jump r)
    (hnew : new = { withResults s.scoring d r with state := .confirmed })
    (hu : u = { s with round := s.round.modify r.jump (fun _ => new) }) :
    ∃ w rs, confWork s r d = accept w
        (confBody (some { new with state := if new ∈ rs then .published else .confirmed })) ∧
      PublishedBy u.round rs ∧ Becomes w (publishState u rs) ∧ Posts s w (publishNotices rs) ∧
      (new ∈ rs ↔ ∀ y ∈ s.round.records, y.jump < r.jump → y.state.terminal = true ∨ y ∈ rs) := by
  have hjump : new.jump = r.jump := by rw [hnew]; rfl
  have hconfirmed : new.state = .confirmed := by rw [hnew]
  have hround : (s.modifyRecord r.jump
      (fun x => { withResults s.scoring d x with state := .confirmed })).round = u.round := by
    rw [hu, hnew]
    exact Round.modify_of_only hr _
  have hmarked : (markChanged s (s.modifyRecord r.jump
      (fun x => { withResults s.scoring d x with state := .confirmed }))).round = u.round := hround
  have hb : Becomes (markChanged s (s.modifyRecord r.jump
      (fun x => { withResults s.scoring d x with state := .confirmed }))) u := by
    have := ((Becomes.refl s).modifyRecord r.jump
      (fun x => { withResults s.scoring d x with state := .confirmed })).markChanged s |>.congr_round hround
    rw [hu] at this ⊢
    exact this
  have hdistinct : u.round.Distinct := by
    rw [hu]
    exact Round.modify_const_distinct hr.2 hjump
  obtain ⟨rs, hby, hbecomes, hposts, _⟩ := publicationRunsInJumpOrder _ (hmarked ▸ hdistinct)
  rw [hmarked] at hby
  have hpublished := hbecomes.trans (hb.publishState rs)
  have hfind : u.round.find r.jump = some new := by
    rw [hu]
    exact Round.find_modify_const hr hjump
  have hbody : confBody ((publishState u rs).round.find r.jump) =
      confBody (some { new with state := if new ∈ rs then .published else .confirmed }) := by
    have hrecord := Round.find_published u.round rs r.jump
    rw [hfind, Option.map_some] at hrecord
    refine (congrArg confBody hrecord).trans ?_
    split
    · rfl
    · rw [← hconfirmed]
  refine ⟨_, rs, ?_, hby, hpublished, ?_, ?_⟩
  · rw [← hbody, ← hpublished.round]
    rfl
  · exact (Posts.of_links (Posts.refl s) (by cases s; rfl) (by cases s; rfl)).trans hposts
  · have hin : new ∈ u.round.records := List.mem_of_find?_eq_some hfind
    rw [hby.2.2 new hin hconfirmed, hu, hjump]
    refine forall_congr' fun y => ⟨fun h hy hlt => ?_, fun h hy hlt => ?_⟩
    · exact h ((Round.mem_modify_const_of_lt hjump hlt).mpr hy) hlt
    · exact h ((Round.mem_modify_const_of_lt hjump hlt).mp hy) hlt

/-- Settles O52: the accepted CONF in its three source states, and each check that fails. -/
theorem confConfirmsARecord : Obligations.ConfConfirmsARecord := by
  refine ⟨fun now l tag distance d r new res u s h hr hs hd hres hnew hu => ?confirmed,
    fun now l tag j distance absent s h habsent => ?refused⟩
  case confirmed =>
    have hwritten : new = { withResults (s.setClock now).scoring d r with state := .confirmed } := by
      rw [hnew, hres, withResults_eq]
      rfl
    obtain ⟨w, rs, hwork, hby, hbecomes, hposts, hin⟩ := confWork_spec (s := s.setClock now) (u := u) hr hwritten hu
    obtain ⟨t, hexec, htb, hta⟩ := takenRequest_accept h tag (r := .conf r.jump distance) (by cases l <;> rfl)
      ((serveConf_of_distance (s := s.setClock now) (State.record_of_only hr) hs hd).trans hwork) hbecomes hposts
    have hbody : confBody (some { new with state := if new ∈ rs then .published else .confirmed }) =
        [.u16 (some r.jump), .u8 (some (if new ∈ rs then 8 else 7)), .u16 (some d), .s16 res.jumpWind,
          .u16 res.distPoints, .s16 res.gateComp, .s16 res.windComp, .u16 res.total, .u16 (some new.flags.code)] := by
      rw [hnew]
      split <;> rfl
    rw [hbody] at hta
    exact ⟨t, rs, hexec, hby, htb, hin, hta⟩
  case refused =>
    have hrefuse {code : ResultCode} (hs : serveConf (s.setClock now) j distance =
        refuse (s.setClock now) code (confBody none)) :
        exec (.conf now l tag j distance) s = s.answering now l 0x97#8 tag code absent :=
      habsent ▸ takenRequest_refuse h tag (r := .conf j distance) (by cases l <;> rfl) (fun _ => rfl) hs
    refine ⟨fun hnone => hrefuse ?_, fun r hr ha hv hc => hrefuse ?_, fun r hr hs =>
      ⟨fun d hd hout => hrefuse ?_, fun hd hp => hrefuse ?_⟩⟩
    · simp only [serveConf, State.record_eq_none (s := s.setClock now) hnone]
    all_goals simp only [serveConf, State.record_of_only (s := s.setClock now) hr]
    · have hconf : r.state.confirmable = false := by
        cases hst : r.state <;> simp_all [RecState.confirmable]
      rw [hconf, if_neg Bool.false_ne_true]
    all_goals
      have hconf : r.state.confirmable = true := by rcases hs with hs | hs | hs <;> rw [hs] <;> rfl
      rw [if_pos hconf, hd]
    · exact if_neg hout.not_ge
    · simp only [hp]

end Sys2Proof.Machine
end

