-- ==== Sys2Proof/Proofs/Closing.lean ====
section
/-! SHUT: the records it ends one after another in jump-number order, and the round it leaves (R4). -/

namespace Sys2Proof.Machine

/-! What SHUT leaves -/

/-- A record as SHUT ends it, among the records it ends (R4, R21). -/
def closedRecord (s : State) (done : List Record) (x : Record) : Record :=
  { x with
    state := if x.state = .confirmed then .published else .voided
    voidReason := if x.state = .confirmed then x.voidReason else some .roundClosed
    context := if s.round.bindA = some x.jump ∨ s.round.bindB = some x.jump then none else x.context
    remaining := if x.state = .released then
        (if ∃ y ∈ done, y.state = .released ∧ y.jump < x.jump then none else s.start.countdown.msLeft s.clock)
      else x.remaining }

/-- The round with the records ended: their contexts are freed as a publication frees them (R4, R16). -/
def shutRound (s : State) (done : List Record) : Round :=
  { s.round.published done with
    table := s.round.table.map (Option.map (fun x => if x ∈ done then closedRecord s done x else x)) }

/-- A gate staged on a RELEASED record among them applied (R60). -/
def shutStart (st : StartLight) (done : List Record) : StartLight :=
  { st with
    countdown := if ∃ r ∈ done, r.state = .released then .idle else st.countdown
    juryGate := match st.staged with
      | some (g, j) => if ∃ r ∈ done, r.state = .released ∧ r.jump = j then g else st.juryGate
      | none => st.juryGate
    staged := match st.staged with
      | some (g, j) => if ∃ r ∈ done, r.state = .released ∧ r.jump = j then none else some (g, j)
      | none => none }

/-- The state with the records ended by SHUT, the lights and the part state as they were (R4). -/
def shutState (s : State) (done : List Record) : State :=
  { s with
    round := shutRound s done, start := shutStart s.start done, wind := s.wind.published s.round done }

/-- The notices of the records SHUT ends, in their order (R4, R21, R22, R60). -/
def shutNotices (st : StartLight) (done : List Record) : List Notice :=
  done.flatMap (fun r =>
    if r.state = .confirmed then publishNotices [r]
    else .voided r.jump r.bib r.state .roundClosed false ::
      (match st.staged with
       | some (g, j) => if r.state = .released ∧ r.jump = j then [.gate g .staged (some j)] else []
       | none => []))

theorem shutStart_nil (st : StartLight) : shutStart st [] = st := by
  obtain ⟨_, _, _, _, _ | ⟨_, _⟩, _, _, _⟩ := st <;> simp [shutStart]

theorem shutState_nil (s : State) : shutState s [] = s := by
  have htable : s.round.table.map (Option.map (fun x =>
      if x ∈ ([] : List Record) then closedRecord s [] x else x)) = s.round.table := by
    simp
  unfold shutState shutRound
  rw [htable, shutStart_nil]
  rfl

theorem Becomes.shutState {t u : State} (h : Becomes t u) (done : List Record) :
    Becomes (shutState t done) (shutState u done) := by
  have hround : shutRound t done = shutRound u done := by
    unfold shutRound closedRecord
    rw [h.round, h.start, h.clock]
  unfold Machine.shutState
  rw [hround, h.start, h.wind, h.round]
  exact ((h.setRound (shutRound u done)).setStart (shutStart u.start done)).setWind (u.wind.published u.round done)

theorem closedRecord_terminal (s : State) (done : List Record) (x : Record) :
    (closedRecord s done x).state.terminal = true := by
  unfold closedRecord
  by_cases hx : x.state = .confirmed <;> simp [hx, RecState.terminal]

theorem shutState_records (s : State) (done : List Record) :
    (shutState s done).round.records = s.round.records.map (fun x => if x ∈ done then closedRecord s done x else x) :=
  Round.records_of_table rfl

theorem mem_shutState_open {s : State} {done : List Record} {x : Record} :
    (x ∈ (shutState s done).round.records ∧ x.state.terminal = false) ↔
      (x ∈ s.round.records ∧ x.state.terminal = false) ∧ x ∉ done := by
  rw [shutState_records, List.mem_map]
  constructor
  · rintro ⟨⟨y, hy, rfl⟩, hopen⟩
    split at hopen
    · simp [closedRecord_terminal] at hopen
    · next hy' => exact if_neg hy' ▸ ⟨⟨hy, hopen⟩, hy'⟩
  · rintro ⟨⟨hx, hopen⟩, hnot⟩
    exact ⟨⟨x, hx, if_neg hnot⟩, hopen⟩

theorem shutState_distinct {s : State} (h : s.round.Distinct) (done : List Record) :
    (shutState s done).round.Distinct := by
  rw [Round.Distinct, shutState_records, List.map_map]
  refine (congrArg List.Nodup (List.map_congr_left fun x _ => ?_)).mpr h
  simp only [Function.comp_apply]
  split <;> rfl

/-! One record after another -/

theorem shutStart_cons (st : StartLight) (r : Record) (done : List Record) :
    shutStart (shutStart st [r]) done = shutStart st (r :: done) := by
  obtain ⟨light, cadence, countdown, juryGate, staged, barOpen, barDebounce, timing⟩ := st
  have hcount : (if ∃ y ∈ done, y.state = .released then Countdown.idle
        else if r.state = .released then .idle else countdown) =
      if r.state = .released ∨ ∃ y ∈ done, y.state = .released then .idle else countdown := by
    by_cases hr : r.state = .released <;> simp [hr]
  cases staged with
  | none =>
    simp only [shutStart, List.exists_mem_cons_iff, List.not_mem_nil, false_and, exists_false, or_false, hcount]
  | some e =>
    obtain ⟨g, j⟩ := e
    by_cases hr : r.state = .released ∧ r.jump = j
    · simp only [shutStart, List.exists_mem_cons_iff, List.not_mem_nil, false_and, exists_false, or_false, true_or,
        if_true, hr.1, true_and, hr.2, ite_self]
    · simp only [shutStart, List.exists_mem_cons_iff, List.not_mem_nil, false_and, exists_false, or_false, hcount,
        hr, if_false, false_or]

section
variable {s : State} {r : Record} {done : List Record} (hlater : ∀ x ∈ done, r.jump < x.jump)
include hlater

theorem closedRecord_cons {x : Record} (hx : x ∈ done) :
    closedRecord (shutState s [r]) done x = closedRecord s (r :: done) x := by
  have hne : x.jump ≠ r.jump := (hlater x hx).ne'
  have hA : (shutState s [r]).round.bindA = some x.jump ↔ s.round.bindA = some x.jump := Round.published_bindA hne
  have hB : (shutState s [r]).round.bindB = some x.jump ↔ s.round.bindB = some x.jump := Round.published_bindB hne
  have hremaining : (if ∃ y ∈ done, y.state = .released ∧ y.jump < x.jump then none
        else (shutState s [r]).start.countdown.msLeft s.clock) =
      if ∃ y ∈ r :: done, y.state = .released ∧ y.jump < x.jump then none else s.start.countdown.msLeft s.clock := by
    simp only [List.exists_mem_cons_iff, hlater x hx, and_true]
    by_cases hr : r.state = .released <;> simp [shutState, shutStart, hr, Countdown.msLeft]
  have hclock : (shutState s [r]).clock = s.clock := rfl
  unfold closedRecord
  rw [hclock, hremaining]
  simp only [hA, hB]

theorem shutRound_cons : shutRound (shutState s [r]) done = shutRound s (r :: done) := by
  have htable : (shutRound (shutState s [r]) done).table = (shutRound s (r :: done)).table := by
    have hmap : (shutRound (shutState s [r]) done).table =
        (s.round.table.map (Option.map (fun x => if x ∈ [r] then closedRecord s [r] x else x))).map
          (Option.map (fun x => if x ∈ done then closedRecord (shutState s [r]) done x else x)) := rfl
    rw [hmap, List.map_map]
    refine List.map_congr_left fun e _ => ?_
    cases e with
    | none => rfl
    | some x =>
      simp only [Function.comp_apply, Option.map_some, Option.some.injEq, List.mem_cons, List.not_mem_nil, or_false]
      by_cases hxr : x = r
      · subst hxr
        have hout : closedRecord s [x] x ∉ done := fun hin => Nat.lt_irrefl x.jump (hlater (closedRecord s [x] x) hin)
        have hone : closedRecord s [x] x = closedRecord s (x :: done) x := by
          unfold closedRecord
          have hnone : ¬∃ y ∈ done, y.state = .released ∧ y.jump < x.jump :=
            fun ⟨y, hy, _, hlt⟩ => Nat.lt_asymm hlt (hlater y hy)
          simp [hnone]
        rw [if_pos rfl, if_neg hout, if_pos (Or.inl rfl), hone]
      · by_cases hin : x ∈ done
        · rw [if_neg hxr, if_pos hin, if_pos (Or.inr hin), closedRecord_cons hlater hin]
        · rw [if_neg hxr, if_neg hin, if_neg (by simp [hxr, hin])]
  have hbind (c : Ctx) (o : Option Nat) :
      (if (shutRound s [r]).bindsOneOf done c then none else if s.round.bindsOneOf [r] c then none else o) =
        if s.round.bindsOneOf (r :: done) c then none else o := by
    have hsame : (shutRound s [r]).bindsOneOf done c = (s.round.published [r]).bindsOneOf done c := by cases c <;> rfl
    rw [Round.bindsOneOf_cons (fun x hx => (hlater x hx).ne'), hsame]
    cases s.round.bindsOneOf [r] c <;> cases (s.round.published [r]).bindsOneOf done c <;> rfl
  have hA : (shutRound (shutState s [r]) done).bindA = (shutRound s (r :: done)).bindA := hbind .a s.round.bindA
  have hB : (shutRound (shutState s [r]) done).bindB = (shutRound s (r :: done)).bindB := hbind .b s.round.bindB
  have hall : shutRound (shutState s [r]) done = { shutRound s (r :: done) with
      table := (shutRound (shutState s [r]) done).table, bindA := (shutRound (shutState s [r]) done).bindA
      bindB := (shutRound (shutState s [r]) done).bindB } := rfl
  rw [hall, htable, hA, hB]

theorem shutWind_cons :
    (s.wind.published s.round [r]).published (shutRound s [r]) done = s.wind.published s.round (r :: done) := by
  have hsame : (s.wind.published s.round [r]).published (shutRound s [r]) done =
      (s.wind.published s.round [r]).published (s.round.published [r]) done := rfl
  rw [hsame]
  exact WindRx.published_cons (fun x hx => (hlater x hx).ne') s.wind

theorem shutState_cons : shutState (shutState s [r]) done = shutState s (r :: done) := by
  have h : shutState (shutState s [r]) done = { s with
      round := shutRound (shutState s [r]) done, start := shutStart (shutStart s.start [r]) done
      wind := (s.wind.published s.round [r]).published (shutRound s [r]) done } := rfl
  rw [h, shutRound_cons hlater, shutStart_cons, shutWind_cons hlater]
  rfl

end

theorem shutState_append {s : State} {xs ys : List Record} (h : (xs ++ ys).Pairwise (fun x y => x.jump < y.jump)) :
    shutState (shutState s xs) ys = shutState s (xs ++ ys) := by
  induction xs generalizing s with
  | nil =>
    rw [shutState_nil]
    rfl
  | cons r xs ih =>
    rw [List.cons_append] at h
    obtain ⟨hlater, htail⟩ := List.pairwise_cons.mp h
    rw [← shutState_cons fun x hx => hlater x (List.mem_append_left _ hx), ih htail, shutState_cons hlater]
    rfl

/-! The records SHUT voids, and those it lets be published -/

/-- A CONFIRMED record ended is a published one (R21). -/
theorem shutState_of_confirmed {s : State} {rs : List Record} (h : ∀ r ∈ rs, r.state = .confirmed) :
    shutState s rs = publishState s rs := by
  have hnot (j : Nat) : ¬∃ r ∈ rs, r.state = .released ∧ r.jump = j := fun ⟨r, hr, hs, _⟩ => by simp [h r hr] at hs
  have hnone : ¬∃ r ∈ rs, r.state = .released := fun ⟨r, hr, hs⟩ => by simp [h r hr] at hs
  have hstart : shutStart s.start rs = s.start := by
    obtain ⟨light, cadence, countdown, juryGate, _ | ⟨g, j⟩, barOpen, barDebounce, timing⟩ := s.start <;>
      simp only [shutStart, hnone, hnot, if_false]
  have htable : (shutRound s rs).table = (s.round.published rs).table := by
    refine List.map_congr_left fun e _ => ?_
    cases e with
    | none => rfl
    | some x =>
      simp only [Option.map_some, Option.some.injEq]
      by_cases hx : x ∈ rs
      · simp [hx, closedRecord, h x hx]
      · rw [if_neg hx, if_neg hx]
  have hround : shutRound s rs = { s.round.published rs with table := (shutRound s rs).table } := rfl
  have hstate : shutState s rs = { s with
      round := shutRound s rs, start := shutStart s.start rs, wind := s.wind.published s.round rs } := rfl
  rw [hstate, hround, htable, hstart]
  rfl

/-- A record SHUT voids is voided for ROUND_CLOSED, the light left as it is (R4, R20). -/
theorem shutState_of_voided {s : State} (hd : s.round.Distinct) {r : Record} (hr : r ∈ s.round.records)
    (hs : r.state.shutVoids = true) : shutState s [r] = voidStateBy false s r .roundClosed := by
  have hconf : r.state ≠ .confirmed := fun h => by simp [h, RecState.shutVoids] at hs
  have hhill : r.state.onHill = false := by
    cases hst : r.state <;> simp_all [RecState.shutVoids, RecState.onHill]
  have htable : (shutRound s [r]).table = (voidRound s s.clock r .roundClosed false).table := by
    refine Round.table_congr (rd := s.round) fun x hx => ?_
    by_cases hxr : x = r
    · subst hxr
      simp [closedRecord, hconf]
    · have hj : x.jump ≠ r.jump := fun hj => hxr (Round.eq_of_jump hd hx hr hj)
      simp [hxr, hj]
  have hA : s.round.bindsOneOf [r] .a = decide (s.round.bindA = some r.jump) := by
    by_cases ha : s.round.bindA = some r.jump <;> simp [Round.bindsOneOf, ha]
  have hB : s.round.bindsOneOf [r] .b = decide (s.round.bindA ≠ some r.jump ∧ s.round.bindB = some r.jump) := by
    by_cases ha : s.round.bindA = some r.jump <;> by_cases hb : s.round.bindB = some r.jump <;>
      simp [Round.bindsOneOf, ha, hb]
  have hround : shutRound s [r] = voidRound s s.clock r .roundClosed false := by
    have hall : shutRound s [r] = { s.round with
      table := (shutRound s [r]).table
      bindA := if s.round.bindsOneOf [r] .a then none else s.round.bindA
      bindB := if s.round.bindsOneOf [r] .b then none else s.round.bindB } := rfl
    rw [hall, htable, hA, hB]
    simp only [decide_eq_true_eq, voidRound, hhill, Bool.false_eq_true, if_false]
  have hwind : s.wind.published s.round [r] = voidWind s r := by
    unfold WindRx.published voidWind
    rw [hA, hB]
    by_cases ha : s.round.bindA = some r.jump <;> by_cases hb : s.round.bindB = some r.jump <;>
      simp [ha, hb, freedContext, Context.empty]
  have hflight : voidFlight s.flight r = s.flight := by
    cases hst : r.state <;> simp_all [RecState.shutVoids, voidFlight]
  have hstart : shutStart s.start [r] = voidStartBy false s.start r := by
    obtain ⟨light, cadence, countdown, juryGate, _ | ⟨g, j⟩, barOpen, barDebounce, timing⟩ := s.start
    · simp [shutStart, voidStartBy, voidStart, StartLight.stagedFor]
    · by_cases hj : j = r.jump
      · cases hst : r.state <;>
          simp_all [shutStart, voidStartBy, voidStart, StartLight.stagedFor, RecState.shutVoids, RecState.stages]
      · simp [shutStart, voidStartBy, voidStart, StartLight.stagedFor, hj, Ne.symm hj]
  have hstate : shutState s [r] = { s with
      round := shutRound s [r], start := shutStart s.start [r], wind := s.wind.published s.round [r] } := rfl
  rw [hstate, hround, hwind, hstart, voidStateBy, hflight]

/-! The records in their order -/

theorem shutNotices_of_confirmed {st : StartLight} {rs : List Record} (h : ∀ r ∈ rs, r.state = .confirmed) :
    shutNotices st rs = publishNotices rs := by
  induction rs with
  | nil => rfl
  | cons r rs ih =>
    obtain ⟨hr, hrs⟩ := List.forall_mem_cons.mp h
    rw [shutNotices, List.flatMap_cons, if_pos hr]
    exact congrArg (publishNotices [r] ++ ·) (ih hrs)

theorem stagedNotices_of_voided (st : StartLight) {r : Record} (hs : r.state.shutVoids = true) :
    stagedNotices st r = match st.staged with
      | some (g, j) => if r.state = .released ∧ r.jump = j then [.gate g .staged (some j)] else []
      | none => [] := by
  unfold stagedNotices StartLight.stagedFor
  cases st.staged with
  | none => simp
  | some e =>
    obtain ⟨g, j⟩ := e
    by_cases hj : j = r.jump
    · cases hst : r.state <;> simp_all [RecState.shutVoids, RecState.stages]
    · simp [hj, Ne.symm hj]

/-- A gate staged on a record already ended waits on none of the later ones (R12). -/
theorem shutNotices_later {st : StartLight} {xs ys : List Record} (h : ∀ x ∈ xs, ∀ y ∈ ys, x.jump < y.jump) :
    shutNotices (shutStart st xs) ys = shutNotices st ys := by
  refine List.flatMap_congr fun y hy => ?_
  split
  · rfl
  · cases hst : st.staged with
    | none => simp only [shutStart, hst]
    | some e =>
      obtain ⟨g, j⟩ := e
      by_cases hj : ∃ x ∈ xs, x.state = .released ∧ x.jump = j
      · obtain ⟨x, hx, hxs, hxj⟩ := hj
        have hne : ¬(y.state = .released ∧ y.jump = j) := fun ⟨_, hyj⟩ => (h x hx y hy).ne (hxj.trans hyj.symm)
        simp only [shutStart, hst, if_neg hne, if_pos (⟨x, hx, hxs, hxj⟩ : ∃ x ∈ xs, x.state = .released ∧ x.jump = j)]
      · simp only [shutStart, hst, if_neg hj]

/-- A record that is not terminal is one SHUT voids, or waits for its publication, or is on the hill. -/
theorem RecState.shutVoids_or_confirmed {x : RecState} (h : x.terminal = false) (hhill : x.onHill = false) :
    x.shutVoids = true ∨ x = .confirmed := by
  cases x <;> simp_all [RecState.terminal, RecState.onHill, RecState.shutVoids]

theorem shutTake_voids {s : State} {j : Nat} {r : Record} (hr : s.record j = some r) (hs : r.state.shutVoids = true) :
    shutTake s j = s.voidRecord r .roundClosed false false := by
  simp only [shutTake, hr, if_pos hs]

/-- Nothing that waits behind the lowest open record of the table is published before it is ended (R21). -/
theorem shutTake_of_lowest {s : State} {j : Nat} (hd : s.round.Distinct) (hnone : s.round.publishable = none)
    (hhill : ∀ x ∈ s.round.records, x.state.onHill = false)
    (hlow : ∀ x ∈ s.round.records, x.state.terminal = false → j ≤ x.jump) :
    shutTake s j = s ∧ (∀ x ∈ s.round.records, x.state.terminal = false → x.jump ≠ j) ∨
      ∃ r ∈ s.round.records, r.jump = j ∧ r.state.shutVoids = true ∧
        shutTake s j = s.voidRecord r .roundClosed false false := by
  cases hrec : s.record j with
  | none => exact Or.inl ⟨by simp only [shutTake, hrec], fun x hx _ => by simpa using List.find?_eq_none.mp hrec x hx⟩
  | some r =>
    have hr : r ∈ s.round.records := List.mem_of_find?_eq_some hrec
    have hj : r.jump = j := by simpa using List.find?_some hrec
    cases hterm : r.state.terminal with
    | true =>
      refine Or.inl ⟨?_, fun x hx hopen hxj => ?_⟩
      · have hnot : r.state.shutVoids = false := by cases hst : r.state <;> simp_all [RecState.terminal, RecState.shutVoids]
        simp only [shutTake, hrec, hnot, Bool.false_eq_true, if_false]
      · rw [Round.eq_of_jump hd hx hr (hxj.trans hj.symm), hterm] at hopen
        cases hopen
    | false =>
      rcases RecState.shutVoids_or_confirmed hterm (hhill r hr) with hs | hs
      · exact Or.inr ⟨r, hr, hj, hs, shutTake_voids hrec hs⟩
      · obtain ⟨y, hy, hlt, hopen⟩ := Round.publishable_eq_none hnone hr hs
        exact absurd (hlow y hy hopen) (by omega)

/-- The records a void lets be published lie below every other open record (R21). -/
theorem PublishedBy.lt_of_open {rd : Round} {rs : List Record} (h : PublishedBy rd rs) (hd : rd.Distinct) {x y : Record}
    (hx : x ∈ rs) (hy : y ∈ rd.records) (hopen : y.state.terminal = false) (hnot : y ∉ rs) : x.jump < y.jump := by
  obtain ⟨_, hmem, hiff⟩ := h
  obtain ⟨hxr, hconf⟩ := hmem x hx
  have hle : x.jump ≤ y.jump := Nat.le_of_not_lt fun hlt => by
    rcases (hiff x hxr hconf).mp hx y hy hlt with hterm | hin
    · simp [hopen] at hterm
    · exact hnot hin
  exact hle.lt_of_ne fun hj => hnot (Round.eq_of_jump hd hxr hy hj ▸ hx)

/-- SHUT takes the records by their numbers and ends all that are open, in that order (R4, R21). -/
theorem shutFold_spec (js : List Nat) {s : State} (hd : s.round.Distinct) (hnone : s.round.publishable = none)
    (hhill : ∀ x ∈ s.round.records, x.state.onHill = false) (hjs : js.Pairwise (· < ·))
    (hall : ∀ x ∈ s.round.records, x.state.terminal = false → x.jump ∈ js) :
    ∃ done, done.Pairwise (fun x y => x.jump < y.jump) ∧
      (∀ x, x ∈ done ↔ x ∈ s.round.records ∧ x.state.terminal = false) ∧
      Becomes (js.foldl shutTake s) (shutState s done) ∧ Posts s (js.foldl shutTake s) (shutNotices s.start done) := by
  induction js generalizing s with
  | nil =>
    refine ⟨[], List.Pairwise.nil, fun x => ⟨fun hx => absurd hx List.not_mem_nil, fun ⟨hx, hopen⟩ => ?_⟩, ?_, Posts.refl s⟩
    · exact absurd (hall x hx hopen) List.not_mem_nil
    · rw [shutState_nil]
      exact Becomes.refl s
  | cons j js ih =>
    obtain ⟨hlater, hrest⟩ := List.pairwise_cons.mp hjs
    have hlow : ∀ x ∈ s.round.records, x.state.terminal = false → j ≤ x.jump := fun x hx hopen =>
      (List.mem_cons.mp (hall x hx hopen)).elim (fun h => h ▸ le_rfl) fun h => (hlater _ h).le
    rw [List.foldl_cons]
    rcases shutTake_of_lowest hd hnone hhill hlow with ⟨htake, hother⟩ | ⟨r, hr, rfl, hs, htake⟩
    · rw [htake]
      exact ih hd hnone hhill hrest fun x hx hopen =>
        (List.mem_cons.mp (hall x hx hopen)).resolve_left (hother x hx hopen)
    · obtain ⟨rs, hby, hbecomes, hposts, hnone'⟩ := State.voidRecord_spec hd r .roundClosed false false
      rw [← htake] at hbecomes hposts hnone'
      have hone := shutState_of_voided hd hr hs
      rw [← hone] at hby hbecomes
      have hdone : (shutState s [r]).round.Distinct := shutState_distinct hd [r]
      have hconf : ∀ x ∈ rs, x.state = .confirmed := fun x hx => (hby.2.1 x hx).2
      have hopen : r.state.terminal = false := by cases hst : r.state <;> simp_all [RecState.shutVoids, RecState.terminal]
      have hof : ∀ x ∈ rs, (x ∈ s.round.records ∧ x.state.terminal = false) ∧ x ∉ [r] := fun x hx =>
        mem_shutState_open.mp ⟨(hby.2.1 x hx).1, by rw [hconf x hx]; rfl⟩
      have habove : ∀ x ∈ s.round.records, x.state.terminal = false → x ≠ r → r.jump < x.jump := fun x hx hx' hne =>
        (hlow x hx hx').lt_of_ne fun hj => hne (Round.eq_of_jump hd hx hr hj.symm)
      have hpair : (r :: rs).Pairwise (fun x y => x.jump < y.jump) := List.pairwise_cons.mpr
        ⟨fun x hx => habove x (hof x hx).1.1 (hof x hx).1.2 fun he => (hof x hx).2 (List.mem_singleton.mpr he), hby.1⟩
      rw [← shutState_of_confirmed hconf, shutState_cons (List.pairwise_cons.mp hpair).1] at hbecomes
      have hround : (shutTake s r.jump).round = (shutState s (r :: rs)).round := hbecomes.round
      obtain ⟨rest, hrestPair, hrestMem, hrestBecomes, hrestPosts⟩ := ih (s := shutTake s r.jump)
        (by rw [hround]; exact shutState_distinct hd _) hnone'
        (fun x hx => by
          rw [hround] at hx
          cases hterm : x.state.terminal with
          | true => cases hst : x.state <;> simp_all [RecState.terminal, RecState.onHill]
          | false => exact hhill x (mem_shutState_open.mp ⟨hx, hterm⟩).1.1)
        hrest
        (fun x hx hx' => by
          rw [hround] at hx
          obtain ⟨⟨hxs, hxo⟩, hxn⟩ := mem_shutState_open.mp ⟨hx, hx'⟩
          refine (List.mem_cons.mp (hall x hxs hxo)).resolve_left fun hj => hxn ?_
          exact Round.eq_of_jump hd hxs hr hj ▸ List.mem_cons_self)
      have hrestOpen (x : Record) : x ∈ rest ↔ (x ∈ s.round.records ∧ x.state.terminal = false) ∧ x ∉ r :: rs := by
        rw [hrestMem, hround, mem_shutState_open]
      have hbelow : ∀ x ∈ r :: rs, ∀ y ∈ rest, x.jump < y.jump := fun x hx y hy => by
        obtain ⟨⟨hys, hyo⟩, hyn⟩ := (hrestOpen y).mp hy
        obtain ⟨hyr, hyrs⟩ := not_or.mp (List.mem_cons.not.mp hyn)
        rcases List.mem_cons.mp hx with rfl | hx
        · exact habove y hys hyo hyr
        · obtain ⟨hy1, hy2⟩ := mem_shutState_open.mpr ⟨⟨hys, hyo⟩, List.mem_singleton.not.mpr hyr⟩
          exact hby.lt_of_open hdone hx hy1 hy2 hyrs
      have hsorted : ((r :: rs) ++ rest).Pairwise (fun x y => x.jump < y.jump) :=
        List.pairwise_append.mpr ⟨hpair, hrestPair, hbelow⟩
      refine ⟨(r :: rs) ++ rest, hsorted, fun x => ?_, ?_, ?_⟩
      · rw [List.mem_append, hrestOpen]
        constructor
        · rintro (hx | ⟨hx, _⟩)
          · rcases List.mem_cons.mp hx with rfl | hx
            · exact ⟨hr, hopen⟩
            · exact (hof x hx).1
          · exact hx
        · exact fun hx => (em (x ∈ r :: rs)).imp_right fun hn => ⟨hx, hn⟩
      · rw [← shutState_append hsorted]
        exact hrestBecomes.trans (hbecomes.shutState rest)
      · have hall := hposts.trans hrestPosts
        have hstart : (shutTake s r.jump).start = shutStart s.start (r :: rs) := hbecomes.start
        rw [hstart, shutNotices_later hbelow] at hall
        have hnotices : shutNotices s.start ((r :: rs) ++ rest) =
            ([.voided r.jump r.bib r.state .roundClosed false] ++ [] ++ stagedNotices s.start r ++ publishNotices rs) ++
              shutNotices s.start rest := by
          have hrconf : r.state ≠ .confirmed := fun h => by simp [h, RecState.shutVoids] at hs
          rw [shutNotices, List.flatMap_append, List.flatMap_cons, if_neg hrconf, ← stagedNotices_of_voided s.start hs]
          refine congrArg (fun ns => (.voided r.jump r.bib r.state .roundClosed false :: stagedNotices s.start r) ++ ns ++
            shutNotices s.start rest) ?_
          exact shutNotices_of_confirmed hconf
        rw [hnotices]
        exact hall

/-- The open records in their order. -/
theorem eq_sortByJump_open {s : State} (hd : s.round.Distinct) {done : List Record}
    (hsorted : done.Pairwise (fun x y => x.jump < y.jump))
    (hmem : ∀ x, x ∈ done ↔ x ∈ s.round.records ∧ x.state.terminal = false) :
    done = sortByJump (s.round.records.filter (fun r => !r.state.terminal)) := by
  have hin (x : Record) : x ∈ sortByJump (s.round.records.filter (fun r => !r.state.terminal)) ↔
      x ∈ s.round.records ∧ x.state.terminal = false := by
    rw [mem_sortByJump, List.mem_filter, Bool.not_eq_true']
  have hnodup : (sortByJump (s.round.records.filter (fun r => !r.state.terminal))).Nodup :=
    (sortByJump_perm _).nodup_iff.mpr (hd.of_map.filter _)
  have hdone : done.Nodup := hsorted.imp fun {x y} hlt (he : x = y) => hlt.ne (congrArg (fun r => r.jump) he)
  have hperm : done.Perm (sortByJump (s.round.records.filter (fun r => !r.state.terminal))) :=
    (List.perm_ext_iff_of_nodup hdone hnodup).mpr fun x => by
      rw [hmem, hin]
  refine hperm.eq_of_pairwise (le := fun x y => x.jump ≤ y.jump) (fun x y hx hy h1 h2 => ?_) (hsorted.imp Nat.le_of_lt)
    (sortByJump_sorted _)
  exact Round.eq_of_jump hd ((hmem x).mp hx).1 ((hin y).mp hy).1 (Nat.le_antisymm h1 h2)

theorem Round.bindsOneOf_sortByJump (rd : Round) (rs : List Record) (c : Ctx) :
    rd.bindsOneOf (sortByJump rs) c = rd.bindsOneOf rs c := by
  cases c <;> exact (sortByJump_perm rs).any_eq

/-- The table with every open record ended, by what each was (R4). -/
theorem shutRound_table {s : State} {done : List Record}
    (hmem : ∀ x, x ∈ done ↔ x ∈ s.round.records ∧ x.state.terminal = false) :
    (shutRound s done).table = s.round.table.map (Option.map (fun x =>
      if x.state.terminal then x
      else
        { x with
          state := if x.state = .confirmed then .published else .voided
          voidReason := if x.state = .confirmed then x.voidReason else some .roundClosed
          context := if s.round.bindA = some x.jump ∨ s.round.bindB = some x.jump then none else x.context
          remaining := if x.state = .released then
              (if ∃ y ∈ s.round.records, y.state = .released ∧ y.jump < x.jump then none
               else s.start.countdown.msLeft s.clock)
            else x.remaining })) := by
  refine Round.table_congr (rd := s.round) fun x hx => ?_
  cases hterm : x.state.terminal with
  | true => rw [if_neg fun h => by simp [((hmem x).mp h).2] at hterm, if_pos rfl]
  | false =>
    have hreleased : (∃ y ∈ done, y.state = .released ∧ y.jump < x.jump) ↔
        ∃ y ∈ s.round.records, y.state = .released ∧ y.jump < x.jump :=
      exists_congr fun y => ⟨fun ⟨hy, h⟩ => ⟨((hmem y).mp hy).1, h⟩,
        fun ⟨hy, h⟩ => ⟨(hmem y).mpr ⟨hy, by rw [h.1]; rfl⟩, h⟩⟩
    rw [if_pos ((hmem x).mpr ⟨hx, hterm⟩), if_neg Bool.false_ne_true]
    simp only [closedRecord, hreleased]

/-- The gates and the countdown after every open record was ended (R20, R60). -/
theorem shutStart_of_open {s : State} {done : List Record}
    (hmem : ∀ x, x ∈ done ↔ x ∈ s.round.records ∧ x.state.terminal = false) (st : StartLight) :
    shutStart st done = shutStart st s.round.records := by
  have hreleased (p : Record → Prop) : (∃ y ∈ done, y.state = .released ∧ p y) ↔
      ∃ y ∈ s.round.records, y.state = .released ∧ p y :=
    exists_congr fun y => ⟨fun ⟨hy, h⟩ => ⟨((hmem y).mp hy).1, h⟩, fun ⟨hy, h⟩ => ⟨(hmem y).mpr ⟨hy, by rw [h.1]; rfl⟩, h⟩⟩
  have hany : (∃ y ∈ done, y.state = .released) ↔ ∃ y ∈ s.round.records, y.state = .released := by
    simpa using hreleased fun _ => True
  unfold shutStart
  simp only [hreleased, hany]

/-- The round closed: the clearance timer ended, the lights DARK (R4). -/
def State.roundClosed (t : State) : State :=
  (t.setRound { t.round with clearance := none, part := .ready }).toLight .dark none none

theorem Becomes.roundClosed {t u : State} (h : Becomes t u) :
    Becomes t.roundClosed { u with
      round := { u.round with clearance := none, part := .ready }
      start := { u.start with light := .dark, cadence := none } } := by
  unfold State.roundClosed
  rw [h.round]
  exact (h.setRound _).toLight .dark none none

theorem Posts.roundClosed {s t : State} {ns : List Notice} (h : Posts s t ns) :
    Posts s t.roundClosed (ns ++ [.lamp .dark none none]) :=
  (h.of_links (u := t.setRound { t.round with clearance := none, part := .ready }) rfl rfl).toLight .dark none none

theorem serveShut_of_closable {s : State} (hp : s.round.part = .round) (hhill : ∀ r ∈ s.round.records, r.state.onHill = false) :
    serveShut s =
      accept (((sortByJump s.round.records).map (fun r => r.jump)).foldl shutTake s).roundClosed [] := by
  have hin : s.inRound = true := by rw [State.inRound, hp]; rfl
  simp only [serveShut, hin, if_true, Round.inState_eq_none hhill, Option.isSome_none, Bool.false_eq_true, if_false,
    State.roundClosed]

/-- Settles O22: the records ended in their order, then the round closed; else the refusal. -/
theorem shutClosesTheRound : Obligations.ShutClosesTheRound := by
  refine ⟨fun now tag open_ s h hpart hhill hd hnone hopen => ?closed, fun now tag s h hn => ?refused⟩
  case closed =>
    have hjs : ((sortByJump s.round.records).map (fun r => r.jump)).Pairwise (· < ·) := by
      have hne : ((sortByJump s.round.records).map (fun r => r.jump)).Nodup :=
        ((sortByJump_perm s.round.records).map _).nodup_iff.mpr hd
      exact ((List.pairwise_map.mpr (sortByJump_sorted s.round.records)).and hne).imp fun ⟨h1, h2⟩ => h1.lt_of_ne h2
    obtain ⟨done, hsorted, hmem, hbecomes, hposts⟩ := shutFold_spec (s := s.setClock now) _ hd hnone hhill hjs
      fun x hx _ => List.mem_map_of_mem (mem_sortByJump.mpr hx)
    have hdone := eq_sortByJump_open (s := s.setClock now) hd hsorted hmem
    have hstart : shutStart s.start done = shutStart s.start s.round.records := shutStart_of_open (s := s.setClock now) hmem _
    have htable := shutRound_table (s := s.setClock now) hmem
    have hbind (c : Ctx) : s.round.bindsOneOf open_ c = s.round.bindsOneOf done c := by
      rw [hdone, hopen]
      exact (Round.bindsOneOf_sortByJump _ _ c).symm
    obtain ⟨t, hexec, htb, hta⟩ := takenRequest_accept h tag (r := .shutRound) rfl
      (serveShut_of_closable (s := s.setClock now) hpart hhill) hbecomes.roundClosed hposts.roundClosed
    refine ⟨t, hexec, ?_, ?_⟩
    · rw [hbind, hbind]
      have hstate : shutState (s.setClock now) done = { s.setClock now with
          round := { (shutRound (s.setClock now) done) with table := (shutRound (s.setClock now) done).table }
          start := shutStart s.start done
          wind := s.wind.published s.round done } := rfl
      rw [hstate, htable, hstart] at htb
      exact htb
    · have hsame : sortByJump open_ = done := (hopen ▸ hdone).symm
      rw [hsame]
      exact hta
  case refused =>
    refine takenRequest_refuse h tag (r := .shutRound) rfl (fun _ => rfl) ?_
    show serveShut (s.setClock now) = _
    unfold serveShut
    by_cases hin : (s.setClock now).inRound = true
    · have hround : s.round.part = .round := by simpa [State.inRound] using hin
      have hhill := hn.resolve_left (not_not.mpr hround)
      rw [if_pos hin]
      exact if_pos (Round.inState_isSome (rd := s.round) hhill)
    · rw [if_neg hin]

end Sys2Proof.Machine
end

