-- ==== Sys2Proof/Proofs/Scanning.lean ====
section
/-! The Station Line: what an outcome makes of a station, the scan and the snapshot as they go on, and the judging of an
answer (sections 4.2 to 4.4, 4.6). -/

namespace Sys2Proof.Machine

/-! Outcomes -/

section
variable (s : State) (i address : Nat) (x y : Option StationState) (cause : StnaCause) (flags : StationFlags)

@[simp] theorem State.noteStation_wind : (s.noteStation i address x y cause flags).wind = s.wind := by
  unfold State.noteStation
  split <;> rfl

@[simp] theorem State.noteStation_round : (s.noteStation i address x y cause flags).round = s.round := by
  unfold State.noteStation
  split <;> rfl

@[simp] theorem State.noteStation_start : (s.noteStation i address x y cause flags).start = s.start := by
  unfold State.noteStation
  split <;> rfl

@[simp] theorem State.noteStation_corridor : (s.noteStation i address x y cause flags).corridor = s.corridor := by
  unfold State.noteStation
  split <;> rfl

@[simp] theorem State.noteStation_board : (s.noteStation i address x y cause flags).board = s.board := by
  unfold State.noteStation
  split <;> rfl

end

section
variable (s : State) (i : Nat) (st : Station) (o : Outcome3)

/-- The wind receiver after an outcome: the station's entry alone is another (R77). -/
theorem applyOutcome_wind : (applyOutcome s i st o).wind = { s.wind with
    stations := setEntry s.wind.stations i (some (healthAfter s.wind.silentCount s.wind.clearCount o st)) } :=
  State.noteStation_wind ..

@[simp] theorem applyOutcome_round : (applyOutcome s i st o).round = s.round := State.noteStation_round ..
@[simp] theorem applyOutcome_start : (applyOutcome s i st o).start = s.start := State.noteStation_start ..
@[simp] theorem applyOutcome_corridor : (applyOutcome s i st o).corridor = s.corridor := State.noteStation_corridor ..
@[simp] theorem applyOutcome_board : (applyOutcome s i st o).board = s.board := State.noteStation_board ..

variable {s i st o} {st' : Station}

theorem applyOutcome_of_same (h : healthAfter s.wind.silentCount s.wind.clearCount o st = st')
    (hsame : st'.state = st.state) :
    applyOutcome s i st o = s.setWind { s.wind with stations := setEntry s.wind.stations i (some st') } := by
  simp only [applyOutcome, h, hsame]
  exact State.noteStation_same ..

theorem applyOutcome_of_ne (h : healthAfter s.wind.silentCount s.wind.clearCount o st = st')
    (hne : st.state ≠ st'.state) :
    applyOutcome s i st o = (s.setWind { s.wind with stations := setEntry s.wind.stations i (some st') }).post
      (.stna i st.address (some st.state) (some st'.state) (outcomeCause o) st'.flags s.clock) := by
  simp only [applyOutcome, h]
  exact State.noteStation_of_ne _ _ _ _ fun he => hne (Option.some.inj he)

end

section
variable {silent clear : Nat} {st : Station}

theorem healthAfter_miss_silent (h : st.state = .active ∨ st.state = .fault) (hm : silent ≤ min (st.miss + 1) 15) :
    healthAfter silent clear .miss st = { st with miss := min (st.miss + 1) 15, good := 0, state := .silent } := by
  rcases h with h | h <;> simp [healthAfter, countUp, h, hm]

theorem healthAfter_miss_same (h : st.state = .silent ∨ st.state = .disabled ∨ min (st.miss + 1) 15 < silent) :
    healthAfter silent clear .miss st = { st with miss := min (st.miss + 1) 15, good := 0 } := by
  obtain ⟨address, sector, axis, member, enabled, state, miss, good, latest, flags⟩ := st
  rcases h with h | h | h
  · cases h
    rfl
  · cases h
    rfl
  · cases state
    case active => exact congrArg (fun x => Station.mk _ _ _ _ _ x _ _ _ _) (if_neg h.not_ge)
    case fault => exact congrArg (fun x => Station.mk _ _ _ _ _ x _ _ _ _) (if_neg h.not_ge)
    all_goals rfl

theorem healthAfter_fault_changes (h : st.state = .active ∨ st.state = .silent) :
    healthAfter silent clear .fault st = { st with miss := 0, good := 0, state := .fault } := by
  rcases h with h | h <;> simp [healthAfter, h]

theorem healthAfter_fault_same (h : st.state = .fault ∨ st.state = .disabled) :
    healthAfter silent clear .fault st = { st with miss := 0, good := 0 } := by
  obtain ⟨address, sector, axis, member, enabled, state, miss, good, latest, flags⟩ := st
  rcases h with h | h <;> cases h <;> rfl

theorem healthAfter_good_recovers (h : st.state = .silent ∨ st.state = .fault) (hg : clear ≤ min (st.good + 1) 15) :
    healthAfter silent clear .good st = { st with good := min (st.good + 1) 15, miss := 0, state := .active } := by
  rcases h with h | h <;> simp [healthAfter, countUp, h, hg]

theorem healthAfter_good_same (h : st.state = .active ∨ st.state = .disabled ∨ min (st.good + 1) 15 < clear) :
    healthAfter silent clear .good st = { st with good := min (st.good + 1) 15, miss := 0 } := by
  obtain ⟨address, sector, axis, member, enabled, state, miss, good, latest, flags⟩ := st
  rcases h with h | h | h
  · cases h
    rfl
  · cases h
    rfl
  · cases state
    case silent => exact congrArg (fun x => Station.mk _ _ _ _ _ x _ _ _ _) (if_neg h.not_ge)
    case fault => exact congrArg (fun x => Station.mk _ _ _ _ _ x _ _ _ _) (if_neg h.not_ge)
    all_goals rfl

end

/-! What follows a slot -/

/-- The entries before the first one to be polled are passed over (R72). -/
theorem nextPolled_of_first {w : WindRx} {pre post : List Nat} {i : Nat} {st : Station}
    (hpre : ∀ k ∈ pre, ∀ x, entry w.stations k = some x → x.enabled = false) (hi : entry w.stations i = some st)
    (he : st.enabled = true) : nextPolled w (pre ++ i :: post) = some (i, st.address, post) := by
  induction pre with
  | nil => simp [nextPolled, hi, he]
  | cons k pre ih =>
    obtain ⟨hk, hrest⟩ := List.forall_mem_cons.mp hpre
    rw [List.cons_append, nextPolled]
    cases hst : entry w.stations k with
    | none => exact ih hrest
    | some x => simpa [hk x hst] using ih hrest

theorem nextPolled_of_none {w : WindRx} {l : List Nat}
    (h : ∀ k ∈ l, ∀ x, entry w.stations k = some x → x.enabled = false) : nextPolled w l = none := by
  induction l with
  | nil => rfl
  | cons k l ih =>
    obtain ⟨hk, hrest⟩ := List.forall_mem_cons.mp h
    rw [nextPolled]
    cases hst : entry w.stations k with
    | none => exact ih hrest
    | some x => simpa [hk x hst] using ih hrest

section
variable {w : WindRx} {pre post : List Nat} {i : Nat} {st : Station} {start : HillTime}

theorem goOnScan_of_first (hpre : ∀ k ∈ pre, ∀ x, entry w.stations k = some x → x.enabled = false)
    (hi : entry w.stations i = some st) (he : st.enabled = true) :
    goOnScan w (pre ++ i :: post) start =
      { w with scan := some post, slot := some (stationSlotAt .poll i st.address start) } := by
  simp only [goOnScan, nextPolled_of_first hpre hi he]

theorem goOnScan_of_none {l : List Nat} (h : ∀ k ∈ l, ∀ x, entry w.stations k = some x → x.enabled = false) :
    goOnScan w l start = { w with scan := none, slot := none } := by
  simp only [goOnScan, nextPolled_of_none h]

theorem goOnSnapshot_of_first (hpre : ∀ k ∈ pre, ∀ x, entry w.stations k = some x → x.enabled = false)
    (hi : entry w.stations i = some st) (he : st.enabled = true) :
    goOnSnapshot w (pre ++ i :: post) start =
      { w with
        snapshot := some { latchDue := false, left := post }
        slot := some (stationSlotAt .latchedRead i st.address start) } := by
  simp only [goOnSnapshot, nextPolled_of_first hpre hi he]

theorem goOnSnapshot_of_none {l : List Nat} (h : ∀ k ∈ l, ∀ x, entry w.stations k = some x → x.enabled = false) :
    goOnSnapshot w l start = { w with snapshot := none, slot := none } := by
  simp only [goOnSnapshot, nextPolled_of_none h]

end

section
variable {w : WindRx} {stop : HillTime}

theorem afterSlot_of_stopping (h : w.stopping = true) :
    afterSlot w stop = { w with scan := none, snapshot := none, slot := none, stopping := false } := if_pos h

variable (h : w.stopping = false)
include h

theorem afterSlot_of_latchDue {sn : Snapshot} (hs : w.snapshot = some sn) (hl : sn.latchDue = true) :
    afterSlot w stop = beginLatch w sn.left stop := by
  simp only [afterSlot, h, Bool.false_eq_true, if_false, hs, hl, if_true]

theorem afterSlot_of_reading {sn : Snapshot} (hs : w.snapshot = some sn) (hl : sn.latchDue = false) :
    afterSlot w stop = goOnSnapshot w sn.left stop := by
  simp only [afterSlot, h, Bool.false_eq_true, if_false, hs, hl]

theorem afterSlot_of_scan {left : List Nat} (hs : w.snapshot = none) (hl : w.scan = some left) :
    afterSlot w stop = goOnScan w left stop := by
  simp only [afterSlot, h, Bool.false_eq_true, if_false, hs, hl]

theorem afterSlot_of_free (hs : w.snapshot = none) (hl : w.scan = none) : afterSlot w stop = { w with slot := none } := by
  simp only [afterSlot, h, Bool.false_eq_true, if_false, hs, hl]

end

/-! The scan's rows -/

theorem scanTickEvent_of_due {s : State} (h : reached s.clock s.wind.nextTick = true) :
    scanTickEvent s =
      (let s1 := s.setWind { s.wind with nextTick := plusTicks s.wind.nextTick (msTicks s.wind.scanPeriod) }
       match s1.round.part with
       | .unconfigured => s1
       | .ready | .round =>
         match s1.wind.snapshot, s1.wind.scan with
         | some _, _ => s1
         | none, some left => s1.post (.scov s.wind.nextTick left.length s1.wind.scanPeriod)
         | none, none => s1.setWind (goOnScan s1.wind s1.wind.scanList s.wind.nextTick)) := if_pos h

/-- A slot that ends is a miss of its station where no answer came, and what follows begins (R74, R75). -/
theorem stationSlotEnd_due {s m : State} {now : HillTime} {sl : StationSlot} (hh : s.held = false)
    (hs : s.wind.slot = some sl) (hdue : reached now sl.ends = true)
    (hm : ((sl.kind = .latch ∨ sl.answered = true ∨ sl.void = true) ∧ m = s.setClock now) ∨
      (sl.kind ≠ .latch ∧ sl.answered = false ∧ sl.void = false ∧
        ∃ st, entry s.wind.stations sl.station = some st ∧ m = applyOutcome (s.setClock now) sl.station st .miss)) :
    m.wind = { s.wind with stations := m.wind.stations } ∧
      exec (.stationSlotEnd now) s = .next (m.setWind (afterSlot m.wind sl.ends)) := by
  have hmiss : slotMiss (s.setClock now) sl = m := by
    rcases hm with ⟨h, rfl⟩ | ⟨hk, ha, hv, st, hst, rfl⟩
    · exact if_pos h
    · have hst' : entry (s.setClock now).wind.stations sl.station = some st := hst
      simp only [slotMiss, hk, ha, hv, Bool.false_eq_true, or_self, if_false, hst']
  have hwind : m.wind = { s.wind with stations := m.wind.stations } := by
    rcases hm with ⟨_, rfl⟩ | ⟨_, _, _, st, _, rfl⟩
    · rfl
    · rw [applyOutcome_wind]
      rfl
  have hevent : stationSlotEndEvent (s.setClock now) = m.setWind (afterSlot m.wind sl.ends) := by
    have hs' : (s.setClock now).wind.slot = some sl := hs
    simp only [stationSlotEndEvent, hs', hmiss]
    exact if_pos hdue
  refine ⟨hwind, taken_quiet (f := stationSlotEndEvent) hh hevent ?_⟩
  rcases hm with ⟨_, rfl⟩ | ⟨_, _, _, st, _, rfl⟩
  · exact boardSync_unread
  · exact boardSync_unread (applyOutcome_board ..) (congrArg Round.table (applyOutcome_round ..))
      (congrArg StartLight.light (applyOutcome_start ..)) (congrArg StartLight.juryGate (applyOutcome_start ..))
      (congrArg Corridor.status (applyOutcome_corridor ..)) (congrArg Corridor.live (applyOutcome_corridor ..))

/-- A slot that has not ended leaves the line as it is (R74). -/
theorem stationSlotEnd_idle {s : State} {now : HillTime} (hh : s.held = false)
    (hn : s.wind.slot = none ∨ ∃ sl, s.wind.slot = some sl ∧ reached now sl.ends = false) :
    exec (.stationSlotEnd now) s = .next (s.setClock now) := by
  refine taken_idle (f := stationSlotEndEvent) hh ?_
  rcases hn with hs | ⟨sl, hs, hearly⟩
  · simp only [stationSlotEndEvent, State.setClock_wind, hs]
  · simp only [stationSlotEndEvent, State.setClock_wind, hs]
    exact if_neg (by simpa using hearly)

/-- Settles O41: the tick, the slot before its end and at it, and the miss. -/
theorem scanningRuns : Obligations.ScanningRuns := by
  refine ⟨fun now tick next w s hh htick hnext hw => ?tick, fun now s hh hn => stationSlotEnd_idle hh hn,
    fun now sl m s hh hs hdue hm => ?ends, fun i st m s hi hm => ?miss⟩
  case tick =>
    subst htick
    have hperiod : plusTicks s.wind.nextTick (msTicks s.wind.scanPeriod) = next := by
      rw [hnext, Nat.mul_comm]
      rfl
    have hdue (h : reached now s.wind.nextTick = true) := scanTickEvent_of_due (s := s.setClock now) h
    simp only [State.setClock_wind, hperiod, ← hw, State.setWind_round, State.setClock_round, State.setWind_wind] at hdue
    have hsnap' : w.snapshot = s.wind.snapshot := by rw [hw]
    have hscan' : w.scan = s.wind.scan := by rw [hw]
    have hlist : w.scanList = s.wind.scanList := by rw [hw]
    have hstations : w.stations = s.wind.stations := by rw [hw]
    have hgoes (h : reached now s.wind.nextTick = true) (hp : s.round.part ≠ .unconfigured) (hsnap : s.wind.snapshot = none)
        (hscan : s.wind.scan = none) {v : WindRx} (hv : goOnScan w s.wind.scanList s.wind.nextTick = v) :
        exec (.scanTick now) s = .next ((s.setClock now).setWind v) := by
      refine taken_quiet (f := scanTickEvent) hh ((hdue h).trans ?_) boardSync_unread
      cases hpart : s.round.part with
      | unconfigured => exact (hp hpart).elim
      | ready | round =>
        simp only [hsnap', hsnap, hscan', hscan, hlist, hv]
        rfl
    refine ⟨fun hearly => ?early, fun h hn => ?none, fun left h hp hsnap hscan => ?overrun,
      fun h hp hsnap hscan => ⟨fun pre i post st hl hpre hi he => ?first, fun hnone => ?nobody⟩⟩
    case early => exact taken_idle (f := scanTickEvent) hh (if_neg (by simpa using hearly))
    case none =>
      refine taken_quiet (f := scanTickEvent) hh ((hdue h).trans ?_) boardSync_unread
      rcases hn with hp | hsnap
      · rw [hp]
      · obtain ⟨sn, hsn⟩ := Option.ne_none_iff_exists'.mp hsnap
        cases s.round.part with
        | unconfigured => rfl
        | ready | round => simp only [hsnap', hsn]
    case overrun =>
      refine taken_quiet (f := scanTickEvent) hh ((hdue h).trans ?_) boardSync_unread
      have hcount : w.scanPeriod = s.wind.scanPeriod := by rw [hw]
      cases hpart : s.round.part with
      | unconfigured => exact (hp hpart).elim
      | ready | round => simp only [hsnap', hsnap, hscan', hscan, hcount]
    case first =>
      rw [hl] at hgoes
      exact hgoes h hp hsnap hscan (goOnScan_of_first (by rwa [hstations]) (by rwa [hstations]) he)
    case nobody =>
      exact hgoes h hp hsnap hscan (goOnScan_of_none (by rwa [hstations]))
  case ends =>
    obtain ⟨hwind, hexec⟩ := stationSlotEnd_due hh hs hdue hm
    have hstopping : m.wind.stopping = s.wind.stopping := by rw [hwind]
    have hsnapshot : m.wind.snapshot = s.wind.snapshot := by rw [hwind]
    have hscan : m.wind.scan = s.wind.scan := by rw [hwind]
    refine ⟨fun hst => ?_, fun sn hst hsn hl => ?_, fun sn pre i post x hst hsn hl hleft hpre hi he => ?_,
      fun left pre i post x hst hsn hsc hleft hpre hi he => ?_, fun sn hst hsn hl hnone => ?_,
      fun left hst hsn hsc hnone => ?_, fun hst hsn hsc => ?_⟩ <;> rw [hexec] <;> rw [← hstopping] at hst
    · rw [afterSlot_of_stopping hst]
    all_goals rw [← hsnapshot] at hsn
    · rw [afterSlot_of_latchDue hst hsn hl]
      rfl
    · rw [afterSlot_of_reading hst hsn hl, hleft, goOnSnapshot_of_first hpre hi he]
      rfl
    · rw [afterSlot_of_scan hst hsn (hscan.trans hsc), hleft, goOnScan_of_first hpre hi he]
      rfl
    · rw [afterSlot_of_reading hst hsn hl, goOnSnapshot_of_none hnone]
    · rw [afterSlot_of_scan hst hsn (hscan.trans hsc), goOnScan_of_none hnone]
    · rw [afterSlot_of_free hst hsn (hscan.trans hsc)]
  case miss =>
    subst hm
    refine ⟨fun hs hle => ?_, fun hs => applyOutcome_of_same (healthAfter_miss_same hs) rfl⟩
    exact applyOutcome_of_ne (healthAfter_miss_silent hs hle) (by rcases hs with hs | hs <;> simp [hs])

/-! The judging of an answer -/

theorem stationAnswer_discarded {s : State} {now began : HillTime} {bytes : List Byte} (hh : s.held = false)
    (hn : s.wind.slot = none ∨ ∃ sl, s.wind.slot = some sl ∧
      (sl.kind = .latch ∨ sl.answered = true ∨ laterThan now sl.ends = true ∨
        reached began (sl.ends - 800#32) = false)) :
    exec (.stationAnswer now ⟨began, bytes⟩) s = .next (s.setClock now) := by
  refine taken_idle (f := fun s => stationAnswerEvent s ⟨began, bytes⟩) hh ?_
  rcases hn with hs | ⟨sl, hs, hout⟩
  · simp only [stationAnswerEvent, State.setClock_wind, hs]
  · simp only [stationAnswerEvent, State.setClock_wind, hs]
    refine if_pos ?_
    rcases hout with h | h | h | h
    · exact Or.inl h
    · exact Or.inr (Or.inl h)
    · refine Or.inr (Or.inr ?_)
      simp [wholeWithin, notPast, h]
    · refine Or.inr (Or.inr ?_)
      rw [wholeWithin, h, Bool.false_and]

section
variable {s : State} {began : HillTime} {bytes : List Byte} {sl : StationSlot} (hs : s.wind.slot = some sl)
  (hk : sl.kind ≠ .latch) (ha : sl.answered = false) (hl : laterThan s.clock sl.ends = false)
  (hb : reached began (sl.ends - 800#32) = true)
include hk ha hl hb

/-- A frame whole within the slot of a poll not yet answered is its answer (R74). -/
theorem stationFrame_isAnswer :
    ¬(sl.kind = .latch ∨ sl.answered = true ∨ wholeWithin began s.clock sl.ends 800 = false) := by
  have hwhole : wholeWithin began s.clock sl.ends 800 = true := by
    rw [wholeWithin, hb, notPast, hl]
    rfl
  simp [hk, ha, hwhole]

include hs

theorem stationAnswerEvent_of_void (hv : sl.void = true) :
    stationAnswerEvent s ⟨began, bytes⟩ = s.setWind { s.wind with slot := some { sl with answered := true } } := by
  simp only [stationAnswerEvent, hs]
  rw [if_neg (stationFrame_isAnswer hk ha hl hb), if_pos hv]

/-- Outside a void slot the answer is judged for the polled station (R75). -/
theorem stationAnswerEvent_of_judged {st : Station} (hv : sl.void = false)
    (hst : entry s.wind.stations sl.station = some st) :
    stationAnswerEvent s ⟨began, bytes⟩ =
      judgeAnswer (s.setWind { s.wind with slot := some { sl with answered := true } }) sl.station st
        (stationAnswerOf bytes) sl.address (sl.kind == .latchedRead) := by
  have hnot : ¬sl.void = true := by simp [hv]
  simp only [stationAnswerEvent, hs]
  rw [if_neg (stationFrame_isAnswer hk ha hl hb), if_neg hnot]
  simp only [State.setWind_wind, hst]

end

/-- Settles O42: the frames discarded, the void slot, each judgement, and what an outcome makes of the station. -/
theorem stationAnswerIsJudged : Obligations.StationAnswerIsJudged := by
  refine ⟨fun now began bytes s hh hn => stationAnswer_discarded hh hn,
    fun now began bytes sl s hh hs hk ha hv hl hb => ?void,
    fun now began bytes sl st u s hh hs hk ha hv hl hb hst hu => ?judged, fun i st s hi => ?outcome⟩
  case void =>
    exact taken_quiet (f := fun s => stationAnswerEvent s ⟨began, bytes⟩) hh
      (stationAnswerEvent_of_void (s := s.setClock now) hs hk ha hl hb hv) boardSync_unread
  case judged =>
    have hevent := stationAnswerEvent_of_judged (s := s.setClock now) (bytes := bytes) hs hk ha hl hb hv hst
    rw [State.setClock_wind, ← hu] at hevent
    have houtcome {x : Station} {o : Outcome3} (hj : judgeAnswer u sl.station st (stationAnswerOf bytes) sl.address
        (sl.kind == .latchedRead) = applyOutcome u sl.station x o) :
        exec (.stationAnswer now ⟨began, bytes⟩) s = .next (applyOutcome u sl.station x o) := by
      refine taken_quiet (f := fun s => stationAnswerEvent s ⟨began, bytes⟩) hh (hevent.trans hj) ?_
      have hkept : u.board = s.board ∧ u.round = s.round ∧ u.start = s.start ∧ u.corridor = s.corridor := by
        rw [hu]
        exact ⟨rfl, rfl, rfl, rfl⟩
      obtain ⟨hboard, hround, hstart, hcorridor⟩ := hkept
      exact boardSync_unread (by rw [applyOutcome_board, hboard]; rfl) (by rw [applyOutcome_round, hround]; rfl)
        (by rw [applyOutcome_start, hstart]; rfl) (by rw [applyOutcome_start, hstart]; rfl)
        (by rw [applyOutcome_corridor, hcorridor]; rfl) (by rw [applyOutcome_corridor, hcorridor]; rfl)
    refine ⟨fun hnone => houtcome ?_, fun a hsome hadd => houtcome ?_, fun a hsome hadd hf => houtcome ?_,
      fun a hsome hadd hf hd => houtcome ?_, fun a hsome hadd hf hd hna => houtcome ?_⟩
    · simp only [judgeAnswer, hnone]
    · simp only [judgeAnswer, hsome, ne_eq, hadd, not_false_eq_true, if_true]
    all_goals simp only [judgeAnswer, hsome, ne_eq, hadd, not_true, if_false, hf, if_true, Bool.false_eq_true]
    · exact if_pos hd
    · rw [if_neg hd.not_ge, goodAnswer]
      exact if_neg hna
  case outcome =>
    refine ⟨fun hs => ?_, fun hs => applyOutcome_of_same (healthAfter_fault_same hs) rfl, fun hs hle => ?_,
      fun hs => applyOutcome_of_same (healthAfter_good_same hs) rfl⟩
    · exact applyOutcome_of_ne (healthAfter_fault_changes hs) (by rcases hs with hs | hs <;> simp [hs])
    · exact applyOutcome_of_ne (healthAfter_good_recovers hs hle) (by rcases hs with hs | hs <;> simp [hs])

end Sys2Proof.Machine
end

