-- ==== Sys2Proof/Proofs/Samples.lean ====
section
/-! The used sample: what it leaves of the station, the corridor and the two contexts (sections 4.4, 4.5, 4.7). -/

namespace Sys2Proof.Machine

/-! What a view reads of the record table -/

section
variable {g : Record → Record} (hjump : ∀ x, (g x).jump = x.jump)
include hjump

theorem insertByJump_map (r : Record) (l : List Record) : insertByJump (g r) (l.map g) = (insertByJump r l).map g := by
  induction l with
  | nil => rfl
  | cons x l ih =>
    rw [List.map_cons, insertByJump, insertByJump, hjump, hjump]
    split
    · rfl
    · rw [ih, List.map_cons]

theorem sortByJump_map (l : List Record) : sortByJump (l.map g) = (sortByJump l).map g := by
  induction l with
  | nil => rfl
  | cons x l ih =>
    have hcons (r : Record) (m : List Record) : sortByJump (r :: m) = insertByJump r (sortByJump m) := rfl
    rw [List.map_cons, hcons, hcons, ih, insertByJump_map hjump]

variable (hstate : ∀ x, (g x).state = x.state)
include hstate

theorem highestRecord_map (l : List Record) (p : RecState → Bool) :
    highestRecord (l.map g) (fun r => p r.state) = (highestRecord l (fun r => p r.state)).map g := by
  have hfilter : (l.map g).filter (fun r => p r.state) = (l.filter (fun r => p r.state)).map g := by
    rw [List.filter_map]
    refine congrArg (List.map g) (List.filter_congr fun x _ => ?_)
    rw [Function.comp_apply, hstate]
  rw [highestRecord, hfilter, sortByJump_map hjump, List.getLast?_map]
  rfl

/-- A change that keeps numbers and states changes the record a view names as it changes the table (R155). -/
theorem viewRecord_map {rd rd' : Round} (h : rd'.records = rd.records.map g) (v : View) :
    viewRecord rd' v = (viewRecord rd v).map g := by
  cases v with
  | bar =>
    have hpred : (fun x : Record => x.state.atBar) ∘ g = fun x => x.state.atBar := funext fun x => by
      rw [Function.comp_apply, hstate]
    rw [viewRecord, Round.inState, h, List.find?_map, hpred]
    rfl
  | flight =>
    rw [viewRecord, h]
    exact highestRecord_map hjump hstate rd.records RecState.inFlightView
  | published =>
    rw [viewRecord, h]
    exact highestRecord_map hjump hstate rd.records (· == .published)

/-- A change that keeps what the items show of a record leaves every composed text (R159). -/
theorem composed_of_shown (htext : ∀ x it, recordText (g x) it = recordText x it) {s t : State}
    (hr : t.round.records = s.round.records.map g) (hstart : t.start = s.start) (hcorridor : t.corridor = s.corridor)
    (hboard : t.board = s.board) (i : Nat) (p : Panel) (row : Nat) : t.composed i p row = s.composed i p row := by
  have hrender (shown : Option Nat) (d : FieldDesc) :
      renderField t.round s.start s.corridor shown d = renderField s.round s.start s.corridor shown d := by
    unfold renderField
    rw [viewRecord_map hjump hstate hr]
    cases viewRecord s.round d.view with
    | none => rfl
    | some r => rw [Option.map_some]; simp only [htext]
  unfold State.composed composedRow layField
  rw [hstart, hcorridor, hboard]
  simp only [hrender]

end

/-- No item shows a flag: a change of one record's flags leaves every composed text (R157, R159). -/
theorem composed_of_flags {s t : State} {j : Nat} {f : Record → RecFlags}
    (hr : t.round.records = s.round.records.map (fun x => if x.jump = j then { x with flags := f x } else x))
    (hstart : t.start = s.start := by rfl) (hcorridor : t.corridor = s.corridor := by rfl)
    (hboard : t.board = s.board := by rfl) (i : Nat) (p : Panel) (row : Nat) :
    t.composed i p row = s.composed i p row := by
  refine composed_of_shown (fun x => ?_) (fun x => ?_) (fun x it => ?_) hr hstart hcorridor hboard i p row
  · split <;> rfl
  · split <;> rfl
  · split
    · cases it <;> rfl
    · rfl

/-! The offer to a context -/

theorem offerTo_unbound {s : State} {c : Ctx} (u : UsedSample) (h : s.round.binding c = none) : offerTo s c u = s := by
  simp only [offerTo, h]

theorem WindRx.setCtx_ctx (w : WindRx) (c : Ctx) : w.setCtx c (w.ctx c) = w := by cases c <;> rfl

theorem pushSettled_eq (l : List Settled) (e : Settled) :
    pushSettled l e = (if l.length < 128 then l else l.drop 1) ++ [e] := by
  unfold pushSettled
  split <;> rfl

/-- A waiting or open context takes the sample into its trace, and an open one whose window has begun into its sums and
its settling list (R84, R85). -/
theorem Context.offer_eq {x : Context} {u : UsedSample} {summed : Bool} (hm : x.mark ≠ .closed)
    (h : summed = true ↔ x.mark = .opened ∧ ∃ start, x.start = some start ∧ reached u.time start = true) :
    x.offer u = { x with
      trace := pushTrace x.trace u
      sums := if summed then addToSums x.sums u.station u.tangential else x.sums
      settling := if summed then
          pushSettled x.settling { station := u.station, time := u.time, tangential := u.tangential }
        else x.settling } := by
  have hnot (hn : ¬(x.mark = .opened ∧ ∃ start, x.start = some start ∧ reached u.time start = true)) : summed = false :=
    by simpa [hn] using h
  cases hmark : x.mark with
  | closed => exact (hm hmark).elim
  | waiting =>
    rw [hnot (by simp [hmark])]
    simp only [Context.offer, hmark, Bool.false_eq_true, if_false]
  | opened =>
    cases hstart : x.start with
    | none =>
      rw [hnot (by simp [hstart])]
      simp only [Context.offer, hmark, hstart, Bool.false_eq_true, if_false]
    | some start =>
      cases hr : reached u.time start with
      | false =>
        rw [hnot (by simp [hstart, hr])]
        simp only [Context.offer, hmark, hstart, hr, Bool.false_eq_true, if_false]
      | true =>
        rw [h.mpr ⟨hmark, start, hstart, hr⟩]
        simp only [Context.offer, hmark, hstart, hr, if_true]

theorem offerTo_closed {s : State} {c : Ctx} (u : UsedSample) (h : (s.wind.ctx c).mark = .closed) : offerTo s c u = s := by
  have hoffer : (s.wind.ctx c).offer u = s.wind.ctx c := by simp only [Context.offer, h]
  have hrefuses : (s.wind.ctx c).traceRefuses = false := by rw [Context.traceRefuses, h]; rfl
  unfold offerTo
  cases s.round.binding c with
  | none => rfl
  | some j =>
    simp only [hoffer, hrefuses, Bool.false_eq_true, if_false, WindRx.setCtx_ctx]
    rfl

theorem offerTo_taken {s : State} {c : Ctx} {j : Nat} (u : UsedSample) (hb : s.round.binding c = some j)
    (hm : (s.wind.ctx c).mark ≠ .closed) :
    offerTo s c u = { s with
      wind := s.wind.setCtx c ((s.wind.ctx c).offer u)
      round := if (s.wind.ctx c).trace.length < 512 then s.round
        else s.round.modify j (fun r => { r with flags := { r.flags with traceFull := true } }) } := by
  have hrefuses : (s.wind.ctx c).traceRefuses = decide (512 ≤ (s.wind.ctx c).trace.length) := by
    rw [Context.traceRefuses, bne_iff_ne.mpr hm, Bool.true_and]
  simp only [offerTo, hb, hrefuses, decide_eq_true_eq]
  by_cases hl : (s.wind.ctx c).trace.length < 512
  · rw [if_neg hl.not_ge, if_pos hl]
    rfl
  · rw [if_pos (Nat.not_lt.mp hl), if_neg hl]
    rfl

/-- A sample offered to a context changes no composed text: no item shows a flag (R157, R159). -/
theorem offerTo_unread (s : State) (c : Ctx) (u : UsedSample) :
    (offerTo s c u).board = s.board ∧ ∀ i p row, (offerTo s c u).composed i p row = s.composed i p row := by
  unfold offerTo
  cases s.round.binding c with
  | none => exact ⟨rfl, fun _ _ _ => rfl⟩
  | some j =>
    simp only
    split
    · exact ⟨rfl, composed_of_flags (f := fun x => { x.flags with traceFull := true }) (Round.records_modify ..)⟩
    · exact ⟨rfl, fun _ _ _ => rfl⟩

/-- A sample offered to both contexts leaves the board as it is (R160). -/
theorem boardSync_offered {a b : State} {u : UsedSample} (hboard : b.board = a.board)
    (hc : ∀ i p row, b.composed i p row = a.composed i p row) :
    boardSync false a (offerTo (offerTo b .a u) .b u) = offerTo (offerTo b .a u) .b u := by
  obtain ⟨hA, hcA⟩ := offerTo_unread b .a u
  obtain ⟨hB, hcB⟩ := offerTo_unread (offerTo b .a u) .b u
  have hall := (hB.trans hA).trans hboard
  exact boardSync_quiet (congrArg Board.panels hall) (congrArg Board.line hall) fun i p row => by rw [hcB, hcA, hc]

/-! The corridor -/

theorem Corridor.take_status (c : Corridor) (x : Int) (t : HillTime) : (c.take x t).status = c.status := by
  unfold Corridor.take
  split <;> split_ifs <;> rfl

theorem Corridor.take_live (c : Corridor) (x : Int) (t : HillTime) : (c.take x t).live = c.live := by
  unfold Corridor.take
  split <;> split_ifs <;> rfl

/-! The used sample -/

theorem setEntry_setEntry {α : Type} (l : List (Option α)) (i : Nat) (v w : Option α) :
    setEntry (setEntry l i v) i w = setEntry l i w := by
  unfold setEntry
  split
  · rfl
  · rw [List.set_set]

/-- A good answer of an ACTIVE station becomes its latest sample and goes to the corridor and the contexts (R76, R80). -/
theorem goodAnswer_of_active {s : State} {i : Nat} {st : Station} {a : StationAnswer} {snap : Bool} {u : UsedSample}
    (hi : entry s.wind.stations i = some st) (ha : st.state = .active)
    (hu : u = { station := i, speed := min a.speed 5000, direction := a.direction
                tangential := tangentialOf (min a.speed 5000) a.direction st.axis
                time := s.clock - BitVec.ofNat 32 a.age, arrival := s.clock, snap := snap }) :
    goodAnswer s i st a snap =
      offerTo (offerTo { s with
        wind := { s.wind with
          stations := setEntry s.wind.stations i (some
            { st with
              miss := 0, good := min (st.good + 1) 15
              flags := { clamped := decide (5000 < a.speed), mismatch := false }
              latest := some { speed := u.speed, direction := u.direction, tangential := u.tangential, time := u.time } }) }
        corridor := if st.member then s.corridor.take u.tangential u.arrival else s.corridor } .a u) .b u := by
  have hgood : applyOutcome s i { st with flags := { clamped := decide (5000 < a.speed), mismatch := false } } .good =
      s.setWind { s.wind with stations := setEntry s.wind.stations i (some
        { st with
          flags := { clamped := decide (5000 < a.speed), mismatch := false }
          good := min (st.good + 1) 15, miss := 0 }) } :=
    applyOutcome_of_same (healthAfter_good_same (Or.inl ha)) rfl
  have hentry := entry_setEntry_self s.wind.stations i (some { st with
    flags := { clamped := decide (5000 < a.speed), mismatch := false }
    good := min (st.good + 1) 15, miss := 0 }) (by rw [hi]; rfl)
  simp only [goodAnswer, if_pos ha, hgood]
  rw [← hu]
  have hstation : u.station = i := by rw [hu]
  simp only [useSample, State.setWind_wind, hstation, hentry, setEntry_setEntry]
  cases st.member <;> rfl

/-- Settles O43: the answer used, the corridor's windows, and the contexts. -/
theorem goodAnswerIsUsed : Obligations.GoodAnswerIsUsed := by
  refine ⟨?used, fun c x arrival start stop sum count hw => ⟨fun h => ?_, fun h hs => ?_, fun h hs => ?_⟩,
    fun c x arrival opens hw => ?_, fun c u s hb => offerTo_unbound u hb,
    fun c u j x s hb hx => ⟨fun hm => offerTo_closed u (hx ▸ hm), fun summed y hm hsum hy => ?taken⟩⟩
  case used =>
    intro now began bytes sl st a speed tangential time u s hh hs hk ha hv hl hb hst hact hans hadd hf hd hspeed htang
      htime hu
    have hevent := stationAnswerEvent_of_judged (s := s.setClock now) (bytes := bytes) hs hk ha hl hb hv hst
    have hjudge : judgeAnswer ((s.setClock now).setWind { s.wind with slot := some { sl with answered := true } })
        sl.station st (stationAnswerOf bytes) sl.address (sl.kind == .latchedRead) =
        goodAnswer ((s.setClock now).setWind { s.wind with slot := some { sl with answered := true } })
        sl.station st a (sl.kind == .latchedRead) := by
      simp only [judgeAnswer, hans, ne_eq, hadd, not_true, if_false, hf, Bool.false_eq_true]
      exact if_neg hd.not_ge
    have hused := goodAnswer_of_active (s := (s.setClock now).setWind { s.wind with
      slot := some { sl with answered := true } }) (i := sl.station) (a := a) (snap := sl.kind == .latchedRead) (u := u) hst
      hact (by rw [hu, htime, htang, hspeed]; rfl)
    refine taken_quiet (f := fun s => stationAnswerEvent s ⟨began, bytes⟩) hh ((hevent.trans hjudge).trans ?_) ?_
    · rw [hused, hu]
      rfl
    · refine boardSync_offered rfl (composed_congr rfl rfl rfl ?_ ?_ rfl rfl)
      · show (if st.member then s.corridor.take tangential now else s.corridor).status = s.corridor.status
        split
        · exact Corridor.take_status ..
        · rfl
      · show (if st.member then s.corridor.take tangential now else s.corridor).live = s.corridor.live
        split
        · exact Corridor.take_live ..
        · rfl
  · simp only [Corridor.take, hw, h, if_true]
  · simp only [Corridor.take, hw, h, hs, Bool.false_eq_true, if_false, if_true]
  · simp only [Corridor.take, hw, h, hs, Bool.false_eq_true, if_false]
  · simp only [Corridor.take, hw]
  case taken =>
    rw [offerTo_taken u hb (hx ▸ hm), ← hx, Context.offer_eq hm hsum, hy, pushSettled_eq]
    cases c <;> rfl

end Sys2Proof.Machine
end

