-- ==== Sys2Proof/Proofs/Flights.lean ====
section
/-! The flight: the take-off with its snapshot and its window, and the two ends in AWAITING (sections 4.6, 6.3, 6.5). -/

namespace Sys2Proof.Machine

/-! The take-off -/

/-- The wind contexts with the one of the record open from the hill time (R85). -/
def openedWind (s : State) (j : Nat) (t : HillTime) : WindRx :=
  if s.round.bindA = some j then { s.wind with ctxA := { s.wind.ctxA with start := some t, mark := .opened } }
  else if s.round.bindB = some j then { s.wind with ctxB := { s.wind.ctxB with start := some t, mark := .opened } }
  else s.wind

theorem openContext_eq (s : State) (j : Nat) (t : HillTime) : openContext s j t = s.setWind (openedWind s j t) := by
  unfold openContext Round.ctxOf openedWind
  split_ifs <;> rfl

/-- The snapshot of a take-off: none beside one in progress; its LATCH waits for a slot under way to end (R81). -/
theorem startSnapshot_eq {w v : WindRx} (now : HillTime) (hsnapshot : w.snapshot = v.snapshot) (hslot : w.slot = v.slot)
    (hstations : w.stations = v.stations) :
    startSnapshot w now =
      if v.snapshot ≠ none then w
      else if v.slot ≠ none then
        { w with
          scan := none, snapshot := some { latchDue := true, left := indicesWhere (fun st => st.enabled) v.stations }
          stopping := false }
      else
        { w with
          scan := none, snapshot := some { latchDue := false, left := indicesWhere (fun st => st.enabled) v.stations }
          stopping := false
          slot := some { kind := .latch, station := 0, address := 0, ends := now + 800#32, answered := false,
                         void := false } } := by
  rw [← hsnapshot, ← hslot, ← hstations]
  unfold startSnapshot
  cases w.snapshot with
  | some sn => rfl
  | none => cases w.slot <;> rfl

theorem openedWind_line (s : State) (j : Nat) (t : HillTime) :
    (openedWind s j t).snapshot = s.wind.snapshot ∧ (openedWind s j t).slot = s.wind.slot ∧
      (openedWind s j t).stations = s.wind.stations := by
  unfold openedWind
  split_ifs <;> exact ⟨rfl, rfl, rfl⟩

/-- The flight timers from a take-off on (R107, R120). -/
def takenOffFlight (s : State) (r : Record) (t : HillTime) : Flight :=
  { s.flight with
    inrunLimit := none, trapJump := none, trapTime := none, trapDone := false
    landingLimit := some { jump := r.jump, expiry := plusTicks t (secTicks s.start.timing.landing) } }

/-- The round with the record AIRBORNE (R107). -/
def takenOffRound (rd : Round) (r : Record) (t : HillTime) : Round :=
  rd.modify r.jump (fun x =>
    { x with
      takeoffTime := some t, state := .airborne
      flags := { x.flags with speedInvalid := r.flags.speedInvalid || r.speed.isNone } })

theorem takeoffWork_eq (s : State) (r : Record) (t : HillTime) :
    takeoffWork s r t =
      ((((s.setRound (takenOffRound s.round r t)).setFlight (takenOffFlight s r t)).setWind
        (startSnapshot (openedWind s r.jump t) s.clock)).post
        (.tkof r.jump r.bib t (r.departureTime.map (fun d => elapsed t d)) r.speed
          (r.flags.speedInvalid || r.speed.isNone))).applyStaged r.jump := by
  have hround : (takenOffRound s.round r t).bindA = s.round.bindA ∧ (takenOffRound s.round r t).bindB = s.round.bindB :=
    ⟨rfl, rfl⟩
  obtain ⟨hA, hB⟩ := hround
  have hopened : openedWind ((s.setRound (takenOffRound s.round r t)).setFlight (takenOffFlight s r t)) r.jump t =
      openedWind s r.jump t := by
    unfold openedWind
    rw [State.setFlight_round, State.setRound_round, hA, hB]
    rfl
  have hwork : takeoffWork s r t =
      (((openContext ((s.setRound (takenOffRound s.round r t)).setFlight (takenOffFlight s r t)) r.jump t).setWind
        (startSnapshot (openContext ((s.setRound (takenOffRound s.round r t)).setFlight (takenOffFlight s r t)) r.jump t).wind
          (openContext ((s.setRound (takenOffRound s.round r t)).setFlight (takenOffFlight s r t)) r.jump t).clock)).post
        (.tkof r.jump r.bib t (r.departureTime.map (fun d => elapsed t d)) r.speed
          (r.flags.speedInvalid || r.speed.isNone))).applyStaged r.jump := rfl
  rw [hwork, openContext_eq, hopened]
  rfl

theorem takeoffWork_becomes (s : State) (r : Record) (t : HillTime) :
    Becomes (takeoffWork s r t) { s with
      round := takenOffRound s.round r t, flight := takenOffFlight s r t
      wind := startSnapshot (openedWind s r.jump t) s.clock
      start := { s.start with
        juryGate := (s.start.stagedFor r.jump).getD s.start.juryGate
        staged := if (s.start.stagedFor r.jump).isSome = true then none else s.start.staged } } := by
  rw [takeoffWork_eq]
  exact ((((Becomes.refl s).setRound (takenOffRound s.round r t)).setFlight (takenOffFlight s r t)).setWind
    (startSnapshot (openedWind s r.jump t) s.clock)).post _ |>.applyStaged r.jump

theorem takeoffWork_posts (s : State) (r : Record) (t : HillTime) :
    Posts s (takeoffWork s r t)
      (.tkof r.jump r.bib t (r.departureTime.map (fun d => elapsed t d)) r.speed
          (r.flags.speedInvalid || r.speed.isNone) ::
        (match s.start.stagedFor r.jump with | some g => [.gate g .staged (some r.jump)] | none => [])) := by
  rw [takeoffWork_eq]
  have h : Posts s (((s.setRound (takenOffRound s.round r t)).setFlight (takenOffFlight s r t)).setWind
      (startSnapshot (openedWind s r.jump t) s.clock)) [] := (Posts.refl s).of_links rfl rfl
  exact (h.post _).applyStaged r.jump

section
variable {s : State} {t : HillTime} {rest : List HillTime} (h : s.flight.barrierT.debounce = t :: rest)
  (hdue : reached s.clock (t + 100#32) = true)
include h hdue

theorem takeoffEvent_of_inrun {r : Record} (hr : s.round.inState (fun x => x == .inrun) = some r) :
    takeoffEvent s = takeoffWork (s.setFlight { s.flight with
      barrierT := { broken := s.flight.barrierT.broken, debounce := rest } }) r t := by
  simp only [takeoffEvent, debounced_cons s.clock h, if_pos hdue, State.setFlight_round, hr]

theorem takeoffEvent_stray (hr : s.round.inState (fun x => x == .inrun) = none) :
    takeoffEvent s = (s.setFlight { s.flight with
      barrierT := { broken := s.flight.barrierT.broken, debounce := rest } }).post (.stry .takeoff t none none) := by
  simp only [takeoffEvent, debounced_cons s.clock h, if_pos hdue, State.setFlight_round, hr]

end

/-- Settles O47: the take-off, the stray edge, and the debounce not yet at its end. -/
theorem takeoffMakesAirborne : Obligations.TakeoffMakesAirborne := by
  refine ⟨?takeoff, fun now t rest s hh hd hdue hnone => ?stray, fun now t rest s hh hn => ?idle⟩
  case takeoff =>
    intro now t rest r invalid w left s hh hd hdue hr hone hinvalid hw hleft
    have hevent := takeoffEvent_of_inrun (s := s.setClock now) hd hdue hr
    have hflag : (r.flags.speedInvalid || r.speed.isNone) = invalid := by
      rw [Bool.eq_iff_iff, hinvalid, Bool.or_eq_true, Option.isNone_iff_eq_none]
    obtain ⟨x, hexec, hxb, hxp⟩ := taken_of_eq (f := takeoffEvent) hh hevent
      (takeoffWork_becomes ((s.setClock now).setFlight { s.flight with
        barrierT := { broken := s.flight.barrierT.broken, debounce := rest } }) r t)
      ((Posts.of_links (Posts.refl (s.setClock now)) rfl rfl).trans (takeoffWork_posts _ r t))
    refine ⟨x, hexec, ?_, ?_⟩
    · have hopened : openedWind ((s.setClock now).setFlight { s.flight with
          barrierT := { broken := s.flight.barrierT.broken, debounce := rest } }) r.jump t = w := hw.symm
      have hline : w.snapshot = s.wind.snapshot ∧ w.slot = s.wind.slot ∧ w.stations = s.wind.stations :=
        hopened ▸ openedWind_line _ r.jump t
      obtain ⟨hsnapshot, hslot, hstations⟩ := hline
      rw [hopened, startSnapshot_eq (v := s.wind) _ hsnapshot hslot hstations, takenOffRound, takenOffFlight, hflag, secTicks,
        Nat.mul_comm] at hxb
      rw [hleft]
      exact hxb
    · rw [hflag] at hxp
      exact hxp
  case stray =>
    have hevent := takeoffEvent_stray (s := s.setClock now) hd hdue (inrun_none (s := s.setClock now) hnone)
    exact taken_quiet (f := takeoffEvent) hh hevent boardSync_unread
  case idle =>
    refine taken_idle (f := takeoffEvent) hh ?_
    rcases hn with hd | ⟨hd, hearly⟩
    · simp only [takeoffEvent, debounced, completed, State.setClock_flight, hd, Option.map_none]
    · have hnone : debounced (s.setClock now).flight.barrierT (s.setClock now).clock = none :=
        (debounced_cons now hd).trans (if_neg (by simpa using hearly))
      simp only [takeoffEvent, hnone]

/-! The landing -/

/-- The wind receiver with the context of the record closed (R86). -/
def closedWind (s : State) (j : Nat) (stop : HillTime) : WindRx :=
  match s.round.ctxOf j with
  | some c => s.wind.setCtx c ((s.wind.ctx c).close stop)
  | none => s.wind

/-- The summaries of the record formed of the receiver `w` (R124). -/
def awaitingSummaries (s : State) (j : Nat) (w : WindRx) : List Summary :=
  match s.round.ctxOf j with
  | some c => sectorSummaries s.scoring.sectors w.stations (w.ctx c)
  | none => []

theorem enterAwaiting_eq (s : State) (r' : Record) (stop : HillTime) (kept counted : Nat) :
    enterAwaiting s r' stop kept counted =
      (((s.setWind (closedWind s r'.jump stop)).modifyRecord r'.jump
        (fun _ => { r' with summaries := awaitingSummaries s r'.jump (closedWind s r'.jump stop) })).startClearance
        (plusTicks stop (secTicks s.start.timing.clearance))).post
        (.prop (proposalNotice { r' with summaries := awaitingSummaries s r'.jump (closedWind s r'.jump stop) }
          kept counted)) := by
  unfold enterAwaiting closeContext closedWind awaitingSummaries
  cases s.round.ctxOf r'.jump <;> rfl

/-- A record enters AWAITING: its context closed, its summaries formed, the clearance timer started, PROP sent (R119,
R120, R124). -/
theorem enterAwaiting_spec (s : State) (r' : Record) (stop : HillTime) (kept counted : Nat) :
    EntersAwaiting s r' stop (enterAwaiting s r' stop kept counted) kept counted := by
  refine ⟨closedWind s r'.jump stop, awaitingSummaries s r'.jump (closedWind s r'.jump stop), ?_, ?_, ?_, ?_⟩
  · unfold closedWind
    cases s.round.ctxOf r'.jump <;> rfl
  · unfold awaitingSummaries
    cases s.round.ctxOf r'.jump <;> rfl
  · rw [enterAwaiting_eq, secTicks, Nat.mul_comm]
    have h := ((Becomes.refl s).setWind (closedWind s r'.jump stop)).modifyRecord r'.jump
      (fun _ => { r' with summaries := awaitingSummaries s r'.jump (closedWind s r'.jump stop) })
    exact (h.setRound _).post _
  · rw [enterAwaiting_eq]
    refine Posts.post (ns := []) (Posts.of_links (Posts.refl s) ?_ ?_) _ <;> rfl

/-! The landing time and the marks -/

/-- Of two times within half the range of the landing the earlier is the one nearer to it (R119). -/
theorem earlier_offset {t u landing : HillTime} (ht : (t - landing).toNat < 2147483648)
    (hu : (u - landing).toNat < 2147483648) :
    (earlier t u - landing).toNat = min (t - landing).toNat (u - landing).toNat := by
  unfold earlier reached elapsed
  simp only [decide_eq_true_eq]
  split <;> bv_omega

theorem foldl_earlier_offset {landing : HillTime} (rest : List Contact) (t : HillTime)
    (ht : (t - landing).toNat < 2147483648) (hrest : ∀ c ∈ rest, (c.time - landing).toNat < 2147483648) :
    ((rest.foldl (fun t c => earlier t c.time) t) - landing).toNat ≤ (t - landing).toNat ∧
      ∀ c ∈ rest, ((rest.foldl (fun t c => earlier t c.time) t) - landing).toNat ≤ (c.time - landing).toNat := by
  induction rest generalizing t with
  | nil => exact ⟨le_rfl, fun c hc => absurd hc List.not_mem_nil⟩
  | cons c rest ih =>
    obtain ⟨hc, hrest⟩ := List.forall_mem_cons.mp hrest
    have hmin := earlier_offset ht hc
    obtain ⟨hle, hall⟩ := ih (earlier t c.time) (by omega) hrest
    rw [List.foldl_cons]
    refine ⟨by omega, List.forall_mem_cons.mpr ⟨by omega, hall⟩⟩

/-- The earliest of contacts within half the range of one of them is that one (R119). -/
theorem landingTimeOf_eq {first : Contact} {rest : List Contact} {landing : HillTime}
    (hin : ∃ c ∈ first :: rest, c.time = landing)
    (hall : ∀ c ∈ first :: rest, (c.time - landing).toNat < 2147483648) : landingTimeOf first rest = landing := by
  obtain ⟨hfirst, hrest⟩ := List.forall_mem_cons.mp hall
  obtain ⟨hle, hmem⟩ := foldl_earlier_offset rest first.time hfirst hrest
  have hzero : (landingTimeOf first rest - landing).toNat = 0 := by
    obtain ⟨c, hc, rfl⟩ := hin
    have hself : (c.time - c.time).toNat = 0 := by simp
    rcases List.mem_cons.mp hc with rfl | hc
    · exact Nat.le_zero.mp (hle.trans hself.le)
    · exact Nat.le_zero.mp ((hmem c hc).trans hself.le)
  bv_omega

theorem markBounds_spec (l : List Contact) (lo hi : Nat) :
    (markBounds lo hi l).1 ≤ lo ∧ hi ≤ (markBounds lo hi l).2 ∧
      (∀ c ∈ l, (markBounds lo hi l).1 ≤ c.mark ∧ c.mark ≤ (markBounds lo hi l).2) ∧
      ((markBounds lo hi l).1 = lo ∨ ∃ c ∈ l, c.mark = (markBounds lo hi l).1) ∧
      ((markBounds lo hi l).2 = hi ∨ ∃ c ∈ l, c.mark = (markBounds lo hi l).2) := by
  induction l generalizing lo hi with
  | nil => simp [markBounds]
  | cons c l ih =>
    obtain ⟨hlo, hhi, hall, hlow, hhigh⟩ := ih (min lo c.mark) (max hi c.mark)
    rw [markBounds]
    refine ⟨hlo.trans (min_le_left _ _), (le_max_left _ _).trans hhi, List.forall_mem_cons.mpr
      ⟨⟨hlo.trans (min_le_right _ _), (le_max_right _ _).trans hhi⟩, hall⟩, ?_, ?_⟩
    · rcases hlow with h | ⟨d, hd, he⟩
      · rcases le_total lo c.mark with hle | hle
        · exact Or.inl (h.trans (min_eq_left hle))
        · exact Or.inr ⟨c, List.mem_cons_self, (h.trans (min_eq_right hle)).symm⟩
      · exact Or.inr ⟨d, List.mem_cons_of_mem _ hd, he⟩
    · rcases hhigh with h | ⟨d, hd, he⟩
      · rcases le_total c.mark hi with hle | hle
        · exact Or.inl (h.trans (max_eq_left hle))
        · exact Or.inr ⟨c, List.mem_cons_self, (h.trans (max_eq_right hle)).symm⟩
      · exact Or.inr ⟨d, List.mem_cons_of_mem _ hd, he⟩

/-- The bounds of the marks are the lowest and the highest of them. -/
theorem markBounds_eq {c : Contact} {l : List Contact} {lo hi : Nat} (hlo : ∃ x ∈ c :: l, x.mark = lo)
    (hlow : ∀ x ∈ c :: l, lo ≤ x.mark) (hhi : ∃ x ∈ c :: l, x.mark = hi) (hhigh : ∀ x ∈ c :: l, x.mark ≤ hi) :
    markBounds c.mark c.mark l = (lo, hi) := by
  obtain ⟨h1, h2, hall, h3, h4⟩ := markBounds_spec l c.mark c.mark
  have hbound : ∀ x ∈ c :: l, (markBounds c.mark c.mark l).1 ≤ x.mark ∧ x.mark ≤ (markBounds c.mark c.mark l).2 :=
    List.forall_mem_cons.mpr ⟨⟨h1, h2⟩, hall⟩
  have hin1 : ∃ x ∈ c :: l, x.mark = (markBounds c.mark c.mark l).1 :=
    h3.elim (fun h => ⟨c, List.mem_cons_self, h.symm⟩) fun ⟨x, hx, h⟩ => ⟨x, List.mem_cons_of_mem _ hx, h⟩
  have hin2 : ∃ x ∈ c :: l, x.mark = (markBounds c.mark c.mark l).2 :=
    h4.elim (fun h => ⟨c, List.mem_cons_self, h.symm⟩) fun ⟨x, hx, h⟩ => ⟨x, List.mem_cons_of_mem _ hx, h⟩
  obtain ⟨x, hx, rfl⟩ := hlo
  obtain ⟨y, hy, rfl⟩ := hhi
  obtain ⟨u, hu, hu1⟩ := hin1
  obtain ⟨v, hv, hv1⟩ := hin2
  refine Prod.ext (Nat.le_antisymm (hbound x hx).1 (hu1 ▸ hlow u hu)) (Nat.le_antisymm (hv1 ▸ hhigh v hv) (hbound y hy).2)

/-! The sector summaries -/

theorem filterMap_ite {α β : Type} (p : α → Bool) (f : α → β) (l : List α) :
    l.filterMap (fun x => if p x then some (f x) else none) = (l.filter p).map f := by
  induction l with
  | nil => rfl
  | cons x l ih => cases hp : p x <;> simp [hp, ih]

/-- The means of a sector's stations, of 2 samples and more each (R124). -/
theorem stationMeans_sector (stations : List (Option Station)) (c : Context) (k : Nat) :
    ((stationMeans stations c).filter (fun m => m.1 == k)).map (fun m => m.2) =
      (stations.zip c.sums).filterMap (fun e => e.1.bind (fun st =>
        if st.sector = k ∧ 2 ≤ e.2.2 then some (roundDiv e.2.1 e.2.2) else none)) := by
  unfold stationMeans
  rw [List.filter_filterMap, List.map_filterMap]
  refine List.filterMap_congr fun e _ => ?_
  obtain ⟨_ | st, sum, count⟩ := e
  · rfl
  · by_cases hk : st.sector = k <;> by_cases hc : 2 ≤ count <;> simp [hk, hc]

theorem sectorSummaries_eq {sectors : List Sector} {stations : List (Option Station)} {c : Context}
    {means : Nat → List Int}
    (hm : ∀ k, ((stationMeans stations c).filter (fun m => m.1 == k)).map (fun m => m.2) = means k) :
    sectorSummaries sectors stations c = ((List.range sectors.length).filter (fun k => !(means (k + 1)).isEmpty)).map
      (fun k =>
        { sector := k + 1, mean := roundDiv (means (k + 1)).sum (means (k + 1)).length
          stations := (means (k + 1)).length }) := by
  rw [← filterMap_ite]
  refine List.filterMap_congr fun k _ => ?_
  rw [sectorSummary, hm]
  cases means (k + 1) <;> rfl

/-! The two ends of a flight -/

theorem landingLimitExpiry_of_due {s : State} {r : Record} {expiry : HillTime}
    (hl : s.flight.landingLimit = some { jump := r.jump, expiry := expiry }) (hr : s.only r.jump r)
    (hs : r.state = .airborne) (hdue : reached s.clock expiry = true) :
    landingLimitExpiryEvent s = enterAwaiting (s.setFlight { s.flight with landingLimit := none })
      { r with state := .awaiting, flags := { r.flags with noContact := true } } expiry 0 0 := by
  have hexpect := State.expect_of_only (s := s.setFlight { s.flight with landingLimit := none }) hr hs
  simp only [landingLimitExpiryEvent, hl, if_pos hdue, hexpect]

theorem proposalMoment_of_due {s : State} {r : Record} {w : Watch} {first : Contact} {rest : List Contact}
    (hw : s.flight.watch = some w) (hk : w.kept = first :: rest) (hr : s.only r.jump r) (hj : r.jump = w.jump)
    (hs : r.state = .airborne) (hdue : reached s.clock w.proposalAt = true) :
    proposalMomentEvent s = judgeLanding (s.setFlight { s.flight with watch := none }) r first rest := by
  have hexpect := State.expect_of_only (s := s.setFlight { s.flight with watch := none }) hr hs
  rw [hj] at hexpect
  simp only [proposalMomentEvent, hw, if_pos hdue, hexpect, hk]

/-- The landing judged by its counted contacts (R119). -/
theorem judgeLanding_eq {s : State} {r : Record} {first : Contact} {rest counted : List Contact} {landing : HillTime}
    {mark top : Nat} (hland : landingTimeOf first rest = landing)
    (hcounted : counted = countedOf (first :: rest) landing (msTicks s.start.timing.pairing))
    (hlo : ∃ c ∈ counted, c.mark = mark) (hlow : ∀ c ∈ counted, mark ≤ c.mark)
    (hhi : ∃ c ∈ counted, c.mark = top) (hhigh : ∀ c ∈ counted, c.mark ≤ top) :
    judgeLanding s r first rest =
      enterAwaiting s
        { r with
          landingTime := some landing, landingMark := some mark, spread := some (top - mark)
          proposed := some (s.flight.base + mark)
          flightTime := r.takeoffTime.map (fun x => (landing - x).toNat), state := .awaiting
          flags := { r.flags with
            ambiguous := r.flags.ambiguous || decide (s.start.timing.spread < top - mark) } }
        landing (first :: rest).length counted.length := by
  cases counted with
  | nil =>
    obtain ⟨c, hc, _⟩ := hlo
    exact absurd hc List.not_mem_nil
  | cons c l =>
    simp only [judgeLanding, hland, ← hcounted, markBounds_eq hlo hlow hhi hhigh]
    rfl

/-- What a record enters AWAITING with is what the event leaves, but for the links and the board. -/
theorem EntersAwaiting.taken {s u : State} {now : HillTime} {f : State → State} {r' : Record} {stop : HillTime}
    {kept counted : Nat} (hh : s.held = false) (hf : f (s.setClock now) = enterAwaiting u r' stop kept counted)
    (hc : u.control = s.control) (hk : u.console = s.console) :
    ∃ t, Machine.taken now s (withBoard f) = .next t ∧ EntersAwaiting u r' stop t kept counted := by
  obtain ⟨w, summaries, hw, hsum, hbecomes, hposts⟩ := enterAwaiting_spec u r' stop kept counted
  obtain ⟨t, hexec, htb, htp⟩ := taken_of_eq hh hf hbecomes
    ((Posts.of_links (Posts.refl (s.setClock now)) hc hk).trans hposts)
  refine ⟨t, hexec, w, summaries, hw, hsum, htb, fun l => (htp l).trans ?_⟩
  cases l
  · exact congrArg (fun x : Link => x.posts _) hc.symm
  · exact congrArg (fun x : Link => x.posts _) hk.symm

/-- Settles O48: the landing limit, the proposal moment, and the summaries. -/
theorem flightEndsInAwaiting : Obligations.FlightEndsInAwaiting := by
  refine ⟨fun now expiry r s hh hl hr hs => ⟨fun hdue => ?limit, fun hearly => ?limitIdle⟩, ?proposal,
    fun sectors stations c means hmeans => sectorSummaries_eq fun k => by rw [hmeans, stationMeans_sector]⟩
  case limit =>
    exact EntersAwaiting.taken (f := landingLimitExpiryEvent) hh
      (landingLimitExpiry_of_due (s := s.setClock now) hl hr hs hdue) rfl rfl
  case limitIdle =>
    refine taken_idle (f := landingLimitExpiryEvent) hh ?_
    simp only [landingLimitExpiryEvent, State.setClock_flight, hl]
    exact if_neg (by simpa using hearly)
  case proposal =>
    intro now landing r w counted mark top s hh hw hr hj hs hin hall hcounted hlo hlow hhi hhigh
    refine ⟨fun hdue => ?_, fun hearly => ?_⟩
    · cases hk : w.kept with
      | nil =>
        obtain ⟨c, hc, _⟩ := hin
        exact absurd (hk ▸ hc) List.not_mem_nil
      | cons first rest =>
        rw [hk] at hin hall hcounted
        have hland := landingTimeOf_eq hin hall
        have hcounted' : counted = countedOf (first :: rest) landing (msTicks s.start.timing.pairing) := by
          rw [hcounted, countedOf, msTicks, Nat.mul_comm]
          rfl
        exact EntersAwaiting.taken (f := proposalMomentEvent) hh
          ((proposalMoment_of_due (s := s.setClock now) hw hk hr hj hs hdue).trans
            (judgeLanding_eq (s := (s.setClock now).setFlight { s.flight with watch := none }) hland hcounted' hlo hlow hhi
              hhigh)) rfl rfl
    · refine taken_idle (f := proposalMomentEvent) hh ?_
      simp only [proposalMomentEvent, State.setClock_flight, hw]
      exact if_neg (by simpa using hearly)

end Sys2Proof.Machine
end

