-- ==== Sys2Proof/Proofs/StripLine.lean ====
section
/-! The Strip Line: which unit is polled next, what an outcome makes of a unit, and the contacts of an answer (sections
6.4, 6.5). -/

namespace Sys2Proof.Machine

/-! The next unit -/

theorem indicesFrom_ge {α : Type} (p : α → Bool) (l : List (Option α)) (k : Nat) : ∀ i ∈ indicesFrom p k l, k ≤ i :=
  fun i hi => by
    obtain ⟨_, _, h⟩ := (mem_indicesFrom l k i).mp hi
    omega

theorem indicesFrom_sorted {α : Type} (p : α → Bool) (l : List (Option α)) (k : Nat) :
    (indicesFrom p k l).Pairwise (· < ·) := by
  induction l generalizing k with
  | nil => exact List.Pairwise.nil
  | cons e l ih =>
    cases e with
    | none => exact ih (k + 1)
    | some a =>
      rw [indicesFrom]
      split
      · exact List.pairwise_cons.mpr ⟨fun i hi => indicesFrom_ge p l (k + 1) i hi, ih (k + 1)⟩
      · exact ih (k + 1)

/-- In an increasing list the first entry that passes is the least that does. -/
theorem find?_eq_least {l : List Nat} {p : Nat → Bool} {i : Nat} (hl : l.Pairwise (· < ·)) (hi : i ∈ l) (hp : p i = true)
    (hleast : ∀ k ∈ l, p k = true → i ≤ k) : l.find? p = some i := by
  induction l with
  | nil => exact absurd hi List.not_mem_nil
  | cons k l ih =>
    obtain ⟨hk, hl⟩ := List.pairwise_cons.mp hl
    rw [List.find?_cons]
    rcases List.mem_cons.mp hi with rfl | hi
    · rw [hp]
    · have hnot : p k = false := by
        by_contra hpk
        exact absurd (hleast k List.mem_cons_self (by simpa using hpk)) (hk i hi).not_ge
      rw [hnot]
      exact ih hl hi fun j hj => hleast j (List.mem_cons_of_mem _ hj)

theorem head?_eq_least {l : List Nat} {i : Nat} (hl : l.Pairwise (· < ·)) (hi : i ∈ l) (hleast : ∀ k ∈ l, i ≤ k) :
    l.head? = some i := by
  cases l with
  | nil => exact absurd hi List.not_mem_nil
  | cons k l =>
    rcases List.mem_cons.mp hi with rfl | hi
    · rfl
    · exact absurd (hleast k List.mem_cons_self) ((List.pairwise_cons.mp hl).1 i hi).not_ge

theorem nextUnit_of_none {units : List (Option StripUnit)} (last : Option Nat) (h : ∀ k, entry units k = none) :
    nextUnit units last = none := by
  have hnil : indicesWhere (fun _ => true) units = [] := List.eq_nil_iff_forall_not_mem.mpr fun i hi => by
    obtain ⟨a, ha, _⟩ := mem_indicesWhere.mp hi
    simp [h i] at ha
  unfold nextUnit
  rw [hnil]
  cases last <;> rfl

/-- The configured unit with the next higher index is polled next, from the lowest again behind the highest (R114). -/
theorem nextUnit_eq {units : List (Option StripUnit)} {last : Option Nat} {i : Nat} {x : StripUnit}
    (hi : entry units i = some x)
    (hlast : ∀ n, last = some n → (n < i ∧ ∀ k, n < k → k < i → entry units k = none) ∨
      ((∀ k, n < k → entry units k = none) ∧ ∀ k, k < i → entry units k = none))
    (hnone : last = none → ∀ k, k < i → entry units k = none) : nextUnit units last = some i := by
  have hin : i ∈ indicesWhere (fun _ => true) units := mem_indicesWhere.mpr ⟨x, hi, rfl⟩
  have hsorted : (indicesWhere (fun _ => true) units).Pairwise (· < ·) := indicesFrom_sorted _ units 1
  have hconf : ∀ k ∈ indicesWhere (fun _ => true) units, entry units k ≠ none := fun k hk => by
    obtain ⟨a, ha, _⟩ := mem_indicesWhere.mp hk
    simp [ha]
  have hhead (hlow : ∀ k, k < i → entry units k = none) : (indicesWhere (fun _ => true) units).head? = some i :=
    head?_eq_least hsorted hin fun k hk => Nat.le_of_not_lt fun hlt => hconf k hk (hlow k hlt)
  unfold nextUnit
  cases last with
  | none => exact hhead (hnone rfl)
  | some n =>
    rcases hlast n rfl with ⟨hlt, hbetween⟩ | ⟨habove, hlow⟩
    · have hfind := find?_eq_least (p := fun k => decide (n < k)) hsorted hin (by simpa using hlt) fun k hk hp =>
        Nat.le_of_not_lt fun hki => hconf k hk (hbetween k (by simpa using hp) hki)
      simp only [hfind]
    · have hfind : (indicesWhere (fun _ => true) units).find? (fun k => decide (n < k)) = none :=
        List.find?_eq_none.mpr fun k hk hp => hconf k hk (habove k (by simpa using hp))
      simp only [hfind, hhead hlow]

/-! Outcomes -/

section
variable (s : State) (i address : Nat) (x y : Option UnitState) (cause : UntaCause)

theorem State.noteUnit_same : s.noteUnit i address x x cause = s := if_pos rfl

variable {x y}

theorem State.noteUnit_of_ne (h : x ≠ y) :
    s.noteUnit i address x y cause = s.post (.unta i address x y cause s.clock) := if_neg h

variable (x y)

@[simp] theorem State.noteUnit_flight : (s.noteUnit i address x y cause).flight = s.flight := by
  unfold State.noteUnit
  split <;> rfl

@[simp] theorem State.noteUnit_round : (s.noteUnit i address x y cause).round = s.round := by
  unfold State.noteUnit
  split <;> rfl

@[simp] theorem State.noteUnit_start : (s.noteUnit i address x y cause).start = s.start := by
  unfold State.noteUnit
  split <;> rfl

@[simp] theorem State.noteUnit_corridor : (s.noteUnit i address x y cause).corridor = s.corridor := by
  unfold State.noteUnit
  split <;> rfl

@[simp] theorem State.noteUnit_board : (s.noteUnit i address x y cause).board = s.board := by
  unfold State.noteUnit
  split <;> rfl

end

section
variable (s : State) (i : Nat) (x : StripUnit) (good : Bool)

theorem applyUnitOutcome_flight : (applyUnitOutcome s i x good).flight = { s.flight with
    units := setEntry s.flight.units i (some (unitAfter good x)) } := State.noteUnit_flight ..

/-- An outcome of a unit changes nothing that a composed text reads. -/
theorem applyUnitOutcome_unread :
    (applyUnitOutcome s i x good).board = s.board ∧ (applyUnitOutcome s i x good).round = s.round ∧
      (applyUnitOutcome s i x good).start = s.start ∧ (applyUnitOutcome s i x good).corridor = s.corridor :=
  ⟨State.noteUnit_board .., State.noteUnit_round .., State.noteUnit_start .., State.noteUnit_corridor ..⟩

variable {s i x good} {x' : StripUnit}

theorem applyUnitOutcome_of_same (h : unitAfter good x = x') (hsame : x'.state = x.state) :
    applyUnitOutcome s i x good = s.setFlight { s.flight with units := setEntry s.flight.units i (some x') } := by
  simp only [applyUnitOutcome, h, hsame]
  exact State.noteUnit_same ..

theorem applyUnitOutcome_of_ne (h : unitAfter good x = x') (hne : x.state ≠ x'.state) :
    applyUnitOutcome s i x good = (s.setFlight { s.flight with units := setEntry s.flight.units i (some x') }).post
      (.unta i x.address (some x.state) (some x'.state) (if good then .recovered else .misses) s.clock) := by
  simp only [applyUnitOutcome, h]
  exact State.noteUnit_of_ne _ _ _ _ fun he => hne (Option.some.inj he)

theorem unitAfter_miss_silent (h : x.state = .online) (hm : 6 ≤ min (x.miss + 1) 15) :
    unitAfter false x = { x with miss := min (x.miss + 1) 15, good := 0, state := .silent } := by
  simp [unitAfter, countUp, h, hm]

theorem unitAfter_miss_same (h : x.state = .silent ∨ min (x.miss + 1) 15 < 6) :
    unitAfter false x = { x with miss := min (x.miss + 1) 15, good := 0 } := by
  obtain ⟨address, firstMark, orientation, state, miss, good⟩ := x
  cases state
  case silent => rfl
  case online =>
    have hlow := h.resolve_left (by simp)
    exact congrArg (fun y => StripUnit.mk _ _ _ y _ _) (if_neg hlow.not_ge)

theorem unitAfter_good_online (h : x.state = .silent) (hg : 2 ≤ min (x.good + 1) 15) :
    unitAfter true x = { x with good := min (x.good + 1) 15, miss := 0, state := .online } := by
  simp [unitAfter, countUp, h, hg]

theorem unitAfter_good_same (h : x.state = .online ∨ min (x.good + 1) 15 < 2) :
    unitAfter true x = { x with good := min (x.good + 1) 15, miss := 0 } := by
  obtain ⟨address, firstMark, orientation, state, miss, good⟩ := x
  cases state
  case online => rfl
  case silent =>
    have hlow := h.resolve_left (by simp)
    exact congrArg (fun y => StripUnit.mk _ _ _ y _ _) (if_neg hlow.not_ge)

end

theorem composed_of_kept {s t : State} (hr : t.round = s.round) (hs : t.start = s.start) (hc : t.corridor = s.corridor)
    (hb : t.board = s.board) (i : Nat) (p : Panel) (row : Nat) : t.composed i p row = s.composed i p row := by
  unfold State.composed
  rw [hr, hs, hc, hb]

/-! Contacts -/

theorem takeContact_of_none {s : State} (unit : Nat) (c : Contact) (h : ∀ r ∈ s.round.records, r.state ≠ .airborne) :
    takeContact unit s c = s.post (.stry .strip c.time (some unit) (some c.mark)) := by
  have hnone : s.round.inState (fun x => x == .airborne) = none := Round.inState_eq_none fun r hr => by simp [h r hr]
  simp only [takeContact, hnone]

theorem takeContact_of_airborne {s : State} {r : Record} {t : HillTime} (unit : Nat) (c : Contact)
    (hr : s.round.inState (fun x => x == .airborne) = some r) (ht : r.takeoffTime = some t) :
    takeContact unit s c =
      if reached c.time t then keepContact s r c else s.post (.stry .strip c.time (some unit) (some c.mark)) := by
  simp only [takeContact, hr, ht]

theorem keepContact_unread (s : State) (r : Record) (c : Contact) :
    (keepContact s r c).board = s.board ∧ ∀ i p row, (keepContact s r c).composed i p row = s.composed i p row := by
  unfold keepContact
  cases s.flight.watch with
  | none => exact ⟨rfl, fun _ _ _ => rfl⟩
  | some w =>
    simp only
    split_ifs
    · exact ⟨rfl, fun _ _ _ => rfl⟩
    · exact ⟨rfl, composed_of_flags (f := fun x => { x.flags with crowded := true }) (Round.records_modify ..)⟩

/-- A contact changes no composed text: no item shows a flag (R157, R159). -/
theorem takeContact_unread (unit : Nat) (s : State) (c : Contact) :
    (takeContact unit s c).board = s.board ∧ ∀ i p row, (takeContact unit s c).composed i p row = s.composed i p row := by
  unfold takeContact
  cases s.round.inState (fun x => x == .airborne) with
  | none => exact ⟨rfl, fun _ _ _ => rfl⟩
  | some r =>
    simp only
    split_ifs
    · exact keepContact_unread s r c
    · exact ⟨rfl, fun _ _ _ => rfl⟩

theorem foldl_takeContact_unread (unit : Nat) (cs : List Contact) (s : State) :
    (cs.foldl (takeContact unit) s).board = s.board ∧
      ∀ i p row, (cs.foldl (takeContact unit) s).composed i p row = s.composed i p row := by
  induction cs generalizing s with
  | nil => exact ⟨rfl, fun _ _ _ => rfl⟩
  | cons c cs ih =>
    obtain ⟨hb, hc⟩ := ih (takeContact unit s c)
    obtain ⟨hb1, hc1⟩ := takeContact_unread unit s c
    exact ⟨hb.trans hb1, fun i p row => (hc i p row).trans (hc1 i p row)⟩

/-! The Strip Line's rows -/

section
variable {s : State} {began : HillTime} {bytes : List Byte} {sl : StripSlot} (hs : s.flight.stripSlot = some sl)
  (ha : sl.answered = false) (hl : laterThan s.clock sl.ends = false) (hb : reached began (sl.ends - 500#32) = true)
include ha hl hb

/-- A frame whole within the slot of a poll not yet answered is its answer (R114). -/
theorem stripFrame_isAnswer : ¬(sl.answered = true ∨ wholeWithin began s.clock sl.ends 500 = false) := by
  have hwhole : wholeWithin began s.clock sl.ends 500 = true := by
    rw [wholeWithin, hb, notPast, hl]
    rfl
  simp [ha, hwhole]

include hs

theorem stripAnswerEvent_of_void (hv : sl.void = true) :
    stripAnswerEvent s ⟨began, bytes⟩ = s.setFlight { s.flight with stripSlot := some { sl with answered := true } } := by
  simp only [stripAnswerEvent, hs]
  rw [if_neg (stripFrame_isAnswer ha hl hb), if_pos hv]

variable {x : StripUnit} (hv : sl.void = false) (hx : entry s.flight.units sl.unit = some x)
include hv hx

theorem stripAnswerEvent_of_bad (hbad : stripWellFormed sl.address (stripAnswerOf bytes) = none) :
    stripAnswerEvent s ⟨began, bytes⟩ =
      applyUnitOutcome (s.setFlight { s.flight with stripSlot := some { sl with answered := true } }) sl.unit x false := by
  have hnot : ¬sl.void = true := by simp [hv]
  simp only [stripAnswerEvent, hs]
  rw [if_neg (stripFrame_isAnswer ha hl hb), if_neg hnot]
  simp only [State.setFlight_flight, hx, hbad]

theorem stripAnswerEvent_of_good {es : List StripEntry}
    (hgood : stripWellFormed sl.address (stripAnswerOf bytes) = some es) :
    stripAnswerEvent s ⟨began, bytes⟩ = (contactsOf x es s.clock).foldl (takeContact sl.unit)
      (applyUnitOutcome (s.setFlight { s.flight with stripSlot := some { sl with answered := true } }) sl.unit x true) := by
  have hnot : ¬sl.void = true := by simp [hv]
  simp only [stripAnswerEvent, hs]
  rw [if_neg (stripFrame_isAnswer ha hl hb), if_neg hnot]
  simp only [State.setFlight_flight, hx, hgood]

end

theorem stripWellFormed_eq_none {polled : Nat} {frame : Option StripAnswer}
    (h : ∀ a, frame = some a → a.address ≠ polled ∨ ∃ e ∈ a.entries, 23 < e.localMark) :
    stripWellFormed polled frame = none := by
  cases frame with
  | none => rfl
  | some a =>
    refine if_neg fun ⟨hadd, hall⟩ => ?_
    rcases h a rfl with hne | ⟨e, he, hgt⟩
    · exact hne hadd
    · have hle : e.localMark ≤ 23 := by simpa using List.all_eq_true.mp hall e he
      omega

theorem stripWellFormed_eq_some {polled : Nat} {a : StripAnswer} (hadd : a.address = polled)
    (hall : ∀ e ∈ a.entries, e.localMark ≤ 23) : stripWellFormed polled (some a) = some a.entries :=
  if_pos ⟨hadd, List.all_eq_true.mpr fun e he => by simpa using hall e he⟩

theorem stripAnswer_discarded {s : State} {now began : HillTime} {bytes : List Byte} (hh : s.held = false)
    (hn : s.flight.stripSlot = none ∨ ∃ sl, s.flight.stripSlot = some sl ∧
      (sl.answered = true ∨ laterThan now sl.ends = true ∨ reached began (sl.ends - 500#32) = false)) :
    exec (.stripAnswer now ⟨began, bytes⟩) s = .next (s.setClock now) := by
  refine taken_idle (f := fun s => stripAnswerEvent s ⟨began, bytes⟩) hh ?_
  rcases hn with hs | ⟨sl, hs, hout⟩
  · simp only [stripAnswerEvent, State.setClock_flight, hs]
  · simp only [stripAnswerEvent, State.setClock_flight, hs]
    refine if_pos ?_
    rcases hout with h | h | h
    · exact Or.inl h
    · refine Or.inr ?_
      simp [wholeWithin, notPast, h]
    · refine Or.inr ?_
      rw [wholeWithin, h, Bool.false_and]

/-- The miss of a strip slot that ends without an answer (R114, R116). -/
def stripMiss (s : State) (sl : StripSlot) : State :=
  if sl.answered = true ∨ sl.void = true then s
  else match entry s.flight.units sl.unit with
    | none => s
    | some u => applyUnitOutcome s sl.unit u false

/-- What follows a strip slot that has ended: the next unit's poll in READY and ROUND (R114). -/
def afterStripSlot (m : State) (stop : HillTime) : State :=
  match m.round.part with
  | .unconfigured => m.setFlight { m.flight with stripSlot := none }
  | .ready | .round => m.setFlight (beginStripSlot m.flight stop)

theorem stripSlotEndEvent_of_due {s : State} {sl : StripSlot} (hs : s.flight.stripSlot = some sl)
    (hdue : reached s.clock sl.ends = true) : stripSlotEndEvent s = afterStripSlot (stripMiss s sl) sl.ends := by
  simp only [stripSlotEndEvent, hs]
  exact if_pos hdue

theorem afterStripSlot_of_none {m : State} {stop : HillTime}
    (h : m.round.part = .unconfigured ∨ ∀ k, entry m.flight.units k = none) :
    afterStripSlot m stop = m.setFlight { m.flight with stripSlot := none } := by
  unfold afterStripSlot
  rcases h with h | h
  · rw [h]
  · have hbegin : beginStripSlot m.flight stop = { m.flight with stripSlot := none } := by
      simp only [beginStripSlot, nextUnit_of_none _ h]
    cases m.round.part with
    | unconfigured => rfl
    | ready | round => rw [hbegin]

theorem afterStripSlot_of_next {m : State} {stop : HillTime} {i : Nat} {x : StripUnit}
    (hp : m.round.part ≠ .unconfigured) (hx : entry m.flight.units i = some x)
    (hnext : nextUnit m.flight.units m.flight.lastPolled = some i) :
    afterStripSlot m stop = m.setFlight { m.flight with
      lastPolled := some i
      stripSlot := some { unit := i, address := x.address, ends := stop + 500#32, answered := false, void := false } } := by
  have hbegin : beginStripSlot m.flight stop = { m.flight with
      lastPolled := some i
      stripSlot := some { unit := i, address := x.address, ends := stop + 500#32, answered := false, void := false } } := by
    simp only [beginStripSlot, hnext, hx]
    rfl
  unfold afterStripSlot
  cases hpart : m.round.part with
  | unconfigured => exact (hp hpart).elim
  | ready | round => rw [hbegin]

/-- An outcome of a unit needs nothing of the board. -/
theorem boardSync_unitOutcome {a b : State} (i : Nat) (x : StripUnit) (good : Bool) (f : Flight → Flight)
    (hboard : b.board = a.board := by rfl) (hround : b.round = a.round := by rfl) (hstart : b.start = a.start := by rfl)
    (hcorridor : b.corridor = a.corridor := by rfl) :
    boardSync false a ((applyUnitOutcome b i x good).setFlight (f (applyUnitOutcome b i x good).flight)) =
      (applyUnitOutcome b i x good).setFlight (f (applyUnitOutcome b i x good).flight) := by
  obtain ⟨hb, hr, hs, hc⟩ := applyUnitOutcome_unread b i x good
  have hr' := hr.trans hround
  have hs' := hs.trans hstart
  have hc' := hc.trans hcorridor
  exact boardSync_unread (hb.trans hboard) (congrArg Round.table hr') (congrArg StartLight.light hs')
    (congrArg StartLight.juryGate hs') (congrArg Corridor.status hc') (congrArg Corridor.live hc')

/-- Settles O49: the answer discarded, void or judged, the slot's end, the outcomes and the contacts. -/
theorem stripAnswersAreJudged : Obligations.StripAnswersAreJudged := by
  refine ⟨fun now began bytes s hh hn => stripAnswer_discarded hh hn,
    fun now began bytes sl s hh hs ha hv hl hb => ?void,
    fun now began bytes sl x u s hh hs ha hv hl hb hx hu => ⟨fun hbad => ?bad, fun a hsome hadd hall => ?good⟩,
    fun now sl m s hh hs hm => ?ends, fun i x s hi => ?outcome,
    fun unit c s hnone => takeContact_of_none unit c hnone, fun unit c r t s hr ht => ?contact⟩
  case void =>
    exact taken_quiet (f := fun s => stripAnswerEvent s ⟨began, bytes⟩) hh
      (stripAnswerEvent_of_void (s := s.setClock now) hs ha hl hb hv) boardSync_unread
  case bad =>
    have hevent := stripAnswerEvent_of_bad (s := s.setClock now) hs ha hl hb hv hx (stripWellFormed_eq_none hbad)
    rw [State.setClock_flight, ← hu] at hevent
    exact taken_quiet (f := fun s => stripAnswerEvent s ⟨began, bytes⟩) hh hevent
      (boardSync_unitOutcome sl.unit x false id (by rw [hu]; rfl) (by rw [hu]; rfl) (by rw [hu]; rfl) (by rw [hu]; rfl))
  case good =>
    have hevent := stripAnswerEvent_of_good (s := s.setClock now) hs ha hl hb hv hx
      (hsome ▸ stripWellFormed_eq_some hadd hall)
    rw [State.setClock_flight, ← hu] at hevent
    refine taken_quiet (f := fun s => stripAnswerEvent s ⟨began, bytes⟩) hh (hevent.trans ?_) ?_
    · refine congrArg (fun cs => List.foldl (takeContact sl.unit) (applyUnitOutcome u sl.unit x true) cs) ?_
      refine List.map_congr_left fun e _ => ?_
      unfold globalMark
      cases x.orientation <;> rfl
    · obtain ⟨hboard, hcomposed⟩ := foldl_takeContact_unread sl.unit
        (a.entries.map (fun e =>
          { mark := match x.orientation with
              | .ascending => x.firstMark + e.localMark
              | .descending => x.firstMark + 23 - e.localMark
            time := now - BitVec.ofNat 32 e.age, arrival := now : Contact })) (applyUnitOutcome u sl.unit x true)
      obtain ⟨hb', hr', hs', hc'⟩ := applyUnitOutcome_unread u sl.unit x true
      have hkept : u.board = s.board ∧ u.round = s.round ∧ u.start = s.start ∧ u.corridor = s.corridor := by
        rw [hu]
        exact ⟨rfl, rfl, rfl, rfl⟩
      obtain ⟨hboardU, hroundU, hstartU, hcorridorU⟩ := hkept
      have hall := (hboard.trans hb').trans hboardU
      refine boardSync_quiet (congrArg Board.panels hall) (congrArg Board.line hall) fun i p row =>
        (hcomposed i p row).trans ?_
      exact composed_of_kept (hr'.trans hroundU) (hs'.trans hstartU) (hc'.trans hcorridorU) (hb'.trans hboardU) i p row
  case ends =>
    have hm' : stripMiss (s.setClock now) sl = m := by
      rcases hm with ⟨h, rfl⟩ | ⟨ha, hv, x, hx, rfl⟩
      · exact if_pos h
      · have hx' : entry (s.setClock now).flight.units sl.unit = some x := hx
        simp only [stripMiss, ha, hv, Bool.false_eq_true, or_self, if_false, hx']
    have hquiet (f : Flight → Flight) : boardSync false (s.setClock now) (m.setFlight (f m.flight)) =
        m.setFlight (f m.flight) := by
      rcases hm with ⟨_, rfl⟩ | ⟨_, _, x, _, rfl⟩
      · exact boardSync_unread
      · exact boardSync_unitOutcome sl.unit x false f
    have hkept : m.round = s.round ∧ m.flight.lastPolled = s.flight.lastPolled := by
      rcases hm with ⟨_, rfl⟩ | ⟨_, _, x, _, rfl⟩
      · exact ⟨rfl, rfl⟩
      · obtain ⟨_, hr, _, _⟩ := applyUnitOutcome_unread (s.setClock now) sl.unit x false
        refine ⟨hr, ?_⟩
        rw [applyUnitOutcome_flight]
        rfl
    obtain ⟨hround, hlast⟩ := hkept
    have hevent (hdue : reached now sl.ends = true) := stripSlotEndEvent_of_due (s := s.setClock now) hs hdue
    rw [hm'] at hevent
    refine ⟨fun hearly => ?_, fun hdue hn => ?_, fun i x hdue hp hx hnext hfirst => ?_⟩
    · refine taken_idle (f := stripSlotEndEvent) hh ?_
      simp only [stripSlotEndEvent, State.setClock_flight, hs]
      exact if_neg (by simpa using hearly)
    · exact taken_quiet (f := stripSlotEndEvent) hh
        ((hevent hdue).trans (afterStripSlot_of_none (by rwa [hround]))) (hquiet fun f => { f with stripSlot := none })
    · rw [← hround] at hp
      rw [← hlast] at hnext hfirst
      exact taken_quiet (f := stripSlotEndEvent) hh
        ((hevent hdue).trans (afterStripSlot_of_next hp hx (nextUnit_eq hx hnext hfirst)))
        (hquiet fun f => { f with
          lastPolled := some i
          stripSlot := some { unit := i, address := x.address, ends := sl.ends + 500#32, answered := false, void := false } })
  case outcome =>
    refine ⟨fun hs hm => applyUnitOutcome_of_ne (unitAfter_miss_silent hs hm) (by simp [hs]) |>.trans (by rw [hs]; rfl),
      fun hs => applyUnitOutcome_of_same (unitAfter_miss_same hs) rfl,
      fun hs hg => applyUnitOutcome_of_ne (unitAfter_good_online hs hg) (by simp [hs]) |>.trans (by rw [hs]; rfl),
      fun hs => applyUnitOutcome_of_same (unitAfter_good_same hs) rfl⟩
  case contact =>
    have htake := takeContact_of_airborne unit c hr ht
    refine ⟨fun h => htake.trans (if_neg (by simpa using h)), fun h hw => htake.trans ((if_pos h).trans ?_),
      fun w h hw => htake.trans ((if_pos h).trans ?_)⟩
    · simp only [keepContact, hw]
      rfl
    · simp only [keepContact, hw]
      rfl

end Sys2Proof.Machine
end

