-- ==== Sys2Proof/Proofs/Texts.lean ====
section
/-! The rendered texts and the composed rows (sections 8.4, 8.5). -/

namespace Sys2Proof.Machine

/-! Views -/

theorem atBar_eq (x : RecState) : x.atBar = decide (x = .called ∨ x = .released) := by cases x <;> decide

theorem highestRecord_eq_none {l : List Record} {p : Record → Bool} (h : highestRecord l p = none) :
    ∀ y ∈ l, ¬p y = true := by
  intro y hy hp
  have hnil : sortByJump (l.filter p) = [] := List.getLast?_eq_none_iff.mp h
  have hin : y ∈ sortByJump (l.filter p) := mem_sortByJump.mpr (List.mem_filter.mpr ⟨hy, hp⟩)
  rw [hnil] at hin
  exact List.not_mem_nil hin

/-- The record named is the highest of those shown (R155). -/
theorem highestRecord_eq_some {l : List Record} {p : Record → Bool} {r : Record} (h : highestRecord l p = some r) :
    (r ∈ l ∧ p r = true) ∧ ∀ y ∈ l, p y = true → y.jump ≤ r.jump := by
  have hmem (y : Record) : y ∈ sortByJump (l.filter p) ↔ y ∈ l ∧ p y = true := mem_sortByJump.trans List.mem_filter
  obtain ⟨ys, hys⟩ := List.getLast?_eq_some_iff.mp h
  refine ⟨(hmem r).mp (hys ▸ List.mem_append_right _ (List.mem_singleton_self r)), fun y hy hp => ?_⟩
  have hsorted := sortByJump_sorted (l.filter p)
  rw [hys, List.pairwise_append] at hsorted
  obtain ⟨_, _, hlast⟩ := hsorted
  have hin : y ∈ ys ++ [r] := hys ▸ (hmem y).mpr ⟨hy, hp⟩
  rcases List.mem_append.mp hin with hin | hin
  · exact hlast y hin r (List.mem_singleton_self r)
  · rw [List.mem_singleton.mp hin]

theorem inFlightView_iff (x : RecState) :
    x.inFlightView = true ↔ x = .inrun ∨ x = .airborne ∨ x = .awaiting ∨ x = .review ∨ x = .confirmed := by
  cases x <;> simp [RecState.inFlightView]

/-! Decimal digits -/

theorem decimalAux_append (fuel n : Nat) (acc : List Byte) : decimalAux fuel n acc = decimalAux fuel n [] ++ acc := by
  induction fuel generalizing n acc with
  | zero => rfl
  | succ fuel ih =>
    unfold decimalAux
    split
    · rfl
    · rw [ih (n / 10) (digitChar (n % 10) :: acc), ih (n / 10) [digitChar (n % 10)], List.append_assoc]
      rfl

/-- The fuel covers the digits, and more changes nothing. -/
theorem decimalAux_fuel {fuel n : Nat} (h : n < 10 ^ fuel) (hf : 0 < fuel) (acc : List Byte) :
    decimalAux (fuel + 1) n acc = decimalAux fuel n acc := by
  induction fuel generalizing n acc with
  | zero => exact absurd hf (Nat.lt_irrefl 0)
  | succ fuel ih =>
    rw [decimalAux.eq_2 n acc (fuel + 1), decimalAux.eq_2 n acc fuel]
    split
    · rfl
    · next hn =>
      have hdiv : n / 10 < 10 ^ fuel := by
        rw [Nat.div_lt_iff_lt_mul (by omega), ← Nat.pow_succ]
        exact h
      have hpos : 0 < fuel := by
        by_contra hzero
        obtain rfl : fuel = 0 := by omega
        omega
      exact ih hdiv hpos _

theorem decimalText_digit {n : Nat} (h : n < 10) : decimalText n = [BitVec.ofNat 8 (0x30 + n)] := by
  rw [decimalText, decimalAux, if_pos (by omega), Nat.mod_eq_of_lt h]
  rfl

theorem decimalText_step {n : Nat} (h : 10 ≤ n) (hn : n < 1000000000) :
    decimalText n = decimalText (n / 10) ++ [BitVec.ofNat 8 (0x30 + n % 10)] := by
  have hfuel := decimalAux_fuel (fuel := 19) (n := n / 10) (by omega) (by omega) []
  rw [decimalText, decimalAux, if_neg (by omega), decimalAux_append, ← hfuel]
  rfl

/-! Items -/

theorem signedText_eq (text : Nat → List Byte) (x : Int) :
    signedText text x = (if 0 < x then [0x2B#8] else if x < 0 then [0x2D#8] else []) ++ text x.natAbs := by
  unfold signedText
  split_ifs with hpos hneg
  · rfl
  · rfl
  · obtain rfl : x = 0 := by omega
    rfl

theorem showsResults_eq (x : RecState) : x.showsResults = decide (x = .confirmed ∨ x = .published) := by
  cases x <;> decide

/-! A text in its field -/

theorem placeText_long {d : FieldDesc} {t : List Byte} (h : d.width < t.length) :
    placeText d (some t) = List.replicate d.width 0x2A#8 := if_pos h

theorem placeText_fits {d : FieldDesc} {t : List Byte} (h : t.length ≤ d.width) :
    placeText d (some t) = match d.align with
      | .left => t ++ List.replicate (d.width - t.length) 0x20#8
      | .right => List.replicate (d.width - t.length) 0x20#8 ++ t := if_neg h.not_gt

theorem placeText_length (d : FieldDesc) (t : Option (List Byte)) : (placeText d t).length = d.width := by
  cases t with
  | none => exact List.length_replicate
  | some t =>
    rcases Nat.lt_or_ge d.width t.length with h | h
    · rw [placeText_long h, List.length_replicate]
    · unfold placeText
      cases d.align <;> simp [h.not_gt] <;> omega

theorem renderField_length (rd : Round) (st : StartLight) (co : Corridor) (shown : Option Nat) (d : FieldDesc) :
    (renderField rd st co shown d).length = d.width := by
  unfold renderField
  split
  · exact placeText_length d _
  · split
    · exact List.length_replicate
    · exact placeText_length d _

/-! A row composed -/

section
variable {base t : List Byte} {column : Nat} (h : column - 1 + t.length ≤ base.length)
include h

theorem overlay_length : (overlay base column t).length = base.length := by
  simp only [overlay, List.length_append, List.length_take, List.length_drop]
  omega

theorem overlay_outside {k : Nat} (hk : k < column - 1 ∨ column - 1 + t.length ≤ k) :
    (overlay base column t)[k]? = base[k]? := by
  rw [overlay, List.append_assoc]
  have htake : (base.take (column - 1)).length = column - 1 := by rw [List.length_take]; omega
  rcases hk with hk | hk
  · rw [List.getElem?_append_left (by omega), List.getElem?_take_of_lt hk]
  · rw [List.getElem?_append_right (by omega), List.getElem?_append_right (by omega), List.getElem?_drop, htake]
    congr 1
    omega

theorem overlay_inside {k : Nat} (hk : column - 1 ≤ k) (hk' : k < column - 1 + t.length) :
    (overlay base column t)[k]? = t[k - (column - 1)]? := by
  have htake : (base.take (column - 1)).length = column - 1 := by rw [List.length_take]; omega
  rw [overlay, List.append_assoc, List.getElem?_append_right (by omega), htake, List.getElem?_append_left (by omega)]

end

theorem mem_rowFields {fields : List (Option FieldDesc)} {i row n : Nat} :
    n ∈ rowFields fields i row ↔ ∃ d, entry fields n = some d ∧ d.panel = i ∧ d.row = row := by
  rw [rowFields, mem_indicesWhere]
  simp

section
variable {rd : Round} {st : StartLight} {co : Corridor} {bd : Board} {columns : Nat}

theorem layField_eq {t : List Byte} {n : Nat} {d : FieldDesc} (h : entry bd.fields n = some d) :
    layField rd st co bd t n = overlay t d.column (renderField rd st co (entry bd.countdownShown n) d) := by
  simp only [layField, h]

/-- The fields of the indices lie within a row of so many columns (R153). -/
def FieldsFit (bd : Board) (columns : Nat) (ns : List Nat) : Prop :=
  ∀ n ∈ ns, ∃ d, entry bd.fields n = some d ∧ 1 ≤ d.column ∧ d.column + d.width ≤ columns + 1

theorem overlay_fits {t : List Byte} {n : Nat} {d : FieldDesc} (hlen : t.length = columns) (hc : 1 ≤ d.column)
    (hw : d.column + d.width ≤ columns + 1) :
    d.column - 1 + (renderField rd st co (entry bd.countdownShown n) d).length ≤ t.length := by
  rw [renderField_length]
  omega

theorem foldl_layField_length (ns : List Nat) {t : List Byte} (hlen : t.length = columns)
    (hfit : FieldsFit bd columns ns) : (ns.foldl (layField rd st co bd) t).length = columns := by
  induction ns generalizing t with
  | nil => exact hlen
  | cons n ns ih =>
    obtain ⟨⟨d, hd, hc, hw⟩, hrest⟩ := List.forall_mem_cons.mp hfit
    rw [List.foldl_cons, layField_eq hd]
    exact ih ((overlay_length (overlay_fits hlen hc hw)).trans hlen) hrest

/-- A cell that no field covers shows what lies below. -/
theorem foldl_layField_outside (ns : List Nat) {t : List Byte} {k : Nat} (hlen : t.length = columns)
    (hfit : FieldsFit bd columns ns)
    (hout : ∀ n ∈ ns, ∀ d, entry bd.fields n = some d → k + 1 < d.column ∨ d.column + d.width ≤ k + 1) :
    (ns.foldl (layField rd st co bd) t)[k]? = t[k]? := by
  induction ns generalizing t with
  | nil => rfl
  | cons n ns ih =>
    obtain ⟨⟨d, hd, hc, hw⟩, hrest⟩ := List.forall_mem_cons.mp hfit
    obtain ⟨houtd, houtrest⟩ := List.forall_mem_cons.mp hout
    have hfits := overlay_fits (rd := rd) (st := st) (co := co) (bd := bd) (n := n) hlen hc hw
    rw [List.foldl_cons, layField_eq hd, ih ((overlay_length hfits).trans hlen) hrest houtrest,
      overlay_outside hfits (by rw [renderField_length]; have := houtd d hd; omega)]

/-- A field that overlaps no other shows its text (R159). -/
theorem foldl_layField_inside (ns : List Nat) (hnodup : ns.Nodup) {t : List Byte} {n : Nat} {d : FieldDesc} {k : Nat}
    (hlen : t.length = columns) (hfit : FieldsFit bd columns ns) (hn : n ∈ ns) (hd : entry bd.fields n = some d)
    (halone : ∀ m ∈ ns, m ≠ n → ∀ x, entry bd.fields m = some x →
      x.column + x.width ≤ d.column ∨ d.column + d.width ≤ x.column)
    (hk : k < d.width) :
    (ns.foldl (layField rd st co bd) t)[d.column - 1 + k]? =
      (renderField rd st co (entry bd.countdownShown n) d)[k]? := by
  induction ns generalizing t with
  | nil => exact absurd hn List.not_mem_nil
  | cons m ns ih =>
    obtain ⟨⟨x, hx, hc, hw⟩, hrest⟩ := List.forall_mem_cons.mp hfit
    obtain ⟨hm, hnodup⟩ := List.nodup_cons.mp hnodup
    have hfits := overlay_fits (rd := rd) (st := st) (co := co) (bd := bd) (n := m) hlen hc hw
    rw [List.foldl_cons, layField_eq hx]
    rcases List.mem_cons.mp hn with rfl | hn
    · obtain rfl : x = d := Option.some.inj (hx.symm.trans hd)
      rw [foldl_layField_outside ns ((overlay_length hfits).trans hlen) hrest fun m' hm' y hy => ?_,
        overlay_inside hfits (Nat.le_add_right _ _) (by rw [renderField_length]; omega), Nat.add_sub_cancel_left]
      have := halone m' (List.mem_cons_of_mem _ hm') (fun he => hm (he ▸ hm')) y hy
      omega
    · exact ih hnodup ((overlay_length hfits).trans hlen) hrest hn fun m' hm' =>
        halone m' (List.mem_cons_of_mem _ hm')

end

theorem pageRow_length {p : Panel} {row : Nat} (hp : p.Sized) (h1 : 1 ≤ row) (h2 : row ≤ p.rows) :
    (pageRow p row).length = p.columns := by
  have hroom : (row - 1) * p.columns + p.columns ≤ p.rows * p.columns := by
    rw [← Nat.succ_mul]
    exact Nat.mul_le_mul_right _ (by omega)
  rw [pageRow, List.length_take, List.length_drop, hp.1]
  omega

theorem pageRow_getElem? {p : Panel} {row k : Nat} (hk : k < p.columns) :
    (pageRow p row)[k]? = p.page[(row - 1) * p.columns + k]? := by
  rw [pageRow, List.getElem?_take_of_lt hk, List.getElem?_drop]

/-- Settles O55: the views, the digits, the items, the COUNTDOWN, the field's text, and the row. -/
theorem textsFillTheirFields : Obligations.TextsFillTheirFields := by
  refine ⟨fun rd => ⟨?bar, fun v shows hv hshows => ?views⟩,
    fun n hn => ⟨decimalText_digit, fun h => decimalText_step h hn⟩, ?items, fun n d s hd hitem => ?countdown,
    renderField_length, fun d text => ⟨placeText_long, fun h ha => ?left, fun h ha => ?right, rfl⟩,
    fun rd st co shown d => ⟨fun h => if_pos h, fun h hnone => ?unnamed, fun r h hr => ?named⟩,
    fun i row p s hp h1 h2 hfit => ?row⟩
  case bar =>
    rw [viewRecord, Round.inState]
    simp only [atBar_eq]
  case views =>
    cases v with
    | bar => exact (hv rfl).elim
    | flight =>
      subst hshows
      simp only [reduceCtorEq, if_false, ← inFlightView_iff]
      exact ⟨fun h => highestRecord_eq_none h, fun r h => and_assoc.mp (highestRecord_eq_some h)⟩
    | published =>
      subst hshows
      simp only [if_true, ← beq_iff_eq (α := RecState)]
      exact ⟨fun h => highestRecord_eq_none h, fun r h => and_assoc.mp (highestRecord_eq_some h)⟩
  case items =>
    intro tenths hundredths signed st co shown r results ht hh hs hr
    have htenths : tenthsText = tenths := by rw [ht]; rfl
    have hhundredths : hundredthsText = hundredths := by rw [hh]; rfl
    have hsigned : signedText = signed := by
      rw [hs]
      funext text x
      exact signedText_eq text x
    have hresults : r.state.showsResults = results := by rw [hr, showsResults_eq]
    rw [← htenths, ← hhundredths, ← hsigned, ← hresults]
    refine ⟨⟨rfl, ?_, rfl, rfl, ?_⟩, rfl, rfl, rfl, ?_, ?_, rfl, rfl, rfl, rfl, rfl⟩
    · unfold liveText lightText
      cases st.light <;> rfl
    · unfold liveText corridorText
      cases co.status <;> rfl
    · rw [recordText]
      cases r.confirmed <;> rfl
    · rw [recordText]
      cases r.flightTime with
      | none => rfl
      | some t => exact congrArg (fun n => some (hundredthsText n)) (roundDiv_ofNat t 1000)
  case countdown =>
    have hshown : entry s.showCountdown.board.countdownShown n =
        (entry s.board.fields n).bind (fun d => d.shown (countdownSeconds s.start.countdown s.clock)) :=
      entry_map_bind _ _ n
    rw [hshown, hd, Option.bind_some, FieldDesc.shown, if_pos hitem]
    cases s.start.countdown <;> rfl
  case left => rw [placeText_fits h, ha]
  case right => rw [placeText_fits h, ha]
  case unnamed =>
    simp only [renderField, h, Bool.false_eq_true, if_false, hnone]
  case named =>
    simp only [renderField, h, Bool.false_eq_true, if_false, hr]
  case row =>
    have hlen := pageRow_length hp h1 h2
    have hfields : FieldsFit s.board p.columns (rowFields s.board.fields i row) := fun n hn => by
      obtain ⟨d, hd, hpanel, hrow⟩ := mem_rowFields.mp hn
      exact ⟨d, hd, hfit d (mem_of_entry hd) hpanel hrow⟩
    have hnodup : (rowFields s.board.fields i row).Nodup := (indicesFrom_sorted _ _ 1).imp fun h => h.ne
    have hlength : (s.composed i p row).length = p.columns := foldl_layField_length _ hlen hfields
    refine ⟨hlength, fun k hk hout => ?_, fun n d hd hpanel hrow halone => ?_⟩
    · refine (foldl_layField_outside _ hlen hfields fun n hn d hd => ?_).trans (pageRow_getElem? hk)
      obtain ⟨x, hx, hpanel, hrow⟩ := mem_rowFields.mp hn
      obtain rfl : x = d := Option.some.inj (hx.symm.trans hd)
      exact hout x (mem_of_entry hd) hpanel hrow
    · have hn : n ∈ rowFields s.board.fields i row := mem_rowFields.mpr ⟨d, hd, hpanel, hrow⟩
      obtain ⟨hc, hw⟩ := hfit d (mem_of_entry hd) hpanel hrow
      refine List.ext_getElem? fun k => ?_
      rcases Nat.lt_or_ge k d.width with hk | hk
      · rw [List.getElem?_take_of_lt hk, List.getElem?_drop]
        refine foldl_layField_inside _ hnodup hlen hfields hn hd (fun m hm hne x hx => ?_) hk
        obtain ⟨y, hy, hypanel, hyrow⟩ := mem_rowFields.mp hm
        obtain rfl : y = x := Option.some.inj (hy.symm.trans hx)
        exact halone m y hne hx hypanel hyrow
      · rw [List.getElem?_eq_none (by rw [List.length_take]; omega),
          List.getElem?_eq_none (by rw [renderField_length]; exact hk)]

end Sys2Proof.Machine
end

