-- ==== Sys2Proof/Proofs/Frames.lean ====
section
/-! The Board Line: the row frames, their acknowledgements, the panels that come and go, and the arbiter's choice (section
8.6). -/

namespace Sys2Proof.Machine

/-! Events that change no text -/

/-- The panels configured in both tables have the same page memories. -/
def SamePages (l l' : List (Option Panel)) : Prop :=
  ∀ i p q, entry l i = some p → entry l' i = some q → q.page = p.page ∧ q.columns = p.columns

theorem SamePages.refl (l : List (Option Panel)) : SamePages l l := fun i p q hp hq => by
  obtain rfl : p = q := Option.some.inj (hp.symm.trans hq)
  exact ⟨rfl, rfl⟩

theorem entry_setEntry_cases {α : Type} {l : List (Option α)} {i k : Nat} {v : Option α} {x : α}
    (h : entry (setEntry l i v) k = some x) : (k = i ∧ v = some x) ∨ (k ≠ i ∧ entry l k = some x) := by
  by_cases hk : k = i
  · subst hk
    refine Or.inl ⟨rfl, ?_⟩
    obtain ⟨hpos, hx⟩ := entry_eq_some.mp h
    rw [setEntry, if_neg (by omega), List.getElem?_set] at hx
    split_ifs at hx with hself hlen
    · exact Option.some.inj hx
    · exact (hself rfl).elim
  · exact Or.inr ⟨hk, by rwa [entry_setEntry_of_ne l v hk] at h⟩

theorem SamePages.setEntry {l l' : List (Option Panel)} (h : SamePages l l') {i : Nat} {v : Option Panel}
    (hv : ∀ p q, entry l i = some p → v = some q → q.page = p.page ∧ q.columns = p.columns) :
    SamePages l (setEntry l' i v) := fun k p q hp hq => by
  rcases entry_setEntry_cases hq with ⟨rfl, rfl⟩ | ⟨_, hq⟩
  · exact hv p q hp rfl
  · exact h k p q hp hq

theorem composed_of_page (s : State) (i : Nat) {p q : Panel} (hpage : q.page = p.page) (hcolumns : q.columns = p.columns)
    (row : Nat) : s.composed i q row = s.composed i p row := by
  unfold State.composed composedRow pageRow
  rw [hpage, hcolumns]

/-- A work that leaves the page memories and all that a text reads changes no row (R159). -/
theorem changedRows_of_pages {a b : State} (hp : SamePages a.board.panels b.board.panels)
    (hc : ∀ i p row, b.composed i p row = a.composed i p row) (i : Nat) : changedRows a b i = [] := by
  unfold changedRows
  cases hpa : entry a.board.panels i with
  | none => rfl
  | some po =>
    cases hpb : entry b.board.panels i with
    | none => rfl
    | some pn =>
      obtain ⟨hpage, hcolumns⟩ := hp i po pn hpa hpb
      simp [hc, composed_of_page a i hpage hcolumns]

theorem markChanged_of_none {a b : State} (h : ∀ i, changedRows a b i = []) : markChanged a b = b := by
  unfold markChanged
  simp only [panelIndices, List.foldl, h, Board.dirty]
  rfl

/-- The choice that follows an event that ended a frame or a window, or marked rows, and changed no text (R163). -/
theorem boardSync_chooses {m : Bool} {a b : State} (hm : m = true ∨ a.board.line ≠ .free)
    (hp : SamePages a.board.panels b.board.panels) (hc : ∀ i p row, b.composed i p row = a.composed i p row) :
    boardSync m a b = arbiterChoice b := by
  have hmark := markChanged_of_none (changedRows_of_pages hp hc)
  unfold boardSync
  rw [hmark]
  refine if_pos ?_
  rcases hm with rfl | hline
  · rfl
  · cases hl : a.board.line with
    | free => exact (hline hl).elim
    | sending f => simp [BoardLine.isFree]
    | window f stop => simp [BoardLine.isFree]

theorem arbiterChoice_of_busy {s : State} (h : s.board.line ≠ .free) : arbiterChoice s = s := by
  unfold arbiterChoice
  cases hl : s.board.line with
  | free => exact (h hl).elim
  | sending f => rfl
  | window f stop => rfl

/-- The texts of a state whose board alone is another, its fields and the seconds they show the same. -/
theorem composed_setBoard (s : State) {b : Board} (hf : b.fields = s.board.fields)
    (hs : b.countdownShown = s.board.countdownShown) (i : Nat) (p : Panel) (row : Nat) :
    (s.setBoard b).composed i p row = s.composed i p row :=
  composed_congr (s := s) (t := s.setBoard b) rfl rfl rfl rfl rfl hf hs i p row

/-! Marks -/

theorem markFrom_all (k : Nat) (l : List RowMarks) :
    markFrom (fun _ => true) k l = l.map (fun m => { m with dirty := true }) := by
  induction l generalizing k with
  | nil => rfl
  | cons m l ih => rw [markFrom, ih, List.map_cons, if_pos rfl]

theorem Panel.markRows_all (p : Panel) :
    p.markRows (fun _ => true) = { p with marks := p.marks.map (fun m => { m with dirty := true }) } := by
  rw [Panel.markRows, markFrom_all]

/-! PANA -/

theorem State.notePanel_same {s : State} (i address : Nat) (x : Option PanelState) (cause : PanaCause) (miss ack : Nat) :
    s.notePanel i address x x cause miss ack = s := if_pos rfl

theorem State.notePanel_of_ne {s : State} (i address : Nat) {x y : Option PanelState} (cause : PanaCause) (miss ack : Nat)
    (h : x ≠ y) : s.notePanel i address x y cause miss ack = s.post (.pana i address x y cause miss ack s.clock) := if_neg h

/-! The outcome of a frame -/

section
variable {s : State} {f : RowFrame} {before pn pn' : Panel} {cause : PanaCause} (hj : judgePanel pn s.clock = pn')
include hj

theorem applyFrameOutcome_of_same (h : pn'.state = before.state) :
    applyFrameOutcome s f before pn cause =
      s.setBoard { s.board with line := .free, panels := setEntry s.board.panels f.panel (some pn') } := by
  simp only [applyFrameOutcome, hj, h]
  exact State.notePanel_same ..

theorem applyFrameOutcome_of_ne {x y : PanelState} {address miss ack : Nat} (haddress : pn.address = address)
    (hbefore : before.state = x) (hafter : pn'.state = y) (hmiss : pn'.miss = miss) (hack : pn'.ack = ack) (h : x ≠ y) :
    applyFrameOutcome s f before pn cause =
      (s.setBoard { s.board with line := .free, panels := setEntry s.board.panels f.panel (some pn') }).post
        (.pana f.panel address (some x) (some y) cause miss ack s.clock) := by
  subst haddress hbefore hafter hmiss hack
  simp only [applyFrameOutcome, hj]
  exact State.notePanel_of_ne _ _ _ _ _ fun he => h (Option.some.inj he)

end

theorem acknowledged_eq (s : State) (f : RowFrame) (p : Panel) :
    acknowledged s f p = { p with
      ack := min (p.ack + 1) 15, miss := 0
      marks := p.marks.modify (f.row - 1) (fun m =>
        { dirty := m.dirty && !decide (s.composed f.panel p f.row = f.text), inFlight := false }) } := by
  have hsame : (s.composed f.panel p f.row == f.text) = decide (s.composed f.panel p f.row = f.text) := by
    rw [Bool.eq_iff_iff, beq_iff_eq, decide_eq_true_eq]
  rw [acknowledged, hsame]
  rfl

theorem missed_eq (f : RowFrame) (p : Panel) :
    missed f p = { p with
      miss := min (p.miss + 1) 15, ack := 0
      marks := p.marks.modify (f.row - 1) (fun m => { m with inFlight := false }) } := rfl

section
variable {p : Panel} {now : HillTime}

theorem judgePanel_same (h : (p.state = .online ∧ p.miss < 4) ∨ (p.state = .offline ∧ p.ack < 2)) :
    judgePanel p now = p := by
  rcases h with ⟨hs, h⟩ | ⟨hs, h⟩ <;> simp only [judgePanel, hs] <;> exact if_neg h.not_ge

theorem judgePanel_lost (hs : p.state = .online) (h : 4 ≤ p.miss) :
    judgePanel p now = { p with state := .offline, probeDue := some (now + 100000#32) } := by
  simp only [judgePanel, hs]
  exact if_pos h

theorem judgePanel_back (hs : p.state = .offline) (h : 2 ≤ p.ack) :
    judgePanel p now = { p with
      state := .online, probeDue := none, marks := p.marks.map (fun m => { m with dirty := true }) } := by
  simp only [judgePanel, hs]
  exact (if_pos h).trans (Panel.markRows_all _)

end

/-! The rows of the line -/

section
variable {s u : State} {now : HillTime} {g : State → State}

/-- An event that ends a frame or a window and changes no text is followed by the arbiter's choice (R163). -/
theorem taken_chooses (hh : s.held = false) (hf : g (s.setClock now) = u) (hline : s.board.line ≠ .free)
    (hp : SamePages s.board.panels u.board.panels)
    (hc : ∀ i p row, u.composed i p row = (s.setClock now).composed i p row) :
    taken now s (withBoard g) = .next (arbiterChoice u) := by
  rw [taken_of_not_held hh, withBoard, hf, boardSync_chooses (a := s.setClock now) (Or.inr hline) hp hc]

end

theorem SamePages.set {l : List (Option Panel)} {i : Nat} {p q : Panel} (hp : entry l i = some p) (hpage : q.page = p.page)
    (hcolumns : q.columns = p.columns) : SamePages l (Machine.setEntry l i (some q)) :=
  (SamePages.refl l).setEntry fun p' q' hp' hq' => by
    obtain rfl : p = p' := Option.some.inj (hp.symm.trans hp')
    obtain rfl : q = q' := Option.some.inj hq'
    exact ⟨hpage, hcolumns⟩

theorem rowFrameEnd_of_sending {s : State} {now : HillTime} {f : RowFrame} (hh : s.held = false)
    (hl : s.board.line = .sending f) :
    exec (.rowFrameEnd now) s =
      .next (if f.aborted then
          arbiterChoice ((s.setClock now).setBoard { s.board with
            line := .free, panels := clearInFlight s.board.panels f })
        else (s.setClock now).setBoard { s.board with line := .window f (plusTicks now 2000) }) := by
  have hline : s.board.line ≠ .free := by simp [hl]
  have hevent : rowFrameEndEvent (s.setClock now) =
      if f.aborted then (s.setClock now).setBoard { s.board with
        line := .free, panels := clearInFlight s.board.panels f }
      else (s.setClock now).setBoard { s.board with line := .window f (plusTicks now 2000) } := by
    simp only [rowFrameEndEvent, State.setClock_board, hl, State.setClock_clock]
  cases ha : f.aborted with
  | true =>
    rw [ha] at hevent
    refine taken_chooses (g := rowFrameEndEvent) hh hevent hline ?_ (composed_setBoard (s.setClock now) rfl rfl)
    refine (SamePages.refl _).setEntry fun p q hp hq => ?_
    rw [hp] at hq
    obtain rfl := Option.some.inj hq
    exact ⟨rfl, rfl⟩
  | false =>
    rw [ha] at hevent
    refine (taken_chooses (g := rowFrameEndEvent) hh hevent hline (SamePages.refl _)
      (composed_setBoard (s.setClock now) rfl rfl)).trans (congrArg _ (arbiterChoice_of_busy ?_))
    simp

/-- Settles O60: the frame's end, the acknowledgement, the frames discarded, and the window's end. -/
theorem rowFramesAreAcknowledged : Obligations.RowFramesAreAcknowledged := by
  refine ⟨fun now f s hh hl => ⟨fun ha => ?sent, fun ha => ?aborted⟩,
    fun now began stop bytes f p q s hh hl hlate hbegan hack hp hq => ?acknowledged,
    fun now began stop bytes f s hh hl hn => ?discarded, fun now stop f p q s hh hl hp hq => ?missed⟩
  case sent =>
    rw [rowFrameEnd_of_sending hh hl, if_neg (by simp [ha])]
    rfl
  case aborted =>
    rw [rowFrameEnd_of_sending hh hl, if_pos ha]
    rfl
  case acknowledged =>
    have hline : s.board.line ≠ .free := by simp [hl]
    have hwhole : wholeWithin began now stop 2000 = true := by
      rw [wholeWithin, notPast, hlate, Bool.not_false, Bool.and_true]
      exact hbegan
    have hcount : acknowledged (s.setClock now) f p = q := (acknowledged_eq _ f p).trans hq.symm
    have hevent : acknowledgementEvent (s.setClock now) ⟨began, bytes⟩ =
        applyFrameOutcome (s.setClock now) f p q .recovered := by
      simp only [acknowledgementEvent, State.setClock_board, hl, State.setClock_clock, hwhole, hack, and_self, if_true, hp,
        hcount]
    have hkept : q.page = p.page ∧ q.columns = p.columns ∧ q.address = p.address ∧ q.state = p.state ∧
        q.ack = min (p.ack + 1) 15 ∧ q.miss = 0 := by
      rw [hq]
      exact ⟨rfl, rfl, rfl, rfl, rfl, rfl⟩
    obtain ⟨hpage, hcolumns, haddress, hstate, hackq, hmiss⟩ := hkept
    refine ⟨fun hs => ?_, fun hs hg => ?_⟩
    · have hjudge : judgePanel q (s.setClock now).clock = q := judgePanel_same (by
        rw [hstate, hackq, hmiss]
        rcases hs with hs | hs
        · exact Or.inl ⟨hs, by omega⟩
        · cases hp' : p.state
          · exact Or.inl ⟨rfl, by omega⟩
          · exact Or.inr ⟨rfl, hs⟩)
      exact taken_chooses (g := fun s => acknowledgementEvent s ⟨began, bytes⟩) hh
        (hevent.trans (applyFrameOutcome_of_same hjudge hstate)) hline (SamePages.set hp hpage hcolumns)
        (composed_setBoard (s.setClock now) rfl rfl)
    · have hjudge := judgePanel_back (now := (s.setClock now).clock) (hstate.trans hs) (hackq ▸ hg)
      have houtcome := applyFrameOutcome_of_ne (s := s.setClock now) (f := f) (before := p) (cause := .recovered) hjudge
        haddress hs rfl hmiss hackq (by simp)
      exact taken_chooses (g := fun s => acknowledgementEvent s ⟨began, bytes⟩) hh (hevent.trans houtcome) hline
        (SamePages.set hp hpage hcolumns) (composed_setBoard (s.setClock now) rfl rfl)
  case discarded =>
    refine taken_idle (f := fun s => acknowledgementEvent s ⟨began, bytes⟩) hh ?_
    simp only [acknowledgementEvent, State.setClock_board, hl]
    refine if_neg fun ⟨hwhole, hack⟩ => ?_
    rw [wholeWithin, Bool.and_eq_true, notPast, Bool.not_eq_true'] at hwhole
    obtain ⟨hbegan, hlate⟩ := hwhole
    rcases hn with h | h | h
    · exact Bool.false_ne_true (hlate.symm.trans h)
    · exact Bool.false_ne_true (h.symm.trans hbegan)
    · exact h hack
  case missed =>
    have hline : s.board.line ≠ .free := by simp [hl]
    have hcount : missed f p = q := (missed_eq f p).trans hq.symm
    have hevent (hdue : reached now stop = true) :
        ackWindowEndEvent (s.setClock now) = applyFrameOutcome (s.setClock now) f p q .misses := by
      simp only [ackWindowEndEvent, State.setClock_board, hl, State.setClock_clock, hdue, if_true, hp, hcount]
    have hkept : q.page = p.page ∧ q.columns = p.columns ∧ q.address = p.address ∧ q.state = p.state ∧
        q.miss = min (p.miss + 1) 15 ∧ q.ack = 0 := by
      rw [hq]
      exact ⟨rfl, rfl, rfl, rfl, rfl, rfl⟩
    obtain ⟨hpage, hcolumns, haddress, hstate, hmiss, hack⟩ := hkept
    refine ⟨fun hearly => ?_, fun hdue hs => ?_, fun hdue hs hm => ?_⟩
    · refine taken_idle (f := ackWindowEndEvent) hh ?_
      simp only [ackWindowEndEvent, State.setClock_board, hl]
      exact if_neg (by simpa using hearly)
    · have hjudge : judgePanel q (s.setClock now).clock = q := judgePanel_same (by
        rw [hstate, hack, hmiss]
        rcases hs with hs | hs
        · exact Or.inr ⟨hs, by omega⟩
        · cases hp' : p.state
          · exact Or.inl ⟨rfl, hs⟩
          · exact Or.inr ⟨rfl, by omega⟩)
      exact taken_chooses (g := ackWindowEndEvent) hh ((hevent hdue).trans (applyFrameOutcome_of_same hjudge hstate)) hline
        (SamePages.set hp hpage hcolumns) (composed_setBoard (s.setClock now) rfl rfl)
    · have hjudge := judgePanel_lost (now := (s.setClock now).clock) (hstate.trans hs) (hmiss ▸ hm)
      have houtcome := applyFrameOutcome_of_ne (s := s.setClock now) (f := f) (before := p) (cause := .misses) hjudge
        haddress hs rfl hmiss hack (by simp)
      exact taken_chooses (g := ackWindowEndEvent) hh ((hevent hdue).trans houtcome) hline
        (SamePages.set hp hpage hcolumns) (composed_setBoard (s.setClock now) rfl rfl)

end Sys2Proof.Machine
end

