-- ==== Sys2Proof/Proofs/Arbiter.lean ====
section
/-! The arbiter's choice, the refresh and the probes (R162 to R164). -/

namespace Sys2Proof.Machine

/-! What the choice leaves of the panels -/

theorem Panel.onRow_inFlight_dirty (p : Panel) (row : Nat) (b : Bool) :
    (p.onRow row (fun m => { m with inFlight := b })).marks.map (fun m => m.dirty) = p.marks.map (fun m => m.dirty) := by
  refine List.ext_getElem? fun k => ?_
  rw [List.getElem?_map, List.getElem?_map, Panel.onRow, List.getElem?_modify]
  split
  · cases p.marks[k]? <;> rfl
  · simp

/-- The choice changes the in-flight mark of one row and a probe's time, no panel else (R163, R164). -/
theorem arbiterChoice_panel {s : State} {k : Nat} {q : Panel} (h : entry (arbiterChoice s).board.panels k = some q) :
    ∃ p, entry s.board.panels k = some p ∧ q.kept = p.kept ∧
      q.marks.map (fun m => m.dirty) = p.marks.map (fun m => m.dirty) := by
  have hsame (h : entry s.board.panels k = some q) : ∃ p, entry s.board.panels k = some p ∧ q.kept = p.kept ∧
      q.marks.map (fun m => m.dirty) = p.marks.map (fun m => m.dirty) := ⟨q, h, rfl, rfl⟩
  unfold arbiterChoice at h
  split at h
  · split at h
    · next i pn hfirst =>
      rcases entry_setEntry_cases h with ⟨rfl, hq⟩ | ⟨_, hq⟩
      · refine ⟨pn, firstEligible_entry hfirst, ?_, ?_⟩
        · rw [← Option.some.inj hq]
          exact Panel.kept_onRow pn pn.rowToSend fun m => { m with inFlight := true }
        · rw [← Option.some.inj hq]
          exact Panel.onRow_inFlight_dirty pn pn.rowToSend true
      · exact hsame hq
    · exact hsame h
  · exact hsame h
  · exact hsame h

/-! The order of the addresses -/

theorem exists_split_of_sorted {l : List Nat} {a : Nat} (hl : l.Pairwise (· < ·)) (ha : a ∈ l) :
    ∃ pre post, l = pre ++ a :: post ∧ ∀ b ∈ pre, b < a := by
  obtain ⟨pre, post, rfl⟩ := List.append_of_mem ha
  refine ⟨pre, post, rfl, fun b hb => ?_⟩
  obtain ⟨_, _, hlt⟩ := List.pairwise_append.mp hl
  exact hlt b hb a List.mem_cons_self

/-- Before a line address the arbiter looks at those between the last address served and it, in turn (R163). -/
theorem addressOrder_split (last : Option Nat) {a : Nat} (h1 : 1 ≤ a) (h2 : a ≤ 15) :
    ∃ pre post, addressOrder last = pre ++ a :: post ∧ ∀ b ∈ pre, 1 ≤ b ∧ b ≤ 15 ∧
      (if last.getD 0 < a then last.getD 0 < b ∧ b < a else last.getD 0 < b ∨ b < a) := by
  have hsorted : ((List.range 15).map (fun k => k + 1)).Pairwise (· < ·) :=
    List.pairwise_map.mpr (List.pairwise_lt_range.imp fun h => Nat.succ_lt_succ h)
  have hmem (b : Nat) : b ∈ (List.range 15).map (fun k => k + 1) ↔ 1 ≤ b ∧ b ≤ 15 := by
    rw [List.mem_map]
    constructor
    · rintro ⟨k, hk, rfl⟩
      have := List.mem_range.mp hk
      omega
    · exact fun h => ⟨b - 1, List.mem_range.mpr (by omega), by omega⟩
  unfold addressOrder
  by_cases hlt : last.getD 0 < a
  · obtain ⟨pre, post, hsplit, hpre⟩ := exists_split_of_sorted (a := a)
      (hsorted.filter (fun b => decide (last.getD 0 < b))) (List.mem_filter.mpr ⟨(hmem a).mpr ⟨h1, h2⟩, by simpa using hlt⟩)
    refine ⟨pre, post ++ _, (congrArg (· ++ _) hsplit).trans (List.append_assoc ..), fun b hb => ?_⟩
    have hin : b ∈ ((List.range 15).map (fun k => k + 1)).filter (fun b => decide (last.getD 0 < b)) :=
      hsplit ▸ List.mem_append_left _ hb
    obtain ⟨hb15, hbl⟩ := List.mem_filter.mp hin
    obtain ⟨hb1, hb2⟩ := (hmem b).mp hb15
    rw [if_pos hlt]
    exact ⟨hb1, hb2, by simpa using hbl, hpre b hb⟩
  · obtain ⟨pre, post, hsplit, hpre⟩ := exists_split_of_sorted (a := a)
      (hsorted.filter (fun b => decide (b ≤ last.getD 0))) (List.mem_filter.mpr ⟨(hmem a).mpr ⟨h1, h2⟩, by simpa using hlt⟩)
    refine ⟨_ ++ pre, post, (congrArg (_ ++ ·) hsplit).trans (List.append_assoc ..).symm, fun b hb => ?_⟩
    rw [if_neg hlt]
    rcases List.mem_append.mp hb with hb | hb
    · obtain ⟨hb15, hbl⟩ := List.mem_filter.mp hb
      obtain ⟨hb1, hb2⟩ := (hmem b).mp hb15
      exact ⟨hb1, hb2, Or.inl (by simpa using hbl)⟩
    · have hin : b ∈ ((List.range 15).map (fun k => k + 1)).filter (fun b => decide (b ≤ last.getD 0)) :=
        hsplit ▸ List.mem_append_left _ hb
      obtain ⟨hb1, hb2⟩ := (hmem b).mp (List.mem_filter.mp hin).1
      exact ⟨hb1, hb2, Or.inr (hpre b hb)⟩

/-! The panel at an address -/

theorem panelAt_address {panels : List (Option Panel)} {a i : Nat} {p : Panel} (h : panelAt panels a = some (i, p)) :
    p.address = a := by
  have hp := panelAt_entry h
  unfold panelAt at h
  split at h
  · next k hk =>
    obtain ⟨q, hq, hqa⟩ := mem_indicesWhere.mp (List.mem_of_mem_head? hk)
    rw [hq, Option.map_some, Option.some.injEq, Prod.mk.injEq] at h
    rw [← h.2]
    simpa using hqa
  · cases h

theorem panelAt_of_only {panels : List (Option Panel)} {i : Nat} {p : Panel} (hp : entry panels i = some p)
    (honly : ∀ k q, k ≠ i → entry panels k = some q → q.address ≠ p.address) : panelAt panels p.address = some (i, p) := by
  have hhead : (indicesWhere (fun q => q.address == p.address) panels).head? = some i := by
    refine head?_eq_least (indicesFrom_sorted _ _ 1) (mem_indicesWhere.mpr ⟨p, hp, by simp⟩) fun k hk => ?_
    obtain ⟨q, hq, hqa⟩ := mem_indicesWhere.mp hk
    by_contra hlt
    exact honly k q (by omega) hq (by simpa using hqa)
  simp only [panelAt, hhead, hp, Option.map_some]

theorem firstEligible_of_first {panels : List (Option Panel)} {now : HillTime} {pre post : List Nat} {a i : Nat} {p : Panel}
    (hpre : ∀ b ∈ pre, ∀ k q, panelAt panels b = some (k, q) → q.eligible now = false)
    (ha : panelAt panels a = some (i, p)) (he : p.eligible now = true) :
    firstEligible panels now (pre ++ a :: post) = some (i, p) := by
  induction pre with
  | nil => simp only [List.nil_append, firstEligible, ha, he, if_true]
  | cons b pre ih =>
    obtain ⟨hb, hrest⟩ := List.forall_mem_cons.mp hpre
    rw [List.cons_append, firstEligible]
    cases hat : panelAt panels b with
    | none => exact ih hrest
    | some e =>
      obtain ⟨k, q⟩ := e
      simp only [hb k q hat, Bool.false_eq_true, if_false]
      exact ih hrest

theorem firstEligible_eligible {panels : List (Option Panel)} {now : HillTime} {l : List Nat} {i : Nat} {p : Panel}
    (h : firstEligible panels now l = some (i, p)) : p.eligible now = true := by
  induction l with
  | nil => cases h
  | cons a l ih =>
    rw [firstEligible] at h
    split at h
    · split at h
      · next k q _ he =>
        obtain ⟨-, rfl⟩ := Prod.mk.inj (Option.some.inj h)
        exact he
      · exact ih h
    · exact ih h

theorem firstDirty_eq {l : List RowMarks} {j : Nat} {m : RowMarks} (k : Nat) (hm : l[j]? = some m) (hd : m.dirty = true)
    (hbefore : ∀ i x, i < j → l[i]? = some x → x.dirty = false) : firstDirty k l = some (k + j) := by
  induction l generalizing j k with
  | nil => cases hm
  | cons x l ih =>
    cases j with
    | zero =>
      obtain rfl : x = m := Option.some.inj hm
      rw [firstDirty, if_pos hd]
      rfl
    | succ j =>
      have hx : x.dirty = false := hbefore 0 x (Nat.succ_pos j) rfl
      rw [firstDirty, hx, if_neg Bool.false_ne_true,
        ih (k + 1) hm fun i y hi hy => hbefore (i + 1) y (Nat.succ_lt_succ hi) hy]
      congr 1
      omega

/-- The row sent: row 1 of an OFFLINE panel, the lowest dirty one of an ONLINE panel (R163). -/
theorem rowToSend_eq {p : Panel} {row : Nat} (h : (p.state = .offline ∧ row = 1) ∨
    (p.state = .online ∧ 1 ≤ row ∧ (∃ m, p.marks[row - 1]? = some m ∧ m.dirty = true) ∧
      ∀ k m, k + 1 < row → p.marks[k]? = some m → m.dirty = false)) : p.rowToSend = row := by
  rcases h with ⟨hs, rfl⟩ | ⟨hs, h1, ⟨m, hm, hd⟩, hbefore⟩
  · simp only [Panel.rowToSend, hs]
  · have hfirst := firstDirty_eq 1 hm hd fun k x hk hx => hbefore k x (by omega) hx
    simp only [Panel.rowToSend, hs, hfirst, Option.getD_some]
    omega

theorem startFrame_of_row {s : State} {i row : Nat} {p : Panel} (h : p.rowToSend = row) :
    startFrame s i p = s.setBoard { s.board with
      panels := setEntry s.board.panels i (some
        { p with
          marks := p.marks.modify (row - 1) (fun m => { m with inFlight := true })
          probeDue := if p.state = .offline then some (s.clock + 100000#32) else p.probeDue })
      line := .sending { panel := i, address := p.address, row := row, text := s.composed i p row, aborted := false }
      lastAddress := some p.address } := by
  obtain ⟨address, rows, columns, rights, enabled, state, miss, ack, probeDue, page, marks⟩ := p
  unfold startFrame
  rw [h]
  cases state <;> simp [Panel.onRow, plusTicks]

/-! The refresh -/

theorem entry_markAll (l : List (Option Panel)) (k : Nat) :
    entry (markAll l) k = (entry l k).map (fun p => p.markRows (fun _ => true)) := by
  unfold entry markAll
  split
  · rfl
  · rw [List.getElem?_map]
    rcases l[k - 1]? with _ | _ | _ <;> rfl

theorem exists_entry_of_mem {α : Type} {l : List (Option α)} {a : α} (h : some a ∈ l) : ∃ k, entry l k = some a := by
  obtain ⟨k, hk⟩ := List.getElem?_of_mem h
  exact ⟨k + 1, entry_eq_some.mpr ⟨Nat.succ_pos k, hk⟩⟩

/-- A probe that is due is that of an enabled OFFLINE panel whose second has passed (R163). -/
theorem probeIsDue_iff (s : State) :
    probeIsDue s = true ↔ ∃ k p t, entry s.board.panels k = some p ∧ p.enabled = true ∧ p.state = .offline ∧
      p.probeDue = some t ∧ reached s.clock t = true := by
  unfold probeIsDue
  rw [List.any_eq_true]
  constructor
  · rintro ⟨_ | p, he, hdue⟩
    · cases hdue
    · obtain ⟨k, hk⟩ := exists_entry_of_mem he
      cases ht : p.probeDue with
      | none => simp [ht] at hdue
      | some t =>
        simp only [ht, Bool.and_eq_true, beq_iff_eq] at hdue
        obtain ⟨⟨hen, hs⟩, hr⟩ := hdue
        exact ⟨k, p, t, hk, hen, hs, ht, hr⟩
  · rintro ⟨k, p, t, hk, hen, hs, ht, hr⟩
    exact ⟨some p, mem_of_entry hk, by simp [hen, hs, ht, hr]⟩

section
variable {s : State} (hh : s.held = false) (now : HillTime)
include hh

theorem exec_refreshExpiry_of_not_held :
    exec (.refreshExpiry now) s = .next (boardSync (refreshIsDue (s.setClock now)) (s.setClock now)
      (refreshExpiryEvent (s.setClock now))) :=
  taken_of_not_held hh now fun s => boardSync (refreshIsDue s) s (refreshExpiryEvent s)

theorem exec_probeDue_of_not_held :
    exec (.probeDue now) s = .next (boardSync (probeIsDue (s.setClock now)) (s.setClock now) (s.setClock now)) :=
  taken_of_not_held hh now fun s => boardSync (probeIsDue s) s s

end

/-- The board of a refresh that is due: every row dirty, the next refresh a period on (R162). -/
def Board.refreshed (b : Board) (due : HillTime) : Board :=
  { b with
    panels := markAll b.panels, nextRefresh := some (due + BitVec.ofNat 32 (100000 * b.refreshPeriod)) }

theorem refreshExpiryEvent_of_due {s : State} {due : HillTime} (hr : s.board.nextRefresh = some due)
    (hdue : reached s.clock due = true) : refreshExpiryEvent s = s.setBoard (s.board.refreshed due) := by
  simp only [refreshExpiryEvent, hr, plusTicks, secTicks, Nat.mul_comm s.board.refreshPeriod, Board.refreshed]
  exact if_pos hdue

theorem Board.refreshed_pages (b : Board) (due : HillTime) : SamePages b.panels (b.refreshed due).panels :=
  fun k p q hp hq => by
    have hq' : entry (markAll b.panels) k = some q := hq
    rw [entry_markAll, hp] at hq'
    obtain rfl := Option.some.inj hq'
    exact ⟨rfl, rfl⟩

theorem refreshed_becomes (s : State) (due : HillTime) :
    Becomes (s.setBoard (s.board.refreshed due)) { s with
      board := { s.board with nextRefresh := some (due + BitVec.ofNat 32 (100000 * s.board.refreshPeriod)) } } := by
  refine ⟨rfl, rfl, rfl, rfl, fun k => ?_⟩
  show (entry (markAll s.board.panels) k).map Panel.kept = (entry s.board.panels k).map Panel.kept
  rw [entry_markAll, Option.map_map]
  exact congrArg (fun f => (entry s.board.panels k).map f) (funext fun p => Panel.kept_markRows p _)

theorem Board.refreshed_dirty {b : Board} {due : HillTime} {k : Nat} {p : Panel}
    (h : entry (b.refreshed due).panels k = some p) : ∀ d ∈ p.marks.map (fun m => m.dirty), d = true := by
  have h' : entry (markAll b.panels) k = some p := h
  rw [entry_markAll] at h'
  obtain ⟨y, _, rfl⟩ := Option.map_eq_some_iff.mp h'
  intro d hd
  rw [Panel.markRows_all, List.map_map] at hd
  obtain ⟨_, _, rfl⟩ := List.mem_map.mp hd
  rfl

/-- Settles O59: the refresh, the probe due or not, and the arbiter's turn. -/
theorem refreshAndProbeReachThePanels : Obligations.RefreshAndProbeReachThePanels := by
  refine ⟨fun now due s hh hr => ⟨fun hearly => ?early, fun hdue => ?refresh⟩, fun now s hh hl hdue => ?probe,
    fun now s hh hn hl => ?noProbe, ?choice, fun s hn => ?noChoice⟩
  case early =>
    have hnot : refreshIsDue (s.setClock now) = false := by
      simp only [refreshIsDue, State.setClock_board, hr]
      exact hearly
    have hidle : refreshExpiryEvent (s.setClock now) = s.setClock now := by
      simp only [refreshExpiryEvent, State.setClock_board, hr]
      exact if_neg (by simpa using hearly)
    rw [exec_refreshExpiry_of_not_held hh, hnot, hidle, boardSync_self]
  case refresh =>
    have hmark : refreshIsDue (s.setClock now) = true := by
      simp only [refreshIsDue, State.setClock_board, hr]
      exact hdue
    have hevent := refreshExpiryEvent_of_due (s := s.setClock now) hr hdue
    refine ⟨_, exec_refreshExpiry_of_not_held hh now, ?_⟩
    rw [hmark, hevent]
    refine ⟨(refreshed_becomes (s.setClock now) due).boardSync true _,
      Posts.boardSync true _ ((Posts.refl s).of_links rfl rfl), fun k p hp m hm => ?_⟩
    rw [boardSync_chooses (b := (s.setClock now).setBoard ((s.setClock now).board.refreshed due)) (Or.inl rfl)
      (Board.refreshed_pages _ due) (composed_setBoard (s.setClock now) rfl rfl)] at hp
    obtain ⟨x, hx, _, hdirty⟩ := arbiterChoice_panel hp
    exact Board.refreshed_dirty hx m.dirty (hdirty ▸ List.mem_map_of_mem hm)
  case probe =>
    have hdue' : probeIsDue (s.setClock now) = true := (probeIsDue_iff _).mpr hdue
    rw [exec_probeDue_of_not_held hh, hdue', boardSync_chooses (Or.inl rfl) (SamePages.refl _) fun _ _ _ => rfl]
  case noProbe =>
    have hnot : probeIsDue (s.setClock now) = false := by
      by_contra hdue
      obtain ⟨k, p, t, hk, hen, hs, ht, hr⟩ := (probeIsDue_iff _).mp (by simpa using hdue)
      exact Bool.false_ne_true ((hn k p t hk hen hs ht).symm.trans hr)
    rw [exec_probeDue_of_not_held hh, hnot, boardSync_self]
  case choice =>
    intro i row p s hl hp he h1 h2 honly hturn hrow
    obtain ⟨pre, post, hsplit, hpre⟩ := addressOrder_split s.board.lastAddress h1 h2
    have hfirst : firstEligible s.board.panels s.clock (addressOrder s.board.lastAddress) = some (i, p) := by
      rw [hsplit]
      refine firstEligible_of_first (fun b hb k q hat => ?_) (panelAt_of_only hp honly) he
      by_contra hel
      have hq := panelAt_entry hat
      obtain rfl := panelAt_address hat
      obtain ⟨hb1, hb2, hbl⟩ := hpre _ hb
      have hne : k ≠ i := fun hk => by
        subst hk
        obtain rfl : q = p := Option.some.inj (hq.symm.trans hp)
        split_ifs at hbl with hlt
        · omega
        · omega
      have hcond := hturn k q hq (by simpa using hel) hne
      split_ifs at hbl hcond with hlt
      · exact hcond hbl
      · omega
    have hframe := startFrame_of_row (s := s) (i := i) (rowToSend_eq hrow)
    unfold arbiterChoice
    simp only [hl, hfirst]
    exact hframe
  case noChoice =>
    rcases hn with hl | hnone
    · exact arbiterChoice_of_busy hl
    · have hfirst : firstEligible s.board.panels s.clock (addressOrder s.board.lastAddress) = none := by
        by_contra hsome
        obtain ⟨⟨i, p⟩, hip⟩ := Option.ne_none_iff_exists'.mp hsome
        exact Bool.false_ne_true ((hnone i p (firstEligible_entry hip)).symm.trans (firstEligible_eligible hip))
      unfold arbiterChoice
      cases hl : s.board.line <;> simp only [hfirst]

end Sys2Proof.Machine
end

