-- ==== Sys2Proof/Proofs/BoardSync.lean ====
section
/-! What bringing the board up to date leaves of the rows and of the line: the rows whose text changed are dirty, a frame
of one of them has its abort mark, and everything else goes on (R159, R160, R163, R165). -/

namespace Sys2Proof.Machine

/-! Rows marked -/

theorem markFrom_getElem? (p : Nat → Bool) (k : Nat) (l : List RowMarks) (j : Nat) :
    (markFrom p k l)[j]? = l[j]?.map (fun m => if p (k + j) then { m with dirty := true } else m) := by
  induction l generalizing k j with
  | nil => rfl
  | cons m l ih =>
    cases j with
    | zero => rfl
    | succ j =>
      rw [markFrom, List.getElem?_cons_succ, ih, List.getElem?_cons_succ, Nat.add_right_comm]
      rfl

theorem Panel.markRows_getElem? (pn : Panel) (p : Nat → Bool) (j : Nat) :
    (pn.markRows p).marks[j]? = pn.marks[j]?.map (fun m => if p (j + 1) then { m with dirty := true } else m) := by
  rw [Panel.markRows, markFrom_getElem?, Nat.add_comm]

theorem Panel.markRows_none (pn : Panel) : pn.markRows (fun _ => false) = pn := by
  have h : markFrom (fun _ => false) 1 pn.marks = pn.marks := List.ext_getElem? fun j => by
    rw [markFrom_getElem?]
    simp
  rw [Panel.markRows, h]

theorem entry_setEntry_map {α : Type} (l : List (Option α)) (i k : Nat) (f : α → α) :
    entry (setEntry l i ((entry l i).map f)) k = if k = i then (entry l k).map f else entry l k := by
  split
  · next h =>
    subst h
    cases hk : entry l k with
    | none =>
      rw [Option.map_none]
      by_contra hsome
      obtain ⟨x, hx⟩ := Option.ne_none_iff_exists'.mp hsome
      rcases entry_setEntry_cases hx with ⟨_, h⟩ | ⟨h, _⟩
      · cases h
      · exact h rfl
    | some x => exact entry_setEntry_self l k _ (by rw [hk]; rfl)
  · next h => exact entry_setEntry_of_ne l _ h

theorem Board.dirty_entry (b : Board) (i : Nat) (rows : List Nat) (k : Nat) :
    entry (b.dirty i rows).panels k =
      if k = i then (entry b.panels k).map (fun pn => pn.markRows (fun row => rows.contains row))
      else entry b.panels k := by
  cases rows with
  | nil =>
    have hnone : (fun pn : Panel => pn.markRows (fun row => ([] : List Nat).contains row)) = id :=
      funext fun pn => pn.markRows_none
    rw [hnone, Option.map_id, id, ite_self]
    rfl
  | cons row rows => exact entry_setEntry_map b.panels i k _

theorem Board.dirty_line (b : Board) (i : Nat) (rows : List Nat) :
    (b.dirty i rows).line = abortRows b.line i rows := by
  cases rows with
  | nil =>
    unfold Board.dirty abortRows
    cases b.line <;> simp
  | cons row rows => rfl

theorem foldl_dirty_entry (rows : Nat → List Nat) (l : List Nat) (hl : l.Nodup) (b : Board) (k : Nat) :
    entry (l.foldl (fun b i => b.dirty i (rows i)) b).panels k =
      if k ∈ l then (entry b.panels k).map (fun pn => pn.markRows (fun row => (rows k).contains row))
      else entry b.panels k := by
  induction l generalizing b with
  | nil => rfl
  | cons i l ih =>
    obtain ⟨hi, hl⟩ := List.nodup_cons.mp hl
    rw [List.foldl_cons, ih hl, Board.dirty_entry]
    by_cases hk : k = i
    · subst hk
      simp [hi]
    · simp [hk]

/-- The line after the rows were marked: a frame of one of them has its abort mark (R165). -/
theorem foldl_dirty_line (rows : Nat → List Nat) (l : List Nat) (b : Board) :
    (l.foldl (fun b i => b.dirty i (rows i)) b).line = match b.line with
      | .sending f => .sending { f with aborted := f.aborted || decide (f.panel ∈ l ∧ f.row ∈ rows f.panel) }
      | .free => .free
      | .window f stop => .window f stop := by
  induction l generalizing b with
  | nil => cases h : b.line <;> simp [h]
  | cons i l ih =>
    rw [List.foldl_cons, ih, Board.dirty_line]
    cases h : b.line with
    | free => rfl
    | window f stop => rfl
    | sending f =>
      by_cases hp : f.panel = i
      · by_cases hr : f.row ∈ rows i
        · simp [abortRows, hp, hr]
        · simp [abortRows, hp, hr]
      · simp [abortRows, hp]

theorem mem_changedRows {a b : State} {i row : Nat} :
    row ∈ changedRows a b i ↔ ∃ p q, entry a.board.panels i = some p ∧ entry b.board.panels i = some q ∧ 1 ≤ row ∧
      row ≤ q.rows ∧ b.composed i q row ≠ a.composed i p row := by
  unfold changedRows
  cases ha : entry a.board.panels i with
  | none => simp
  | some p =>
    cases hb : entry b.board.panels i with
    | none => simp
    | some q =>
      simp only [List.mem_filter, List.mem_map, List.mem_range, bne_iff_ne, Option.some.injEq]
      constructor
      · rintro ⟨⟨k, hk, rfl⟩, hne⟩
        exact ⟨p, q, rfl, rfl, by omega, by omega, hne.symm⟩
      · rintro ⟨_, _, rfl, rfl, h1, h2, hne⟩
        exact ⟨⟨row - 1, by omega, by omega⟩, hne.symm⟩

/-! The board brought up to date -/

theorem boardSync_cases (m : Bool) (a b : State) :
    boardSync m a b = markChanged a b ∨ boardSync m a b = arbiterChoice (markChanged a b) := by
  unfold boardSync
  simp only
  split
  · exact Or.inr rfl
  · exact Or.inl rfl

theorem markChanged_panel {a b : State} {k : Nat} {q : Panel} (h : entry (markChanged a b).board.panels k = some q) :
    ∃ p, entry b.board.panels k = some p ∧ q.kept = p.kept ∧ ∀ j : Nat, q.marks[j]?.map (fun m => m.dirty) =
      p.marks[j]?.map (fun m => m.dirty || decide (k ∈ panelIndices ∧ j + 1 ∈ changedRows a b k)) := by
  have h' : entry (panelIndices.foldl (fun b' i => b'.dirty i (changedRows a b i)) b.board).panels k = some q := h
  rw [foldl_dirty_entry _ _ (by decide)] at h'
  split at h'
  · next hk =>
    obtain ⟨p, hp, rfl⟩ := Option.map_eq_some_iff.mp h'
    refine ⟨p, hp, Panel.kept_markRows p _, fun j => ?_⟩
    rw [Panel.markRows_getElem?, Option.map_map]
    refine congrArg (fun f => p.marks[j]?.map f) (funext fun m => ?_)
    by_cases hr : j + 1 ∈ changedRows a b k <;> simp [hk, hr]
  · next hk => exact ⟨q, h', rfl, fun j => by simp [hk]⟩

/-- A panel behind the board's own work: what the work left of it, its rows dirty that were or whose text has changed. -/
theorem boardSync_panel {m : Bool} {a b : State} {k : Nat} {q : Panel}
    (h : entry (boardSync m a b).board.panels k = some q) :
    ∃ p, entry b.board.panels k = some p ∧ q.kept = p.kept ∧ ∀ j : Nat, q.marks[j]?.map (fun m => m.dirty) =
      p.marks[j]?.map (fun m => m.dirty || decide (k ∈ panelIndices ∧ j + 1 ∈ changedRows a b k)) := by
  rcases boardSync_cases m a b with hb | hb
  · exact markChanged_panel (hb ▸ h)
  · obtain ⟨x, hx, hkept, hdirty⟩ := arbiterChoice_panel (hb ▸ h)
    obtain ⟨p, hp, hkept', hmarks⟩ := markChanged_panel hx
    refine ⟨p, hp, hkept.trans hkept', fun j => (?_ : _ = _).trans (hmarks j)⟩
    rw [← List.getElem?_map, ← List.getElem?_map, hdirty]

theorem markChanged_line (a b : State) : (markChanged a b).board.line = match b.board.line with
    | .sending f => .sending { f with
        aborted := f.aborted || decide (f.panel ∈ panelIndices ∧ f.row ∈ changedRows a b f.panel) }
    | .free => .free
    | .window f stop => .window f stop := foldl_dirty_line _ _ _

theorem boardSync_line_sending {m : Bool} {a b : State} {f : RowFrame} (h : b.board.line = .sending f) :
    (boardSync m a b).board.line = .sending { f with
      aborted := f.aborted || decide (f.panel ∈ panelIndices ∧ f.row ∈ changedRows a b f.panel) } := by
  have hline : (markChanged a b).board.line = .sending { f with
      aborted := f.aborted || decide (f.panel ∈ panelIndices ∧ f.row ∈ changedRows a b f.panel) } := by
    rw [markChanged_line, h]
  rcases boardSync_cases m a b with hb | hb
  · rw [hb, hline]
  · rw [hb, arbiterChoice_of_busy (by rw [hline]; simp), hline]

theorem boardSync_line_window {m : Bool} {a b : State} {f : RowFrame} {stop : HillTime}
    (h : b.board.line = .window f stop) : (boardSync m a b).board.line = .window f stop := by
  have hline : (markChanged a b).board.line = .window f stop := by rw [markChanged_line, h]
  rcases boardSync_cases m a b with hb | hb
  · rw [hb, hline]
  · rw [hb, arbiterChoice_of_busy (by rw [hline]; simp), hline]

/-! The texts behind the board's own work -/

theorem boardSync_composed (m : Bool) (a b : State) (i : Nat) (p : Panel) (row : Nat) :
    (boardSync m a b).composed i p row = b.composed i p row := by
  obtain ⟨hfields, _⟩ := boardSync_kept m a b
  have hstate := boardSync_with_board m a b
  exact composed_congr (congrArg Round.table (boardSync_round m a b)) (congrArg StartLight.light (boardSync_start m a b))
    (congrArg StartLight.juryGate (boardSync_start m a b)) (congrArg Corridor.status (boardSync_corridor m a b))
    (congrArg Corridor.live (boardSync_corridor m a b)) hfields (boardSync_countdownShown m a b) i p row

theorem composed_of_panelKept (s : State) (i : Nat) {p q : Panel} (h : q.kept = p.kept) (row : Nat) :
    s.composed i q row = s.composed i p row :=
  composed_of_page s i (congrArg Panel.page h : q.kept.page = p.kept.page)
    (congrArg Panel.columns h : q.kept.columns = p.kept.columns) row

/-! A work on the board -/

section
variable {s t w : State} {m : Bool} (hboard : t.board = (boardSync m s w).board)
include hboard

/-- A work that leaves the marks and the line alone: a row that keeps its text keeps its mark, and its frame goes on. -/
theorem rowsKept_of_sync (hline : w.board.line = s.board.line)
    (hmarks : ∀ k p q, entry s.board.panels k = some p → entry w.board.panels k = some q → q.marks = p.marks)
    (htext : ∀ k p row, t.composed k p row = w.composed k p row) : RowsKept s t := by
  have hsame {k row : Nat} {p q : Panel} (hp : entry s.board.panels k = some p) (hq : entry t.board.panels k = some q)
      (hc : t.composed k q row = s.composed k p row) : row ∉ changedRows s w k := fun hrow => by
    obtain ⟨p', x, hp', hx, -, -, hne⟩ := mem_changedRows.mp hrow
    obtain ⟨x', hx', hkept, -⟩ := boardSync_panel (hboard ▸ hq)
    obtain rfl : p = p' := Option.some.inj (hp.symm.trans hp')
    obtain rfl : x = x' := Option.some.inj (hx.symm.trans hx')
    rw [htext, composed_of_panelKept w k hkept] at hc
    exact hne hc
  refine ⟨fun k row p q a b hp hq hrow hc ha hb => ?_, fun f p q hf hp hq hc => ?_, fun f stop hf => ?_⟩
  · obtain ⟨x, hx, -, hdirty⟩ := boardSync_panel (hboard ▸ hq)
    have hj := hdirty (row - 1)
    rw [hmarks k p x hp hx, ha, hb, Nat.sub_add_cancel hrow] at hj
    simpa [hsame hp hq hc] using hj
  · rw [hboard, boardSync_line_sending (hline.trans hf), hf]
    simp [hsame hp hq hc]
  · rw [hboard, boardSync_line_window (hline.trans hf), hf]

end

/-- A request that its block accepts with work on the board alone: the board as it is then brought up to date. -/
theorem takenRequest_board {s : State} {l : LinkId} (h : s.takes l) {now : HillTime} (tag : Byte) {r : Request}
    (hp : r.permitted l = true) {w u : State} {ns : List Notice} {body : List Field}
    (hs : serve (s.setClock now) l r = accept w body) (hw : Becomes w u) (hn : Posts s w ns) :
    ∃ t, takenRequest now l tag r s = .next t ∧ Becomes t u ∧
      t.board = (boardSync (requestMarks (s.setClock now) r (accept w body)) (s.setClock now) w).board ∧
      (∀ i p row, t.composed i p row = w.composed i p row) ∧
      Answers s t ns l { type := r.code + 0x80#8, tag := tag, code := .ok, body := body } := by
  rw [takenRequest_of_takes h now tag hp, hs]
  have hboard := State.place_board (boardSync (requestMarks (s.setClock now) r (accept w body)) (s.setClock now) w) l
    (.answered { type := r.code + 0x80#8, tag := tag, code := .ok, body := body })
  refine ⟨_, rfl, (hw.boardSync _ _).place _ _, hboard, fun i p row => ?_, Answers.of_posts l _ (hn.boardSync _ _)⟩
  refine Eq.trans (composed_congr ?_ ?_ ?_ ?_ ?_ (congrArg Board.fields hboard) (congrArg Board.countdownShown hboard)
    i p row) (boardSync_composed _ _ w i p row)
  · rw [State.place_round]
  · rw [State.place_start]
  · rw [State.place_start]
  · rw [State.place_corridor]
  · rw [State.place_corridor]

end Sys2Proof.Machine
end

