-- ==== Sys2Proof/Proofs/PageWrites.lean ====
section
/-! PAGE: the characters stored, and all the rest of the board as it was. -/

namespace Sys2Proof.Machine

/-! The characters stored -/

theorem storedChars_length (pn : Panel) (pos : Nat) (chars : List Byte) :
    (storedChars pn pos chars).length = min chars.length (pn.rows * pn.columns - pos) := by
  rw [storedChars, List.length_map, List.length_take, Nat.min_comm]

theorem storedChars_getElem? {pn : Panel} {pos k : Nat} {chars : List Byte}
    (h : k < (storedChars pn pos chars).length) : (storedChars pn pos chars)[k]? = chars[k]?.map pageChar := by
  rw [storedChars_length] at h
  rw [storedChars, List.getElem?_map, List.getElem?_take_of_lt (by omega)]

/-- A write lays its characters over the page memory. -/
theorem writePage_eq (page : List Byte) (pos : Nat) (chars : List Byte) :
    writePage page pos chars = overlay page (pos + 1) chars := rfl

theorem pageBody_eq (pn : Panel) (pos n : Nat) :
    pageBody pn pos n = byteField n ::
      (if pos + n < pn.rows * pn.columns then
        [byteField ((pos + n) / pn.columns + 1), byteField ((pos + n) % pn.columns + 1)]
       else [.u8 none, .u8 none]) := by
  rw [pageBody]
  split_ifs <;> rfl

theorem Rights.allows_iff (x : Rights) (l : LinkId) :
    x.allows l = true ↔ x = .both ∨ (x = .control ∧ l = .control) ∨ (x = .console ∧ l = .console) := by
  cases x <;> cases l <;> simp [Rights.allows]

theorem Rights.not_allows {x : Rights} {l : LinkId}
    (h : (x = .control ∧ l = .console) ∨ (x = .console ∧ l = .control)) : ¬x.allows l = true := by
  rcases h with ⟨rfl, rfl⟩ | ⟨rfl, rfl⟩ <;> simp [Rights.allows]

/-! Cells -/

theorem cell_of_kept {s t : State} {i : Nat}
    (h : (entry t.board.panels i).map Panel.kept = (entry s.board.panels i).map Panel.kept) (row column : Nat) :
    t.cell i row column = s.cell i row column := by
  unfold State.cell
  cases hp : entry s.board.panels i with
  | none =>
    rw [hp, Option.map_none, Option.map_eq_none_iff] at h
    rw [h]
  | some p =>
    rw [hp] at h
    obtain ⟨q, hq, hkept⟩ := Option.map_eq_some_iff.mp h
    have hrows : q.rows = p.rows := (congrArg Panel.rows hkept : q.kept.rows = p.kept.rows)
    have hcolumns : q.columns = p.columns := (congrArg Panel.columns hkept : q.kept.columns = p.kept.columns)
    have hpage : q.page = p.page := (congrArg Panel.page hkept : q.kept.page = p.kept.page)
    simp only [hq, hrows, hcolumns, hpage]

theorem cell_eq {s : State} {i row column : Nat} {p : Panel} (hp : entry s.board.panels i = some p) (h1 : 1 ≤ row)
    (h2 : row ≤ p.rows) (h3 : 1 ≤ column) (h4 : column ≤ p.columns) :
    s.cell i row column = p.page[(row - 1) * p.columns + (column - 1)]? := by
  simp only [State.cell, hp]
  exact if_pos ⟨⟨h1, h2⟩, h3, h4⟩

theorem cell_lt {p : Panel} {row column : Nat} (h1 : 1 ≤ row) (h2 : row ≤ p.rows) (h3 : 1 ≤ column)
    (h4 : column ≤ p.columns) : (row - 1) * p.columns + (column - 1) < p.rows * p.columns := by
  have hroom : (row - 1) * p.columns + p.columns ≤ p.rows * p.columns := by
    rw [← Nat.succ_mul]
    exact Nat.mul_le_mul_right _ (by omega)
  omega

/-! PAGE -/

/-- The board with the page memory of one panel replaced. -/
def Board.setPage (b : Board) (i : Nat) (p : Panel) (page : List Byte) : Board :=
  { b with panels := setEntry b.panels i (some { p with page := page }) }

theorem servePage_accept {s : State} {l : LinkId} {i row column : Nat} {chars : List Byte} {p : Panel} (h1 : 1 ≤ i)
    (h8 : i ≤ 8) (hp : entry s.board.panels i = some p) (hr : p.rights.allows l = true)
    (hcell : (1 ≤ row ∧ row ≤ p.rows) ∧ (1 ≤ column ∧ column ≤ p.columns) ∧ (1 ≤ chars.length ∧ chars.length ≤ 32)) :
    servePage s l i row column chars =
      accept (s.setBoard (s.board.setPage i p
          (writePage p.page (cellPos p row column) (storedChars p (cellPos p row column) chars))))
        (pageBody p (cellPos p row column) (storedChars p (cellPos p row column) chars).length) := by
  rw [servePage, if_neg (not_not.mpr ⟨h1, h8⟩)]
  simp only [hp]
  rw [if_pos hr, if_pos hcell]
  rfl

section
variable {s : State} {i : Nat} {p : Panel} {page : List Byte} (hp : entry s.board.panels i = some p)
include hp

theorem setPage_entry : entry (s.board.setPage i p page).panels i = some { p with page := page } :=
  entry_setEntry_self _ _ _ (by rw [hp]; rfl)

theorem setPage_marks {k : Nat} {x y : Panel} (hx : entry s.board.panels k = some x)
    (hy : entry (s.board.setPage i p page).panels k = some y) : y.marks = x.marks := by
  rcases entry_setEntry_cases hy with ⟨rfl, hv⟩ | ⟨_, hy⟩
  · obtain rfl : p = x := Option.some.inj (hp.symm.trans hx)
    rw [← Option.some.inj hv]
  · rw [Option.some.inj (hy.symm.trans hx)]

end

theorem setPage_entry_of_ne (b : Board) {i k : Nat} (p : Panel) (page : List Byte) (h : k ≠ i) :
    entry (b.setPage i p page).panels k = entry b.panels k := entry_setEntry_of_ne _ _ h

section
variable {s : State} {l : LinkId} (h : s.takes l) (now : HillTime) (tag : Byte) {i row column : Nat} {chars : List Byte}
include h

theorem page_refuse {code : ResultCode}
    (hs : servePage (s.setClock now) l i row column chars = refuse (s.setClock now) code pageRefused) :
    exec (.page now l tag i row column chars) s =
      s.answering now l 0x9A#8 tag code [byteField 0, .u8 none, .u8 none] :=
  takenRequest_refuse h tag (r := .page i row column chars) rfl (fun _ => rfl) hs

end

/-- Settles O58: the characters stored and all else kept, then the checks in their order. -/
theorem pageWritesCells : Obligations.PageWritesCells := by
  refine ⟨?stored, ?refused⟩
  case stored =>
    intro now l tag i row column pos n chars p s h h1 h8 hp hsized hrights hr1 hr2 hc1 hc2 hl1 hl2 hpos hn
    have hcellPos : cellPos p row column = pos := hpos.symm
    have hallows := (Rights.allows_iff _ _).mpr hrights
    have hserve := servePage_accept (s := s.setClock now) h1 h8 hp hallows ⟨⟨hr1, hr2⟩, ⟨hc1, hc2⟩, hl1, hl2⟩
    rw [hcellPos] at hserve
    have hlen : (storedChars p pos chars).length = n := (storedChars_length p pos chars).trans hn.symm
    have hroom : pos < p.rows * p.columns := hpos ▸ cell_lt hr1 hr2 hc1 hc2
    have hfits : pos + 1 - 1 + (storedChars p pos chars).length ≤ p.page.length := by rw [hlen, hsized.1]; omega
    generalize hpage : writePage p.page pos (storedChars p pos chars) = page at hserve
    have hpageLength : page.length = p.page.length := by rw [← hpage, writePage_eq, overlay_length hfits]
    obtain ⟨t, ht, hbecomes, hboard, htext, hanswers⟩ := takenRequest_board h tag (now := now)
      (r := .page i row column chars) rfl hserve (Becomes.refl _) ((Posts.refl s).of_links rfl rfl)
    obtain ⟨hstate, hfields, hperiod, hrefresh, hpanels⟩ := hbecomes
    have hpi := setPage_entry (page := page) hp
    have hcells (k r c : Nat) : t.cell k r c = ((s.setClock now).setBoard (s.board.setPage i p page)).cell k r c :=
      cell_of_kept (hpanels k) r c
    have hcell {r c : Nat} (hr : 1 ≤ r) (hr' : r ≤ p.rows) (hc : 1 ≤ c) (hc' : c ≤ p.columns) :
        t.cell i r c = page[(r - 1) * p.columns + (c - 1)]? := by
      rw [hcells, cell_eq (p := { p with page := page }) hpi hr hr' hc hc']
    refine ⟨t, ht, hstate, hfields, hperiod, hrefresh, ?shown, ?panel, fun k hk => ?others, ?rows,
      fun k r c ch hr hr' hc hc' hat hk hch => ?inside, fun r c hr hr' hc hc' hout => ?outside, fun k r c hk => ?cells,
      ?answers⟩
    case shown =>
      rw [hboard, boardSync_countdownShown]
      rfl
    case panel =>
      obtain ⟨q, hq, hkept⟩ := Option.map_eq_some_iff.mp ((hpanels i).trans (congrArg (Option.map Panel.kept) hpi))
      have hqpage : q.page = page := congrArg Panel.page hkept
      exact ⟨q, hq, hqpage ▸ hpageLength, hqpage ▸ hkept⟩
    case others => rw [hpanels k]; exact congrArg _ (setPage_entry_of_ne _ _ _ hk)
    case rows =>
      exact rowsKept_of_sync (s := s.setClock now) hboard rfl (fun k x y hx hy => setPage_marks hp hx hy) htext
    case inside =>
      rw [hcell hr hr' hc hc', hat, ← hpage, writePage_eq,
        overlay_inside hfits (by omega) (by omega), Nat.add_sub_cancel, Nat.add_sub_cancel_left,
        storedChars_getElem? (by omega), hch]
      rfl
    case outside =>
      rw [hcell hr hr' hc hc', cell_eq hp hr hr' hc hc', ← hpage, writePage_eq, overlay_outside hfits (by omega)]
    case cells =>
      rw [hcells]
      exact cell_of_kept (congrArg _ (setPage_entry_of_ne _ _ _ hk)) r c
    case answers => rw [← pageBody_eq, ← hlen]; exact hanswers
  case refused =>
    rintro now l tag i row column chars absent s h rfl
    refine ⟨fun hi => page_refuse h now tag ?index, fun h1 h8 hp => page_refuse h now tag ?empty,
      fun p h1 h8 hp hr => page_refuse h now tag ?rights, fun p h1 h8 hp hr hout => page_refuse h now tag ?cell⟩
    case index => exact if_pos (by omega)
    case empty =>
      rw [servePage, if_neg (not_not.mpr ⟨h1, h8⟩)]
      simp only [State.setClock_board, hp]
    case rights =>
      rw [servePage, if_neg (not_not.mpr ⟨h1, h8⟩)]
      simp only [State.setClock_board, hp]
      exact if_neg (Rights.not_allows hr)
    case cell =>
      rw [← List.length_eq_zero_iff] at hout
      rw [servePage, if_neg (not_not.mpr ⟨h1, h8⟩)]
      simp only [State.setClock_board, hp]
      rw [if_pos ((Rights.allows_iff _ _).mpr hr), if_neg (by omega)]

end Sys2Proof.Machine
end

