-- ==== Sys2Proof/Proofs/FieldMap.lean ====
section
/-! FLD: one field descriptor set or emptied, and the rows it does not lie on as they were. -/

namespace Sys2Proof.Machine

/-! Rows that a field does not lie on -/

/-- A descriptor changed outside a row leaves the row's fields. -/
theorem rowFields_setEntry {fields : List (Option FieldDesc)} {i k row : Nat} {v : Option FieldDesc}
    (hnew : ∀ d, v = some d → ¬(k = d.panel ∧ row = d.row))
    (hold : ∀ o, entry fields i = some o → ¬(k = o.panel ∧ row = o.row)) :
    rowFields (setEntry fields i v) k row = rowFields fields k row := by
  refine (indicesFrom_sorted _ _ 1).eq_of_mem_iff (indicesFrom_sorted _ _ 1) fun n =>
    (mem_rowFields (fields := setEntry fields i v)).trans (Iff.trans ?_ mem_rowFields.symm)
  refine exists_congr fun d => and_congr_left fun ⟨hpanel, hrow⟩ => ?_
  by_cases hn : n = i
  · subst hn
    refine ⟨fun h => ?_, fun h => (hold d h ⟨hpanel.symm, hrow.symm⟩).elim⟩
    rcases entry_setEntry_cases h with ⟨_, hv⟩ | ⟨hne, _⟩
    · exact (hnew d hv ⟨hpanel.symm, hrow.symm⟩).elim
    · exact (hne rfl).elim
  · rw [entry_setEntry_of_ne _ _ hn]

/-- The field map with the entry at the index, and the seconds it shows, replaced. -/
def Board.putField (b : Board) (i : Nat) (v : Option FieldDesc) (seconds : Option Nat) : Board :=
  { b with fields := setEntry b.fields i v, countdownShown := setEntry b.countdownShown i seconds }

theorem composed_putField {s : State} {i k row : Nat} {v : Option FieldDesc} (seconds : Option Nat)
    (hnew : ∀ d, v = some d → ¬(k = d.panel ∧ row = d.row))
    (hold : ∀ o, entry s.board.fields i = some o → ¬(k = o.panel ∧ row = o.row)) (p : Panel) :
    (s.setBoard (s.board.putField i v seconds)).composed k p row = s.composed k p row := by
  have hrows := rowFields_setEntry hnew hold
  unfold State.composed composedRow
  refine (congrArg _ hrows).trans (List.foldl_ext _ _ _ fun t n hn => ?_)
  obtain ⟨d, hd, hpanel, hrow⟩ := mem_rowFields.mp hn
  have hne : n ≠ i := by
    rintro rfl
    exact hold d hd ⟨hpanel.symm, hrow.symm⟩
  have hshown : entry (setEntry s.board.countdownShown i seconds) n = entry s.board.countdownShown n :=
    entry_setEntry_of_ne _ _ hne
  rw [layField_eq hd, layField_eq ((entry_setEntry_of_ne _ _ hne).trans hd)]
  exact congrArg (fun x => overlay t d.column (renderField s.round s.start s.corridor x d)) hshown

/-! FLD -/

section
variable {s : State} (h : s.takes .control) (now : HillTime) (tag : Byte) (i : Nat) (f : FldFields)
include h

theorem fld_refuse {action : Nat} {code : ResultCode} {body : List Field}
    (hs : serveFld (s.setClock now) i action f = refuse (s.setClock now) code body) :
    takenRequest now .control tag (.fld i action f) s = s.answering now .control 0x8B#8 tag code body :=
  takenRequest_refuse h tag (r := .fld i action f) rfl (fun _ => rfl) hs

/-- An accepted FLD: the entry and its seconds replaced, the rows off both the old and the new descriptor as they were
(R154, R159). -/
theorem fld_edits {action : Nat} {v : Option FieldDesc} {seconds : Option Nat} {body : List Field}
    (hs : serveFld (s.setClock now) i action f =
      accept ((s.setClock now).setBoard (s.board.putField i v seconds)) body) :
    ∃ t, takenRequest now .control tag (.fld i action f) s = .next t ∧
      Becomes t { s with clock := now, board := { s.board with fields := setEntry s.board.fields i v } } ∧
      t.board.countdownShown = setEntry s.board.countdownShown i seconds ∧
      (∀ k row x y, entry s.board.panels k = some x → entry t.board.panels k = some y →
        (∀ d, v = some d → ¬(k = d.panel ∧ row = d.row)) →
        (∀ o, entry s.board.fields i = some o → ¬(k = o.panel ∧ row = o.row)) →
        t.composed k y row = s.composed k x row) ∧
      RowsKept s t ∧ Answers s t [] .control { type := 0x8B#8, tag := tag, code := .ok, body := body } := by
  obtain ⟨t, ht, hbecomes, hboard, htext, hanswers⟩ := takenRequest_board h tag (now := now)
    (u := { s with clock := now, board := { s.board with fields := setEntry s.board.fields i v } })
    (r := .fld i action f) rfl hs ⟨rfl, rfl, rfl, rfl, fun _ => rfl⟩ ((Posts.refl s).of_links rfl rfl)
  refine ⟨t, ht, hbecomes, ?shown, fun k row x y hx hy hnew hold => ?texts, ?rows, hanswers⟩
  case shown =>
    rw [hboard, boardSync_countdownShown]
    rfl
  case texts =>
    have hkept := hbecomes.2.2.2.2 k
    rw [hy, show entry _ k = some x from hx] at hkept
    rw [composed_of_panelKept t k (Option.some.inj hkept), htext]
    exact composed_putField (s := s.setClock now) seconds hnew hold x
  case rows =>
    refine rowsKept_of_sync (s := s.setClock now) hboard rfl (fun k x y hx hy => ?_) htext
    rw [Option.some.inj (hy.symm.trans hx)]

end

theorem countdownSeconds_eq (c : Countdown) (now : HillTime) :
    countdownSeconds c now = match c with
      | .idle => none
      | .running _ expiry => some ((ticksLeft expiry now + 99999) / 100000)
      | .held _ ticks => some ((ticks + 99999) / 100000) := by
  cases c <;> rfl

/-! SET -/

section
variable {s : State} {i : Nat} {f : FldFields} {p : Panel} (h1 : 1 ≤ i) (h48 : i ≤ 48)
  (hp : entry s.board.panels f.panel = some p)
include h1 h48 hp

theorem fldSet_outside (hout : ¬((1 ≤ f.row ∧ f.row ≤ p.rows) ∧ (1 ≤ f.width ∧ f.width ≤ 32) ∧
      (1 ≤ f.column ∧ f.column ≤ p.columns) ∧ f.column + f.width - 1 ≤ p.columns)) :
    fldSet s i f = refuse s .outOfRange fldRefused := by
  rw [fldSet, if_neg (not_not.mpr ⟨h1, h48⟩)]
  simp only [hp]
  exact if_pos hout

section
variable (hin : (1 ≤ f.row ∧ f.row ≤ p.rows) ∧ (1 ≤ f.width ∧ f.width ≤ 32) ∧ (1 ≤ f.column ∧ f.column ≤ p.columns) ∧
  f.column + f.width - 1 ≤ p.columns)
include hin

theorem fldSet_undescribed (hd : descriptorOf f = none) : fldSet s i f = refuse s .outOfRange fldRefused := by
  rw [fldSet, if_neg (not_not.mpr ⟨h1, h48⟩)]
  simp only [hp]
  rw [if_neg (not_not.mpr hin)]
  simp only [hd]

variable {d : FieldDesc} (hd : descriptorOf f = some d)
include hd

theorem fldSet_overlaps (ho : fieldOverlaps s.board.fields i f = true) :
    fldSet s i f = refuse s .fieldOverlap fldRefused := by
  rw [fldSet, if_neg (not_not.mpr ⟨h1, h48⟩)]
  simp only [hp]
  rw [if_neg (not_not.mpr hin)]
  simp only [hd]
  exact if_pos ho

theorem fldSet_accept (ho : fieldOverlaps s.board.fields i f = false) :
    fldSet s i f = accept (s.setBoard (s.board.putField i (some d)
      (d.shown (countdownSeconds s.start.countdown s.clock)))) (fldBody i true) := by
  rw [fldSet, if_neg (not_not.mpr ⟨h1, h48⟩)]
  simp only [hp]
  rw [if_neg (not_not.mpr hin)]
  simp only [hd]
  rw [if_neg (by rw [ho]; exact Bool.false_ne_true)]
  rfl

end
end

theorem fieldOverlaps_iff {fields : List (Option FieldDesc)} {i : Nat} {f : FldFields} :
    fieldOverlaps fields i f = true ↔ ∃ k x, k ≠ i ∧ entry fields k = some x ∧ x.panel = f.panel ∧ x.row = f.row ∧
      x.column < f.column + f.width ∧ f.column < x.column + x.width := by
  rw [fieldOverlaps, othersAny_iff]
  simp only [spansMeet, Bool.and_eq_true, beq_iff_eq, decide_eq_true_eq, and_assoc]

/-! The descriptor of the fields -/

theorem itemOf_live {n : Nat} {item : Item} (h : itemOf n = some item) : item.isLive = decide (n ≤ 4) := by
  unfold itemOf at h
  split at h <;> cases h <;> rfl

theorem itemOf_eq_none {n : Nat} (h : 14 < n) : itemOf n = none := by
  obtain ⟨k, rfl⟩ := Nat.exists_eq_add_of_le' (show 15 ≤ n from h)
  rfl

theorem viewOf_eq_none {n : Nat} (h : 2 < n) : viewOf n = none := by
  obtain ⟨k, rfl⟩ := Nat.exists_eq_add_of_le' (show 3 ≤ n from h)
  rfl

theorem alignOf_eq_none {n : Nat} (h : 1 < n) : alignOf n = none := by
  obtain ⟨k, rfl⟩ := Nat.exists_eq_add_of_le' (show 2 ≤ n from h)
  rfl

theorem descriptorOf_eq {f : FldFields} {al : Align} {item : Item} {view : View} (ha : alignOf f.align = some al)
    (hi : itemOf f.item = some item) (hfill : 0x20 ≤ f.fill ∧ f.fill ≤ 0x7E)
    (hv : (if item.isLive then some View.bar else viewOf f.view) = some view) :
    descriptorOf f = some { panel := f.panel, row := f.row, column := f.column, width := f.width, align := al,
                            fill := byteOf f.fill, item := item, view := view } := by
  simp only [descriptorOf, ha, hi, hfill, hv, and_self, if_true]

theorem descriptorOf_eq_none {f : FldFields}
    (h : f.fill < 0x20 ∨ 0x7E < f.fill ∨ 1 < f.align ∨ 14 < f.item ∨ (4 < f.item ∧ 2 < f.view)) :
    descriptorOf f = none := by
  unfold descriptorOf
  cases ha : alignOf f.align with
  | none => rfl
  | some al =>
    cases hi : itemOf f.item with
    | none => rfl
    | some item =>
      have halign : ¬1 < f.align := fun hx => by rw [alignOf_eq_none hx] at ha; cases ha
      have hitem : ¬14 < f.item := fun hx => by rw [itemOf_eq_none hx] at hi; cases hi
      by_cases hfill : 0x20 ≤ f.fill ∧ f.fill ≤ 0x7E
      · obtain ⟨h4, h2⟩ : 4 < f.item ∧ 2 < f.view := by omega
        simp only [itemOf_live hi, viewOf_eq_none h2, hfill, decide_eq_true_eq, Nat.not_le.mpr h4, if_false]
        rfl
      · exact if_neg hfill

/-! CLEAR -/

theorem fldClear_empty {s : State} {i : Nat} (h1 : 1 ≤ i) (h48 : i ≤ 48) (he : entry s.board.fields i = none) :
    fldClear s i = accept s (fldBody i false) := by
  rw [fldClear, if_pos ⟨h1, h48⟩]
  simp only [Board.clearField, he]
  rfl

theorem fldClear_accept {s : State} {i : Nat} {o : FieldDesc} (h1 : 1 ≤ i) (h48 : i ≤ 48)
    (he : entry s.board.fields i = some o) :
    fldClear s i = accept (s.setBoard (s.board.putField i none none)) (fldBody i false) := by
  rw [fldClear, if_pos ⟨h1, h48⟩]
  simp only [Board.clearField, he]
  rfl

/-- Settles O57: SET and its overlap check, CLEAR, then the checks of R153. -/
theorem fldEditsTheFieldMap : Obligations.FldEditsTheFieldMap := by
  refine ⟨?set, ?clear, ?refused⟩
  case set =>
    intro now tag i f p d s h h1 h48 hp hr1 hr2 hw1 hw2 hc1 hc2 hf1 hf2 halign hitem hview hd
    have hin : (1 ≤ f.row ∧ f.row ≤ p.rows) ∧ (1 ≤ f.width ∧ f.width ≤ 32) ∧ (1 ≤ f.column ∧ f.column ≤ p.columns) ∧
        f.column + f.width - 1 ≤ p.columns := by omega
    have ha : alignOf f.align = some d.align := by
      rcases halign with ⟨hf, hd⟩ | ⟨hf, hd⟩ <;> rw [hf, hd] <;> rfl
    have hv : (if d.item.isLive then some View.bar else viewOf f.view) = some d.view := by
      rw [itemOf_live hitem]
      rcases hview with ⟨hle, hbar⟩ | ⟨hlt, hview⟩
      · rw [hbar, decide_eq_true hle]
        rfl
      · rw [decide_eq_false (Nat.not_le.mpr hlt)]
        rcases hview with ⟨hf, hd⟩ | ⟨hf, hd⟩ | ⟨hf, hd⟩ <;> rw [hf, hd] <;> rfl
    have hdesc : descriptorOf f = some d := (descriptorOf_eq ha hitem ⟨hf1, hf2⟩ hv).trans (congrArg some hd.symm)
    refine ⟨fun hfree => ?accepted, fun k x hk hx hpanel hrow hlt hlt' => ?overlap⟩
    case accepted =>
      have hno : fieldOverlaps s.board.fields i f = false := by
        rw [← Bool.not_eq_true, fieldOverlaps_iff]
        rintro ⟨k, x, hk, hx, hpanel, hrow, hlt, hlt'⟩
        have := hfree k x hk hx hpanel hrow
        omega
      obtain ⟨t, ht, hbecomes, hshown, htexts, hrows, hanswers⟩ := fld_edits h now tag i f (action := 0)
        (fldSet_accept (s := s.setClock now) h1 h48 hp hin hdesc hno)
      refine ⟨t, ht, hbecomes, ?_, fun k row x y hx hy hnew hold => htexts k row x y hx hy (fun e he => ?_) hold, hrows,
        hanswers⟩
      · rw [hshown, FieldDesc.shown, countdownSeconds_eq, ite_not]
        rfl
      · obtain rfl := Option.some.inj he
        rwa [hd]
    case overlap =>
      exact fld_refuse h now tag i f (action := 0) (fldSet_overlaps (s := s.setClock now) h1 h48 hp hin hdesc
        (fieldOverlaps_iff.mpr ⟨k, x, hk, hx, hpanel, hrow, hlt, hlt'⟩))
  case clear =>
    refine fun now tag i f s h h1 h48 => ⟨fun he => ?_, fun o he => ?_⟩
    · exact takenRequest_quiet h tag (r := .fld i 1 f) rfl (fun _ => rfl) (fldClear_empty (s := s.setClock now) h1 h48 he)
        (boardSync_self _)
    · obtain ⟨t, ht, hbecomes, hshown, htexts, hrows, hanswers⟩ := fld_edits h now tag i f (action := 1)
        (fldClear_accept (s := s.setClock now) h1 h48 he)
      refine ⟨t, ht, hbecomes, hshown, fun k row x y hx hy hout => htexts k row x y hx hy (fun e he => ?_) fun e he' => ?_,
        hrows, hanswers⟩
      · cases he
      · rwa [← Option.some.inj (he.symm.trans he')]
  case refused =>
    refine fun now tag i f s h => ⟨fun hi => ⟨?_, ?_⟩, fun p h1 h48 hp hout => ?_, fun h1 h48 hp => ?_⟩
    · exact fld_refuse h now tag i f (action := 0) (if_pos (by omega))
    · exact fld_refuse h now tag i f (action := 1) (if_neg (by omega))
    · refine fld_refuse h now tag i f (action := 0) ?_
      by_cases hin : (1 ≤ f.row ∧ f.row ≤ p.rows) ∧ (1 ≤ f.width ∧ f.width ≤ 32) ∧
          (1 ≤ f.column ∧ f.column ≤ p.columns) ∧ f.column + f.width - 1 ≤ p.columns
      · exact fldSet_undescribed (s := s.setClock now) h1 h48 hp hin (descriptorOf_eq_none (by omega))
      · exact fldSet_outside (s := s.setClock now) h1 h48 hp hin
    · refine fld_refuse h now tag i f (action := 0) ?_
      rw [serveFld, fldSet, if_neg (not_not.mpr ⟨h1, h48⟩)]
      simp only [State.setClock_board, hp]
      rfl

end Sys2Proof.Machine
end

