-- ==== Sys2Proof/Proofs/PanelWork.lean ====
section
/-! A panel entry written anew: the frame to it dealt with, the rows it has, and the arbiter's choice behind it (R147, R148,
R163, R168). -/

namespace Sys2Proof.Machine

/-! The arbiter's choice, panel by panel -/

theorem firstDirty_ge {k j : Nat} {l : List RowMarks} (h : firstDirty k l = some j) : k ≤ j := by
  induction l generalizing k with
  | nil => cases h
  | cons m l ih =>
    rw [firstDirty] at h
    split at h
    · exact (Option.some.inj h).le
    · exact Nat.le_of_succ_le (ih h)

theorem rowToSend_pos (p : Panel) : 1 ≤ p.rowToSend := by
  unfold Panel.rowToSend
  cases p.state with
  | offline => exact Nat.le_refl 1
  | online =>
    cases h : firstDirty 1 p.marks with
    | none => exact Nat.le_refl 1
    | some j => exact firstDirty_ge h

theorem arbiterChoice_cases (s : State) :
    arbiterChoice s = s ∨ ∃ i p, s.board.line = .free ∧ entry s.board.panels i = some p ∧ p.eligible s.clock = true ∧
      arbiterChoice s = startFrame s i p := by
  cases hl : s.board.line with
  | sending f => exact Or.inl (arbiterChoice_of_busy (by rw [hl]; simp))
  | window f stop => exact Or.inl (arbiterChoice_of_busy (by rw [hl]; simp))
  | free =>
    cases hfirst : firstEligible s.board.panels s.clock (addressOrder s.board.lastAddress) with
    | none =>
      refine Or.inl ?_
      simp only [arbiterChoice, hl, hfirst]
    | some e =>
      obtain ⟨i, p⟩ := e
      refine Or.inr ⟨i, p, rfl, firstEligible_entry hfirst, firstEligible_eligible hfirst, ?_⟩
      simp only [arbiterChoice, hl, hfirst]

theorem arbiterChoice_line (s : State) :
    (arbiterChoice s).board.line = s.board.line ∨
      ∃ g, (arbiterChoice s).board.line = .sending g ∧ g.aborted = false := by
  rcases arbiterChoice_cases s with h | ⟨i, p, -, -, -, h⟩
  · exact Or.inl (by rw [h])
  · exact Or.inr ⟨_, by rw [h]; rfl, rfl⟩

/-- A panel the choice may not take stays as it is. -/
theorem arbiterChoice_of_ineligible {s : State} {k : Nat} {p : Panel} (hp : entry s.board.panels k = some p)
    (he : p.eligible s.clock = false) : entry (arbiterChoice s).board.panels k = some p := by
  rcases arbiterChoice_cases s with h | ⟨i, x, -, hx, hel, h⟩
  · rwa [h]
  · have hk : k ≠ i := by
      rintro rfl
      obtain rfl : x = p := Option.some.inj (hx.symm.trans hp)
      exact Bool.false_ne_true (he.symm.trans hel)
    rw [h]
    exact (entry_setEntry_of_ne _ _ hk).trans hp

/-! A panel with every row dirty -/

theorem Panel.markRows_of_dirty {p : Panel} (h : ∀ m ∈ p.marks, m.dirty = true) (f : Nat → Bool) : p.markRows f = p := by
  have hmarks : (p.markRows f).marks = p.marks := List.ext_getElem? fun j => by
    rw [Panel.markRows_getElem?]
    cases hj : p.marks[j]? with
    | none => rfl
    | some m =>
      have hm := h m (List.mem_of_getElem? hj)
      obtain ⟨dirty, inFlight⟩ := m
      obtain rfl : dirty = true := hm
      simp
  exact congrArg (fun marks => { p with marks := marks }) hmarks

theorem markChanged_of_dirty {a b : State} {k : Nat} {p : Panel} (hp : entry b.board.panels k = some p)
    (hd : ∀ m ∈ p.marks, m.dirty = true) : entry (markChanged a b).board.panels k = some p := by
  refine (foldl_dirty_entry (changedRows a b) panelIndices (by decide) b.board k).trans ?_
  rw [hp, Option.map_some, Panel.markRows_of_dirty hd, ite_self]

/-- A panel with every row dirty and none in flight: as it is, but for the row of the frame that is chosen (R163, R164). -/
theorem boardSync_of_dirty {m : Bool} {a b : State} {k : Nat} {p : Panel} (hp : entry b.board.panels k = some p)
    (hd : ∀ x ∈ p.marks, x.dirty = true ∧ x.inFlight = false) (he : p.state = .offline → p.enabled = false) :
    ∃ q, entry (boardSync m a b).board.panels k = some q ∧ q = { p with marks := q.marks } ∧
      q.marks.length = p.marks.length ∧ (∀ x ∈ q.marks, x.dirty = true) ∧
      ∀ j x, q.marks[j]? = some x → x.inFlight = true → b.board.line = .free ∧
        ∃ g, (boardSync m a b).board.line = .sending g ∧ g.panel = k ∧ g.row = j + 1 ∧ g.aborted = false := by
  have hmarked := markChanged_of_dirty (a := a) hp fun x hx => (hd x hx).1
  have hidle {s : State} (h : entry s.board.panels k = some p) : ∃ q, entry s.board.panels k = some q ∧
      q = { p with marks := q.marks } ∧ q.marks.length = p.marks.length ∧ (∀ x ∈ q.marks, x.dirty = true) ∧
      ∀ j x, q.marks[j]? = some x → x.inFlight = true → b.board.line = .free ∧
        ∃ g, s.board.line = .sending g ∧ g.panel = k ∧ g.row = j + 1 ∧ g.aborted = false :=
    ⟨p, h, rfl, rfl, fun x hx => (hd x hx).1, fun j x hx hf =>
      (Bool.false_ne_true ((hd x (List.mem_of_getElem? hx)).2.symm.trans hf)).elim⟩
  rcases boardSync_cases m a b with hb | hb
  · rw [hb]
    exact hidle hmarked
  rcases arbiterChoice_cases (markChanged a b) with hc | ⟨i, x, hline, hx, hel, hc⟩
  · rw [hb, hc]
    exact hidle hmarked
  rw [hb]
  by_cases hk : k = i
  · subst hk
    obtain rfl : x = p := Option.some.inj (hx.symm.trans hmarked)
    have hfree : b.board.line = .free := by
      cases hl : b.board.line with
      | free => rfl
      | sending f => rw [markChanged_line, hl] at hline; cases hline
      | window f stop => rw [markChanged_line, hl] at hline; cases hline
    have honline : x.state = .online := by
      cases hs : x.state with
      | online => rfl
      | offline => simp [Panel.eligible, he hs] at hel
    have hpos := rowToSend_pos x
    rw [hc, startFrame_of_row rfl, if_neg (by rw [honline]; simp)]
    refine ⟨_, entry_setEntry_self _ _ _ (by rw [hx]; rfl), rfl, List.length_modify _ _ _, fun y hy => ?_,
      fun j y hy hf => ⟨hfree, _, rfl, rfl, ?_, rfl⟩⟩
    · obtain ⟨j, hj⟩ := List.getElem?_of_mem hy
      rw [List.getElem?_modify] at hj
      obtain ⟨z, hz, rfl⟩ := Option.map_eq_some_iff.mp hj
      have hdz := (hd z (List.mem_of_getElem? hz)).1
      split_ifs
      · exact hdz
      · exact hdz
    · rw [List.getElem?_modify] at hy
      obtain ⟨z, hz, rfl⟩ := Option.map_eq_some_iff.mp hy
      split_ifs at hf with hj
      · show x.rowToSend = j + 1
        omega
      · exact (Bool.false_ne_true ((hd z (List.mem_of_getElem? hz)).2.symm.trans hf)).elim
  · rw [hc]
    exact hidle ((entry_setEntry_of_ne _ _ hk).trans hmarked)

theorem boardSync_entry {m : Bool} {a b : State} {k : Nat} {p : Panel} (hp : entry b.board.panels k = some p) :
    ∃ q, entry (boardSync m a b).board.panels k = some q ∧ q.kept = p.kept := by
  obtain ⟨-, -, -, hkept⟩ := boardSync_kept m a b
  exact Option.map_eq_some_iff.mp ((hkept k).trans (by rw [hp]; rfl))

theorem boardSync_entry_none {m : Bool} {a b : State} {k : Nat} (hp : entry b.board.panels k = none) :
    entry (boardSync m a b).board.panels k = none := by
  obtain ⟨-, -, -, hkept⟩ := boardSync_kept m a b
  have hk := hkept k
  rw [hp] at hk
  exact Option.map_eq_none_iff.mp hk

/-! The frame to a panel disturbed -/

/-- The board with a panel's entry replaced, the frame to it dealt with (R168). -/
def Board.putPanel (b : Board) (i : Nat) (v : Option Panel) : Board :=
  { b with panels := setEntry b.panels i v, line := (b.disturb i).line }

/-- A panel that no frame goes to is not disturbed. -/
theorem disturb_of_other {b : Board} {i : Nat} (hs : ∀ f, b.line = .sending f → f.panel ≠ i)
    (hw : ∀ f stop, b.line = .window f stop → f.panel ≠ i) : b.disturb i = b := by
  cases hl : b.line with
  | free => simp only [Board.disturb, hl]
  | sending f => simp only [Board.disturb, hl, hs f hl, if_false]
  | window f stop => simp only [Board.disturb, hl, hw f stop hl, if_false]

/-- What PANL does to the in-flight mark of the old entry is gone with it. -/
theorem disturb_setEntry (b : Board) (i : Nat) (v : Option Panel) :
    { b.disturb i with panels := setEntry (b.disturb i).panels i v } = b.putPanel i v := by
  by_cases hs : ∃ f, b.line = .sending f ∧ f.panel = i
  · obtain ⟨f, hl, hf⟩ := hs
    simp only [Board.putPanel, Board.disturb, hl, hf, if_true]
  by_cases hw : ∃ f stop, b.line = .window f stop ∧ f.panel = i
  · obtain ⟨f, stop, hl, hf⟩ := hw
    simp only [Board.putPanel, Board.disturb, hl, hf, if_true, setEntry_setEntry]
  · rw [Board.putPanel, disturb_of_other (fun f hl hf => hs ⟨f, hl, hf⟩) fun f stop hl hf => hw ⟨f, stop, hl, hf⟩]

section
variable {b : Board} {i : Nat}

theorem disturb_line_sending {f : RowFrame} (hl : b.line = .sending f) :
    (b.disturb i).line = .sending { f with aborted := f.aborted || decide (f.panel = i) } := by
  unfold Board.disturb
  by_cases hf : f.panel = i <;> simp [hl, hf]

theorem disturb_line_window {f : RowFrame} {stop : HillTime} (hl : b.line = .window f stop) :
    (b.disturb i).line = if f.panel = i then .free else .window f stop := by
  unfold Board.disturb
  by_cases hf : f.panel = i <;> simp [hl, hf]

/-- The old entry: as it was, but for the in-flight mark of a frame whose window PANL ends (R168). -/
theorem disturb_entry_of_other (h : ∀ g stop, b.line = .window g stop → g.panel ≠ i) :
    entry (b.disturb i).panels i = entry b.panels i := by
  unfold Board.disturb
  cases hl : b.line with
  | free => rfl
  | sending f => by_cases hf : f.panel = i <;> simp [hf]
  | window f stop => simp [h f stop hl]

theorem disturb_entry_of_window {f : RowFrame} {stop : HillTime} (hl : b.line = .window f stop) (hf : f.panel = i) :
    entry (b.disturb i).panels i = (entry b.panels i).map (fun p => p.onRow f.row (fun m => { m with inFlight := false })) := by
  unfold Board.disturb
  simp only [hl, hf, if_true]
  rw [entry_setEntry_map, if_pos rfl]

end

/-- The Board Line behind a PANL that deals with the frame to its panel (R168). -/
theorem lineDisturbed_of_sync {m : Bool} {a w : State} {i : Nat} (hline : w.board.line = (a.board.disturb i).line) :
    LineDisturbed i a.board.line (boardSync m a w).board.line := by
  refine ⟨fun f hf hi => ?own, fun f stop hf hi => ?ownWindow, fun f hf hi => ?other, fun f stop hf hi => ?otherWindow⟩
  case own =>
    rw [boardSync_line_sending (hline.trans (disturb_line_sending hf))]
    simp [hi]
  case ownWindow =>
    rw [disturb_line_window hf, if_pos hi] at hline
    have hfree : (markChanged a w).board.line = .free := by rw [markChanged_line, hline]
    rcases boardSync_cases m a w with hb | hb
    · exact Or.inl (by rw [hb, hfree])
    · rw [hb, ← hfree]
      exact arbiterChoice_line _
  case other =>
    rw [boardSync_line_sending (hline.trans (disturb_line_sending hf)), decide_eq_false hi, Bool.or_false]
    by_cases hc : f.panel ∈ panelIndices ∧ f.row ∈ changedRows a w f.panel <;> simp [hc]
  case otherWindow =>
    rw [boardSync_line_window (hline.trans ((disturb_line_window hf).trans (if_neg hi))), hf]

/-! A work that changes no text -/

theorem boardSync_of_pages (m : Bool) {a b : State} (hp : SamePages a.board.panels b.board.panels)
    (hc : ∀ i p row, b.composed i p row = a.composed i p row) : boardSync m a b = b ∨ boardSync m a b = arbiterChoice b := by
  have hcases := boardSync_cases m a b
  rwa [markChanged_of_none (changedRows_of_pages hp hc)] at hcases

theorem newlyDirty_of_marks {l l' : List (Option Panel)}
    (h : ∀ k p q, entry l k = some p → entry l' k = some q → q.marks = p.marks) : newlyDirty l l' = false := by
  unfold newlyDirty
  rw [List.any_eq_false]
  intro e he
  obtain ⟨k, hk⟩ := List.getElem?_of_mem he
  rw [List.getElem?_zip_eq_some] at hk
  obtain ⟨hk, hk'⟩ := hk
  obtain ⟨po, pn⟩ := e
  cases po with
  | none => cases pn <;> simp
  | some p =>
    cases pn with
    | none => simp
    | some q =>
      have hmarks := h (k + 1) p q (entry_eq_some.mpr ⟨Nat.succ_pos k, hk⟩) (entry_eq_some.mpr ⟨Nat.succ_pos k, hk'⟩)
      have hself : (p.marks.zip p.marks).any (fun m => !m.1.dirty && m.2.dirty) = false := by
        rw [List.any_eq_false]
        intro m hm
        obtain ⟨j, hj⟩ := List.getElem?_of_mem hm
        rw [List.getElem?_zip_eq_some] at hj
        rw [Option.some.inj (hj.1.symm.trans hj.2)]
        simp
      simp only [hmarks, hself]
      exact Bool.false_ne_true

/-- A work that changes neither texts nor marks nor the line calls for nothing. -/
theorem boardSync_of_marks {a b : State} (hp : SamePages a.board.panels b.board.panels)
    (hc : ∀ i p row, b.composed i p row = a.composed i p row) (hline : b.board.line = a.board.line)
    (hm : ∀ k p q, entry a.board.panels k = some p → entry b.board.panels k = some q → q.marks = p.marks) :
    boardSync false a b = b := by
  have hrows := changedRows_of_pages hp hc
  have hchanged : anyChanged a b = false := by simp [anyChanged, hrows]
  unfold boardSync
  simp only [markChanged_of_none hrows, hchanged, newlyDirty_of_marks hm, Bool.or_false, Bool.false_or]
  cases hl : a.board.line with
  | free => exact if_neg (by simp [BoardLine.isFree])
  | sending f => rw [arbiterChoice_of_busy (by rw [hline, hl]; simp), ite_self]
  | window f stop => rw [arbiterChoice_of_busy (by rw [hline, hl]; simp), ite_self]

end Sys2Proof.Machine
end

