-- ==== Sys2Proof/Proofs/PanelTable.lean ====
section
/-! PANL: CONFIGURE, UPDATE, REMOVE and PERIOD, and the checks of R146. -/

namespace Sys2Proof.Machine

/-! The codes of its fields -/

theorem rightsOf_of {n : Nat} {rights : Rights}
    (h : (n = 0 ∧ rights = .control) ∨ (n = 1 ∧ rights = .console) ∨ (n = 2 ∧ rights = .both)) :
    rightsOf n = some rights := by
  rcases h with ⟨rfl, rfl⟩ | ⟨rfl, rfl⟩ | ⟨rfl, rfl⟩ <;> rfl

theorem yesNoOf_of {n : Nat} {yes : Bool} (h : (n = 0 ∧ yes = true) ∨ (n = 1 ∧ yes = false)) : yesNoOf n = some yes := by
  rcases h with ⟨rfl, rfl⟩ | ⟨rfl, rfl⟩ <;> rfl

theorem exists_rightsOf {n : Nat} (h : n ≤ 2) : ∃ rights, rightsOf n = some rights := by
  interval_cases n <;> exact ⟨_, rfl⟩

theorem exists_yesNoOf {n : Nat} (h : n ≤ 1) : ∃ yes, yesNoOf n = some yes := by
  interval_cases n <;> exact ⟨_, rfl⟩

theorem rightsOf_eq_none {n : Nat} (h : 2 < n) : rightsOf n = none := by
  obtain ⟨k, rfl⟩ := Nat.exists_eq_add_of_le' (show 3 ≤ n from h)
  rfl

theorem yesNoOf_eq_none {n : Nat} (h : 1 < n) : yesNoOf n = none := by
  obtain ⟨k, rfl⟩ := Nat.exists_eq_add_of_le' (show 2 ≤ n from h)
  rfl

/-! The checks against the field map -/

theorem fieldsFit_iff {fields : List (Option FieldDesc)} {i rows columns : Nat} :
    fieldsFit fields i rows columns = true ↔
      ∀ d, some d ∈ fields → d.panel = i → d.row ≤ rows ∧ d.column + d.width - 1 ≤ columns := by
  rw [fieldsFit, List.all_eq_true]
  simp only [List.mem_filterMap, id, exists_eq_right, Bool.or_eq_true, bne_iff_ne, Bool.and_eq_true, decide_eq_true_eq,
    ← imp_iff_not_or]

theorem namesPanel_iff {fields : List (Option FieldDesc)} {i : Nat} :
    namesPanel fields i = true ↔ ∃ d, some d ∈ fields ∧ d.panel = i := by
  rw [namesPanel, List.any_eq_true]
  simp only [List.mem_filterMap, id, exists_eq_right, beq_iff_eq]

theorem othersAny_address {l : List (Option Panel)} {i address : Nat} :
    othersAny (fun pn => pn.address == address) i l = true ↔
      ∃ k p, k ≠ i ∧ entry l k = some p ∧ p.address = address := by
  rw [othersAny_iff]
  simp only [beq_iff_eq]

/-! PANA -/

section
variable (s : State) (i address : Nat) (x y : Option PanelState) (cause : PanaCause) (miss ack : Nat)

theorem State.notePanel_cases : s.notePanel i address x y cause miss ack = s ∨
    s.notePanel i address x y cause miss ack = s.post (.pana i address x y cause miss ack s.clock) := by
  by_cases h : x = y
  · exact Or.inl (if_pos h)
  · exact Or.inr (if_neg h)

theorem Posts.notePanel {s₀ : State} {ns : List Notice} (h : Posts s₀ s ns) :
    Posts s₀ (s.notePanel i address x y cause miss ack)
      (ns ++ if x = y then [] else [.pana i address x y cause miss ack s.clock]) := by
  by_cases hxy : x = y
  · rw [hxy, State.notePanel_same, if_pos rfl, List.append_nil]
    exact h
  · rw [State.notePanel_of_ne i address cause miss ack hxy, if_neg hxy]
    exact h.post _

theorem Becomes.notePanel {u : State} (h : Becomes s u) : Becomes (s.notePanel i address x y cause miss ack) u := by
  rcases s.notePanel_cases i address x y cause miss ack with hn | hn
  · rwa [hn]
  · rw [hn]
    exact h.post _

theorem State.notePanel_board : (s.notePanel i address x y cause miss ack).board = s.board := by
  rcases s.notePanel_cases i address x y cause miss ack with hn | hn <;> rw [hn]
  rfl

theorem State.notePanel_composed (k : Nat) (p : Panel) (row : Nat) :
    (s.notePanel i address x y cause miss ack).composed k p row = s.composed k p row := by
  rcases s.notePanel_cases i address x y cause miss ack with hn | hn <;> rw [hn]
  exact composed_congr rfl rfl rfl rfl rfl rfl rfl k p row

theorem State.notePanel_clock : (s.notePanel i address x y cause miss ack).clock = s.clock := by
  rcases s.notePanel_cases i address x y cause miss ack with hn | hn <;> rw [hn]
  rfl

end

/-! A PANL taken -/

section
variable {s : State} (h : s.takes .control) (now : HillTime) (tag : Byte) (i : Nat) (f : PanlFields)
include h

/-- A refused PANL marks nothing. -/
theorem panl_refuse {action : Nat} {code : ResultCode} {body : List Field} (hcode : code ≠ .ok)
    (hs : servePanl (s.setClock now) i action f = refuse (s.setClock now) code body) :
    takenRequest now .control tag (.panl i action f) s = s.answering now .control 0x8A#8 tag code body := by
  have hmarks : requestMarks (s.setClock now) (.panl i action f)
      (serve (s.setClock now) .control (.panl i action f)) = false := by
    show panlMarks (s.setClock now) i action (servePanl (s.setClock now) i action f) = false
    rw [hs]
    cases code with
    | ok => exact (hcode rfl).elim
    | _ => rfl
  exact takenRequest_answers h now tag (r := .panl i action f) rfl hs (by rw [hmarks, boardSync_self])

/-- An accepted PANL, its work on the board and its PANA. -/
theorem panl_accept {action address miss ack : Nat} {b : Board} {x y : Option PanelState} {cause : PanaCause}
    {body : List Field} (hs : servePanl (s.setClock now) i action f =
      accept (((s.setClock now).setBoard b).notePanel i address x y cause miss ack) body) :
    ∃ t w, takenRequest now .control tag (.panl i action f) s = .next t ∧
      t = { s with clock := now, control := t.control, console := t.console, board := t.board } ∧
      t.board = (boardSync (panlMarks (s.setClock now) i action (accept w body)) (s.setClock now) w).board ∧
      w.board = b ∧ w.clock = now ∧
      (∀ k p row, w.composed k p row = ((s.setClock now).setBoard b).composed k p row) ∧
      Answers s t (if x = y then [] else [.pana i address x y cause miss ack now]) .control
        { type := 0x8A#8, tag := tag, code := .ok, body := body } := by
  obtain ⟨t, ht, hbecomes, hboard, -, hanswers⟩ := takenRequest_board h tag (now := now)
    (r := .panl i action f) rfl hs ((Becomes.refl _).notePanel ..)
    (((Posts.refl s).of_links (u := (s.setClock now).setBoard b) rfl rfl).notePanel _ i address x y cause miss ack)
  exact ⟨t, _, ht, hbecomes.1, hboard, State.notePanel_board .., State.notePanel_clock ..,
    State.notePanel_composed _ i address x y cause miss ack, hanswers⟩

end

/-- What a work on the board leaves of the settings and of the other panels. -/
theorem board_of_sync {m : Bool} {a w : State} {b : Board} {B : Board} (hB : B = (boardSync m a w).board)
    (hw : w.board = b) :
    B.fields = b.fields ∧ B.refreshPeriod = b.refreshPeriod ∧ B.nextRefresh = b.nextRefresh ∧
      B.countdownShown = b.countdownShown ∧ ∀ k, (entry B.panels k).map Panel.kept = (entry b.panels k).map Panel.kept := by
  obtain ⟨hfields, hperiod, hrefresh, hpanels⟩ := boardSync_kept m a w
  subst hB hw
  exact ⟨hfields, hperiod, hrefresh, boardSync_countdownShown m a w, hpanels⟩

theorem entry_setEntry_of_le {α : Type} {l : List (Option α)} {i : Nat} (v : Option α) (h1 : 1 ≤ i) (h2 : i ≤ l.length) :
    entry (setEntry l i v) i = v := by
  rw [setEntry, if_neg (by omega), entry, if_neg (by omega), List.getElem?_set_self (by omega)]
  rfl

/-! CONFIGURE -/

section
variable {s : State} {i : Nat} {f : PanlFields} (h1 : 1 ≤ i) (h8 : i ≤ 8)
include h1 h8

theorem panlConfigure_uncoded (h : 2 < f.rights ∨ 1 < f.enabled) :
    panlConfigure s i f = refuse s .outOfRange panlRefused := by
  rw [panlConfigure, if_neg (not_not.mpr ⟨h1, h8⟩)]
  rcases h with h | h
  · simp only [rightsOf_eq_none h]
  · rw [yesNoOf_eq_none h]
    cases rightsOf f.rights <;> rfl

section
variable {rights : Rights} {enabled : Bool} (hrights : rightsOf f.rights = some rights)
  (henabled : yesNoOf f.enabled = some enabled)
include hrights henabled

theorem panlConfigure_outside
    (h : ¬((1 ≤ f.address ∧ f.address ≤ 15) ∧ (1 ≤ f.rows ∧ f.rows ≤ 4) ∧ (8 ≤ f.columns ∧ f.columns ≤ 32))) :
    panlConfigure s i f = refuse s .outOfRange panlRefused := by
  rw [panlConfigure, if_neg (not_not.mpr ⟨h1, h8⟩)]
  simp only [hrights, henabled]
  exact if_pos h

variable (hin : (1 ≤ f.address ∧ f.address ≤ 15) ∧ (1 ≤ f.rows ∧ f.rows ≤ 4) ∧ (8 ≤ f.columns ∧ f.columns ≤ 32))
include hin

theorem panlConfigure_inUse (h : othersAny (fun pn => pn.address == f.address) i s.board.panels = true) :
    panlConfigure s i f = refuse s .addressInUse panlRefused := by
  rw [panlConfigure, if_neg (not_not.mpr ⟨h1, h8⟩)]
  simp only [hrights, henabled]
  rw [if_neg (not_not.mpr hin), if_pos h]

variable (hfree : othersAny (fun pn => pn.address == f.address) i s.board.panels = false)
include hfree

theorem panlConfigure_conflict (h : (entry s.board.panels i).isSome = true ∧
      fieldsFit s.board.fields i f.rows f.columns = false) :
    panlConfigure s i f = refuse s .fieldConflict panlRefused := by
  rw [panlConfigure, if_neg (not_not.mpr ⟨h1, h8⟩)]
  simp only [hrights, henabled]
  rw [if_neg (not_not.mpr hin), if_neg (by rw [hfree]; exact Bool.false_ne_true), if_pos h]

theorem panlConfigure_accept (h : ¬((entry s.board.panels i).isSome = true ∧
      fieldsFit s.board.fields i f.rows f.columns = false)) :
    panlConfigure s i f =
      accept ((s.setBoard (s.board.putPanel i (some (configuredPanel f rights enabled)))).notePanel i f.address
        (panelStateOf s.board i) (some (if enabled then .online else .offline)) .configured 0 0)
        (panlBody i (some (if enabled then .online else .offline))) := by
  rw [panlConfigure, if_neg (not_not.mpr ⟨h1, h8⟩)]
  simp only [hrights, henabled]
  rw [if_neg (not_not.mpr hin), if_neg (by rw [hfree]; exact Bool.false_ne_true), if_neg h, ← disturb_setEntry]
  rfl

end
end

theorem configuredPanel_marks {f : PanlFields} {rights : Rights} {enabled : Bool} :
    ∀ m ∈ (configuredPanel f rights enabled).marks, m.dirty = true ∧ m.inFlight = false := fun m hm => by
  rw [List.eq_of_mem_replicate hm]
  exact ⟨rfl, rfl⟩

theorem configuredPanel_offline {f : PanlFields} {rights : Rights} {enabled : Bool}
    (h : (configuredPanel f rights enabled).state = .offline) : (configuredPanel f rights enabled).enabled = false := by
  cases enabled with
  | true => cases h
  | false => rfl

/-! UPDATE -/

/-- The entry PANL finds behind the frame it dealt with: its in-flight mark of a window that ended is cleared (R168). -/
theorem exists_disturbed {b : Board} {i : Nat} {p : Panel} (hp : entry b.panels i = some p) :
    ∃ marks, entry (b.disturb i).panels i = some { p with marks := marks } ∧
      marks.map (fun m => m.dirty) = p.marks.map (fun m => m.dirty) ∧
      ((∀ g stop, b.line = .window g stop → g.panel ≠ i) → marks = p.marks) ∧
      ∀ g stop m, b.line = .window g stop → g.panel = i → marks[g.row - 1]? = some m → m.inFlight = false := by
  by_cases hw : ∃ f stop, b.line = .window f stop ∧ f.panel = i
  · obtain ⟨f, stop, hl, hf⟩ := hw
    refine ⟨_, (disturb_entry_of_window hl hf).trans (by rw [hp]; rfl), Panel.onRow_inFlight_dirty p f.row false,
      fun hno => (hno f stop hl hf).elim, fun g stop' m hg _ hm => ?_⟩
    obtain ⟨rfl, -⟩ := BoardLine.window.inj (hl.symm.trans hg)
    rw [Panel.onRow, List.getElem?_modify_eq] at hm
    obtain ⟨x, -, rfl⟩ := Option.map_eq_some_iff.mp hm
    rfl
  · have hno : ∀ g stop, b.line = .window g stop → g.panel ≠ i := fun g stop hg hi => hw ⟨g, stop, hg, hi⟩
    exact ⟨p.marks, (disturb_entry_of_other hno).trans hp, rfl, fun _ => rfl,
      fun g stop m hg hi => (hno g stop hg hi).elim⟩

theorem Panel.kept_of_marks (p : Panel) {marks : List RowMarks} (h : marks.length = p.marks.length) :
    ({ p with marks := marks } : Panel).kept = p.kept := by
  simp [Panel.kept, List.map_const', h]

theorem panlMarks_update {old w : State} {i : Nat} {p q : Panel} (body : List Field)
    (hp : entry old.board.panels i = some p) (hq : entry w.board.panels i = some q) :
    panlMarks old i 1 (accept w body) = (q.enabled && !p.enabled) := by
  simp only [panlMarks, accept, hp, hq]

section
variable {s : State} {i : Nat} {f : PanlFields} (h1 : 1 ≤ i) (h8 : i ≤ 8)
include h1 h8

theorem panlUpdate_uncoded (h : 2 < f.rights ∨ 1 < f.enabled) : panlUpdate s i f = refuse s .outOfRange panlRefused := by
  rw [panlUpdate, if_neg (not_not.mpr ⟨h1, h8⟩)]
  rcases h with h | h
  · simp only [rightsOf_eq_none h]
  · rw [yesNoOf_eq_none h]
    cases rightsOf f.rights <;> rfl

section
variable {rights : Rights} {enabled : Bool} (hrights : rightsOf f.rights = some rights)
  (henabled : yesNoOf f.enabled = some enabled)
include hrights henabled

theorem panlUpdate_none (hp : entry s.board.panels i = none) : panlUpdate s i f = refuse s .wrongState panlRefused := by
  rw [panlUpdate, if_neg (not_not.mpr ⟨h1, h8⟩)]
  simp only [hrights, henabled, hp]

variable {p : Panel} (hp : entry s.board.panels i = some p)
include hp

/-- The rights alone. -/
theorem panlUpdate_rights (he : p.enabled = enabled) :
    panlUpdate s i f = accept (s.setBoard { s.board with
      panels := setEntry s.board.panels i (some { p with rights := rights }) }) (panlBody i (some p.state)) := by
  rw [panlUpdate, if_neg (not_not.mpr ⟨h1, h8⟩)]
  simp only [hrights, henabled, hp]
  rw [if_pos he, if_neg (by rintro ⟨ht, hf⟩; rw [he, hf] at ht; cases ht), hp, Option.getD_some, updatedPanel, if_pos he]

end

/-- The panel an UPDATE enables: ONLINE, every row dirty (R148). -/
def Panel.enabledWith (p : Panel) (rights : Rights) : Panel :=
  { p with
    rights := rights, enabled := true, state := .online, miss := 0, ack := 0, probeDue := none
    marks := p.marks.map (fun m => { m with dirty := true }) }

/-- The panel an UPDATE disables, with the marks it then has (R148). -/
def Panel.disabledWith (p : Panel) (rights : Rights) (marks : List RowMarks) : Panel :=
  { p with
    rights := rights, enabled := false, state := .offline, miss := 0, ack := 0, probeDue := none, marks := marks }

section
variable {rights : Rights} {p : Panel} (hrights : rightsOf f.rights = some rights)
  (hp : entry s.board.panels i = some p)
include hrights hp

theorem panlUpdate_enable (henabled : yesNoOf f.enabled = some true) (he : p.enabled = false) :
    panlUpdate s i f = accept ((s.setBoard { s.board with
        panels := setEntry s.board.panels i (some (p.enabledWith rights)) }).notePanel i p.address (some p.state)
          (some .online) .enabled 0 0) (panlBody i (some .online)) := by
  have hne : ¬p.enabled = true := by rw [he]; exact Bool.false_ne_true
  rw [panlUpdate, if_neg (not_not.mpr ⟨h1, h8⟩)]
  simp only [hrights, henabled, hp]
  rw [if_neg hne, if_neg fun h => hne h.1, hp, Option.getD_some, updatedPanel, if_neg hne, if_pos rfl,
    Panel.markRows_all]
  rfl

theorem panlUpdate_disable (henabled : yesNoOf f.enabled = some false) (he : p.enabled = true) {marks : List RowMarks}
    (hmarks : entry (s.board.disturb i).panels i = some { p with marks := marks }) :
    panlUpdate s i f = accept ((s.setBoard (s.board.putPanel i (some (p.disabledWith rights marks)))).notePanel i p.address
      (some p.state) (some .offline) .disabled 0 0) (panlBody i (some .offline)) := by
  have hne : ¬p.enabled = false := by rw [he]; exact Bool.noConfusion
  rw [panlUpdate, if_neg (not_not.mpr ⟨h1, h8⟩)]
  simp only [hrights, henabled, hp]
  rw [if_neg hne, if_pos ⟨he, trivial⟩, hmarks, Option.getD_some, updatedPanel, if_neg hne, if_neg Bool.false_ne_true,
    ← disturb_setEntry]
  rfl

end
end

/-! REMOVE -/

section
variable {s : State} {i : Nat} (h1 : 1 ≤ i) (h8 : i ≤ 8)
include h1 h8

theorem panlRemove_none (hp : entry s.board.panels i = none) : panlRemove s i = refuse s .wrongState panlRefused := by
  rw [panlRemove, if_neg (not_not.mpr ⟨h1, h8⟩)]
  simp only [hp]

variable {p : Panel} (hp : entry s.board.panels i = some p)
include hp

theorem panlRemove_conflict (h : namesPanel s.board.fields i = true) :
    panlRemove s i = refuse s .fieldConflict panlRefused := by
  rw [panlRemove, if_neg (not_not.mpr ⟨h1, h8⟩)]
  simp only [hp]
  exact if_pos h

theorem panlRemove_accept (h : namesPanel s.board.fields i = false) :
    panlRemove s i = accept ((s.setBoard (s.board.putPanel i none)).notePanel i p.address (some p.state) none .removed 0 0)
      (panlBody i none) := by
  rw [panlRemove, if_neg (not_not.mpr ⟨h1, h8⟩)]
  simp only [hp]
  rw [if_neg (by rw [h]; exact Bool.false_ne_true), ← disturb_setEntry]

end

end Sys2Proof.Machine
end

