-- ==== Sys2Proof/Proofs/PanelEdits.lean ====
section
/-! PANL: what its work on the panel table makes of the board. -/

namespace Sys2Proof.Machine

/-- The address of the panel an entry is written for is no other's. -/
theorem othersAny_address_eq_false {l : List (Option Panel)} {i address : Nat}
    (h : ∀ k p, k ≠ i → entry l k = some p → p.address ≠ address) :
    othersAny (fun pn => pn.address == address) i l = false := by
  rw [← Bool.not_eq_true, othersAny_address]
  rintro ⟨k, p, hk, hp, ha⟩
  exact h k p hk hp ha

theorem namesPanel_eq_false {fields : List (Option FieldDesc)} {i : Nat} (h : ∀ d, some d ∈ fields → d.panel ≠ i) :
    namesPanel fields i = false := by
  rw [← Bool.not_eq_true, namesPanel_iff]
  rintro ⟨d, hd, hi⟩
  exact h d hd hi

theorem disturb_line_free {b : Board} {i : Nat} (h : (b.disturb i).line = .free) (g : RowFrame) : b.line ≠ .sending g := by
  intro hg
  rw [disturb_line_sending hg] at h
  cases h

section
variable {s : State} (h : s.takes .control) (now : HillTime) (tag : Byte) {i : Nat} {f : PanlFields} (h1 : 1 ≤ i)
  (h8 : i ≤ 8)
include h h1 h8

/-! CONFIGURE -/

theorem panlConfigure_configures {rights : Rights} {enabled : Bool} (hrights : rightsOf f.rights = some rights)
    (henabled : yesNoOf f.enabled = some enabled)
    (hin : (1 ≤ f.address ∧ f.address ≤ 15) ∧ (1 ≤ f.rows ∧ f.rows ≤ 4) ∧ (8 ≤ f.columns ∧ f.columns ≤ 32))
    (haddress : ∀ k p, k ≠ i → entry s.board.panels k = some p → p.address ≠ f.address)
    (hfields : entry s.board.panels i ≠ none → ∀ d, some d ∈ s.board.fields → d.panel = i →
      d.row ≤ f.rows ∧ d.column + d.width - 1 ≤ f.columns) (hlen : s.board.panels.length = 8) :
    ∃ t p, exec (.panlConfigure now .control tag i f) s = .next t ∧
      t = { s with clock := now, control := t.control, console := t.console, board := t.board } ∧
      t.board.fields = s.board.fields ∧ t.board.refreshPeriod = s.board.refreshPeriod ∧
      t.board.nextRefresh = s.board.nextRefresh ∧ t.board.countdownShown = s.board.countdownShown ∧
      (∀ k, k ≠ i → (entry t.board.panels k).map Panel.kept = (entry s.board.panels k).map Panel.kept) ∧
      entry t.board.panels i = some p ∧
      p = { configuredPanel f rights enabled with marks := p.marks } ∧
      p.marks.length = f.rows ∧ (∀ m ∈ p.marks, m.dirty = true) ∧
      (∀ k m, p.marks[k]? = some m → m.inFlight = true → (∀ g, s.board.line ≠ .sending g) ∧
        ∃ g, t.board.line = .sending g ∧ g.panel = i ∧ g.row = k + 1 ∧ g.aborted = false) ∧
      LineDisturbed i s.board.line t.board.line ∧
      Answers s t
        (if (entry s.board.panels i).map (fun x => x.state) = some p.state then []
         else [.pana i f.address ((entry s.board.panels i).map (fun x => x.state)) (some p.state) .configured 0 0 now])
        .control
        { type := 0x8A#8, tag := tag, code := .ok, body := panlBody i (some (if enabled then .online else .offline)) } := by
  have hfit : ¬((entry s.board.panels i).isSome = true ∧ fieldsFit s.board.fields i f.rows f.columns = false) := by
    rintro ⟨hsome, hno⟩
    have hyes := fieldsFit_iff.mpr (hfields (Option.isSome_iff_ne_none.mp hsome))
    exact Bool.false_ne_true (hno.symm.trans hyes)
  have haccept := panlConfigure_accept (s := s.setClock now) h1 h8 hrights henabled hin
    (othersAny_address_eq_false haddress) hfit
  obtain ⟨t, w, ht, hstate, hboard, hw, -, -, hanswers⟩ := panl_accept h now tag i f (action := 0) haccept
  obtain ⟨hfields, hperiod, hrefresh, hshown, hpanels⟩ := board_of_sync hboard hw
  have hwline : w.board.line = (s.board.disturb i).line := by rw [hw]; rfl
  have hline : LineDisturbed i s.board.line t.board.line :=
    hboard ▸ lineDisturbed_of_sync (a := s.setClock now) hwline
  have hentry : entry w.board.panels i = some (configuredPanel f rights enabled) := by
    rw [hw]
    exact entry_setEntry_of_le _ h1 (h8.trans_eq hlen.symm)
  obtain ⟨p, hp, hpeq, hplen, hdirty, hflight⟩ := boardSync_of_dirty
    (m := panlMarks (s.setClock now) i 0 (accept w (panlBody i (some (if enabled then .online else .offline)))))
    (a := s.setClock now) hentry configuredPanel_marks configuredPanel_offline
  have hstatep : p.state = if enabled then .online else .offline := congrArg Panel.state hpeq
  rw [← hboard] at hp
  refine ⟨t, p, ht, hstate, hfields, hperiod, hrefresh, hshown, fun k hk => ?others, hp, hpeq,
    hplen.trans List.length_replicate, hdirty, fun k m hm hf => ?flight, hline, ?answers⟩
  case others =>
    rw [hpanels k]
    exact congrArg _ (entry_setEntry_of_ne _ _ hk)
  case flight =>
    obtain ⟨hfree, hg⟩ := hflight k m hm hf
    exact ⟨disturb_line_free (hwline.symm.trans hfree), hboard ▸ hg⟩
  case answers =>
    rw [hstatep]
    exact hanswers

/-! UPDATE -/

section
variable {rights : Rights} {p : Panel} (hrights : rightsOf f.rights = some rights)
  (hp : entry s.board.panels i = some p)
include hrights hp

/-- The rights alone: nothing else of the board changes (R148). -/
theorem panlUpdate_writesRights (henabled : yesNoOf f.enabled = some p.enabled) :
    ∃ t, exec (.panlUpdate now .control tag i f) s = .next t ∧
      t = { s with clock := now, control := t.control, console := t.console, board := t.board } ∧
      t.board = { s.board with panels := setEntry s.board.panels i (some { p with rights := rights }) } ∧
      Answers s t [] .control { type := 0x8A#8, tag := tag, code := .ok, body := panlBody i (some p.state) } := by
  have haccept : servePanl (s.setClock now) i 1 f =
      accept (((s.setClock now).setBoard { s.board with
        panels := setEntry s.board.panels i (some { p with rights := rights }) }).notePanel i p.address none none .enabled
          0 0) (panlBody i (some p.state)) := by
    rw [State.notePanel_same]
    exact panlUpdate_rights (s := s.setClock now) h1 h8 hrights henabled hp rfl
  obtain ⟨t, w, ht, hstate, hboard, hw, -, htext, hanswers⟩ := panl_accept h now tag i f (action := 1) haccept
  have hentry : entry w.board.panels i = some { p with rights := rights } := by
    rw [hw]
    exact entry_setEntry_self _ _ _ (by rw [hp]; rfl)
  have hmarks := panlMarks_update (old := s.setClock now) (panlBody i (some p.state)) hp hentry
  rw [hmarks, Bool.and_not_self, boardSync_of_marks (a := s.setClock now) (b := w)
    (hw ▸ SamePages.set (p := p) hp rfl rfl)
    (fun k x row => (htext k x row).trans (composed_setBoard (s.setClock now) rfl rfl k x row)) (by rw [hw]; rfl)
    (fun k x y hx hy => ?marks), hw] at hboard
  · exact ⟨t, ht, hstate, hboard, hanswers⟩
  case marks =>
    rw [hw] at hy
    rcases entry_setEntry_cases hy with ⟨rfl, hv⟩ | ⟨_, hy⟩
    · obtain rfl : p = x := Option.some.inj (hp.symm.trans hx)
      rw [← Option.some.inj hv]
    · rw [Option.some.inj (hy.symm.trans hx)]

/-- A panel enabled: ONLINE, every row dirty; a frame on the line goes on (R148). -/
theorem panlUpdate_enables (henabled : yesNoOf f.enabled = some true) (he : p.enabled = false) :
    ∃ t q, exec (.panlUpdate now .control tag i f) s = .next t ∧
      t = { s with clock := now, control := t.control, console := t.console, board := t.board } ∧
      t.board.fields = s.board.fields ∧ t.board.refreshPeriod = s.board.refreshPeriod ∧
      t.board.nextRefresh = s.board.nextRefresh ∧
      (∀ k, k ≠ i → (entry t.board.panels k).map Panel.kept = (entry s.board.panels k).map Panel.kept) ∧
      entry t.board.panels i = some q ∧
      q.kept = ({ p with rights := rights, enabled := true, state := .online, miss := 0, ack := 0 } : Panel).kept ∧
      (∀ m ∈ q.marks, m.dirty = true) ∧ (s.board.line ≠ .free → t.board.line = s.board.line) ∧
      Answers s t (if some p.state = some .online then [] else
        [.pana i p.address (some p.state) (some .online) .enabled 0 0 now]) .control
        { type := 0x8A#8, tag := tag, code := .ok, body := panlBody i (some .online) } := by
  have haccept := panlUpdate_enable (s := s.setClock now) h1 h8 hrights hp henabled he
  obtain ⟨t, w, ht, hstate, hboard, hw, -, htext, hanswers⟩ := panl_accept h now tag i f (action := 1) haccept
  obtain ⟨hfields, hperiod, hrefresh, -, hpanels⟩ := board_of_sync hboard hw
  have hentry : entry w.board.panels i = some (p.enabledWith rights) := by
    rw [hw]
    exact entry_setEntry_self _ _ _ (by rw [State.setClock_board, hp]; rfl)
  have hsync := boardSync_of_pages (panlMarks (s.setClock now) i 1 (accept w (panlBody i (some .online))))
    (a := s.setClock now) (b := w) (hw ▸ SamePages.set (p := p) hp rfl rfl)
    fun k x row => (htext k x row).trans (composed_setBoard (s.setClock now) rfl rfl k x row)
  obtain ⟨q, hq, hkept⟩ := boardSync_entry (a := s.setClock now)
    (m := panlMarks (s.setClock now) i 1 (accept w (panlBody i (some .online)))) hentry
  have hwline : w.board.line = s.board.line := by rw [hw]; rfl
  have hall : ∀ x ∈ (p.enabledWith rights).marks, x.dirty = true := fun x hx => by
    obtain ⟨_, _, rfl⟩ := List.mem_map.mp hx
    rfl
  refine ⟨t, q, ht, hstate, hfields, hperiod, hrefresh, fun k hk => ?others, hboard ▸ hq, hkept.trans ?kept,
    fun m hm => ?dirty, fun hbusy => ?line, hanswers⟩
  case others =>
    rw [hpanels k]
    exact congrArg _ (entry_setEntry_of_ne _ _ hk)
  case kept => exact Panel.kept_of_marks { p.enabledWith rights with marks := p.marks } (List.length_map _)
  case dirty =>
    obtain ⟨x, hx, -, hmarks⟩ := boardSync_panel hq
    obtain rfl := Option.some.inj (hentry.symm.trans hx)
    obtain ⟨j, hj⟩ := List.getElem?_of_mem hm
    have hdirty := hmarks j
    rw [hj] at hdirty
    obtain ⟨y, hy, hor⟩ := Option.map_eq_some_iff.mp hdirty.symm
    exact hor.symm.trans (by rw [hall y (List.mem_of_getElem? hy), Bool.true_or])
  case line =>
    rw [hboard, ← hwline]
    rcases hsync with hs | hs <;> rw [hs]
    rw [arbiterChoice_of_busy (hwline ▸ hbusy)]

/-- A panel disabled: OFFLINE, its dirty marks kept, the frame to it dealt with (R148, R168). -/
theorem panlUpdate_disables (henabled : yesNoOf f.enabled = some false) (he : p.enabled = true) :
    ∃ t q, exec (.panlUpdate now .control tag i f) s = .next t ∧
      t = { s with clock := now, control := t.control, console := t.console, board := t.board } ∧
      t.board.fields = s.board.fields ∧ t.board.refreshPeriod = s.board.refreshPeriod ∧
      t.board.nextRefresh = s.board.nextRefresh ∧
      (∀ k, k ≠ i → (entry t.board.panels k).map Panel.kept = (entry s.board.panels k).map Panel.kept) ∧
      entry t.board.panels i = some q ∧
      q.kept = ({ p with rights := rights, enabled := false, state := .offline, miss := 0, ack := 0 } : Panel).kept ∧
      q.probeDue = none ∧ q.marks.map (fun m => m.dirty) = p.marks.map (fun m => m.dirty) ∧
      ((∀ g stop, s.board.line = .window g stop → g.panel ≠ i) → q.marks = p.marks) ∧
      LineDisturbed i s.board.line t.board.line ∧
      (∀ g stop m, s.board.line = .window g stop → g.panel = i → q.marks[g.row - 1]? = some m → m.inFlight = false) ∧
      Answers s t (if some p.state = some .offline then [] else
        [.pana i p.address (some p.state) (some .offline) .disabled 0 0 now]) .control
        { type := 0x8A#8, tag := tag, code := .ok, body := panlBody i (some .offline) } := by
  obtain ⟨marks, hmarks, hdirty, hsame, hended⟩ := exists_disturbed hp
  have haccept := panlUpdate_disable (s := s.setClock now) h1 h8 hrights hp henabled he hmarks
  obtain ⟨t, w, ht, hstate, hboard, hw, hclock, htext, hanswers⟩ := panl_accept h now tag i f (action := 1) haccept
  obtain ⟨hfields, hperiod, hrefresh, -, hpanels⟩ := board_of_sync hboard hw
  have hentry : entry w.board.panels i = some (p.disabledWith rights marks) := by
    rw [hw]
    exact entry_setEntry_self _ _ _ (by rw [State.setClock_board, hp]; rfl)
  have hsync := boardSync_of_pages (panlMarks (s.setClock now) i 1 (accept w (panlBody i (some .offline))))
    (a := s.setClock now) (b := w) (hw ▸ SamePages.set (p := p) hp rfl rfl)
    fun k x row => (htext k x row).trans (composed_setBoard (s.setClock now) rfl rfl k x row)
  have hq : entry t.board.panels i = some (p.disabledWith rights marks) := by
    rw [hboard]
    rcases hsync with hs | hs <;> rw [hs]
    · exact hentry
    · exact arbiterChoice_of_ineligible hentry rfl
  have hlen : marks.length = p.marks.length := by
    have hmaps := congrArg List.length hdirty
    rwa [List.length_map, List.length_map] at hmaps
  refine ⟨t, p.disabledWith rights marks, ht, hstate, hfields, hperiod, hrefresh, fun k hk => ?others, hq,
    ?kept, rfl, hdirty, hsame, ?line, hended, hanswers⟩
  case others =>
    rw [hpanels k]
    exact congrArg _ (entry_setEntry_of_ne _ _ hk)
  case kept => exact Panel.kept_of_marks (p.disabledWith rights p.marks) hlen
  case line => exact hboard ▸ lineDisturbed_of_sync (a := s.setClock now) (by rw [hw]; rfl)

end

/-! REMOVE -/

theorem panlRemove_removes {p : Panel} (hp : entry s.board.panels i = some p)
    (hno : ∀ d, some d ∈ s.board.fields → d.panel ≠ i) :
    ∃ t, exec (.panlRemove now .control tag i f) s = .next t ∧
      t = { s with clock := now, control := t.control, console := t.console, board := t.board } ∧
      t.board.fields = s.board.fields ∧ t.board.refreshPeriod = s.board.refreshPeriod ∧
      t.board.nextRefresh = s.board.nextRefresh ∧
      (∀ k, k ≠ i → (entry t.board.panels k).map Panel.kept = (entry s.board.panels k).map Panel.kept) ∧
      entry t.board.panels i = none ∧ LineDisturbed i s.board.line t.board.line ∧
      Answers s t [.pana i p.address (some p.state) none .removed 0 0 now] .control
        { type := 0x8A#8, tag := tag, code := .ok, body := [byteField i, byteField 0] } := by
  have haccept := panlRemove_accept (s := s.setClock now) h1 h8 hp (namesPanel_eq_false hno)
  obtain ⟨t, w, ht, hstate, hboard, hw, -, -, hanswers⟩ := panl_accept h now tag i f (action := 2) haccept
  obtain ⟨hfields, hperiod, hrefresh, -, hpanels⟩ := board_of_sync hboard hw
  refine ⟨t, ht, hstate, hfields, hperiod, hrefresh, fun k hk => ?others, ?gone, ?line, hanswers⟩
  case others =>
    rw [hpanels k]
    exact congrArg _ (entry_setEntry_of_ne _ _ hk)
  case gone =>
    have hk := hpanels i
    rw [show entry ((s.setClock now).board.putPanel i none).panels i = none from
      entry_setEntry_self _ _ _ (by rw [State.setClock_board, hp]; rfl)] at hk
    exact Option.map_eq_none_iff.mp hk
  case line => exact hboard ▸ lineDisturbed_of_sync (a := s.setClock now) (by rw [hw]; rfl)

end

/-! PERIOD -/

theorem panlPeriod_answers {s : State} (h : s.takes .control) (now : HillTime) (tag : Byte) (i : Nat) (f : PanlFields) :
    exec (.panlPeriod now .control tag i f) s =
      if f.period = 0 then
        (s.setBoard { s.board with refreshPeriod := 0, nextRefresh := none }).answering now .control 0x8A#8 tag .ok
          [byteField 0]
      else if 2 ≤ f.period ∧ f.period ≤ 60 then
        (s.setBoard { s.board with
          refreshPeriod := f.period, nextRefresh := some (now + BitVec.ofNat 32 (100000 * f.period)) }).answering now
            .control 0x8A#8 tag .ok [byteField f.period]
      else s.answering now .control 0x8A#8 tag .outOfRange [.u8 none] := by
  have hmarks (a : Answer) : requestMarks (s.setClock now) (.panl i 3 f) a = false := by
    show panlMarks (s.setClock now) i 3 a = false
    unfold panlMarks
    cases a.code <;> rfl
  have hquiet (period : Nat) (next : Option HillTime) :
      boardSync false (s.setClock now) ((s.setBoard { s.board with
        refreshPeriod := period, nextRefresh := next }).setClock now) =
      (s.setBoard { s.board with refreshPeriod := period, nextRefresh := next }).setClock now :=
    boardSync_quiet rfl rfl fun k p row => composed_congr rfl rfl rfl rfl rfl rfl rfl k p row
  split_ifs with hzero hrange
  · refine takenRequest_quiet h tag (r := .panl i 3 f) rfl hmarks ?_ (hquiet 0 none)
    show panlPeriod (s.setClock now) f.period = _
    rw [hzero]
    rfl
  · refine takenRequest_quiet h tag (r := .panl i 3 f) rfl hmarks ?_ (hquiet f.period _)
    show panlPeriod (s.setClock now) f.period = _
    rw [panlPeriod, if_pos (Or.inr hrange), if_neg hzero, secTicks, Nat.mul_comm]
    rfl
  · refine takenRequest_refuse h tag (r := .panl i 3 f) rfl hmarks ?_
    show panlPeriod (s.setClock now) f.period = _
    rw [panlPeriod, if_neg (not_or.mpr ⟨hzero, hrange⟩)]

/-- Settles O56: CONFIGURE, the three UPDATEs, REMOVE, PERIOD, then the checks of R146. -/
theorem panlEditsThePanelTable : Obligations.PanlEditsThePanelTable := by
  refine ⟨?configure, ?update, ?remove, fun now tag i f s h => panlPeriod_answers h now tag i f, ?refused⟩
  case configure =>
    intro now tag i f rights enabled s h h1 h8 ha1 ha2 hr1 hr2 hc1 hc2 hrights henabled haddress hfields hlen
    obtain ⟨t, p, ht, hstate, hkept⟩ := panlConfigure_configures h now tag h1 h8 (rightsOf_of hrights)
      (yesNoOf_of henabled) ⟨⟨ha1, ha2⟩, ⟨hr1, hr2⟩, hc1, hc2⟩ haddress hfields hlen
    rw [show panlBody i (some (if enabled then .online else .offline)) =
      [byteField i, byteField (if enabled then 1 else 2)] by cases enabled <;> rfl] at hkept
    exact ⟨t, p, ht, hstate, hkept⟩
  case update =>
    intro now tag i f rights enabled p s h h1 h8 hp hrights henabled
    have hr := rightsOf_of hrights
    have hen := yesNoOf_of henabled
    by_cases he : p.enabled = enabled
    · obtain ⟨t, ht, hstate, hboard, hanswers⟩ := panlUpdate_writesRights h now tag h1 h8 hr hp (he ▸ hen)
      have hother : ¬(p.enabled = true ∧ enabled = false) := by
        rintro ⟨ht, hf⟩
        rw [he, hf] at ht
        cases ht
      refine ⟨t, { p with rights := rights }, ht, hstate, by rw [hboard], by rw [hboard], by rw [hboard],
        fun k hk => ?_, ?_, ?_, fun _ => hboard, fun hf ht => ?_, fun ht hf => (hother ⟨ht, hf⟩).elim,
        fun ht hf => (hother ⟨ht, hf⟩).elim, fun _ _ => by rw [hboard], ?_⟩
      · rw [hboard]
        exact congrArg _ (entry_setEntry_of_ne _ _ hk)
      · rw [hboard]
        exact entry_setEntry_self _ _ _ (by rw [hp]; rfl)
      · rw [if_pos he]
      · rw [he, ht] at hf
        cases hf
      · rw [if_pos (Or.inl he)]
        cases hx : p.state <;> rw [hx] at hanswers <;> exact hanswers
    · cases enabled with
      | true =>
        have hfalse : p.enabled = false := by simpa using he
        obtain ⟨t, q, ht, hstate, hf, hperiod, hrefresh, hothers, hq, hkept, hdirty, hline, hanswers⟩ :=
          panlUpdate_enables h now tag h1 h8 hr hp hen hfalse
        have honline : q.state = .online := (congrArg Panel.state hkept : q.kept.state = _)
        refine ⟨t, q, ht, hstate, hf, hperiod, hrefresh, hothers, hq, by rw [if_neg he]; exact hkept,
          fun hc => (he hc).elim, fun _ _ => hdirty, fun hc => (he hc).elim, fun hc => (he hc).elim, fun _ => hline, ?_⟩
        simp only [Option.some.injEq] at hanswers
        simp only [honline, hfalse, Bool.false_eq_true, false_or, if_true]
        exact hanswers
      | false =>
        have htrue : p.enabled = true := by simpa using he
        obtain ⟨t, q, ht, hstate, hf, hperiod, hrefresh, hothers, hq, hkept, hprobe, hdirty, hmarks, hline, hended,
          hanswers⟩ := panlUpdate_disables h now tag h1 h8 hr hp hen htrue
        have hoffline : q.state = .offline := (congrArg Panel.state hkept : q.kept.state = _)
        refine ⟨t, q, ht, hstate, hf, hperiod, hrefresh, hothers, hq, by rw [if_neg he]; exact hkept,
          fun hc => (he hc).elim, fun hc => (he hc).elim, fun _ _ => ⟨hprobe, hdirty, hmarks⟩,
          fun _ _ => ⟨hline, hended⟩, fun hc => ?_, ?_⟩
        · rcases hc with hc | hc
          · exact (he hc).elim
          · cases hc
        · simp only [Option.some.injEq] at hanswers
          simp only [hoffline, htrue, Bool.true_eq_false, Bool.false_eq_true, false_or, if_false]
          exact hanswers
  case remove =>
    refine fun now tag i f p s h h1 h8 hp => ⟨fun hd => ?_, panlRemove_removes h now tag h1 h8 hp⟩
    exact panl_refuse h now tag i f (action := 2) (by decide)
      (panlRemove_conflict (s := s.setClock now) h1 h8 hp (namesPanel_iff.mpr hd))
  case refused =>
    refine fun now tag i f s h => ⟨fun hi => ⟨?_, ?_, ?_⟩, fun h1 h8 hp => ⟨?_, fun hr he => ?_⟩,
      fun h1 h8 hcode => ⟨?_, ?_⟩, fun h1 h8 hr he => ⟨fun hout => ?_, fun ha1 ha2 hr1 hr2 hc1 hc2 =>
        ⟨fun k p hk hp ha => ?_, fun p d hfree hp hd hdi hout => ?_⟩⟩⟩
    · exact panl_refuse h now tag i f (action := 0) (by decide) (if_pos (by omega))
    · exact panl_refuse h now tag i f (action := 1) (by decide) (if_pos (by omega))
    · exact panl_refuse h now tag i f (action := 2) (by decide) (if_pos (by omega))
    · exact panl_refuse h now tag i f (action := 2) (by decide) (panlRemove_none (s := s.setClock now) h1 h8 hp)
    · obtain ⟨rights, hrights⟩ := exists_rightsOf hr
      obtain ⟨enabled, henabled⟩ := exists_yesNoOf he
      exact panl_refuse h now tag i f (action := 1) (by decide)
        (panlUpdate_none (s := s.setClock now) h1 h8 hrights henabled hp)
    · exact panl_refuse h now tag i f (action := 0) (by decide) (panlConfigure_uncoded (s := s.setClock now) h1 h8 hcode)
    · exact panl_refuse h now tag i f (action := 1) (by decide) (panlUpdate_uncoded (s := s.setClock now) h1 h8 hcode)
    all_goals
      obtain ⟨rights, hrights⟩ := exists_rightsOf hr
      obtain ⟨enabled, henabled⟩ := exists_yesNoOf he
      refine panl_refuse h now tag i f (action := 0) (by decide) ?_
    · exact panlConfigure_outside (s := s.setClock now) h1 h8 hrights henabled (by omega)
    · exact panlConfigure_inUse (s := s.setClock now) h1 h8 hrights henabled ⟨⟨ha1, ha2⟩, ⟨hr1, hr2⟩, hc1, hc2⟩
        (othersAny_address.mpr ⟨k, p, hk, hp, ha⟩)
    · have hunfit : fieldsFit s.board.fields i f.rows f.columns = false := by
        rw [← Bool.not_eq_true, fieldsFit_iff]
        intro hfit
        obtain ⟨hrow, hcolumn⟩ := hfit d hd hdi
        omega
      exact panlConfigure_conflict (s := s.setClock now) h1 h8 hrights henabled ⟨⟨ha1, ha2⟩, ⟨hr1, hr2⟩, hc1, hc2⟩
        (othersAny_address_eq_false hfree) ⟨Option.isSome_of_mem hp, hunfit⟩

end Sys2Proof.Machine
end

