-- ==== Sys2Proof/Proofs/ChangedTexts.lean ====
section
/-! Every row whose composed text changes is dirty, and a frame of it that is being sent has its abort mark, whatever the
command (R159, R160, R165). -/

namespace Sys2Proof.Machine

theorem entry_replicate_none {α : Type} (n i : Nat) : entry (List.replicate n (none : Option α)) i = none := by
  cases h : entry (List.replicate n (none : Option α)) i with
  | none => rfl
  | some a => cases List.eq_of_mem_replicate (mem_of_entry h)

/-! Rows marked between two states -/

/-- The rows whose composed text differs between two states are dirty in the second, and a frame of one of them that was
being sent has its abort mark (R160, R165). -/
def RowsMarked (s t : State) : Prop :=
  ∀ i row p q, entry s.board.panels i = some p → entry t.board.panels i = some q → 1 ≤ row → row ≤ q.rows →
    t.composed i q row ≠ s.composed i p row →
    (∃ m, q.marks[row - 1]? = some m ∧ m.dirty = true) ∧
    ∀ f, s.board.line = .sending f → f.panel = i → f.row = row → t.board.line = .sending { f with aborted := true }

/-- The same board and the same texts. -/
def SameTexts (s t : State) : Prop := t.board = s.board ∧ ∀ i p row, t.composed i p row = s.composed i p row

theorem SameTexts.setLink (s : State) (l : LinkId) (v : Link) : SameTexts s (s.setLink l v) := by
  cases l with
  | control => exact ⟨rfl, fun i p row => composed_congr rfl rfl rfl rfl rfl rfl rfl i p row⟩
  | console => exact ⟨rfl, fun i p row => composed_congr rfl rfl rfl rfl rfl rfl rfl i p row⟩

theorem SameTexts.setInitPhase (s : State) (v : InitPhase) : SameTexts s (s.setInitPhase v) :=
  ⟨rfl, fun i p row => composed_congr rfl rfl rfl rfl rfl rfl rfl i p row⟩

theorem RowsMarked.trans_same {s u t : State} (h : RowsMarked s u) (g : SameTexts u t) : RowsMarked s t := by
  intro i row p q hp hq h1 h2 hne
  rw [g.2] at hne
  rw [g.1] at hq ⊢
  exact h i row p q hp hq h1 h2 hne

theorem SameTexts.trans_marked {s u t : State} (g : SameTexts s u) (h : RowsMarked u t) : RowsMarked s t := by
  intro i row p q hp hq h1 h2 hne
  rw [← g.2] at hne
  rw [← g.1] at hp ⊢
  exact h i row p q hp hq h1 h2 hne

theorem RowsMarked.refl (s : State) : RowsMarked s s := fun i row p q hp hq _ _ hne => by
  rw [Option.some.inj (hp.symm.trans hq)] at hne
  exact (hne rfl).elim

theorem SameTexts.marked {s t : State} (g : SameTexts s t) : RowsMarked s t := (RowsMarked.refl s).trans_same g

theorem RowsMarked.of_no_panels {s t : State} (h : ∀ i, entry t.board.panels i = none) : RowsMarked s t :=
  fun i _ _ _ _ hq _ _ _ => by
    rw [h i] at hq
    cases hq

/-! The board brought up to date -/

theorem mem_panelIndices {l : List (Option Panel)} (hlen : l.length = 8) {i : Nat} {p : Panel} (hp : entry l i = some p) :
    i ∈ panelIndices := by
  obtain ⟨h1, hi⟩ := entry_eq_some.mp hp
  obtain ⟨hlt, -⟩ := List.getElem?_eq_some_iff.mp hi
  have h8 : i ≤ 8 := by omega
  interval_cases i <;> decide

theorem markChanged_composed (a b : State) (i : Nat) (p : Panel) (row : Nat) :
    (markChanged a b).composed i p row = b.composed i p row :=
  composed_setBoard b (markChanged_kept a b).1 (markChanged_countdownShown a b) i p row

theorem arbiterChoice_composed (s : State) (i : Nat) (p : Panel) (row : Nat) :
    (arbiterChoice s).composed i p row = s.composed i p row := by
  rcases arbiterChoice_cases s with h | ⟨_, _, -, -, -, h⟩ <;> rw [h]
  exact composed_setBoard s rfl rfl i p row

/-- Marking the changed rows behind a change of the state (R159). -/
theorem RowsMarked.markChanged {s w : State} (hframe : s.board.FrameGoesOn w.board) (hlen : s.board.panels.length = 8)
    (hsized : AllSized w.board.panels) : RowsMarked s (markChanged s w) := by
  intro i row p q hp hq h1 h2 hne
  obtain ⟨x, hx, hkept, hdirty⟩ := markChanged_panel hq
  rw [markChanged_composed, composed_of_panelKept w i hkept] at hne
  have hrows : q.rows = x.rows := (congrArg Panel.rows hkept : q.kept.rows = x.kept.rows)
  have hchanged : i ∈ panelIndices ∧ row ∈ changedRows s w i :=
    ⟨mem_panelIndices hlen hp, mem_changedRows.mpr ⟨p, x, hp, hx, h1, hrows ▸ h2, hne⟩⟩
  refine ⟨?dirty, fun f hf hi hrow => ?line⟩
  case dirty =>
    obtain ⟨-, hmarks, -⟩ := (((Keeps.refl w).markChanged s).allSized hsized).entry hq
    have hget : q.marks[row - 1]? = some (q.marks[row - 1]'(by omega)) := List.getElem?_eq_getElem _
    have hj := hdirty (row - 1)
    rw [hget, Nat.sub_add_cancel h1] at hj
    obtain ⟨y, -, hor⟩ := Option.map_eq_some_iff.mp hj.symm
    exact ⟨_, hget, hor.symm.trans (by rw [decide_eq_true hchanged, Bool.or_true])⟩
  case line =>
    obtain ⟨aborted, hline⟩ := hframe f hf
    subst hi hrow
    rw [markChanged_line, hline]
    simp only [decide_eq_true hchanged, Bool.or_true]

/-- The arbiter's choice leaves the marked rows so. -/
theorem RowsMarked.arbiterChoice {s u : State} (h : RowsMarked s u) : RowsMarked s (arbiterChoice u) := by
  intro i row p q hp hq h1 h2 hne
  obtain ⟨x, hx, hkept, hdirty⟩ := arbiterChoice_panel hq
  rw [arbiterChoice_composed, composed_of_panelKept u i hkept] at hne
  have hrows : q.rows = x.rows := (congrArg Panel.rows hkept : q.kept.rows = x.kept.rows)
  obtain ⟨⟨m, hm, hmd⟩, hline⟩ := h i row p x hp hx h1 (hrows ▸ h2) hne
  refine ⟨?_, fun f hf hi hrow => ?_⟩
  · have hj := congrArg (fun l => l[row - 1]?) hdirty
    simp only [List.getElem?_map, hm] at hj
    obtain ⟨n, hn, hnd⟩ := Option.map_eq_some_iff.mp hj
    exact ⟨n, hn, hnd.trans hmd⟩
  · have hsending := hline f hf hi hrow
    rw [arbiterChoice_of_busy (by rw [hsending]; simp), hsending]

section
variable {s w : State} (m : Bool)

/-- Behind the work of a block the rows whose text it changed are marked. -/
theorem RowsMarked.boardSync (hframe : s.board.FrameGoesOn w.board) (hlen : s.board.panels.length = 8)
    (hsized : AllSized w.board.panels) : RowsMarked s (Machine.boardSync m s w) := by
  rcases boardSync_cases m s w with hb | hb <;> rw [hb]
  · exact .markChanged hframe hlen hsized
  · exact (RowsMarked.markChanged hframe hlen hsized).arbiterChoice

/-- A work that leaves the page memories and all that a text reads changes no row. -/
theorem RowsMarked.of_pages (hp : SamePages s.board.panels w.board.panels)
    (hc : ∀ i p row, w.composed i p row = s.composed i p row) : RowsMarked s (Machine.boardSync m s w) := by
  intro i row p q hp' hq _ _ hne
  obtain ⟨x, hx, hkept, -⟩ := boardSync_panel hq
  obtain ⟨hpage, hcolumns⟩ := hp i p x hp' hx
  rw [boardSync_composed, composed_of_panelKept w i hkept, hc, composed_of_page s i hpage hcolumns] at hne
  exact (hne rfl).elim

end

/-! The events -/

theorem clearInFlight_pages (l : List (Option Panel)) (f : RowFrame) : SamePages l (clearInFlight l f) :=
  (SamePages.refl l).setEntry fun p q hp hq => by
    obtain ⟨x, hx, rfl⟩ := Option.map_eq_some_iff.mp hq
    obtain rfl : p = x := Option.some.inj (hp.symm.trans hx)
    exact ⟨rfl, rfl⟩

theorem rowFrameEndEvent_marked (s : State) : RowsMarked s (withBoard rowFrameEndEvent s) := by
  unfold withBoard rowFrameEndEvent
  split
  · split
    · exact .of_pages false (clearInFlight_pages _ _) (composed_setBoard s rfl rfl)
    · exact .of_pages false (SamePages.refl _) (composed_setBoard s rfl rfl)
  · exact .of_pages false (SamePages.refl _) fun _ _ _ => rfl
  · exact .of_pages false (SamePages.refl _) fun _ _ _ => rfl

theorem serve_frameGoesOn (s : State) (l : LinkId) (r : Request) : s.board.FrameGoesOn (serve s l r).state.board := by
  by_cases hi : r = .init
  · subst hi
    exact .of_line rfl
  · by_cases hst : r = .stat
    · subst hst
      exact .of_line (congrArg Board.line (SameTexts.setLink s l _).1)
    · exact (serve_keeps s l r hi hst).frame

section
variable {s : State} (hlen : s.board.panels.length = 8) (hsized : AllSized s.board.panels)
include hlen hsized

theorem RowsMarked.arrive (l : LinkId) (f : LinkFrame) (d : Judged) : RowsMarked s (s.arrive l f d) := by
  unfold State.arrive State.busyFrame
  split
  · split
    · exact (SameTexts.setLink s l _).marked
    · exact .refl s
  · split
    · refine RowsMarked.trans_same ?_ (SameTexts.setLink (answerTo s l d).state l _)
      rcases answerTo_state s l d with hs | ⟨r, m, hs⟩ <;> rw [hs]
      · exact .refl s
      · exact .boardSync m (serve_frameGoesOn s l r) hlen ((serve_keepsTables s l r).allSized hsized)
    all_goals exact (SameTexts.setLink s l _).marked

theorem RowsMarked.receiveByte (l : LinkId) (b : Byte) : RowsMarked s (receiveByte l s b) := by
  have hset := SameTexts.setLink s l { s.link l with receiver := ((s.link l).receiver.take s.clock b).1 }
  unfold Machine.receiveByte
  cases hx : ((s.link l).receiver.take s.clock b).2 with
  | none => simpa only [hx] using hset.marked
  | some f =>
    simp only [hx]
    exact hset.trans_marked (.arrive (by rw [hset.1]; exact hlen) (by rw [hset.1]; exact hsized) l f _)

theorem RowsMarked.unknownType (l : LinkId) (type tag : Byte) (body : List Byte) :
    RowsMarked s (unknownTypeEvent s l type tag body) := by
  unfold unknownTypeEvent
  split
  · exact .refl s
  · exact .arrive hlen hsized l _ _

end

theorem RowsMarked.linkGap (s : State) (l : LinkId) : RowsMarked s (linkGapEvent s l) := by
  unfold linkGapEvent
  split
  · exact .refl s
  · split
    · exact (SameTexts.setLink s l _).marked
    · exact .refl s

theorem RowsMarked.frameSent (s : State) (l : LinkId) : RowsMarked s (frameSentEvent s l) := by
  cases l with
  | console => exact (SameTexts.setLink s .console _).marked
  | control =>
    unfold frameSentEvent
    simp only
    split
    · exact ((SameTexts.setLink s .control _).marked).trans_same (.setInitPhase _ _)
    · split
      · exact .refl s
      · exact (SameTexts.setLink s .control _).marked

theorem RowsMarked.initReset (s : State) : RowsMarked s (initResetEvent s) := by
  unfold initResetEvent
  split
  · exact .of_no_panels fun i => entry_replicate_none 8 i
  · exact .refl s

/-- What a command does once taken marks the rows whose text it changes. -/
theorem EventKind.marked {f : State → State} (h : EventKind f) {s : State} (hlen : s.board.panels.length = 8)
    (hsized : AllSized s.board.panels) : RowsMarked s (f s) := by
  cases h with
  | block m h => exact .boardSync (m s) (h s).frame hlen ((h s).allSized hsized)
  | rowFrameEnd => exact rowFrameEndEvent_marked s
  | request l tag r => exact .arrive hlen hsized l _ _
  | unknownType l type tag body => exact .unknownType hlen hsized l type tag body
  | byte l b => exact .receiveByte hlen hsized l b
  | gap l => exact .linkGap s l
  | sent l => exact .frameSent s l
  | initReset => exact .initReset s

/-- Every command but FRAME_ARRIVAL marks the rows whose text it changes. -/
theorem exec_marked {c : Instr} (hframe : ∀ now l bytes, c ≠ .frameArrival now l bytes) {s t : State}
    (h : exec c s = .next t) (hlen : s.board.panels.length = 8) (hsized : AllSized s.board.panels) : RowsMarked s t := by
  by_cases hreset : (∃ lv, c = .powerOnReset lv) ∨ (∃ lv, c = .resetPin lv) ∨ c = .resetHold
  · refine .of_no_panels fun i => ?_
    rcases hreset with ⟨lv, rfl⟩ | ⟨lv, rfl⟩ | rfl <;> cases h <;> exact entry_replicate_none 8 i
  · push Not at hreset
    obtain ⟨now, f, hf, hexec⟩ := exec_kind c hreset.1 hreset.2.1 hreset.2.2 hframe
    rw [hexec, taken] at h
    split at h
    · cases h
      exact .refl s
    · cases h
      exact hf.marked (s := s.setClock now) hlen hsized

/-! The publications of one check -/

/-- A dirty row stays dirty, and a frame with its abort mark keeps it. -/
def MarksStay (s t : State) : Prop :=
  (∀ i p, entry s.board.panels i = some p → ∃ q, entry t.board.panels i = some q ∧
    ∀ (j : Nat) (m : RowMarks), p.marks[j]? = some m → m.dirty = true → ∃ n, q.marks[j]? = some n ∧ n.dirty = true) ∧
  ∀ f, s.board.line = .sending f → f.aborted = true → t.board.line = .sending f

theorem MarksStay.refl (s : State) : MarksStay s s :=
  ⟨fun _ p hp => ⟨p, hp, fun _ m hm hd => ⟨m, hm, hd⟩⟩, fun _ hf _ => hf⟩

theorem MarksStay.trans {s t u : State} (h : MarksStay s t) (g : MarksStay t u) : MarksStay s u := by
  refine ⟨fun i p hp => ?_, fun f hf ha => g.2 f (h.2 f hf ha) ha⟩
  obtain ⟨q, hq, hpq⟩ := h.1 i p hp
  obtain ⟨x, hx, hqx⟩ := g.1 i q hq
  refine ⟨x, hx, fun j m hm hd => ?_⟩
  obtain ⟨n, hn, hnd⟩ := hpq j m hm hd
  exact hqx j n hn hnd

theorem markChanged_marksStay {a w : State} (hw : w.board = a.board) : MarksStay a (markChanged a w) := by
  refine ⟨fun i p hp => ?_, fun f hf ha => ?_⟩
  · obtain ⟨-, -, -, hkept⟩ := markChanged_kept a w
    rw [← hw] at hp
    obtain ⟨q, hq, -⟩ := Option.map_eq_some_iff.mp ((hkept i).trans (by rw [hp]; rfl))
    obtain ⟨x, hx, -, hdirty⟩ := markChanged_panel hq
    obtain rfl : p = x := Option.some.inj (hp.symm.trans hx)
    refine ⟨q, hq, fun j m hm hd => ?_⟩
    have hj := hdirty j
    rw [hm] at hj
    obtain ⟨n, hn, hnd⟩ := Option.map_eq_some_iff.mp hj
    exact ⟨n, hn, hnd.trans (by simp only [hd, Bool.true_or])⟩
  · rw [markChanged_line, hw, hf]
    obtain ⟨panel, address, row, text, aborted⟩ := f
    obtain rfl : aborted = true := ha
    rfl

/-- The record published and its context freed, before its texts are compared (R21). -/
def State.published (s : State) (r : Record) : State :=
  (s.modifyRecord r.jump (fun x => { x with state := .published })).freeCtxOf r.jump

theorem State.published_board (s : State) (r : Record) : (s.published r).board = s.board := by
  rw [State.published, State.freeCtxOf_eq]
  rfl

theorem State.publish_texts (s : State) (r : Record) : SameTexts (markChanged s (s.published r)) (s.publish r) :=
  ⟨rfl, fun i p row => composed_congr rfl rfl rfl rfl rfl rfl rfl i p row⟩

theorem publish_marksStay (s : State) (r : Record) : MarksStay s (s.publish r) := by
  have h := markChanged_marksStay (s.published_board r)
  rwa [MarksStay, ← (s.publish_texts r).1] at h

theorem publishLoop_marksStay (n : Nat) (s : State) : MarksStay s (publishLoop n s) := by
  induction n generalizing s with
  | zero => exact .refl s
  | succ n ih =>
    unfold publishLoop
    split
    · exact (publish_marksStay s _).trans (ih _)
    · exact .refl s

theorem publish_marked {s : State} (r : Record) (hlen : s.board.panels.length = 8) (hsized : AllSized s.board.panels) :
    RowsMarked s (s.publish r) :=
  (RowsMarked.markChanged (.of_line (congrArg Board.line (s.published_board r))) hlen
    (by rw [s.published_board r]; exact hsized)).trans_same (s.publish_texts r)

/-- What is left of the check behind its first publication. -/
theorem publicationCheck_of_publishable {s : State} {r : Record} (hlen : s.round.table.length = 8)
    (hr : s.round.publishable = some r) : s.publicationCheck = publishLoop 7 (s.publish r) := by
  rw [State.publicationCheck, hlen, publishLoop]
  simp only [hr]

/-- Settles O54: every command, then the first publication of a check and those after it. -/
theorem changedTextMakesRowsDirty : Obligations.ChangedTextMakesRowsDirty := by
  refine ⟨?commands, ?publication⟩
  case commands =>
    intro c s t i row p q hframe h hsized htables hp hq h1 h2 hne
    obtain ⟨-, -, -, -, hlen, -⟩ := (tablesSized_iff s).mp htables
    exact exec_marked hframe h hlen hsized i row p q hp hq h1 h2 hne
  case publication =>
    rintro s u r i row p q hsized htables hr rfl hp hq h1 h2 hne
    obtain ⟨⟨htable, -⟩, -, -, -, hlen, -⟩ := (tablesSized_iff s).mp htables
    rw [publicationCheck_of_publishable htable hr]
    obtain ⟨hdirty, hline⟩ := publishLoop_marksStay 7 (s.publish r)
    have hrows : q.rows = p.rows := ?rows
    obtain ⟨⟨m, hm, hmd⟩, hsending⟩ := publish_marked r hlen hsized i row p q hp hq h1 (hrows ▸ h2) hne
    obtain ⟨x, hx, hxd⟩ := hdirty i q hq
    obtain ⟨n, hn, hnd⟩ := hxd (row - 1) m hm hmd
    exact ⟨⟨x, n, hx, hn, hnd⟩, fun f hf hi hrow => hline _ (hsending f hf hi hrow) rfl⟩
    case rows =>
      obtain ⟨y, hy, hkept, -⟩ := markChanged_panel (a := s) (b := s.published r) hq
      rw [s.published_board r] at hy
      obtain rfl : y = p := Option.some.inj (hy.symm.trans hp)
      exact (congrArg Panel.rows hkept : q.kept.rows = y.kept.rows)

end Sys2Proof.Machine
end
